-- ==== Sys2Proof/Word.lean ====
section
/-! DEFINITION. The register word, the binary64 pattern and the two halves of a 64-bit quantity
(10_state.md R42, 20_memory.md R66, 00_scope.md R10). -/

namespace Sys2Proof

/-- A register: 32 bits (00_scope.md R10). -/
abbrev Word := BitVec 32

/-- A binary64 value, held as its 64-bit pattern (00_scope.md R12, 30_encoding.md R84). -/
abbrev B64 := BitVec 64

/-- The `_LO` half of a 64-bit quantity: bits 31:0 (00_scope.md R10, 20_memory.md R66). -/
def lo32 (x : BitVec 64) : Word := x.extractLsb' 0 32

/-- The `_HI` half of a 64-bit quantity: bits 63:32 (00_scope.md R10, 20_memory.md R66). -/
def hi32 (x : BitVec 64) : Word := x.extractLsb' 32 32

end Sys2Proof
end

