-- ==== Sys2Proof/Config.lean ====
section
/-! DEFINITION. The implementation parameters of 00_scope.md R6 with their default values, and the free values:
constants with no body, of which nothing can be proved. -/

namespace Sys2Proof

/-- Which sine the curve unit uses (parameter SIN_FN, 00_scope.md R6, 40_delay_curve.md R108). SIN_FN is a function of
2^64 arguments, so any one is given as plain data: its values wherever it differs from the default. -/
inductive SinFn where
  /-- The default: the correctly rounded sine. -/
  | correctlyRounded
  /-- The function with the listed values (argument, value), the first of an argument counting; an argument not listed
  has the default's value, and +0 has +0, as 00_scope.md R6 asks. -/
  | table (entries : List (B64 × B64))
  deriving DecidableEq, Repr

/-- What the WAVE_FAULT oracle answers once the answers given in advance are used up (parameter WAVE_FAULT,
00_scope.md R6, 42_pulse_delay_sequencer.md R163). -/
inductive WaveFault where
  /-- The default, the reference run: no submission fails. -/
  | never
  /-- Any answer: the free value `Config.waveFault`. -/
  | anyAnswer
  deriving DecidableEq, Repr

/-- The parameters of 00_scope.md R6. NUM_CHANNELS is not among them: it is the number of channels the state
holds. They stand in the state, where no step changes them, so that a statement about every state holds for every
parameter value. DESIGN CHOICE, safe: log entry 3. -/
structure Params where
  /-- TICK_HZ, ticks per second. -/
  tickHz : Word
  /-- MIN_DELAY, the floor of every delay, in seconds (binary64). -/
  minDelay : B64
  /-- CHUNK_SIZE, delays per chunk. -/
  chunkSize : BitVec 16
  /-- RAMP_BASE, the base of the automatic ramp length (binary64). -/
  rampBase : B64
  /-- SIN_FN. -/
  sinFn : SinFn
  /-- DIR_SETUP_TICKS. -/
  dirSetupTicks : Word
  /-- WAVE_FAULT. -/
  waveFault : WaveFault
  /-- LINK_CHANNEL, the channel of the textual line protocol. -/
  linkChannel : BitVec 4
  deriving DecidableEq, Repr

namespace Config

/-- The reference configuration (the default column of 00_scope.md R6). -/
def reference : Params where
  tickHz := 1000000#32
  minDelay := 0x3EE4F8B588E368F1#64
  chunkSize := 1000#16
  rampBase := 0x4069000000000000#64
  sinFn := .correctlyRounded
  dirSetupTicks := 0#32
  waveFault := .never
  linkChannel := 0#4

/-- NUM_CHANNELS of the reference configuration (00_scope.md R6). -/
def numChannels : Nat := 2

/-- FREE VALUE. How many turns the agent numbered `i` can wait that was last renewed before turn `n` (00_scope.md R7: any
enabled agent may take the next step, and one that stays enabled eventually does). DESIGN CHOICE, safe: log entry 2. -/
opaque patience (n i : Nat) : Nat

/-- FREE VALUE. Whether the front end, at draw `n`, takes up its next line before it looks again at the move it awaits.
DESIGN CHOICE, safe: log entry 15. -/
opaque takesLine (n : Nat) : Bool

/-- FREE VALUE. The default sine of an argument that has none, an infinity or a NaN, and of one from 2 up whose rounding the
computation does not decide; the block presents no such argument (40_delay_curve.md R106). DESIGN CHOICE, safe: log
entry 4. -/
opaque sine (y : B64) : B64

/-- FREE VALUE. Whether the default sine of an argument from 2^-27 up to 2 whose two series bounds round to neighbours is the
upper of the two. DESIGN CHOICE, safe: log entry 4. -/
opaque sineRoundsUp (y : B64) : Bool

/-- FREE VALUE. The answer of WAVE_FAULT at draw `n`: `true` rejects the submission
(42_pulse_delay_sequencer.md R163). DESIGN CHOICE, safe: log entry 5. -/
opaque waveFault (n : Nat) : Bool

end Config

end Sys2Proof
end

