-- ==== Sys2Proof/Syntax.lean ====
section
/-! DEFINITION. The command set of STE-CMD version 1 (30_encoding.md R81, R82): one constructor of `Instr`
per row of the opcode table. -/

namespace Sys2Proof

/-- The PROFILE field of MOVE (30_encoding.md R83). Value 3 is illegal, so it is no constructor. -/
inductive Profile where
  | full
  | rampUpOnly
  | rampDownOnly
  deriving DecidableEq, Repr

/-- The CURVE field of MOVE (30_encoding.md R85). -/
inductive Curve where
  | sine
  | linear
  deriving DecidableEq, Repr

/-- The EMIT field of SETEMIT (30_encoding.md R85, 10_state.md R31). -/
inductive EmitMode where
  | direct
  | chunked
  deriving DecidableEq, Repr

/-- The eight commands (30_encoding.md R82). `ch` is the CH field, bits 11:8. The register operands of a
command are read from ARG0 to ARG6 when it executes (30_encoding.md R84), so they are no arguments here. -/
inductive Instr where
  | ppr (ch : BitVec 4)
  | setemit (ch : BitVec 4) (emit : EmitMode)
  | move (ch : BitVec 4) (dir : Bool) (profile : Profile) (curve : Curve) (rampGiven : Bool)
  | stop
  | reset
  | clrstat (ch : BitVec 4)
  | snap (ch : BitVec 4)
  | setlabel (ch : BitVec 4)
  deriving DecidableEq, Repr

end Sys2Proof
end

