-- ==== Sys2Proof/Machine/State.lean ====
section
/-! DEFINITION. The state of the block (10_state.md, 00_scope.md R7 and R9) as plain data, and the state after reset
(70_reset_and_hazards.md R271). Lists of observations hold the newest first. -/

namespace Sys2Proof.Machine

/-- The result of a move (10_state.md R33). -/
inductive Result where
  | none
  | complete
  | cancelled
  | hwFault
  deriving DecidableEq, Repr

/-- Where a channel's sequencer stands: the label of its next step (42_pulse_delay_sequencer.md R155, R161), with the
locals the pseudocode carries over the label; `idle` when it has no move. DESIGN CHOICE, safe:
log entry 23. -/
inductive SeqPos where
  | idle
  | s0
  | s1
  | s2
  /-- `[S3]`, with the tick count `k` of the pulse. -/
  | s3 (k : Word)
  /-- `[S4]`, with the tick count `k` of the pulse. -/
  | s4 (k : Word)
  | c0
  | c1
  | c2
  /-- `[C3]`, with `ndrop` and `e` of the chunk in flight (`nvalid` is `Channel.chunkValid`). -/
  | c3 (ndrop e : Nat)
  deriving DecidableEq, Repr

/-- The output events of one channel's pins (00_scope.md R9). DESIGN CHOICE, log entry 11. -/
inductive PinEvent where
  | dirSet (level : Bool)
  | pulse (highTicks lowTicks : Word)
  deriving DecidableEq, Repr

/-- An IrqLevel event (00_scope.md R9, 60_exceptions.md R251) and its place among the pin events: how many of them each channel,
in the order of the channels, had recorded before it. -/
structure IrqEvent where
  level : Bool
  recorded : List Nat
  deriving DecidableEq, Repr

/-- What stands in the sequence of output events of a channel (00_scope.md R9). -/
inductive OutputEvent where
  | pin (e : PinEvent)
  | irqLevel (level : Bool)
  deriving DecidableEq, Repr

/-- One channel (10_state.md R31 to R36, R39, R41). -/
structure Channel where
  /-- Pulses per revolution, 0 when not configured (R31). -/
  ppr : Word
  /-- Emission mode (R31). -/
  emit : EmitMode
  /-- IDLE or MOVING (R32). -/
  moving : Bool
  /-- The waveform engine plays a chunk (R32). -/
  waveBusy : Bool
  /-- Total steps of the current or last move (R33). -/
  total : Word
  /-- Resolved ramp steps (R33). -/
  ramp : Word
  /-- Constant-phase length (R33). -/
  cruise : Word
  /-- Step pulses emitted so far (R33). -/
  steps : Word
  /-- Sequence index (R33, R35). -/
  idx : Word
  /-- Delays dropped as invalid (R33). -/
  dropped : Word
  /-- Result of the last move (R33). -/
  result : Result
  /-- Profile of the current or last move (R33). -/
  profile : Profile
  /-- Curve of the current or last move (R33). -/
  curve : Curve
  /-- Latched `start_rpm`, hidden (R34). -/
  mvStart : B64
  /-- Latched `target_rpm`, hidden (R34). -/
  mvTarget : B64
  /-- Latched `run_time_seconds`, hidden (R34). -/
  mvRuntime : B64
  /-- `start_delay`, hidden (R34). -/
  sd : B64
  /-- `target_delay`, hidden (R34). -/
  td : B64
  /-- Latched direction, hidden (R34). -/
  mvDir : Bool
  /-- Statistics (R36). -/
  totalPulses : BitVec 64
  totalRevolutions : B64
  totalRunTime : B64
  running : Bool
  startValid : Bool
  runStart : BitVec 64
  label : Word
  /-- The STEP pin (R39). -/
  stepPin : Bool
  /-- The DIR pin (R39). -/
  dirPin : Bool
  /-- The chunk buffer, entries (level, ticks), hidden (R41). -/
  buffer : List (Bool × Word)
  /-- Valid delays of the chunk in flight, hidden (R41). -/
  chunkValid : Nat
  /-- The waveform engine's play position, hidden (R41). -/
  playPos : Option Nat
  /-- The sequencer's next label (42_pulse_delay_sequencer.md R155, R161). -/
  seq : SeqPos
  /-- The events of the pins, newest first (00_scope.md R9). -/
  events : List PinEvent
  deriving DecidableEq, Repr

/-- The snapshot registers SNAP_* (10_state.md R29). -/
structure Snapshot where
  ctrl : Word
  flags : Word
  pulses : BitVec 64
  revs : B64
  runtime : B64
  start : BitVec 64
  label : Word
  steps : Word
  deriving DecidableEq, Repr

/-- One access of the host, or one of its two waits (30_encoding.md R91, 70_reset_and_hazards.md R275). `off` is the byte offset in
the register window (20_memory.md R62) and `width` the access width in bytes. -/
inductive HostOp where
  | write (off width : Nat) (v : Word)
  | read (off width : Nat)
  | waitDone (c : Nat)
  /-- The wait for `IRQ`, the other way to wait for a move. DEDUCED, safe: log entry 29. -/
  | waitIrq
  deriving DecidableEq, Repr

/-- The agents that take steps (00_scope.md R7). `link` is the host's front end of the text line protocol
(30_encoding.md section 6). -/
inductive Agent where
  | host
  | link
  | sequencer (c : Nat)
  | engine (c : Nat)
  | timeBase
  deriving DecidableEq, Repr

/-- The operand list of one `MOVE:` line (30_encoding.md R93, R94). -/
structure MoveLine where
  startRpm : B64
  targetRpm : B64
  runTime : B64
  dir : Bool
  rampSteps : Option Word
  deriving DecidableEq, Repr

/-- A command a line maps onto, on channel LINK_CHANNEL, with profile FULL and curve sine (30_encoding.md R93). -/
inductive LinkCmd where
  | ppr (n : Word)
  | reset
  | stop
  | move (m : MoveLine)
  deriving DecidableEq, Repr

/-- What the front end does once a command is issued (30_encoding.md R93 to R95). -/
inductive Follow where
  /-- Nothing: no `DONE` follows the command. -/
  | nothing
  /-- The command was the first move of a line, and `rest` are the moves after it. -/
  | first (rest : List MoveLine)
  /-- The command was a later move of a batch, and `rest` are the moves after it. -/
  | next (rest : List MoveLine)
  deriving DecidableEq, Repr

/-- Which access the front end makes next (30_encoding.md R93 to R95). -/
inductive LinkPhase where
  /-- None of a command: it takes up a line, or looks whether the move it awaits has ended. -/
  | ready
  /-- The register write numbered `k` of the expansion of `cmd`. -/
  | writing (cmd : LinkCmd) (k : Nat) (follow : Follow)
  /-- The read of CMD_STATUS after a move's CMD write. -/
  | checking (follow : Follow)
  /-- The read of the result of the batch's last move; `m` is its next one and `rest` are those after it. -/
  | judging (m : MoveLine) (rest : List MoveLine)
  deriving DecidableEq, Repr

/-- The front end: lines received and not yet taken up, the access it makes next, the moves still to issue of the line
whose move is running (`none` when no accepted move is awaited), and the lines it has sent, newest first (30_encoding.md
R93 to R95). DESIGN CHOICE, log entry 15. -/
structure Link where
  inbox : List (List Char)
  phase : LinkPhase
  job : Option (List MoveLine)
  sent : List (List Char)
  deriving DecidableEq, Repr

/-- The block with its parameters and what stands outside it: the host's accesses still to come, the front end, whose
turn comes next, and the answers of the oracle. -/
structure State where
  /-- The parameters (00_scope.md R6, read through the constant registers of 10_state.md R30); changed by no step. -/
  params : Params
  /-- RUN (R22). -/
  run : Bool
  /-- ARG0 to ARG7 (R23). -/
  args : Vector Word 8
  /-- CMD_STATUS (R24). -/
  cmdStatus : Word
  /-- IRQ_STATUS, one DONE bit per channel (R25). -/
  irqStatus : BitVec 16
  /-- IRQ_ENABLE (R25). -/
  irqEnable : BitVec 16
  /-- TIME (R27). -/
  time : BitVec 64
  /-- The hidden latch of TIME_HI (R28). -/
  timeHiLatch : Word
  /-- SNAP_* (R29). -/
  snap : Snapshot
  /-- The channels; their number is NUM_CHANNELS (00_scope.md R6). -/
  chans : List Channel
  /-- The model's own: the host's accesses still to come, the next first. DESIGN CHOICE, safe: log entry 1. -/
  host : List HostOp
  /-- The model's own: the front end of the line protocol. DESIGN CHOICE, log entry 15. -/
  link : Link
  /-- The model's own: the agents whose turns come next; when empty, the next turn is a free choice.
  DESIGN CHOICE, safe: log entry 2. -/
  sched : List Agent
  /-- The model's own: the number of free turns taken. DESIGN CHOICE, safe: log entry 2. -/
  turn : Nat
  /-- The model's own: for every agent, in the order of `Machine.agents`, the turn before which it was last renewed, 0 where
  none is listed. DESIGN CHOICE, safe: log entry 2. -/
  renewed : List Nat
  /-- The model's own: answers of WAVE_FAULT given in advance, the next first; `true` rejects. DESIGN CHOICE,
  safe: log entry 5. -/
  waveAnswers : List Bool
  /-- The model's own: the number of free answers drawn so far. DESIGN CHOICE, safe: log entries 5 and 15. -/
  draws : Nat
  /-- Observed: the IrqLevel events, newest first (00_scope.md R9, 60_exceptions.md R251). R9 lists IrqLevel in the sequence of
  each channel but gives it no channel: it is kept once, with its place in every channel's sequence, and `outputEvents`
  puts it there. DESIGN CHOICE, log entry 11. -/
  irqEvents : List IrqEvent
  /-- Observed: offset and value of every register read (00_scope.md R9). -/
  reads : List (Nat × Word)
  /-- Observed: CMD_STATUS of every command (00_scope.md R9). -/
  statuses : List Word
  deriving DecidableEq, Repr

/-- Why the machine stops. -/
inductive Fault where
  /-- Raised by a host access that gets a bus error (20_memory.md R63 to R65, 60_exceptions.md R247): `isWrite` tells a
  write from a read, `off` and `width` are the access's offset and width in bytes. Safe: the block's state is unchanged
  by such an access, and stopping proves nothing about what follows. -/
  | busError (isWrite : Bool) (off width : Nat)
  deriving DecidableEq, Repr

/-- Why an instruction has no meaning. -/
inductive Refusal where
  /-- Raised by an arm of `exec` whose instruction is not modelled; no arm is. Safe. -/
  | notModelled (mnemonic : String)
  deriving DecidableEq, Repr

/-- What a step or a command answers. -/
abbrev Out := Host.Outcome State Fault Refusal

/-- A channel after reset (70_reset_and_hazards.md R271). -/
def Channel.reset : Channel where
  ppr := 0#32
  emit := .direct
  moving := false
  waveBusy := false
  total := 0#32
  ramp := 0#32
  cruise := 0#32
  steps := 0#32
  idx := 0#32
  dropped := 0#32
  result := .none
  profile := .full
  curve := .sine
  mvStart := 0#64
  mvTarget := 0#64
  mvRuntime := 0#64
  sd := 0#64
  td := 0#64
  mvDir := false
  totalPulses := 0#64
  totalRevolutions := 0#64
  totalRunTime := 0#64
  running := false
  startValid := false
  runStart := 0#64
  label := 0#32
  stepPin := false
  dirPin := false
  buffer := []
  chunkValid := 0
  playPos := none
  seq := .idle
  events := []

/-- The snapshot registers after reset and after the RESET command (70_reset_and_hazards.md R271,
44_control_commands.md R212). -/
def Snapshot.cleared : Snapshot where
  ctrl := 0#32
  flags := 0#32
  pulses := 0#64
  revs := 0#64
  runtime := 0#64
  start := 0#64
  label := 0#32
  steps := 0#32

/-- The block after reset with `n` channels and parameters `p` (70_reset_and_hazards.md R271): nothing is placed on the
bus, no line is received and no turn is fixed. The values of the model's own fields are a DESIGN CHOICE, log entry 25. -/
def State.resetWith (n : Nat) (p : Params) : State where
  params := p
  run := true
  args := Vector.replicate 8 0#32
  cmdStatus := 0#32
  irqStatus := 0#16
  irqEnable := 0#16
  time := 0#64
  timeHiLatch := 0#32
  snap := Snapshot.cleared
  chans := List.replicate n Channel.reset
  host := []
  link := { inbox := [], phase := .ready, job := none, sent := [] }
  sched := []
  turn := 0
  renewed := []
  waveAnswers := []
  draws := 0
  irqEvents := []
  reads := []
  statuses := []

/-- The block after reset in the reference configuration (00_scope.md R6, 70_reset_and_hazards.md R271). -/
def State.reset : State := State.resetWith Config.numChannels Config.reference

end Sys2Proof.Machine
end

