-- ==== Sys2Proof/Machine/Operands.lean ====
section
/-! DEFINITION. Operand assembly (30_encoding.md R84): the argument registers as u32 and binary64 operands. ARG7 is read
by no command. -/

namespace Sys2Proof.Machine

/-- The u32 operand of PPR and SETLABEL: ARG0. -/
def argWord (s : State) : Word := s.args[0]

/-- `start_rpm`: `{ARG1, ARG0}`. -/
def startRpmArg (s : State) : B64 := s.args[1] ++ s.args[0]

/-- `target_rpm`: `{ARG3, ARG2}`. -/
def targetRpmArg (s : State) : B64 := s.args[3] ++ s.args[2]

/-- `run_time_seconds`: `{ARG5, ARG4}`. -/
def runTimeArg (s : State) : B64 := s.args[5] ++ s.args[4]

/-- `ramp_steps`: ARG6, read only when RAMP_GIVEN = 1. -/
def rampStepsArg (rampGiven : Bool) (s : State) : Option Word := if rampGiven then some s.args[6] else none

end Sys2Proof.Machine
end

