-- ==== Sys2Proof/WellFormed.lean ====
section
/-! DEFINITION. Well-formed commands: what `decode` (30_encoding.md R86) lets through of the syntax. -/

namespace Sys2Proof

/-- The CH field of a command that uses one (30_encoding.md R81). -/
def Instr.channel? : Instr → Option (BitVec 4)
  | .ppr ch => some ch
  | .setemit ch _ => some ch
  | .move ch _ _ _ _ => some ch
  | .stop => none
  | .reset => none
  | .clrstat ch => some ch
  | .snap ch => some ch
  | .setlabel ch => some ch

/-- A command is well formed on a block of `n` channels when the channel it names exists (30_encoding.md R86, third
check). The other checks of R86 concern words that are no term of `Instr`: an unknown opcode, a bit outside the
used mask, PROFILE = 3. -/
def Instr.wf (n : Nat) (i : Instr) : Bool :=
  match i.channel? with
  | some ch => decide (ch.toNat < n)
  | none => true

end Sys2Proof
end

