-- ==== Sys2Proof/Decode.lean ====
section
/-! DEFINITION. The command word (30_encoding.md R81 to R90): the decoder, total on every word, which rejects by
name, and the encoder, written from the same field table. -/

namespace Sys2Proof

/-- Why a word is no command: the four checks of 30_encoding.md R86. -/
inductive Illegal where
  /-- Detail 1: OPCODE not in 0x01 to 0x08. -/
  | unknownOpcode
  /-- Detail 2: a bit set outside the opcode's used mask. -/
  | unusedBitSet
  /-- Detail 3: CH field not below NUM_CHANNELS. -/
  | noSuchChannel
  /-- Detail 4: MOVE with PROFILE = 3. -/
  | reservedProfile
  deriving DecidableEq, Repr

/-- The DETAIL code of an ILLEGAL word (30_encoding.md R86, 60_exceptions.md R241). -/
def Illegal.detail : Illegal → BitVec 4
  | .unknownOpcode => 1#4
  | .unusedBitSet => 2#4
  | .noSuchChannel => 3#4
  | .reservedProfile => 4#4

/-- Bits 7:0, OPCODE (30_encoding.md R81). -/
def opcodeField (w : Word) : BitVec 8 := w.extractLsb' 0 8

/-- Bits 11:8, CH. -/
def chField (w : Word) : BitVec 4 := w.extractLsb' 8 4

/-- Bit 12, DIR. -/
def dirField (w : Word) : Bool := w.getLsbD 12

/-- Bits 14:13, PROFILE. -/
def profileField (w : Word) : BitVec 2 := w.extractLsb' 13 2

/-- Bit 15, CURVE. -/
def curveField (w : Word) : Bool := w.getLsbD 15

/-- Bit 16, RAMP_GIVEN. -/
def rampGivenField (w : Word) : Bool := w.getLsbD 16

/-- Bit 17, EMIT. -/
def emitField (w : Word) : Bool := w.getLsbD 17

/-- The PROFILE codes (30_encoding.md R83). -/
def Profile.code : Profile → BitVec 2
  | .full => 0#2
  | .rampUpOnly => 1#2
  | .rampDownOnly => 2#2

/-- The profile of a PROFILE code; 3 is none (30_encoding.md R83). -/
def Profile.ofCode (b : BitVec 2) : Option Profile :=
  if b = 0#2 then some .full
  else if b = 1#2 then some .rampUpOnly
  else if b = 2#2 then some .rampDownOnly
  else none

/-- The CURVE bit (30_encoding.md R85). -/
def Curve.code : Curve → Bool
  | .sine => false
  | .linear => true

/-- The curve of a CURVE bit. -/
def Curve.ofCode (b : Bool) : Curve := if b then .linear else .sine

/-- The EMIT bit (30_encoding.md R85). -/
def EmitMode.code : EmitMode → Bool
  | .direct => false
  | .chunked => true

/-- The emission mode of an EMIT bit. -/
def EmitMode.ofCode (b : Bool) : EmitMode := if b then .chunked else .direct

/-- `used_mask` of an opcode: the bits its command may set; `none` for an unknown opcode (30_encoding.md R86). -/
def usedMask (op : BitVec 8) : Option Word :=
  match op.toNat with
  | 0x01 => some 0x00000FFF#32
  | 0x02 => some 0x00020FFF#32
  | 0x03 => some 0x0001FFFF#32
  | 0x04 => some 0x000000FF#32
  | 0x05 => some 0x000000FF#32
  | 0x06 => some 0x00000FFF#32
  | 0x07 => some 0x00000FFF#32
  | 0x08 => some 0x00000FFF#32
  | _ => none

/-- The opcodes whose command uses the CH field (30_encoding.md R81). -/
def usesChannel (op : BitVec 8) : Bool :=
  match op.toNat with
  | 0x01 => true
  | 0x02 => true
  | 0x03 => true
  | 0x06 => true
  | 0x07 => true
  | 0x08 => true
  | _ => false

/-- The command of a word that passed the first three checks (30_encoding.md R82); the fourth check, PROFILE = 3, is
made where the PROFILE field is read. -/
def commandOf (w : Word) : Except Illegal Instr :=
  match (opcodeField w).toNat with
  | 0x01 => .ok (.ppr (chField w))
  | 0x02 => .ok (.setemit (chField w) (EmitMode.ofCode (emitField w)))
  | 0x03 =>
    match Profile.ofCode (profileField w) with
    | some p => .ok (.move (chField w) (dirField w) p (Curve.ofCode (curveField w)) (rampGivenField w))
    | none => .error .reservedProfile
  | 0x04 => .ok .stop
  | 0x05 => .ok .reset
  | 0x06 => .ok (.clrstat (chField w))
  | 0x07 => .ok (.snap (chField w))
  | 0x08 => .ok (.setlabel (chField w))
  | _ => .error .unknownOpcode

/-- `decode(w)` on a block of `n` channels: the checks of 30_encoding.md R86 in their order. -/
def decode (n : Nat) (w : Word) : Except Illegal Instr :=
  match usedMask (opcodeField w) with
  | none => .error .unknownOpcode
  | some m =>
    if w &&& ~~~m ≠ 0#32 then .error .unusedBitSet
    else if usesChannel (opcodeField w) = true ∧ n ≤ (chField w).toNat then .error .noSuchChannel
    else commandOf w

/-- The opcode of a command (30_encoding.md R82). -/
def Instr.opcode : Instr → BitVec 8
  | .ppr _ => 0x01#8
  | .setemit _ _ => 0x02#8
  | .move _ _ _ _ _ => 0x03#8
  | .stop => 0x04#8
  | .reset => 0x05#8
  | .clrstat _ => 0x06#8
  | .snap _ => 0x07#8
  | .setlabel _ => 0x08#8

/-- The command word, fields from bit 31 down to bit 0 (30_encoding.md R81): reserved, EMIT, RAMP_GIVEN, CURVE,
PROFILE, DIR, CH, OPCODE. -/
def commandWord (emit rampGiven curve : Bool) (profile : BitVec 2) (dir : Bool) (ch : BitVec 4) (op : BitVec 8) : Word :=
  0#14 ++ BitVec.ofBool emit ++ BitVec.ofBool rampGiven ++ BitVec.ofBool curve ++ profile ++ BitVec.ofBool dir ++ ch ++ op

/-- The word of a command: fields it does not use are 0 (30_encoding.md R87). -/
def encode (i : Instr) : Word :=
  match i with
  | .ppr ch => commandWord false false false 0#2 false ch i.opcode
  | .setemit ch emit => commandWord emit.code false false 0#2 false ch i.opcode
  | .move ch dir profile curve rampGiven => commandWord false rampGiven curve.code profile.code dir ch i.opcode
  | .stop => commandWord false false false 0#2 false 0#4 i.opcode
  | .reset => commandWord false false false 0#2 false 0#4 i.opcode
  | .clrstat ch => commandWord false false false 0#2 false ch i.opcode
  | .snap ch => commandWord false false false 0#2 false ch i.opcode
  | .setlabel ch => commandWord false false false 0#2 false ch i.opcode

/-- The decoder on a word as spec/opcode_table.json numbers its bits, on the reference configuration: a command is
one 32-bit word (30_encoding.md R90). Bits at `nbits` and above are 0. -/
def decodeTableWord (nbits w : Nat) : Option Instr :=
  match decode Config.numChannels (BitVec.ofNat 32 (w % 2 ^ nbits)) with
  | .ok i => some i
  | .error _ => none

end Sys2Proof
end

