-- ==== Sys2Proof/Machine/Binary64.lean ====
section
/-! DEFINITION. IEEE 754 binary64 arithmetic with round to nearest, ties to even (00_scope.md R12), on bit patterns and
computed exactly. Every finite binary64 value is an integer number of UNITS of 2^-1074, the smallest subnormal, so each
operation is: take the operands' exact units, compute the exact rational result, round once. -/

namespace Sys2Proof.Machine.Binary64

/-- The biased exponent field, bits 62:52. -/
def expField (x : B64) : Nat := x.toNat / 2 ^ 52 % 2 ^ 11

/-- The fraction field, bits 51:0. -/
def fracField (x : B64) : Nat := x.toNat % 2 ^ 52

/-- The sign bit, bit 63. -/
def signBit (x : B64) : Bool := x.msb

/-- A NaN: exponent all ones, fraction not 0. -/
def isNaN (x : B64) : Bool := expField x == 2047 && fracField x != 0

/-- An infinity: exponent all ones, fraction 0. -/
def isInf (x : B64) : Bool := expField x == 2047 && fracField x == 0

/-- `finite(x)` of 00_scope.md R12. -/
def finite (x : B64) : Bool := expField x != 2047

/-- The significand with its leading bit. -/
def significand (x : B64) : Nat := if expField x = 0 then fracField x else 2 ^ 52 + fracField x

/-- The power of two of the significand, counted from 2^-1074. -/
def unitExp (x : B64) : Nat := expField x - 1

/-- The magnitude of `x` in units of 2^-1074. Of an infinity it is 2^2098, above every finite magnitude. -/
def units (x : B64) : Nat := significand x * 2 ^ unitExp x

/-- The signed value of `x` in units of 2^-1074. -/
def signedUnits (x : B64) : Int := if signBit x then -(units x : Int) else (units x : Int)

/-- +0.0 or -0.0. -/
def isZero (x : B64) : Bool := units x == 0

/-- How many units make 1. -/
@[irreducible] def unitsPerOne : Nat := 2 ^ 1074

/-- The integer nearest to `num / den`, ties to even. -/
def nearestEven (num den : Nat) : Nat :=
  if 2 * (num % den) < den then num / den
  else if den < 2 * (num % den) then num / den + 1
  else if num / den % 2 = 0 then num / den
  else num / den + 1

/-- The exponent and fraction bits of +infinity. -/
def infBits : Nat := 2047 * 2 ^ 52

/-- `RN` of the non-negative rational `num / den` units: the exponent and fraction bits of the nearest binary64, ties to
even; at or above the overflow threshold the bits of infinity. The spacing of the result is `2 ^ e` units. -/
def roundUnits (num den : Nat) : Nat :=
  let e := Nat.log2 (num / den) - 52
  min (e * 2 ^ 52 + nearestEven num (den * 2 ^ e)) infBits

/-- A sign and magnitude bits as one pattern. -/
def withSign (neg : Bool) (bits : Nat) : B64 := BitVec.ofNat 64 (if neg then 2 ^ 63 + bits else bits)

/-- The one NaN the operations produce; no NaN payload arises in the block (93_implementation_defined.md I27).
PRESUMED (IEEE 754), unsafe in states no run reaches: log entry 8. -/
def quietNaN : B64 := 0x7FF8000000000000#64

/-- `f64(n)` of 00_scope.md R12. -/
def ofNat (n : Nat) : B64 := withSign false (roundUnits (n * unitsPerOne) 1)

/-- `-x`. -/
def neg (x : B64) : B64 := x ^^^ 0x8000000000000000#64

/-- `|x|`, exact. -/
def abs (x : B64) : B64 := x &&& 0x7FFFFFFFFFFFFFFF#64

/-- `RN(x + y)`. -/
def add (x y : B64) : B64 :=
  if isNaN x || isNaN y then quietNaN
  else if isInf x then (if isInf y && (signBit x != signBit y) then quietNaN else x)
  else if isInf y then y
  else if signedUnits x + signedUnits y = 0 then withSign (signBit x && signBit y) 0
  else withSign (decide (signedUnits x + signedUnits y < 0)) (roundUnits (signedUnits x + signedUnits y).natAbs 1)

/-- `RN(x - y)`. -/
def sub (x y : B64) : B64 := if isNaN y then quietNaN else add x (neg y)

/-- `RN(x * y)`. -/
def mul (x y : B64) : B64 :=
  if isNaN x || isNaN y then quietNaN
  else if isInf x || isInf y then
    (if isZero x || isZero y then quietNaN else withSign (signBit x != signBit y) infBits)
  else withSign (signBit x != signBit y) (roundUnits (units x * units y) unitsPerOne)

/-- `RN(x / y)`. -/
def div (x y : B64) : B64 :=
  if isNaN x || isNaN y then quietNaN
  else if isInf x then (if isInf y then quietNaN else withSign (signBit x != signBit y) infBits)
  else if isInf y then withSign (signBit x != signBit y) 0
  else if isZero y then (if isZero x then quietNaN else withSign (signBit x != signBit y) infBits)
  else withSign (signBit x != signBit y) (roundUnits (units x * unitsPerOne) (units y))

/-- `x < y`: false when either is a NaN (00_scope.md R12). -/
def lt (x y : B64) : Bool := !isNaN x && !isNaN y && decide (signedUnits x < signedUnits y)

/-- `x <= y`: false when either is a NaN. -/
def le (x y : B64) : Bool := !isNaN x && !isNaN y && decide (signedUnits x ≤ signedUnits y)

/-- `x = y` as values: -0.0 equals +0.0, a NaN equals nothing. -/
def eq (x y : B64) : Bool := !isNaN x && !isNaN y && decide (signedUnits x = signedUnits y)

/-- `floor(x)` of 00_scope.md R11, for a finite `x`. -/
def floor (x : B64) : Int := signedUnits x / (unitsPerOne : Int)

/-- The binary64 nearest to `± m * 10 ^ x10`, ties to even, of a decimal literal whose significand `m` was written with
`len` digits (30_encoding.md R91, R93). Outside 10^-400 .. 10^400 the result is 0 or infinity whatever the digits. Where the
result is a zero, of a literal such as `-0` or one that rounds to 0, both zeros are nearest: it has the literal's sign.
DESIGN CHOICE, unsafe: log entry 30. -/
def ofDecimal (negative : Bool) (m len : Nat) (x10 : Int) : B64 :=
  if m = 0 then withSign negative 0
  else if 400 < x10 then withSign negative infBits
  else if x10 + (len : Int) < -400 then withSign negative 0
  else if 0 ≤ x10 then withSign negative (roundUnits (m * 10 ^ x10.toNat * unitsPerOne) 1)
  else withSign negative (roundUnits (m * unitsPerOne) (10 ^ (-x10).toNat))

/-- `PI64`, the binary64 nearest to pi (00_scope.md R12). -/
def pi64 : B64 := 0x400921FB54442D18#64

/-- 1.0. -/
def one : B64 := 0x3FF0000000000000#64

/-- 2.0. -/
def two : B64 := 0x4000000000000000#64

end Sys2Proof.Machine.Binary64
end

