-- ==== Sys2Proof/Machine/Curve.lean ====
section
/-! DEFINITION. The delay curve unit (40_delay_curve.md): SIN_FN and the two easing laws. -/

namespace Sys2Proof.Machine

open Binary64

/-- Partial sums of the sine series in nested form, as an exact fraction: with `z = yy / qq`, the value of
`1 - z/(2j(2j+1)) * (1 - z/((2j+2)(2j+3)) * ...)` with `k` factors. -/
def sineNest (yy qq : Nat) : Nat → Nat → Nat × Nat
  | 0, _ => (1, 1)
  | k + 1, j =>
    let h := sineNest yy qq k (j + 1)
    let w := qq * (2 * j) * (2 * j + 1) * h.2
    (w - yy * h.1, w)

/-- The exponent and fraction bits of the binary64 nearest to the sine series of `y` cut after `k + 1` terms, for `y` from
2^-27 up to 2. The series alternates with falling terms there, so an even `k` gives an upper and an odd `k` a lower
bound of the sine. -/
def sineBits (y : B64) (k : Nat) : Nat :=
  let q := 2 ^ (1074 - unitExp y)
  let h := sineNest (significand y * significand y) (q * q) k 1
  roundUnits (significand y * h.1 * unitsPerOne) (q * h.2)

/-- Partial sums of the cosine series in nested form, as `sineNest`: `1 - z/((2j-1)2j) * (1 - z/((2j+1)(2j+2)) * ...)`. -/
def cosineNest (yy qq : Nat) : Nat → Nat → Nat × Nat
  | 0, _ => (1, 1)
  | k + 1, j =>
    let h := cosineNest yy qq k (j + 1)
    let w := qq * (2 * j - 1) * (2 * j) * h.2
    (w - yy * h.1, w)

/-- A sine and a cosine as multiples of `2^-f`, each with an error of at most `err` such units. -/
structure SinCos where
  sin : Int
  cos : Int
  err : Nat
  deriving DecidableEq, Repr

/-- Sine and cosine of the double angle: `2 s c` and `2 c^2 - 1`. The errors grow to at most `4 err + 2 err^2`, and by the
truncations. -/
def SinCos.double (f : Nat) (a : SinCos) : SinCos where
  sin := 2 * a.sin * a.cos / 2 ^ f
  cos := 2 * a.cos * a.cos / 2 ^ f - 2 ^ f
  err := 4 * a.err + 2 * a.err * a.err / 2 ^ f + 2

/-- `n` doublings of the angle. -/
def SinCos.doubles (f : Nat) : Nat → SinCos → SinCos
  | 0, a => a
  | n + 1, a => SinCos.doubles f n (a.double f)

/-- Sine and cosine of `m / 2^53`, below 1, by 180 terms of their series, whose remainder is below `2^-2500`. -/
def sinCosSmall (f m : Nat) : SinCos :=
  let s := sineNest (m * m) (2 ^ 106) 180 1
  let c := cosineNest (m * m) (2 ^ 106) 180 1
  { sin := (m * s.1 * 2 ^ f / (2 ^ 53 * s.2) : Nat), cos := (c.1 * 2 ^ f / c.2 : Nat), err := 2 }

/-- The correctly rounded sine of a finite `y` from 2 up: `y` is halved to below 1 and the angle doubled as often again;
where both ends of the error interval round to one value, that is the correctly rounded sine. -/
def largeSine (y : B64) : Option B64 :=
  let k := unitExp y - 1021
  let f := 2 * k + 320
  let a := SinCos.doubles f k (sinCosSmall f (significand y))
  let lo := roundUnits ((a.sin.natAbs - a.err) * unitsPerOne) (2 ^ f)
  if a.err < a.sin.natAbs ∧ lo = roundUnits ((a.sin.natAbs + a.err) * unitsPerOne) (2 ^ f) then
    some (withSign (decide (a.sin < 0)) lo)
  else none

/-- The correctly rounded sine of a `y` from 2^-27 up to 2: the bounds of 30 and 31 terms bracket it, so it is the value both
round to. Where they round to two, it is one of these, and which is free. DEDUCED, safe: log entry 4. -/
def smallSine (y : B64) : B64 :=
  withSign false
    (if sineBits y 29 = sineBits y 30 then sineBits y 30
     else if Config.sineRoundsUp y then sineBits y 30
     else sineBits y 29)

/-- The correctly rounded sine of a positive finite `y`, `none` where the computation does not decide it. Arguments below 2^-27
are their own rounded sine. -/
def positiveSine (y : B64) : Option B64 :=
  if units y * 2 ^ 27 < unitsPerOne then some y
  else if units y < 2 * unitsPerOne then some (smallSine y)
  else largeSine y

/-- The correctly rounded sine (40_delay_curve.md R108), an odd function. An infinity and a NaN have no exact sine: their
value is free, and so is one from 2 up that the computation does not decide. DEDUCED, safe: log entry 4. -/
def correctSine (y : B64) : B64 :=
  if isZero y then y
  else if finite y = false then Config.sine y
  else
    match positiveSine (abs y) with
    | some v => if signBit y then neg v else v
    | none => Config.sine y

/-- SIN_FN of a configuration: the default, or the function its table gives, which takes +0 to +0 (00_scope.md R6). A table
may hold any value; which ones a legal configuration has, `sineKeepsFinite` says. -/
def sinFn (f : SinFn) (y : B64) : B64 :=
  match f with
  | .correctlyRounded => correctSine y
  | .table entries => if y = 0#64 then 0#64 else (entries.lookup y).getD (correctSine y)

/-- `sine_ease(p, a, b)` (40_delay_curve.md R100, R101). -/
def sineEase (f : SinFn) (p a b : B64) : B64 :=
  if eq p one then b
  else sub a (mul (sub a b) (sinFn f (div (mul p pi64) two)))

/-- `linear_ease(p, a, b)` (40_delay_curve.md R105). -/
def linearEase (p a b : B64) : B64 :=
  if eq p one then b
  else add a (mul (sub b a) p)

/-- The curve the CURVE bit selects (30_encoding.md R85). -/
def ease (f : SinFn) (c : Curve) (p a b : B64) : B64 :=
  match c with
  | .sine => sineEase f p a b
  | .linear => linearEase p a b

end Sys2Proof.Machine
end

