-- ==== Sys2Proof/Machine/RampProfile.lean ====
section
/-! DEFINITION. `ramp_profile_generator` (41_ramp_profile_generator.md): delays, step counts and the delay sequence of a
move, as functions of the operands and the parameters (R136). -/

namespace Sys2Proof.Machine

open Binary64

/-- Seconds per half-step at speed `rpm`: `RN(60.0 / RN(RN(2.0 * f64(ppr)) * rpm))` (R120). -/
def halfStepDelay (ppr : Word) (rpm : B64) : B64 :=
  div (ofNat 60) (mul (mul two (ofNat ppr.toNat)) rpm)

/-- The step-count product `q` (R121). -/
def stepProduct (ppr : Word) (targetRpm runTime : B64) : B64 :=
  mul (div (mul (ofNat ppr.toNat) targetRpm) (ofNat 60)) runTime

/-- `total` (R121): 0 for a run time of either zero, else the floor of the product. -/
def totalSteps (ppr : Word) (targetRpm runTime : B64) : Nat :=
  if isZero runTime then 0 else (floor (stepProduct ppr targetRpm runTime)).toNat

/-- The automatic ramp value `x` (R123). -/
def autoRamp (p : Params) (startRpm targetRpm : B64) : B64 :=
  mul p.rampBase (div (abs (sub targetRpm startRpm)) (ofNat 20))

/-- Resolved ramp steps: the caller's count, or the automatic one, never above `half = total div 2` (R122, R123,
R125). -/
def rampSteps (p : Params) (startRpm targetRpm : B64) (given : Option Word) (total : Nat) : Nat :=
  match given with
  | some n => min n.toNat (total / 2)
  | none =>
    if le (ofNat (total / 2)) (autoRamp p startRpm targetRpm) then total / 2
    else (floor (autoRamp p startRpm targetRpm)).toNat

/-- Constant-phase length (R126). -/
def cruiseSteps (profile : Profile) (total r : Nat) : Nat :=
  match profile with
  | .full => total - 2 * r
  | .rampUpOnly => total - r
  | .rampDownOnly => total - r

/-- The delay floor (R128). -/
def floorMin (p : Params) (d : B64) : B64 := if lt d p.minDelay then p.minDelay else d

/-- Progress of ramp sample `k` of `r` (R127). -/
def progress (k r : Nat) : B64 := div (ofNat k) (ofNat r)

/-- Ramp sample `k` of `r` from delay `a` toward delay `b`, floored (R130). -/
def rampDelay (p : Params) (curve : Curve) (k r : Nat) (a b : B64) : B64 :=
  floorMin p (ease p.sinFn curve (progress k r) a b)

/-- Delay `i` of a move with `r` ramp steps, constant phase `c`, start delay `sd` and target delay `td` (R130). -/
def delayAt (p : Params) (profile : Profile) (curve : Curve) (r c : Nat) (sd td : B64) (i : Nat) : B64 :=
  match profile with
  | .full =>
    if i < r then rampDelay p curve i r sd td
    else if i < r + c then floorMin p td
    else rampDelay p curve (i - r - c) r td sd
  | .rampUpOnly => if i < r then rampDelay p curve i r sd td else floorMin p td
  | .rampDownOnly => if i < r then rampDelay p curve i r td sd else floorMin p sd

/-- `delay(i)` of the channel's current move. -/
def delayOf (p : Params) (ch : Channel) (i : Nat) : B64 :=
  delayAt p ch.profile ch.curve ch.ramp.toNat ch.cruise.toNat ch.sd ch.td i

/-- The phases of a move (10_state.md R32). -/
inductive Phase where
  | none
  | rampUp
  | const
  | rampDown
  deriving DecidableEq, Repr

/-- The phase codes (10_state.md R32). -/
def Phase.code : Phase → BitVec 2
  | .none => 0#2
  | .rampUp => 1#2
  | .const => 2#2
  | .rampDown => 3#2

/-- `phase_of(i)` (R131). -/
def phaseAt (profile : Profile) (r c i : Nat) : Phase :=
  match profile with
  | .full => if i < r then .rampUp else if i < r + c then .const else .rampDown
  | .rampUpOnly => if i < r then .rampUp else .const
  | .rampDownOnly => if i < r then .rampDown else .const

end Sys2Proof.Machine
end

