-- ==== Sys2Proof/Machine/Flags.lean ====
section
/-! DEFINITION. The status words and flags the block computes: CMD_STATUS, IRQ, CH_STATE, CH_LAST, SNAP_FLAGS. The block
has no arithmetic condition codes (10_state.md R43). -/

namespace Sys2Proof.Machine

/-- CMD_STATUS.CODE (10_state.md R24). -/
inductive StatusCode where
  | ok
  | illegal
  | busy
  | invalidSpeed
  | invalidSpec
  deriving DecidableEq, Repr

/-- The codes of 10_state.md R24. -/
def StatusCode.bits : StatusCode → BitVec 4
  | .ok => 0#4
  | .illegal => 1#4
  | .busy => 2#4
  | .invalidSpeed => 3#4
  | .invalidSpec => 4#4

/-- CMD_STATUS: `{16'b0, OPCODE, DETAIL, CODE}` (10_state.md R24, 30_encoding.md R80). -/
def statusWord (op : BitVec 8) (code : StatusCode) (detail : BitVec 4) : Word := 0#16 ++ op ++ detail ++ code.bits

/-- IRQ as a function of IRQ_STATUS and IRQ_ENABLE (10_state.md R26). -/
def irqOf (status enable : BitVec 16) : Bool := status &&& enable != 0#16

/-- The IRQ output (10_state.md R26, 60_exceptions.md R250). -/
def irqLevel (s : State) : Bool := irqOf s.irqStatus s.irqEnable

/-- NUM_CHANNELS (00_scope.md R6). -/
def State.numChannels (s : State) : Nat := s.chans.length

/-- The valid bits of IRQ_STATUS and IRQ_ENABLE: bits below NUM_CHANNELS (10_state.md R25). -/
def irqMask (n : Nat) : BitVec 16 := BitVec.ofNat 16 (2 ^ n - 1)

/-- DONE bit `c`. -/
def doneBit (c : Nat) : BitVec 16 := BitVec.ofNat 16 (2 ^ c)

/-- The phase of a channel: that of the next delay while one is to come, else NONE (10_state.md R32). -/
def phaseOf (ch : Channel) : Phase :=
  if ch.moving = true ∧ ch.idx.toNat < ch.total.toNat then
    phaseAt ch.profile ch.ramp.toNat ch.cruise.toNat ch.idx.toNat
  else .none

/-- CH_STATE, from bit 31 down (10_state.md R40). -/
def chStateWord (ch : Channel) : Word :=
  0#23 ++ BitVec.ofBool ch.startValid ++ BitVec.ofBool ch.running ++ BitVec.ofBool ch.waveBusy
    ++ BitVec.ofBool ch.emit.code ++ BitVec.ofBool ch.dirPin ++ BitVec.ofBool ch.stepPin
    ++ (phaseOf ch).code ++ BitVec.ofBool ch.moving

/-- The result codes (10_state.md R33). -/
def Result.code : Result → BitVec 4
  | .none => 0#4
  | .complete => 1#4
  | .cancelled => 2#4
  | .hwFault => 3#4

/-- CH_LAST, from bit 31 down (10_state.md R33). -/
def chLastWord (ch : Channel) : Word :=
  0#25 ++ BitVec.ofBool ch.curve.code ++ ch.profile.code ++ ch.result.code

/-- SNAP_FLAGS: `{23'b0, start_valid, running, 6'b0, moving}` (44_control_commands.md R216). -/
def snapFlagsWord (ch : Channel) : Word :=
  0#23 ++ BitVec.ofBool ch.startValid ++ BitVec.ofBool ch.running ++ 0#6 ++ BitVec.ofBool ch.moving

/-- SNAP_CTRL: `{1'b1, 27'b0, c[3:0]}` (44_control_commands.md R216). -/
def snapCtrlWord (c : BitVec 4) : Word := 1#1 ++ 0#27 ++ c

/-- CAPS: `{CHUNK_SIZE, 11'b0, NUM_CHANNELS[4:0]}` (10_state.md R30, R42). -/
def capsWord (s : State) : Word := s.params.chunkSize ++ 0#11 ++ BitVec.ofNat 5 s.numChannels

end Sys2Proof.Machine
end

