-- ==== Sys2Proof/Machine/Ops.lean ====
section
/-! DEFINITION. The named operations on the state: channels, the outcome of a command, pins, the interrupt registers,
the end of a move. The block has no trap entry and no return from one (60_exceptions.md R247, R248): what the spec has
for an exception is `raiseStatus`, the status a failing command ends with, and `setIrq`, the interrupt. -/

namespace Sys2Proof.Machine

/-- `ch[c] <- ch`. -/
def State.setChan (s : State) (c : Nat) (ch : Channel) : State := { s with chans := s.chans.set c ch }

/-- CMD_STATUS is rewritten whole by every command (10_state.md R24), and its value is observed (00_scope.md R9). -/
def setStatus (w : Word) (s : State) : State := { s with cmdStatus := w, statuses := w :: s.statuses }

/-- `raise Status(code, detail)`: ends the command of opcode `op` (30_encoding.md R80, 60_exceptions.md R240). The state
`s` holds what the command's rule names as done before the raise. -/
def raiseStatus (op : BitVec 8) (code : StatusCode) (detail : BitVec 4) (s : State) : Out :=
  .next (setStatus (statusWord op code detail) s)

/-- A command that ran to its end: CMD_STATUS is OK (30_encoding.md R80). -/
def completeCommand (op : BitVec 8) (s : State) : Out := .next (setStatus (statusWord op .ok 0#4) s)

/-- The channel a command names. A channel that does not exist is ILLEGAL detail 3, as `decode` reports it before the
command's rule runs (30_encoding.md R86). DEDUCED, safe: log entry 10. -/
def onChannel (op : BitVec 8) (ch : BitVec 4) (s : State) (k : Channel → Out) : Out :=
  match s.chans[ch.toNat]? with
  | some c => k c
  | none => raiseStatus op .illegal 3#4 s

/-- The channel a command names, refused with BUSY detail 1 while it is MOVING (60_exceptions.md R241). -/
def onIdleChannel (op : BitVec 8) (ch : BitVec 4) (s : State) (k : Channel → Out) : Out :=
  onChannel op ch s fun c => if c.moving then raiseStatus op .busy 1#4 s else k c

/-- The IrqLevel event of a change to `level` in the state `s`. -/
def irqEvent (level : Bool) (s : State) : IrqEvent where
  level := level
  recorded := s.chans.map fun ch => ch.events.length

/-- Writes IRQ_STATUS and IRQ_ENABLE; a change of the IRQ level is an output event of the same step (10_state.md R26,
60_exceptions.md R251). -/
def setIrq (status enable : BitVec 16) (s : State) : State :=
  { s with
    irqStatus := status
    irqEnable := enable
    irqEvents :=
      if irqOf status enable = irqOf s.irqStatus s.irqEnable then s.irqEvents
      else irqEvent (irqOf status enable) s :: s.irqEvents }

/-- The pin events of channel `c` with the IrqLevel events at their places, newest first. -/
def mergeIrq (c : Nat) : List PinEvent → List IrqEvent → List OutputEvent
  | pins, [] => pins.map .pin
  | pins, e :: es =>
    (pins.take (pins.length - e.recorded.getD c 0)).map .pin
      ++ .irqLevel e.level :: mergeIrq c (pins.drop (pins.length - e.recorded.getD c 0)) es

/-- The sequence of output events of channel `c`, newest first (00_scope.md R9). -/
def outputEvents (s : State) (c : Nat) : List OutputEvent :=
  match s.chans[c]? with
  | some ch => mergeIrq c ch.events s.irqEvents
  | none => []

/-- `SetPin(c, DIR, level)`: drives the pin and records the event (00_scope.md R13). -/
def Channel.driveDir (ch : Channel) (level : Bool) : Channel :=
  { ch with dirPin := level, events := .dirSet level :: ch.events }

/-- `SetPin(c, STEP, 1)` at the rising edge of a pulse of `k` ticks high and `k` low, which records the pulse
(42_pulse_delay_sequencer.md R156). -/
def Channel.raiseStep (ch : Channel) (k : Word) : Channel :=
  { ch with stepPin := true, events := .pulse k k :: ch.events }

/-- The channel's part of `finish(res)` (43_motion_commands.md R190). -/
def Channel.finished (ch : Channel) (res : Result) : Channel :=
  { ch with
    result := res
    totalPulses := ch.totalPulses + ch.steps.setWidth 64
    totalRevolutions :=
      Binary64.add ch.totalRevolutions (Binary64.div (Binary64.ofNat ch.steps.toNat) (Binary64.ofNat ch.ppr.toNat))
    totalRunTime := Binary64.add ch.totalRunTime ch.mvRuntime
    moving := false
    seq := .idle }

/-- `finish(res)`: one step that ends the move of channel `c`, whose state is `ch`, updates its statistics and sets its
DONE bit, whatever the result (43_motion_commands.md R190, R191). -/
def finish (c : Nat) (ch : Channel) (res : Result) (s : State) : State :=
  setIrq (s.irqStatus ||| doneBit c) s.irqEnable (s.setChan c (ch.finished res))

/-- The rest of a step after `o`. -/
def andThen (o : Out) (k : State → Out) : Out :=
  match o with
  | .next s => k s
  | .fault f => .fault f
  | .refused r => .refused r

end Sys2Proof.Machine
end

