-- ==== Sys2Proof/Machine/Control.lean ====
section
/-! DEFINITION. The control and configuration commands (44_control_commands.md): STOP, RESET, PPR, SETEMIT, CLRSTAT, SNAP,
SETLABEL. Every host access may issue them (R218). -/

namespace Sys2Proof.Machine

/-- STOP (R210): accepted in every state. -/
def execStop (s : State) : Out := completeCommand 0x04#8 { s with run := false }

/-- The statistics a clear empties (R212, R215). -/
def Channel.clearStats (ch : Channel) : Channel :=
  { ch with
    totalPulses := 0#64
    totalRevolutions := 0#64
    totalRunTime := 0#64
    running := false
    startValid := false
    runStart := 0#64 }

/-- What RESET clears of a channel: statistics, label and move record; `ppr`, `emit` and the pins stay (R212). -/
def Channel.clearMotion (ch : Channel) : Channel :=
  { ch.clearStats with
    label := 0#32
    total := 0#32
    ramp := 0#32
    cruise := 0#32
    steps := 0#32
    idx := 0#32
    dropped := 0#32
    result := .none
    profile := .full
    curve := .sine }

/-- RESET (R212): BUSY detail 2 while any channel is MOVING; else RUN is re-armed and every statistic, move record, DONE
bit and snapshot register is cleared. -/
def execReset (s : State) : Out :=
  if s.chans.any (·.moving) then raiseStatus 0x05#8 .busy 2#4 s
  else
    completeCommand 0x05#8
      (setIrq 0#16 s.irqEnable
        { s with run := true, chans := s.chans.map Channel.clearMotion, snap := Snapshot.cleared })

/-- PPR (R213). -/
def execPpr (ch : BitVec 4) (s : State) : Out :=
  onIdleChannel 0x01#8 ch s fun c =>
    if argWord s = 0#32 then raiseStatus 0x01#8 .invalidSpec 1#4 s
    else completeCommand 0x01#8 (s.setChan ch.toNat { c with ppr := argWord s })

/-- SETEMIT (R214). -/
def execSetemit (ch : BitVec 4) (emit : EmitMode) (s : State) : Out :=
  onIdleChannel 0x02#8 ch s fun c => completeCommand 0x02#8 (s.setChan ch.toNat { c with emit := emit })

/-- CLRSTAT (R215). It keeps `result`, against a sentence of 10_state.md R33. DEDUCED, unsafe: log entry 7. -/
def execClrstat (ch : BitVec 4) (s : State) : Out :=
  onIdleChannel 0x06#8 ch s fun c => completeCommand 0x06#8 (s.setChan ch.toNat c.clearStats)

/-- The copy SNAP takes of a channel (R216). -/
def snapshotOf (ch : BitVec 4) (c : Channel) : Snapshot where
  ctrl := snapCtrlWord ch
  flags := snapFlagsWord c
  pulses := c.totalPulses
  revs := c.totalRevolutions
  runtime := c.totalRunTime
  start := c.runStart
  label := c.label
  steps := c.steps

/-- SNAP (R216): accepted while MOVING too. -/
def execSnap (ch : BitVec 4) (s : State) : Out :=
  onChannel 0x07#8 ch s fun c => completeCommand 0x07#8 { s with snap := snapshotOf ch c }

/-- SETLABEL (R217): accepted while MOVING too. -/
def execSetlabel (ch : BitVec 4) (s : State) : Out :=
  onChannel 0x08#8 ch s fun c => completeCommand 0x08#8 (s.setChan ch.toNat { c with label := argWord s })

end Sys2Proof.Machine
end

