-- ==== Sys2Proof/Machine/Motion.lean ====
section
/-! DEFINITION. MOVE (43_motion_commands.md R180 to R184): the BUSY check, the DIR pin, `validate` and `accept`. -/

namespace Sys2Proof.Machine

open Binary64

/-- Whether the longer of the two delays needs 2^32 ticks or more (43_motion_commands.md R182, fifth check). -/
def tickRangeExceeded (p : Params) (sd td : B64) : Bool :=
  le (ofNat (2 ^ 32)) (mul (if le td sd then sd else td) (ofNat p.tickHz.toNat))

/-- Whether the step-count product is not finite or is 2^32 or more (43_motion_commands.md R182, sixth check). -/
def stepCountExceeded (ppr : Word) (targetRpm runTime : B64) : Bool :=
  !isZero runTime
    && (!finite (stepProduct ppr targetRpm runTime) || le (ofNat (2 ^ 32)) (stepProduct ppr targetRpm runTime))

/-- `validate` (43_motion_commands.md R182): the code and detail of the first check that fails, in the listed order. -/
def validate (p : Params) (ppr : Word) (startRpm targetRpm runTime : B64) : Option (StatusCode × BitVec 4) :=
  if ppr = 0#32 then some (.invalidSpec, 1#4)
  else if !(finite startRpm && lt 0#64 startRpm) then some (.invalidSpeed, 1#4)
  else if !(finite targetRpm && lt 0#64 targetRpm) then some (.invalidSpeed, 2#4)
  else if !(finite runTime && le 0#64 runTime) then some (.invalidSpec, 2#4)
  else if tickRangeExceeded p (halfStepDelay ppr startRpm) (halfStepDelay ppr targetRpm) then
    some (.invalidSpeed, 3#4)
  else if stepCountExceeded ppr targetRpm runTime then some (.invalidSpec, 3#4)
  else none

/-- Where a move's sequencer starts: `[S0]` in direct mode, `[C0]` in chunked mode (43_motion_commands.md R181). -/
def startLabel (e : EmitMode) : SeqPos :=
  match e with
  | .direct => .s0
  | .chunked => .c0

/-- `accept` (43_motion_commands.md R181) on a channel: IDLE to MOVING, the move record filled from the operands, the
statistics' start marks, the sequencer at `[S0]` or `[C0]`. -/
def Channel.accepted (ch : Channel) (p : Params) (time : BitVec 64) (startRpm targetRpm runTime : B64) (dir : Bool)
    (profile : Profile) (curve : Curve) (ramp : Option Word) : Channel :=
  let total := totalSteps ch.ppr targetRpm runTime
  let r := rampSteps p startRpm targetRpm ramp total
  { ch with
    mvStart := startRpm
    mvTarget := targetRpm
    mvRuntime := runTime
    mvDir := dir
    sd := halfStepDelay ch.ppr startRpm
    td := halfStepDelay ch.ppr targetRpm
    total := BitVec.ofNat 32 total
    ramp := BitVec.ofNat 32 r
    cruise := BitVec.ofNat 32 (cruiseSteps profile total r)
    profile := profile
    curve := curve
    idx := 0#32
    steps := 0#32
    dropped := 0#32
    result := .none
    moving := true
    running := true
    startValid := true
    runStart := time
    seq := startLabel ch.emit }

/-- MOVE (43_motion_commands.md R180): BUSY while MOVING; then the DIR pin (R183); then `validate`, which may raise
(R182, R184); then `accept` (R181). -/
def execMove (ch : BitVec 4) (dir : Bool) (profile : Profile) (curve : Curve) (rampGiven : Bool) (s : State) : Out :=
  onIdleChannel 0x03#8 ch s fun c =>
    match validate s.params c.ppr (startRpmArg s) (targetRpmArg s) (runTimeArg s) with
    | some (code, detail) => raiseStatus 0x03#8 code detail (s.setChan ch.toNat (c.driveDir dir))
    | none =>
      completeCommand 0x03#8
        (s.setChan ch.toNat
          ((c.driveDir dir).accepted s.params s.time (startRpmArg s) (targetRpmArg s) (runTimeArg s) dir profile curve
            (rampStepsArg rampGiven s)))

end Sys2Proof.Machine
end

