-- ==== Sys2Proof/Machine/Dispatch.lean ====
section
/-! DEFINITION. One arm per command. -/

namespace Sys2Proof.Machine

def exec (i : Instr) (s : State) : Host.Outcome State Fault Refusal :=
  match i with
  | .ppr ch => Sys2Proof.Machine.execPpr ch s
  | .setemit ch emit => Sys2Proof.Machine.execSetemit ch emit s
  | .move ch dir profile curve rampGiven => Sys2Proof.Machine.execMove ch dir profile curve rampGiven s
  | .stop => Sys2Proof.Machine.execStop s
  | .reset => Sys2Proof.Machine.execReset s
  | .clrstat ch => Sys2Proof.Machine.execClrstat ch s
  | .snap ch => Sys2Proof.Machine.execSnap ch s
  | .setlabel ch => Sys2Proof.Machine.execSetlabel ch s

end Sys2Proof.Machine
end

