-- ==== Sys2Proof/Machine/Bus.lean ====
section
/-! DEFINITION. The register interface (20_memory.md, 10_state.md R42): the register map, reads, writes, and the execution
of a command by a write to CMD (30_encoding.md R80). -/

namespace Sys2Proof.Machine

/-- The registers of one channel's block, in the order of their offsets (10_state.md R42). -/
inductive ChReg where
  | state
  | ppr
  | last
  | totalSteps
  | rampSteps
  | cruiseSteps
  | stepsEmitted
  | index
  | dropped
  | label
  | pulsesLo
  | pulsesHi
  | revsLo
  | revsHi
  | runtimeLo
  | runtimeHi
  deriving DecidableEq, Repr

/-- The registers of the window (10_state.md R42). -/
inductive Reg where
  | id
  | caps
  | tickHz
  | runflag
  | cmd
  | cmdStatus
  | irqStatus
  | irqEnable
  | arg (n : Fin 8)
  | timeLo
  | timeHi
  | minDelayLo
  | minDelayHi
  | rampBaseLo
  | rampBaseHi
  | dirSetup
  | snapCtrl
  | snapFlags
  | snapPulsesLo
  | snapPulsesHi
  | snapRevsLo
  | snapRevsHi
  | snapRuntimeLo
  | snapRuntimeHi
  | snapStartLo
  | snapStartHi
  | snapLabel
  | snapSteps
  | chan (c : Nat) (r : ChReg)
  deriving DecidableEq, Repr

/-- Offset of a register within its channel's block (10_state.md R42). -/
def ChReg.offset : ChReg → Nat
  | .state => 0x00
  | .ppr => 0x04
  | .last => 0x08
  | .totalSteps => 0x0C
  | .rampSteps => 0x10
  | .cruiseSteps => 0x14
  | .stepsEmitted => 0x18
  | .index => 0x1C
  | .dropped => 0x20
  | .label => 0x24
  | .pulsesLo => 0x28
  | .pulsesHi => 0x2C
  | .revsLo => 0x30
  | .revsHi => 0x34
  | .runtimeLo => 0x38
  | .runtimeHi => 0x3C

/-- Offset of a register in the window (10_state.md R42); `CHBASE(c) = 0x100 + 0x40 * c`. -/
def Reg.offset : Reg → Nat
  | .id => 0x000
  | .caps => 0x004
  | .tickHz => 0x008
  | .runflag => 0x00C
  | .cmd => 0x010
  | .cmdStatus => 0x014
  | .irqStatus => 0x018
  | .irqEnable => 0x01C
  | .arg n => 0x020 + 4 * n.val
  | .timeLo => 0x040
  | .timeHi => 0x044
  | .minDelayLo => 0x048
  | .minDelayHi => 0x04C
  | .rampBaseLo => 0x050
  | .rampBaseHi => 0x054
  | .dirSetup => 0x058
  | .snapCtrl => 0x060
  | .snapFlags => 0x064
  | .snapPulsesLo => 0x068
  | .snapPulsesHi => 0x06C
  | .snapRevsLo => 0x070
  | .snapRevsHi => 0x074
  | .snapRuntimeLo => 0x078
  | .snapRuntimeHi => 0x07C
  | .snapStartLo => 0x080
  | .snapStartHi => 0x084
  | .snapLabel => 0x088
  | .snapSteps => 0x08C
  | .chan c r => 0x100 + 0x40 * c + r.offset

/-- The register of a channel's block at word number `k` of the block. -/
def ChReg.ofWord (k : Nat) : Option ChReg :=
  match k with
  | 0 => some .state
  | 1 => some .ppr
  | 2 => some .last
  | 3 => some .totalSteps
  | 4 => some .rampSteps
  | 5 => some .cruiseSteps
  | 6 => some .stepsEmitted
  | 7 => some .index
  | 8 => some .dropped
  | 9 => some .label
  | 10 => some .pulsesLo
  | 11 => some .pulsesHi
  | 12 => some .revsLo
  | 13 => some .revsHi
  | 14 => some .runtimeLo
  | 15 => some .runtimeHi
  | _ => none

/-- The global register at word number `k` of the window, `none` where the map has a hole. -/
def Reg.globalOfWord (k : Nat) : Option Reg :=
  match k with
  | 0 => some .id
  | 1 => some .caps
  | 2 => some .tickHz
  | 3 => some .runflag
  | 4 => some .cmd
  | 5 => some .cmdStatus
  | 6 => some .irqStatus
  | 7 => some .irqEnable
  | 8 => some (.arg 0)
  | 9 => some (.arg 1)
  | 10 => some (.arg 2)
  | 11 => some (.arg 3)
  | 12 => some (.arg 4)
  | 13 => some (.arg 5)
  | 14 => some (.arg 6)
  | 15 => some (.arg 7)
  | 16 => some .timeLo
  | 17 => some .timeHi
  | 18 => some .minDelayLo
  | 19 => some .minDelayHi
  | 20 => some .rampBaseLo
  | 21 => some .rampBaseHi
  | 22 => some .dirSetup
  | 24 => some .snapCtrl
  | 25 => some .snapFlags
  | 26 => some .snapPulsesLo
  | 27 => some .snapPulsesHi
  | 28 => some .snapRevsLo
  | 29 => some .snapRevsHi
  | 30 => some .snapRuntimeLo
  | 31 => some .snapRuntimeHi
  | 32 => some .snapStartLo
  | 33 => some .snapStartHi
  | 34 => some .snapLabel
  | 35 => some .snapSteps
  | _ => none

/-- The register an access of `width` bytes at `off` reaches on a block of `n` channels: only aligned 32-bit accesses to
mapped offsets reach one (20_memory.md R63, R64; 10_state.md R42: channel blocks exist for `c < NUM_CHANNELS` only). -/
def regAt (n off width : Nat) : Option Reg :=
  if width = 4 ∧ off % 4 = 0 then
    if off < 0x100 then Reg.globalOfWord (off / 4)
    else if (off - 0x100) / 0x40 < n then
      (ChReg.ofWord ((off - 0x100) % 0x40 / 4)).map (Reg.chan ((off - 0x100) / 0x40))
    else none
  else none

/-- The value of a channel register (10_state.md R31 to R36, R40). -/
def readChReg (ch : Channel) (r : ChReg) : Word :=
  match r with
  | .state => chStateWord ch
  | .ppr => ch.ppr
  | .last => chLastWord ch
  | .totalSteps => ch.total
  | .rampSteps => ch.ramp
  | .cruiseSteps => ch.cruise
  | .stepsEmitted => ch.steps
  | .index => ch.idx
  | .dropped => ch.dropped
  | .label => ch.label
  | .pulsesLo => lo32 ch.totalPulses
  | .pulsesHi => hi32 ch.totalPulses
  | .revsLo => lo32 ch.totalRevolutions
  | .revsHi => hi32 ch.totalRevolutions
  | .runtimeLo => lo32 ch.totalRunTime
  | .runtimeHi => hi32 ch.totalRunTime

/-- The value a read of a register returns (10_state.md R22 to R30, R42; CMD reads 0, 20_memory.md R65). -/
def readReg (s : State) (r : Reg) : Word :=
  match r with
  | .id => 0x53544531#32
  | .caps => capsWord s
  | .tickHz => s.params.tickHz
  | .runflag => 0#31 ++ BitVec.ofBool s.run
  | .cmd => 0#32
  | .cmdStatus => s.cmdStatus
  | .irqStatus => s.irqStatus.setWidth 32
  | .irqEnable => s.irqEnable.setWidth 32
  | .arg n => s.args[n]
  | .timeLo => lo32 s.time
  | .timeHi => s.timeHiLatch
  | .minDelayLo => lo32 s.params.minDelay
  | .minDelayHi => hi32 s.params.minDelay
  | .rampBaseLo => lo32 s.params.rampBase
  | .rampBaseHi => hi32 s.params.rampBase
  | .dirSetup => s.params.dirSetupTicks
  | .snapCtrl => s.snap.ctrl
  | .snapFlags => s.snap.flags
  | .snapPulsesLo => lo32 s.snap.pulses
  | .snapPulsesHi => hi32 s.snap.pulses
  | .snapRevsLo => lo32 s.snap.revs
  | .snapRevsHi => hi32 s.snap.revs
  | .snapRuntimeLo => lo32 s.snap.runtime
  | .snapRuntimeHi => hi32 s.snap.runtime
  | .snapStartLo => lo32 s.snap.start
  | .snapStartHi => hi32 s.snap.start
  | .snapLabel => s.snap.label
  | .snapSteps => s.snap.steps
  | .chan c r =>
    match s.chans[c]? with
    | some ch => readChReg ch r
    | none => 0#32

/-- The one side effect of a read: TIME_LO latches TIME[63:32] (20_memory.md R68, 10_state.md R28). -/
def readEffect (r : Reg) (s : State) : State :=
  if r = .timeLo then { s with timeHiLatch := hi32 s.time } else s

/-- A host read (20_memory.md R63, R64): the value is returned to the host, or the access is a bus error. -/
def busRead (off width : Nat) (s : State) : Out :=
  match regAt s.numChannels off width with
  | some r => .next { readEffect r s with reads := (off, readReg s r) :: s.reads }
  | none => .fault (.busError false off width)

/-- A write of `w` to CMD executes one command (30_encoding.md R80): an illegal word changes CMD_STATUS only (R86). -/
def execWord (w : Word) (s : State) : Out :=
  match decode s.numChannels w with
  | .ok i => exec i s
  | .error e => raiseStatus (opcodeField w) .illegal e.detail s

/-- A host write that reaches register `r` (10_state.md R42): `none` for a read-only register (20_memory.md R65).
IRQ_STATUS is write 1 to clear, IRQ_ENABLE keeps its valid bits (10_state.md R25). -/
def writeReg (r : Reg) (v : Word) (s : State) : Option Out :=
  match r with
  | .cmd => some (execWord v s)
  | .irqStatus => some (.next (setIrq (s.irqStatus &&& ~~~(v.setWidth 16)) s.irqEnable s))
  | .irqEnable => some (.next (setIrq s.irqStatus (v.setWidth 16 &&& irqMask s.numChannels) s))
  | .arg n => some (.next { s with args := s.args.set n v })
  | .id => none
  | .caps => none
  | .tickHz => none
  | .runflag => none
  | .cmdStatus => none
  | .timeLo => none
  | .timeHi => none
  | .minDelayLo => none
  | .minDelayHi => none
  | .rampBaseLo => none
  | .rampBaseHi => none
  | .dirSetup => none
  | .snapCtrl => none
  | .snapFlags => none
  | .snapPulsesLo => none
  | .snapPulsesHi => none
  | .snapRevsLo => none
  | .snapRevsHi => none
  | .snapRuntimeLo => none
  | .snapRuntimeHi => none
  | .snapStartLo => none
  | .snapStartHi => none
  | .snapLabel => none
  | .snapSteps => none
  | .chan _ _ => none

/-- A host write (20_memory.md R63 to R65). -/
def busWrite (off width : Nat) (v : Word) (s : State) : Out :=
  match (regAt s.numChannels off width).bind fun r => writeReg r v s with
  | some o => o
  | none => .fault (.busError true off width)

/-- One access of a bus master: a read, a write, or the read of CH_STATE that a WAITDONE repeats (20_memory.md R67). A wait for
`IRQ` watches an output of the block and accesses no register. -/
def busAccess (op : HostOp) (s : State) : Out :=
  match op with
  | .write off width v => busWrite off width v s
  | .read off width => busRead off width s
  | .waitDone c => busRead (Reg.chan c .state).offset 4 s
  | .waitIrq => .next s

/-- Whether a statement of the host is over with the access it makes in the state `s`: WAITDONE stays until bit 0 of CH_STATE
(`moving`) reads 0 (30_encoding.md R91), a wait for `IRQ` until its level is 1 (70_reset_and_hazards.md R275, 10_state.md
R26). -/
def opOver (op : HostOp) (s : State) : Bool :=
  match op with
  | .write _ _ _ => true
  | .read _ _ => true
  | .waitDone c => !(readReg s (.chan c .state)).getLsbD 0
  | .waitIrq => irqLevel s

/-- One step of the host: one access of its next statement (20_memory.md R67, 30_encoding.md R91), or the end of its wait for
`IRQ` (70_reset_and_hazards.md R275). A host with no access to make, or whose wait goes on, takes no step. -/
def hostStep (s : State) : Out :=
  match s.host with
  | [] => .next s
  | op :: rest => busAccess op (if opOver op s then { s with host := rest } else s)

/-- Whether the host has a step to take: an access to make, or a wait for `IRQ` that is over. -/
def hostEnabled (s : State) : Bool :=
  match s.host with
  | [] => false
  | .write _ _ _ :: _ => true
  | .read _ _ :: _ => true
  | .waitDone _ :: _ => true
  | .waitIrq :: _ => irqLevel s

end Sys2Proof.Machine
end

