-- ==== Sys2Proof/Machine/Assembler.lean ====
section
/-! DEFINITION. The assembler's pseudo-instructions (30_encoding.md R91, R92): each command mnemonic as the register writes
it expands to, the ARG writes first and the CMD write last. -/

namespace Sys2Proof.Machine

/-- `WR <reg>, <value>` (R91). -/
def wr (r : Reg) (v : Word) : HostOp := .write r.offset 4 v

/-- `RD <reg>` (R91). -/
def rd (r : Reg) : HostOp := .read r.offset 4

/-- `PPR c, n` (R92). -/
def asmPpr (c : BitVec 4) (n : Word) : List HostOp := [wr (.arg 0) n, wr .cmd (encode (.ppr c))]

/-- `SETEMIT.DIRECT c` and `SETEMIT.CHUNKED c` (R92). -/
def asmSetemit (c : BitVec 4) (e : EmitMode) : List HostOp := [wr .cmd (encode (.setemit c e))]

/-- `MOVE.<P>.<K> c, d, s, t, r` and, with ramp steps, `MOVE.<P>.<K> c, d, s, t, r, n` (R92). -/
def asmMove (c : BitVec 4) (p : Profile) (k : Curve) (m : MoveLine) : List HostOp :=
  [ wr (.arg 0) (lo32 m.startRpm), wr (.arg 1) (hi32 m.startRpm), wr (.arg 2) (lo32 m.targetRpm),
    wr (.arg 3) (hi32 m.targetRpm), wr (.arg 4) (lo32 m.runTime), wr (.arg 5) (hi32 m.runTime) ]
  ++ (match m.rampSteps with
      | some n => [wr (.arg 6) n]
      | none => [])
  ++ [wr .cmd (encode (.move c m.dir p k m.rampSteps.isSome))]

/-- `STOP` (R92). -/
def asmStop : List HostOp := [wr .cmd (encode .stop)]

/-- `RESET` (R92). -/
def asmReset : List HostOp := [wr .cmd (encode .reset)]

/-- `CLRSTAT c` (R92). -/
def asmClrstat (c : BitVec 4) : List HostOp := [wr .cmd (encode (.clrstat c))]

/-- `SNAP c` (R92). -/
def asmSnap (c : BitVec 4) : List HostOp := [wr .cmd (encode (.snap c))]

/-- `SETLABEL c, v` (R92). -/
def asmSetlabel (c : BitVec 4) (v : Word) : List HostOp := [wr (.arg 0) v, wr .cmd (encode (.setlabel c))]

end Sys2Proof.Machine
end

