-- ==== Sys2Proof/Machine/LineSyntax.lean ====
section
/-! DEFINITION. The grammar of the text line protocol (30_encoding.md R93, R94). A line ends in a newline.
DEDUCED where R93 is silent: log entry 16. -/

namespace Sys2Proof.Machine

/-- What an accepted line asks for (R93, R94). -/
inductive LineCmd where
  | ppr (n : Word)
  | reset
  | stop
  | move (m : MoveLine)
  | batch (first : MoveLine) (rest : List MoveLine)
  deriving DecidableEq, Repr

/-- The digit a character is. -/
def digitOf (c : Char) : Option Nat := if '0' ≤ c ∧ c ≤ '9' then some (c.toNat - 48) else none

/-- The leading digits of a text and what follows them. -/
def spanDigits : List Char → List Nat × List Char
  | [] => ([], [])
  | c :: cs =>
    match digitOf c with
    | some d => (d :: (spanDigits cs).1, (spanDigits cs).2)
    | none => ([], c :: cs)

/-- The number a digit string writes. -/
def numberOf (ds : List Nat) : Nat := ds.foldl (fun n d => 10 * n + d) 0

/-- One or more digits and what follows them. -/
def digits1 (cs : List Char) : Option (List Nat × List Char) :=
  if (spanDigits cs).1.isEmpty then none else some (spanDigits cs)

/-- `<int>` and `<ramp_steps>`: a decimal digit string with a value up to 4294967295 (R93). -/
def parseU32 (cs : List Char) : Option Word :=
  match digits1 cs with
  | some (ds, []) => if numberOf ds < 2 ^ 32 then some (BitVec.ofNat 32 (numberOf ds)) else none
  | _ => none

/-- An optional sign: whether it is `-`, and what follows it. -/
def parseSign (cs : List Char) : Bool × List Char :=
  match cs with
  | '-' :: rest => (true, rest)
  | '+' :: rest => (false, rest)
  | _ => (false, cs)

/-- `[.digits]` of a floating literal. -/
def parseFraction (cs : List Char) : Option (List Nat × List Char) :=
  match cs with
  | '.' :: rest => digits1 rest
  | _ => some ([], cs)

/-- `[(e|E)[+-]?digits]` at the end of a floating literal: the exponent. -/
def parseExponent (cs : List Char) : Option Int :=
  match cs with
  | [] => some 0
  | c :: rest =>
    if c = 'e' ∨ c = 'E' then
      match digits1 (parseSign rest).2 with
      | some (ds, []) => some (if (parseSign rest).1 then -(numberOf ds : Int) else (numberOf ds : Int))
      | _ => none
    else none

/-- A decimal floating literal `[+-]?digits[.digits][(e|E)[+-]?digits]`, as the binary64 nearest to its exact value,
ties to even (R93). -/
def parseFloat (cs : List Char) : Option B64 :=
  match digits1 (parseSign cs).2 with
  | none => none
  | some (whole, r1) =>
    match parseFraction r1 with
    | none => none
    | some (frac, r2) =>
      match parseExponent r2 with
      | none => none
      | some e =>
        some (Binary64.ofDecimal (parseSign cs).1 (numberOf (whole ++ frac)) (whole.length + frac.length)
          (e - (frac.length : Int)))

/-- `<direction>`: `0` or `1` (R93). -/
def parseDirection (cs : List Char) : Option Bool :=
  match cs with
  | ['0'] => some false
  | ['1'] => some true
  | _ => none

/-- The fields of a text between separators. -/
def splitAtSep (sep : Char) : List Char → List (List Char)
  | [] => [[]]
  | c :: cs =>
    if c = sep then [] :: splitAtSep sep cs
    else
      match splitAtSep sep cs with
      | f :: fs => (c :: f) :: fs
      | [] => [[c]]

/-- The operand list of a move, `<start_rpm>,<target_rpm>,<run_time>,<direction>[,<ramp_steps>]` (R93, R94). -/
def parseMove (cs : List Char) : Option MoveLine :=
  match splitAtSep ',' cs with
  | [s, t, r, d] =>
    match parseFloat s, parseFloat t, parseFloat r, parseDirection d with
    | some s, some t, some r, some d => some ⟨s, t, r, d, none⟩
    | _, _, _, _ => none
  | [s, t, r, d, n] =>
    match parseFloat s, parseFloat t, parseFloat r, parseDirection d, parseU32 n with
    | some s, some t, some r, some d, some n => some ⟨s, t, r, d, some n⟩
    | _, _, _, _, _ => none
  | _ => none

/-- Every move of a BATCH line, or none if one does not parse (R94). -/
def parseMoves : List (List Char) → Option (List MoveLine)
  | [] => some []
  | f :: fs =>
    match parseMove f, parseMoves fs with
    | some m, some ms => some (m :: ms)
    | _, _ => none

/-- The text of a line less its terminating newline. -/
def lineBody : List Char → Option (List Char)
  | [] => none
  | ['\n'] => some []
  | c :: cs => (lineBody cs).map (c :: ·)

/-- What follows `word` in a text that begins with it. -/
def afterWord (word text : List Char) : Option (List Char) :=
  if text.take word.length = word then some (text.drop word.length) else none

/-- An accepted line without its newline (R93, R94); `none` issues no command. -/
def parseBody (cs : List Char) : Option LineCmd :=
  if cs = ['S', 'T', 'O', 'P'] then some .stop
  else if cs = ['R', 'E', 'S', 'E', 'T'] then some .reset
  else
    match afterWord ['P', 'P', 'R', ':'] cs with
    | some t => (parseU32 t).map .ppr
    | none =>
      match afterWord ['M', 'O', 'V', 'E', ':'] cs with
      | some t => (parseMove t).map .move
      | none =>
        match afterWord ['B', 'A', 'T', 'C', 'H', ':'] cs with
        | some t =>
          match parseMoves (splitAtSep ';' t) with
          | some (m :: ms) => some (.batch m ms)
          | _ => none
        | none => none

/-- An accepted line (R93, R94); `none` issues no command. -/
def parseLine (line : List Char) : Option LineCmd :=
  match lineBody line with
  | some body => parseBody body
  | none => none

end Sys2Proof.Machine
end

