-- ==== Sys2Proof/Machine/Link.lean ====
section
/-! DEFINITION. The front end of the text line protocol (30_encoding.md R93 to R95), a thread of the host. Each of its
register accesses is a step of its own (20_memory.md R67), so accesses of the host and steps of other agents can fall
between any two of them (70_reset_and_hazards.md R281). Where R93 to R95 leave open how it goes about its lines: DESIGN
CHOICE, log entry 15. -/

namespace Sys2Proof.Machine

/-- The line `DONE\n` (R95). -/
def doneLine : List Char := ['D', 'O', 'N', 'E', '\n']

/-- The front end goes on to `phase`. -/
def setPhase (phase : LinkPhase) (s : State) : State := { s with link := { s.link with phase := phase } }

/-- The front end is ready, and awaits the move it has issued, with `rest` after it. -/
def awaitMove (rest : List MoveLine) (s : State) : State :=
  { s with link := { s.link with phase := .ready, job := some rest } }

/-- The front end is ready, sends `DONE` and awaits no move any more (R95). -/
def sendDone (s : State) : State :=
  { s with link := { s.link with phase := .ready, job := none, sent := doneLine :: s.link.sent } }

/-- The register writes of a command (R92, R93). -/
def linkWrites (ch : BitVec 4) (cmd : LinkCmd) : List HostOp :=
  match cmd with
  | .ppr n => asmPpr ch n
  | .reset => asmReset
  | .stop => asmStop
  | .move m => asmMove ch .full .sine m

/-- The front end begins to issue a command. -/
def beginCommand (cmd : LinkCmd) (follow : Follow) (s : State) : State := setPhase (.writing cmd 0 follow) s

/-- A line is taken up (R93, R94): its command, or its first move, begins; a line of no accepted form is dropped. -/
def takeLine (line : List Char) (s : State) : State :=
  match parseLine line with
  | some (.ppr n) => beginCommand (.ppr n) .nothing s
  | some .reset => beginCommand .reset .nothing s
  | some .stop => beginCommand .stop .nothing s
  | some (.move m) => beginCommand (.move m) (.first []) s
  | some (.batch m ms) => beginCommand (.move m) (.first ms) s
  | none => s

/-- The first line in the inbox is taken up. -/
def takeNextLine (s : State) : State :=
  match s.link.inbox with
  | [] => s
  | line :: lines => takeLine line { s with link := { s.link with inbox := lines } }

/-- After the last write of a command: a move's status is looked at next. -/
def commandIssued (follow : Follow) (s : State) : State :=
  match follow with
  | .nothing => setPhase .ready s
  | .first rest => setPhase (.checking (.first rest)) s
  | .next rest => setPhase (.checking (.next rest)) s

/-- The write numbered `k` of a command, in one step (20_memory.md R67). -/
def writeStep (cmd : LinkCmd) (k : Nat) (follow : Follow) (s : State) : Out :=
  match (linkWrites s.params.linkChannel cmd).drop k with
  | [] => .next (commandIssued follow s)
  | [op] => andThen (busAccess op s) fun t => .next (commandIssued follow t)
  | op :: _ => andThen (busAccess op s) fun t => .next (setPhase (.writing cmd (k + 1) follow) t)

/-- Whether CMD_STATUS.CODE is OK. -/
def statusOk (s : State) : Bool := s.cmdStatus.extractLsb' 0 4 == StatusCode.ok.bits

/-- What follows a move whose status is `ok` or not (R94, R95). The first move of a line is awaited if it was accepted, and
otherwise nothing follows; if a move of an earlier line is awaited still, that move has ended, and its `DONE` is sent
first. A later move of a batch that is refused ends the batch, whose last accepted move has ended, so `DONE` follows. -/
def moveChecked (ok : Bool) (follow : Follow) (s : State) : State :=
  match follow with
  | .nothing => setPhase .ready s
  | .first rest =>
    if ok then awaitMove rest (if s.link.job.isSome then sendDone s else s) else setPhase .ready s
  | .next rest => if ok then awaitMove rest s else sendDone s

/-- The read of CMD_STATUS after a move's CMD write. -/
def checkStep (follow : Follow) (s : State) : Out :=
  andThen (busRead Reg.cmdStatus.offset 4 s) fun t => .next (moveChecked (statusOk s) follow t)

/-- Bit 0 of CH_STATE of LINK_CHANNEL. -/
def linkMoving (s : State) : Bool := (readReg s (.chan s.params.linkChannel.toNat .state)).getLsbD 0

/-- CH_LAST[3:0] of LINK_CHANNEL. -/
def linkResult (s : State) : BitVec 4 := (readReg s (.chan s.params.linkChannel.toNat .last)).extractLsb' 0 4

/-- The read of CH_LAST before the next move of a batch: it follows if the result is COMPLETE, else the line is over and
`DONE` is sent (R94, R95). -/
def judgeStep (m : MoveLine) (rest : List MoveLine) (s : State) : Out :=
  andThen (busRead (Reg.chan s.params.linkChannel.toNat .last).offset 4 s) fun t =>
    .next (if linkResult s = Result.complete.code then beginCommand (.move m) (.next rest) t else sendDone t)

/-- What follows a look at an awaited move: nothing while it runs; at its end the result of a batch's move is read next, and
`DONE` is sent after the last move of a line (R94, R95). -/
def moveLookedAt (moving : Bool) (rest : List MoveLine) (s : State) : State :=
  if moving then s
  else
    match rest with
    | [] => sendDone s
    | m :: ms => setPhase (.judging m ms) s

/-- The read of CH_STATE with which the front end looks whether the awaited move has ended. -/
def pollStep (rest : List MoveLine) (s : State) : Out :=
  andThen (busRead (Reg.chan s.params.linkChannel.toNat .state).offset 4 s) fun t =>
    .next (moveLookedAt (linkMoving s) rest t)

/-- Whether a line is a MOVE or BATCH line. -/
def isMotionLine (line : List Char) : Bool :=
  match parseLine line with
  | some (.ppr _) => false
  | some .reset => false
  | some .stop => false
  | some (.move _) => true
  | some (.batch _ _) => true
  | none => false

/-- Whether the next line may be taken up while a move is awaited: there is one, and it does not put a move between the moves
of a batch. -/
def mayTakeLine (rest : List MoveLine) (s : State) : Bool :=
  match s.link.inbox with
  | [] => false
  | line :: _ => rest.isEmpty || !isMotionLine line

/-- A step while a move is awaited: a look at it, or the next line; where both are possible the choice is a free value. -/
def awaitStep (rest : List MoveLine) (s : State) : Out :=
  if mayTakeLine rest s then
    (if Config.takesLine s.draws then .next (takeNextLine { s with draws := s.draws + 1 })
     else pollStep rest { s with draws := s.draws + 1 })
  else pollStep rest s

/-- One step of the front end: one register access, or the taking up of a line. -/
def linkStep (s : State) : Out :=
  match s.link.phase with
  | .writing cmd k follow => writeStep cmd k follow s
  | .checking follow => checkStep follow s
  | .judging m rest => judgeStep m rest s
  | .ready =>
    match s.link.job with
    | some rest => awaitStep rest s
    | none => .next (takeNextLine s)

/-- Whether the front end has a step to take. -/
def linkEnabled (s : State) : Bool := s.link.phase != .ready || s.link.job.isSome || !s.link.inbox.isEmpty

end Sys2Proof.Machine
end

