-- ==== Sys2Proof/Machine/Sequencer.lean ====
section
/-! DEFINITION. `pulse_delay_sequencer` (42_pulse_delay_sequencer.md): ticks, the direct-mode and chunked-mode sequencer of a
channel, one labelled step at a time, and the waveform engine. A wait is no more than the step that ends it
(00_scope.md R8). -/

namespace Sys2Proof.Machine

open Binary64

/-- `ticks(d)` (R151), saturating at 2^32 - 1 (R152), also of a product that is not finite. DEDUCED, unsafe only where no
run comes: log entry 9. -/
def ticks (p : Params) (d : B64) : Word :=
  let q := mul d (ofNat p.tickHz.toNat)
  if finite q then BitVec.ofNat 32 (min (floor q).toNat 4294967295) else 4294967295#32

/-- A delay is valid when it is positive and lasts at least one tick (R153). -/
def validDelay (p : Params) (d : B64) : Bool := lt 0#64 d && ticks p d != 0#32

/-- `[S1]` and `[C1]` on an empty sequence: one check of RUN (R166). -/
def emptyResult (s : State) : Result := if s.run then .complete else .cancelled

/-- `[S2]` (R155): the end test, the RUN check, then the next delay, dropped or begun as a pulse. -/
def directCheck (c : Nat) (ch : Channel) (s : State) : State :=
  if ch.idx = ch.total then finish c ch .complete s
  else if s.run = false then finish c ch .cancelled s
  else
    let d := delayOf s.params ch ch.idx.toNat
    if validDelay s.params d then
      s.setChan c { ch.raiseStep (ticks s.params d) with seq := .s3 (ticks s.params d) }
    else s.setChan c { ch with dropped := ch.dropped + 1#32, idx := ch.idx + 1#32 }

/-- The end of the chunk that begins at `idx` (R161). -/
def chunkEnd (p : Params) (ch : Channel) : Nat := min (ch.idx.toNat + p.chunkSize.toNat) ch.total.toNat

/-- The tick counts of the valid delays among the `n` delays from index `i` (R161). -/
def chunkTicks (p : Params) (ch : Channel) (i n : Nat) : List Word :=
  (List.range' i n).filterMap fun j =>
    if validDelay p (delayOf p ch j) then some (ticks p (delayOf p ch j)) else none

/-- The chunk buffer of the tick counts `ks`: a high and a low entry each (R161). -/
def chunkEntries (ks : List Word) : List (Bool × Word) := ks.flatMap fun k => [(true, k), (false, k)]

/-- One answer of the WAVE_FAULT oracle, `true` rejecting the submission, and the state after it is drawn (R163). -/
def drawWaveFault (s : State) : Bool × State :=
  match s.waveAnswers with
  | a :: rest => (a, { s with waveAnswers := rest })
  | [] =>
    match s.params.waveFault with
    | .never => (false, s)
    | .anyAnswer => (Config.waveFault s.draws, { s with draws := s.draws + 1 })

/-- A submitted chunk: the engine starts on `ks` and the sequencer waits at `[C3]` (R160, R161). -/
def Channel.submitted (ch : Channel) (ks : List Word) (ndrop e : Nat) : Channel :=
  { ch with
    buffer := chunkEntries ks
    chunkValid := ks.length
    playPos := some 0
    waveBusy := true
    seq := .c3 ndrop e }

/-- `[C2]` (R161): the end test, the chunk's construction, the RUN check, the skip of a chunk with no valid delay
(R164), the fault draw (R163), the submission. -/
def chunkCheck (c : Nat) (ch : Channel) (s : State) : State :=
  let e := chunkEnd s.params ch
  let ks := chunkTicks s.params ch ch.idx.toNat (e - ch.idx.toNat)
  let ndrop := e - ch.idx.toNat - ks.length
  if ch.idx = ch.total then finish c ch .complete s
  else if s.run = false then finish c ch .cancelled s
  else if ks.isEmpty then
    s.setChan c { ch with dropped := ch.dropped + BitVec.ofNat 32 ndrop, idx := BitVec.ofNat 32 e }
  else
    let w := drawWaveFault s
    if w.1 then finish c ch .hwFault w.2 else w.2.setChan c (ch.submitted ks ndrop e)

/-- `[C3]` once the engine is done (R161, R165): the chunk's delays are counted. -/
def Channel.chunkPlayed (ch : Channel) (ndrop e : Nat) : Channel :=
  { ch with
    steps := ch.steps + BitVec.ofNat 32 ch.chunkValid
    dropped := ch.dropped + BitVec.ofNat 32 ndrop
    idx := BitVec.ofNat 32 e
    chunkValid := 0
    seq := .c2 }

/-- One step of the sequencer of channel `c` (R155, R161). A sequencer with no move, and one at `[C3]` whose engine still
plays, takes no step. -/
def sequencerStep (c : Nat) (s : State) : State :=
  match s.chans[c]? with
  | none => s
  | some ch =>
    match ch.seq with
    | .idle => s
    | .s0 => s.setChan c { ch with seq := .s1 }
    | .s1 => if ch.total = 0#32 then finish c ch (emptyResult s) s else s.setChan c { ch with seq := .s2 }
    | .s2 => directCheck c ch s
    | .s3 k => s.setChan c { ch with stepPin := false, seq := .s4 k }
    | .s4 _ => s.setChan c { ch with steps := ch.steps + 1#32, idx := ch.idx + 1#32, seq := .s2 }
    | .c0 => s.setChan c { ch with seq := .c1 }
    | .c1 => if ch.total = 0#32 then finish c ch (emptyResult s) s else s.setChan c { ch with seq := .c2 }
    | .c2 => chunkCheck c ch s
    | .c3 ndrop e => if ch.waveBusy then s else s.setChan c (ch.chunkPlayed ndrop e)

/-- The entry at the play position drives STEP; a high entry followed by its low entry of the same length records the
pulse (R160). -/
def Channel.driveEntry (ch : Channel) (pos : Nat) : Channel :=
  match ch.buffer.drop pos with
  | (true, k) :: (false, k') :: _ => if k = k' then ch.raiseStep k else { ch with stepPin := true }
  | (level, _) :: _ => { ch with stepPin := level }
  | [] => ch

/-- The engine moves on to the next entry, or after the last one stops and releases the buffer (R160). DEDUCED,
unsafe: log entry 13; on a malformed buffer a DESIGN CHOICE, log entry 14. -/
def Channel.advanceEngine (ch : Channel) (pos : Nat) : Channel :=
  if pos + 1 < ch.buffer.length then { ch with playPos := some (pos + 1) }
  else { ch with playPos := none, buffer := [], waveBusy := false }

/-- One step of the waveform engine of channel `c`: one entry (R160). An engine with no chunk takes no step. -/
def engineStep (c : Nat) (s : State) : State :=
  match s.chans[c]? with
  | none => s
  | some ch =>
    if ch.waveBusy then
      s.setChan c ((ch.driveEntry (ch.playPos.getD 0)).advanceEngine (ch.playPos.getD 0))
    else s

/-- One step of the time base: one tick, modulo 2^64 (10_state.md R27). -/
def timeBaseStep (s : State) : State := { s with time := s.time + 1#64 }

end Sys2Proof.Machine
end

