-- ==== Sys2Proof/Machine/Agents.lean ====
section
/-! DEFINITION. The agents (00_scope.md R7): which are enabled, and the step each takes. -/

namespace Sys2Proof.Machine

/-- Whether a channel's sequencer has a step to take: it runs a move, and at `[C3]` its engine is done
(42_pulse_delay_sequencer.md R161). -/
def sequencerEnabled (ch : Channel) : Bool :=
  match ch.seq with
  | .idle => false
  | .s0 => true
  | .s1 => true
  | .s2 => true
  | .s3 _ => true
  | .s4 _ => true
  | .c0 => true
  | .c1 => true
  | .c2 => true
  | .c3 _ _ => !ch.waveBusy

/-- Whether an agent has a step to take. The time base always has. -/
def agentEnabled (s : State) (a : Agent) : Bool :=
  match a with
  | .host => hostEnabled s
  | .link => linkEnabled s
  | .sequencer c =>
    match s.chans[c]? with
    | some ch => sequencerEnabled ch
    | none => false
  | .engine c =>
    match s.chans[c]? with
    | some ch => ch.waveBusy
    | none => false
  | .timeBase => true

/-- The agents of a block with `n` channels (00_scope.md R7). -/
def agents (n : Nat) : List Agent :=
  [.host, .link, .timeBase] ++ (List.range n).flatMap fun c => [.sequencer c, .engine c]

/-- The place of an agent in `agents`. -/
def Agent.index : Agent → Nat
  | .host => 0
  | .link => 1
  | .timeBase => 2
  | .sequencer c => 3 + 2 * c
  | .engine c => 4 + 2 * c

/-- The enabled agents. -/
def enabledAgents (s : State) : List Agent := (agents s.numChannels).filter (agentEnabled s)

/-- The turn before which an agent was last renewed. -/
def State.renewedOf (s : State) (a : Agent) : Nat := s.renewed.getD a.index 0

/-- When an agent is due: the turn before which it was last renewed, and as many more as the free value lets it wait. -/
def due (s : State) (a : Agent) : Nat := s.renewedOf a + Config.patience (s.renewedOf a) a.index

/-- The earlier due of two agents, the first if both are due at once. -/
def earlier (s : State) (a b : Agent) : Agent := if due s b < due s a then b else a

/-- The enabled agent that is due first takes a free turn. An agent is renewed by its own turn and whenever it is not enabled,
so one that stays enabled keeps the turn it is due at, and the others, once renewed after that turn, are due later: it is
weakly fair whatever the free values are, and every weakly fair order is that of some free values (00_scope.md R7).
DESIGN CHOICE, safe: log entry 2. -/
def freeAgent (s : State) : Agent := (enabledAgents s).foldl (earlier s) .timeBase

/-- The agents renewed by a free turn of `a`: `a` itself and every agent that is not enabled. -/
def renewedAfter (a : Agent) (s : State) : List Nat :=
  (agents s.numChannels).map fun b => if b = a ∨ agentEnabled s b = false then s.turn + 1 else s.renewedOf b

/-- One step of an agent. An agent that is not enabled takes no step. DESIGN CHOICE, safe: log entry 2. -/
def agentStep (a : Agent) (s : State) : Out :=
  match a with
  | .host => hostStep s
  | .link => linkStep s
  | .sequencer c => .next (sequencerStep c s)
  | .engine c => .next (engineStep c s)
  | .timeBase => .next (timeBaseStep s)

/-- The agent whose turn it is: the one listed next, else the free choice. -/
def nextAgent (s : State) : Agent :=
  match s.sched with
  | a :: _ => a
  | [] => freeAgent s

/-- The turn is taken from the list, or it is a free turn. -/
def takeTurn (s : State) : State :=
  match s.sched with
  | _ :: rest => { s with sched := rest }
  | [] => { s with turn := s.turn + 1, renewed := renewedAfter (freeAgent s) s }

/-- One step of the block: of one agent, all others still (20_memory.md R70). -/
def blockStep (s : State) : Out := agentStep (nextAgent s) (takeTurn s)

/-- The state in which the host's next access, and the next turn, is a write of `w` to CMD. -/
def placeCommand (s : State) (w : Word) : State :=
  { s with host := wr .cmd w :: s.host, sched := .host :: s.sched }

end Sys2Proof.Machine
end

