-- ==== Sys2Proof/Machine/Step.lean ====
section
/-! DEFINITION. The step function and the placing of one command. -/

namespace Sys2Proof.Machine

/-- One step (00_scope.md R7, 20_memory.md R70). -/
def step (s : State) : Host.Outcome State Fault Refusal := blockStep s

/-- The block fetches no instruction (10_state.md R21): a command runs when the host writes it to CMD. So the word is
placed as the host's next access, and the next turn is the host's. Bits at `nbits` and above are 0. -/
def State.withFetchWord (s : State) (nbits w : Nat) : State := placeCommand s (BitVec.ofNat 32 (w % 2 ^ nbits))

end Sys2Proof.Machine
end

