-- ==== Sys2Proof/Machine/AsmSyntax.lean ====
section
/-! DEFINITION. The assembler's text (30_encoding.md R91, R92): a statement read as the host accesses it stands for. What
the rules leave open of the text (spaces, letter case of digits, separators of statements, the grammar of a decimal, the
values a mnemonic's operands may be) is log entry 27. -/

namespace Sys2Proof.Machine

/-- A text less its leading spaces. -/
def dropSpaces : List Char → List Char
  | [] => []
  | c :: cs => if c = ' ' then dropSpaces cs else c :: cs

/-- A text less its leading and trailing spaces. -/
def trimSpaces (cs : List Char) : List Char := (dropSpaces (dropSpaces cs).reverse).reverse

/-- The text up to the first space, and what follows it. -/
def spanWord : List Char → List Char × List Char
  | [] => ([], [])
  | c :: cs => if c = ' ' then ([], cs) else (c :: (spanWord cs).1, (spanWord cs).2)

/-- The hexadecimal digit a character is. -/
def hexDigitOf (c : Char) : Option Nat :=
  if '0' ≤ c ∧ c ≤ '9' then some (c.toNat - 48)
  else if 'a' ≤ c ∧ c ≤ 'f' then some (c.toNat - 87)
  else if 'A' ≤ c ∧ c ≤ 'F' then some (c.toNat - 55)
  else none

/-- The number a text of hexadecimal digits writes, after the value `n` read so far. -/
def hexFrom (n : Nat) : List Char → Option Nat
  | [] => some n
  | c :: cs =>
    match hexDigitOf c with
    | some d => hexFrom (16 * n + d) cs
    | none => none

/-- A hexadecimal integer less its `0x`, with a value below 2^32. -/
def parseHex (cs : List Char) : Option Word :=
  if cs = [] then none
  else
    match hexFrom 0 cs with
    | some n => if n < 2 ^ 32 then some (BitVec.ofNat 32 n) else none
    | none => none

/-- The text between `head` and the closing parenthesis, of a text of that form. -/
def betweenParens (head cs : List Char) : Option (List Char) :=
  match afterWord head cs with
  | some rest => if rest.getLast? = some ')' then some rest.dropLast else none
  | none => none

/-- A hexadecimal or decimal integer (R91). R91 does not say whether a decimal integer may carry a sign: none is read, neither
`-` nor `+`. DESIGN CHOICE, safe: log entry 27. -/
def parseInt32 (cs : List Char) : Option Word :=
  match afterWord "0x".toList cs with
  | some t => parseHex t
  | none => parseU32 cs

/-- `<value>` (R91): an integer, or one half of the binary64 nearest to a decimal. R91 gives no grammar for the decimal: it is
read as the literal of R93, with a sign and an exponent allowed and digits needed on both sides of a point. DESIGN CHOICE,
safe: log entry 27. -/
def parseValue (cs : List Char) : Option Word :=
  match betweenParens "lo(".toList cs with
  | some t => (parseFloat (trimSpaces t)).map lo32
  | none =>
    match betweenParens "hi(".toList cs with
    | some t => (parseFloat (trimSpaces t)).map hi32
    | none => parseInt32 cs

/-- The channel operand `c`: an integer that fits the CH field (R81). -/
def parseChannel (cs : List Char) : Option (BitVec 4) :=
  match parseInt32 cs with
  | some n => if n.toNat < 16 then some (BitVec.ofNat 4 n.toNat) else none
  | none => none

/-- The names of the control registers (10_state.md R42). -/
def controlNames : List (String × Reg) :=
  [ ("ID", .id), ("CAPS", .caps), ("TICK_HZ", .tickHz), ("RUNFLAG", .runflag), ("CMD", .cmd),
    ("CMD_STATUS", .cmdStatus), ("IRQ_STATUS", .irqStatus), ("IRQ_ENABLE", .irqEnable), ("TIME_LO", .timeLo),
    ("TIME_HI", .timeHi), ("MIN_DELAY_LO", .minDelayLo), ("MIN_DELAY_HI", .minDelayHi),
    ("RAMP_BASE_LO", .rampBaseLo), ("RAMP_BASE_HI", .rampBaseHi), ("DIR_SETUP", .dirSetup) ]

/-- The names of the argument registers (10_state.md R23). -/
def argNames : List (String × Reg) :=
  [ ("ARG0", .arg 0), ("ARG1", .arg 1), ("ARG2", .arg 2), ("ARG3", .arg 3), ("ARG4", .arg 4), ("ARG5", .arg 5),
    ("ARG6", .arg 6), ("ARG7", .arg 7) ]

/-- The names of the snapshot registers (10_state.md R29). -/
def snapNames : List (String × Reg) :=
  [ ("SNAP_CTRL", .snapCtrl), ("SNAP_FLAGS", .snapFlags), ("SNAP_PULSES_LO", .snapPulsesLo),
    ("SNAP_PULSES_HI", .snapPulsesHi), ("SNAP_REVS_LO", .snapRevsLo), ("SNAP_REVS_HI", .snapRevsHi),
    ("SNAP_RUNTIME_LO", .snapRuntimeLo), ("SNAP_RUNTIME_HI", .snapRuntimeHi), ("SNAP_START_LO", .snapStartLo),
    ("SNAP_START_HI", .snapStartHi), ("SNAP_LABEL", .snapLabel), ("SNAP_STEPS", .snapSteps) ]

/-- The names of the global registers. -/
def globalNames : List (String × Reg) := controlNames ++ argNames ++ snapNames

/-- The names of the registers of a channel's block (10_state.md R42), written with the channel in parentheses. -/
def channelNames : List (String × ChReg) :=
  [ ("CH_STATE", .state), ("CH_PPR", .ppr), ("CH_LAST", .last), ("CH_TOTAL_STEPS", .totalSteps),
    ("CH_RAMP_STEPS", .rampSteps), ("CH_CRUISE_STEPS", .cruiseSteps), ("CH_STEPS_EMITTED", .stepsEmitted),
    ("CH_INDEX", .index), ("CH_DROPPED", .dropped), ("CH_LABEL", .label), ("CH_PULSES_LO", .pulsesLo),
    ("CH_PULSES_HI", .pulsesHi), ("CH_REVS_LO", .revsLo), ("CH_REVS_HI", .revsHi), ("CH_RUNTIME_LO", .runtimeLo),
    ("CH_RUNTIME_HI", .runtimeHi) ]

/-- The entry of a name in a table. -/
def lookupName {α : Type} (cs : List Char) (table : List (String × α)) : Option α :=
  match table with
  | [] => none
  | (name, a) :: rest => if name.toList = cs then some a else lookupName cs rest

/-- `<reg>` (R91): a register name, a channel's with its number, as in `CH_STATE(0)`. -/
def parseReg (cs : List Char) : Option Reg :=
  match splitAtSep '(' cs with
  | [name] => lookupName name globalNames
  | [name, num] =>
    if num.getLast? = some ')' then
      match lookupName name channelNames, parseChannel num.dropLast with
      | some r, some c => some (.chan c.toNat r)
      | _, _ => none
    else none
  | _ => none

/-- `<P>` (R92). -/
def parseProfile (cs : List Char) : Option Profile :=
  lookupName cs [("FULL", .full), ("UP", .rampUpOnly), ("DOWN", .rampDownOnly)]

/-- `<K>` (R92). -/
def parseCurve (cs : List Char) : Option Curve := lookupName cs [("SINE", .sine), ("LINEAR", .linear)]

/-- The operands `d, s, t, r` and `d, s, t, r, n` of a MOVE mnemonic (R92). R92 gives no grammar for the decimals `s, t, r`:
they are read as the literal of R93; `n` stands in `WR ARG6, n` and is any `<value>` of R91. DESIGN CHOICE, safe: log
entry 27. -/
def parseMoveOperands (ops : List (List Char)) : Option MoveLine :=
  match ops with
  | [d, s, t, r] =>
    match parseDirection d, parseFloat s, parseFloat t, parseFloat r with
    | some d, some s, some t, some r => some ⟨s, t, r, d, none⟩
    | _, _, _, _ => none
  | [d, s, t, r, n] =>
    match parseDirection d, parseFloat s, parseFloat t, parseFloat r, parseValue n with
    | some d, some s, some t, some r, some n => some ⟨s, t, r, d, some n⟩
    | _, _, _, _, _ => none
  | _ => none

/-- A statement without operands (R92). -/
def parsePlain (head : List Char) : Option (List HostOp) :=
  lookupName head [("STOP", asmStop), ("RESET", asmReset)]

/-- A statement with one operand (R91, R92). -/
def parseUnary (head a : List Char) : Option (List HostOp) :=
  if head = "RD".toList then (parseReg a).map fun r => [rd r]
  else if head = "WAITDONE".toList then (parseChannel a).map fun c => [.waitDone c.toNat]
  else if head = "SETEMIT.DIRECT".toList then (parseChannel a).map fun c => asmSetemit c .direct
  else if head = "SETEMIT.CHUNKED".toList then (parseChannel a).map fun c => asmSetemit c .chunked
  else if head = "CLRSTAT".toList then (parseChannel a).map asmClrstat
  else if head = "SNAP".toList then (parseChannel a).map asmSnap
  else none

/-- A statement with two operands (R91, R92). The operands `n` of PPR and `v` of SETLABEL stand in `WR ARG0, n` and are any
`<value>` of R91, `lo(..)` and `hi(..)` among them. DESIGN CHOICE, safe: log entry 27. -/
def parseBinary (head a b : List Char) : Option (List HostOp) :=
  if head = "WR".toList then
    match parseReg a, parseValue b with
    | some r, some v => some [wr r v]
    | _, _ => none
  else if head = "PPR".toList then
    match parseChannel a, parseValue b with
    | some c, some n => some (asmPpr c n)
    | _, _ => none
  else if head = "SETLABEL".toList then
    match parseChannel a, parseValue b with
    | some c, some v => some (asmSetlabel c v)
    | _, _ => none
  else none

/-- `MOVE.<P>.<K> c, ...` (R92). -/
def parseMoveStatement (head : List Char) (c : List Char) (ops : List (List Char)) : Option (List HostOp) :=
  match splitAtSep '.' head with
  | [m, p, k] =>
    if m = "MOVE".toList then
      match parseChannel c, parseProfile p, parseCurve k, parseMoveOperands ops with
      | some c, some p, some k, some m => some (asmMove c p k m)
      | _, _, _, _ => none
    else none
  | _ => none

/-- One statement of a host program: the accesses it stands for (R91, R92), `none` where it is none. -/
def parseStatement (cs : List Char) : Option (List HostOp) :=
  let w := spanWord (trimSpaces cs)
  let ops := (splitAtSep ',' w.2).map trimSpaces
  match ops with
  | [] => none
  | [[]] => parsePlain w.1
  | [a] => parseUnary w.1 a
  | [a, b] => parseBinary w.1 a b
  | c :: rest => parseMoveStatement w.1 c rest

/-- The accesses of the statements of a program, one after the other; `none` if one is no statement. -/
def assemble : List (List Char) → Option (List HostOp)
  | [] => some []
  | st :: sts =>
    match parseStatement st, assemble sts with
    | some a, some b => some (a ++ b)
    | _, _ => none

end Sys2Proof.Machine
end

