-- ==== Sys2Proof/Safety.lean ====
section
/-! DEFINITION. What a legal configuration is (00_scope.md R6) and what every state of a run satisfies: the invariant the
statements speak of. -/

namespace Sys2Proof.Machine

open Binary64

/-- The legal ranges of every parameter but SIN_FN, on a block of `n` channels (00_scope.md R6). DIR_SETUP_TICKS and
WAVE_FAULT are free. -/
def legalRanges (p : Params) (n : Nat) : Bool :=
  decide (1 ≤ n) && decide (n ≤ 16)
    && decide (1 ≤ p.tickHz.toNat)
    && finite p.minDelay && lt 0#64 p.minDelay
    && decide (1 ≤ floor (mul p.minDelay (ofNat p.tickHz.toNat)))
    && decide (1 ≤ p.chunkSize.toNat)
    && finite p.rampBase && le 0#64 p.rampBase
    && decide (p.linkChannel.toNat < n)

/-- SIN_FN keeps delays finite: at every sample of the ramp of every move that `validate` accepts, the sine law gives a finite
value, up the ramp and down, so that the floor is applied to a finite value as 41_ramp_profile_generator.md R135 says.
What SIN_FN gives anywhere else does not matter. The default sine does so. DEDUCED, safe: log entry 28. -/
def sineKeepsFinite (p : Params) : Prop :=
  match p.sinFn with
  | .correctlyRounded => True
  | .table _ =>
    ∀ (ppr : Word) (startRpm targetRpm runTime : B64) (ramp : Option Word) (k r : Nat),
      validate p ppr startRpm targetRpm runTime = none →
      r = rampSteps p startRpm targetRpm ramp (totalSteps ppr targetRpm runTime) → k < r →
      finite (sineEase p.sinFn (progress k r) (halfStepDelay ppr startRpm) (halfStepDelay ppr targetRpm)) = true ∧
        finite (sineEase p.sinFn (progress k r) (halfStepDelay ppr targetRpm) (halfStepDelay ppr startRpm)) = true

/-- A legal configuration on a block of `n` channels: the ranges of 00_scope.md R6, and of the functions R6 admits for SIN_FN,
which take +0 to +0, one with which R135 of 41_ramp_profile_generator.md holds (log entry 28). -/
def legalParams (p : Params) (n : Nat) : Prop := legalRanges p n = true ∧ sineKeepsFinite p

/-- The sequencer stands in the label set of its emission mode (43_motion_commands.md R181, 44_control_commands.md
R214). -/
def modeMatches (ch : Channel) : Prop :=
  match ch.seq with
  | .idle => True
  | .s0 => ch.emit = .direct
  | .s1 => ch.emit = .direct
  | .s2 => ch.emit = .direct
  | .s3 _ => ch.emit = .direct
  | .s4 _ => ch.emit = .direct
  | .c0 => ch.emit = .chunked
  | .c1 => ch.emit = .chunked
  | .c2 => ch.emit = .chunked
  | .c3 _ _ => ch.emit = .chunked

/-- No chunk is playing and STEP has the given level. -/
def engineStill (ch : Channel) (step : Bool) : Prop :=
  ch.stepPin = step ∧ ch.waveBusy = false ∧ ch.buffer = [] ∧ ch.playPos = none

/-- The chunk of the tick counts `ks` plays and `pos` entries of it have been played; STEP is high between the two
entries of a pulse (42_pulse_delay_sequencer.md R160). -/
def enginePlays (ch : Channel) (ks : List Word) (pos : Nat) : Prop :=
  ch.waveBusy = true ∧ ch.buffer = chunkEntries ks ∧ ks.length = ch.chunkValid ∧ ch.playPos = some pos
    ∧ pos < 2 * ks.length ∧ ch.stepPin = decide (pos % 2 = 1)

/-- STEP and the waveform engine, by the sequencer's position (42_pulse_delay_sequencer.md R155, R160, R161, R169). -/
def emissionShape (ch : Channel) : Prop :=
  match ch.seq with
  | .s3 _ => engineStill ch true ∧ ch.chunkValid = 0
  | .c3 _ _ => engineStill ch false ∨ ∃ ks pos, enginePlays ch ks pos
  | .idle => engineStill ch false ∧ ch.chunkValid = 0
  | .s0 => engineStill ch false ∧ ch.chunkValid = 0
  | .s1 => engineStill ch false ∧ ch.chunkValid = 0
  | .s2 => engineStill ch false ∧ ch.chunkValid = 0
  | .s4 _ => engineStill ch false ∧ ch.chunkValid = 0
  | .c0 => engineStill ch false ∧ ch.chunkValid = 0
  | .c1 => engineStill ch false ∧ ch.chunkValid = 0
  | .c2 => engineStill ch false ∧ ch.chunkValid = 0

/-- How far the index may have come, by the sequencer's position (10_state.md R35, 42_pulse_delay_sequencer.md R161). -/
def indexInRange (ch : Channel) : Prop :=
  match ch.seq with
  | .s3 _ => ch.idx.toNat < ch.total.toNat
  | .s4 _ => ch.idx.toNat < ch.total.toNat
  | .c3 ndrop e => ch.idx.toNat + ch.chunkValid + ndrop = e ∧ e ≤ ch.total.toNat
  | .idle => ch.idx.toNat ≤ ch.total.toNat
  | .s0 => ch.idx.toNat ≤ ch.total.toNat
  | .s1 => ch.idx.toNat ≤ ch.total.toNat
  | .s2 => ch.idx.toNat ≤ ch.total.toNat
  | .c0 => ch.idx.toNat ≤ ch.total.toNat
  | .c1 => ch.idx.toNat ≤ ch.total.toNat
  | .c2 => ch.idx.toNat ≤ ch.total.toNat

/-- Ramp and constant phase add up to the total (41_ramp_profile_generator.md R126). -/
def phasesAddUp (ch : Channel) : Prop :=
  match ch.profile with
  | .full => 2 * ch.ramp.toNat + ch.cruise.toNat = ch.total.toNat
  | .rampUpOnly => ch.ramp.toNat + ch.cruise.toNat = ch.total.toNat
  | .rampDownOnly => ch.ramp.toNat + ch.cruise.toNat = ch.total.toNat

/-- What holds of a channel in every state of a run. -/
structure Channel.Inv (ch : Channel) : Prop where
  /-- MOVING exactly while the sequencer has a move (R194, 70_reset_and_hazards.md R271). -/
  moving_iff : ch.moving = true ↔ ch.seq ≠ .idle
  mode : modeMatches ch
  shape : emissionShape ch
  index : indexInRange ch
  /-- Every index passed was emitted or dropped (42_pulse_delay_sequencer.md R161). -/
  counts : ch.steps.toNat + ch.dropped.toNat = ch.idx.toNat
  /-- The ramp is clamped to half the total (41_ramp_profile_generator.md R123, R125). -/
  ramp_le : ch.ramp.toNat ≤ ch.total.toNat / 2
  phases : phasesAddUp ch
  /-- `result` is NONE while a move runs (10_state.md R33). -/
  no_result : ch.moving = true → ch.result = .none
  /-- A moving channel is configured (43_motion_commands.md R190). -/
  configured : ch.moving = true → ch.ppr ≠ 0#32
  /-- `running` and `start_valid` are set and cleared together (10_state.md R38). -/
  running_iff : ch.running = ch.startValid
  moving_running : ch.moving = true → ch.running = true
  start_zero : ch.startValid = false → ch.runStart = 0#64

/-- What holds in every state of a run. -/
structure State.Inv (s : State) : Prop where
  legal : legalParams s.params s.numChannels
  /-- Invalid bits of IRQ_STATUS and IRQ_ENABLE are 0 (10_state.md R25). -/
  status_bits : s.irqStatus &&& ~~~(irqMask s.numChannels) = 0#16
  enable_bits : s.irqEnable &&& ~~~(irqMask s.numChannels) = 0#16
  /-- CMD_STATUS[31:16] reads 0 (10_state.md R24). -/
  cmd_status : s.cmdStatus.extractLsb' 16 16 = 0#16
  /-- The bits of SNAP_CTRL and SNAP_FLAGS that 10_state.md R29 names no field for are 0. -/
  snap_ctrl : s.snap.ctrl &&& 0x7FFFFFF0#32 = 0#32
  snap_flags : s.snap.flags &&& 0xFFFFFE7E#32 = 0#32
  channels : ∀ ch ∈ s.chans, ch.Inv
  /-- No IrqLevel event stands after a pin event that is not yet recorded (00_scope.md R9). -/
  irq_order : ∀ e ∈ s.irqEvents, ∀ (c : Nat) (ch : Channel), s.chans[c]? = some ch →
    e.recorded.getD c 0 ≤ ch.events.length

/-- The host makes no further access in a state in which nothing else raises `IRQ` any more: it only waits for `IRQ` and then has
no access left, or it waits for it at level 0. -/
def hostSilent (s : State) : Prop :=
  (∀ op ∈ s.host, op = .waitIrq) ∨ (irqLevel s = false ∧ s.host.head? = some .waitIrq)

/-- The front end makes no further access: it issues no command and awaits no move, and no line in its inbox has a command
(30_encoding.md R93). -/
def linkSilent (s : State) : Prop :=
  s.link.phase = .ready ∧ s.link.job = none ∧ ∀ line ∈ s.link.inbox, parseLine line = none

/-- The run is over when every channel is IDLE, no chunk is playing and the host, with its front end, makes no further access
(00_scope.md R8, 70_reset_and_hazards.md R294). Accesses behind a wait for `IRQ` that can no longer end are never made, so
they do not keep a run from being over. DEDUCED, unsafe: log entry 31. -/
def State.finished (s : State) : Prop :=
  hostSilent s ∧ linkSilent s ∧ ∀ ch ∈ s.chans, ch.moving = false ∧ ch.waveBusy = false

/-- An unending run: the states it passes through, a step from each to the next (20_memory.md R70). -/
def IsRun (f : Nat → State) : Prop := ∀ n, step (f n) = .next (f (n + 1))

/-- Weak fairness: an agent that is enabled from some state on takes a step from there on (00_scope.md R7). -/
def WeaklyFair (f : Nat → State) : Prop :=
  ∀ (a : Agent) (n : Nat), (∀ m, n ≤ m → agentEnabled (f m) a = true) → ∃ m, n ≤ m ∧ nextAgent (f m) = a

end Sys2Proof.Machine
end

