-- ==== Sys2Proof/Certificates/Slice0/Obligations.lean ====
section
/-! DEFINITION. The statements about the block, for the provers. -/

open Sys2Proof Sys2Proof.Machine Sys2Proof.Machine.Binary64

/-! ## Encoding -/

/-- No bit of a command word is dropped: a well-formed command survives encoding and decoding, with every operand at
every value (30_encoding.md R81, R84, R86). -/
def Obligations.DecodeEncodeRoundTrip : Prop :=
  ∀ (n : Nat) (i : Instr), i.wf n = true → decode n (encode i) = .ok i

/-- A word that decodes is the encoding of what it decodes to, and that command is well formed: each command has one
word (30_encoding.md R81, R86, R87, R90). -/
def Obligations.EncodeDecodeRoundTrip : Prop :=
  ∀ (n : Nat) (w : Word) (i : Instr), decode n w = .ok i → encode i = w ∧ i.wf n = true

/-- Words the spec writes out (44_control_commands.md, 43_motion_commands.md R180, 95_test_vectors.md section 6) decode to
the commands they stand for. -/
def Obligations.SpecWordsDecode : Prop :=
  decode 2 0x00000001#32 = .ok (.ppr 0#4) ∧
  decode 2 0x00020102#32 = .ok (.setemit 1#4 .chunked) ∧
  decode 2 0x00011003#32 = .ok (.move 0#4 true .full .sine true) ∧
  decode 2 0x0000A003#32 = .ok (.move 0#4 false .rampUpOnly .linear false) ∧
  decode 2 0x00000004#32 = .ok .stop ∧
  decode 2 0x00000005#32 = .ok .reset ∧
  decode 2 0x00000006#32 = .ok (.clrstat 0#4) ∧
  decode 2 0x00000107#32 = .ok (.snap 1#4) ∧
  decode 2 0x00000108#32 = .ok (.setlabel 1#4)

/-- 30_encoding.md R86: the four checks in their order, with the used masks of the rule; and an ILLEGAL word changes
nothing but CMD_STATUS. The opcode, channel and profile fields are read from the word's number. -/
def Obligations.DecodeChecksInOrder : Prop :=
  (∀ (n : Nat) (w : Word),
    ((w.toNat % 256 = 0 ∨ 8 < w.toNat % 256) → decode n w = .error .unknownOpcode) ∧
    ∀ m : Word,
      ((m = 0x00000FFF#32 ∧ (w.toNat % 256 = 1 ∨ w.toNat % 256 = 6 ∨ w.toNat % 256 = 7 ∨ w.toNat % 256 = 8)) ∨
        (m = 0x00020FFF#32 ∧ w.toNat % 256 = 2) ∨
        (m = 0x0001FFFF#32 ∧ w.toNat % 256 = 3) ∨
        (m = 0x000000FF#32 ∧ (w.toNat % 256 = 4 ∨ w.toNat % 256 = 5))) →
      (w &&& ~~~m ≠ 0#32 → decode n w = .error .unusedBitSet) ∧
      (w &&& ~~~m = 0#32 → w.toNat % 256 ≠ 4 → w.toNat % 256 ≠ 5 → n ≤ w.toNat / 256 % 16 →
        decode n w = .error .noSuchChannel) ∧
      (w &&& ~~~m = 0#32 → w.toNat % 256 = 3 → w.toNat / 256 % 16 < n → w.toNat / 8192 % 4 = 3 →
        decode n w = .error .reservedProfile) ∧
      (w &&& ~~~m = 0#32 →
        (w.toNat % 256 = 4 ∨ w.toNat % 256 = 5 ∨ w.toNat / 256 % 16 < n) →
        (w.toNat % 256 = 3 → w.toNat / 8192 % 4 ≠ 3) →
        ∃ i, decode n w = .ok i ∧ i.opcode.toNat = w.toNat % 256)) ∧
  (Illegal.unknownOpcode.detail = 1#4 ∧ Illegal.unusedBitSet.detail = 2#4 ∧ Illegal.noSuchChannel.detail = 3#4 ∧
    Illegal.reservedProfile.detail = 4#4) ∧
  ∀ (s : State) (w : Word) (e : Illegal), decode s.numChannels w = .error e →
    execWord w s = .next
      { s with
        cmdStatus := 0#16 ++ w.extractLsb' 0 8 ++ e.detail ++ 1#4
        statuses := (0#16 ++ w.extractLsb' 0 8 ++ e.detail ++ 1#4) :: s.statuses }

/-! ## A step runs the decoded command -/

/-- A step is one step of the agent whose turn it is, on the state with that turn taken. The turn is the one listed next, else
that of some enabled agent. The step of every agent is named: a sequencer, an engine, the time base, the front end; the
host makes the access it has next, a WAITDONE being one read of CH_STATE that is repeated until the channel is IDLE; a wait
for `IRQ` accesses nothing and is over when the level is 1, and until then the host has no step. A sequencer is enabled
while it has a move, at `[C3]` only when its engine is done, an engine while its chunk plays, the time base always, the
front end while it has an access to make, a move to await or a line; an agent that is not enabled takes no step. A write
to CMD executes its word, which runs the command it decodes to and nothing else; `withFetchWord` places a word so that the
next step runs it (00_scope.md R7, 20_memory.md R67, R69, 30_encoding.md R80, R91, 42_pulse_delay_sequencer.md R160, R161,
60_exceptions.md R259, 70_reset_and_hazards.md R275). The lists of turns and accesses, what a turn of an agent not enabled
does, the steps of the waits and the front end as an agent are the model's choice, log entries 1, 2, 15, 24 and 29. -/
def Obligations.StepRunsDecodedCommand : Prop :=
  (∀ s : State, step s = agentStep (nextAgent s) (takeTurn s)) ∧
  (∀ (s : State) (a : Agent) (rest : List Agent), s.sched = a :: rest →
    nextAgent s = a ∧ takeTurn s = { s with sched := rest }) ∧
  (∀ s : State, s.sched = [] → nextAgent s ∈ enabledAgents s ∧
    takeTurn s = { s with turn := s.turn + 1, renewed := (takeTurn s).renewed }) ∧
  (∀ (s : State) (c : Nat),
    agentStep (.sequencer c) s = .next (sequencerStep c s) ∧ agentStep (.engine c) s = .next (engineStep c s) ∧
    agentStep .timeBase s = .next (timeBaseStep s) ∧ agentStep .link s = linkStep s) ∧
  (∀ (s : State) (off width : Nat) (v : Word) (more : List HostOp),
    (s.host = .write off width v :: more → agentStep .host s = busWrite off width v { s with host := more }) ∧
    (s.host = .read off width :: more → agentStep .host s = busRead off width { s with host := more }) ∧
    (s.host = [] → agentStep .host s = .next s)) ∧
  (∀ (s : State) (c : Nat) (more : List HostOp), s.host = .waitDone c :: more →
    (∀ ch, s.chans[c]? = some ch → agentStep .host s = .next
      { s with
        host := if ch.moving then s.host else more
        reads := (0x100 + 0x40 * c, chStateWord ch) :: s.reads }) ∧
    (s.chans[c]? = none → agentStep .host s = .fault (.busError false (0x100 + 0x40 * c) 4))) ∧
  (∀ (s : State) (more : List HostOp), s.host = .waitIrq :: more →
    agentStep .host s = .next { s with host := if irqLevel s then more else s.host }) ∧
  (∀ s : State, agentEnabled s .host = true ↔
    ∃ op more, s.host = op :: more ∧ (op = .waitIrq → s.irqStatus &&& s.irqEnable ≠ 0#16)) ∧
  (∀ (s : State) (a : Agent), (a ∈ enabledAgents s ↔ agentEnabled s a = true) ∧
    (agentEnabled s a = false → agentStep a s = .next s)) ∧
  (∀ (s : State) (c : Nat),
    (∀ ch, s.chans[c]? = some ch →
      (agentEnabled s (.sequencer c) = true ↔
        ch.seq ≠ .idle ∧ ∀ ndrop e, ch.seq = .c3 ndrop e → ch.waveBusy = false) ∧
      (agentEnabled s (.engine c) = true ↔ ch.waveBusy = true)) ∧
    (s.chans[c]? = none → agentEnabled s (.sequencer c) = false ∧ agentEnabled s (.engine c) = false) ∧
    agentEnabled s .timeBase = true ∧
    (agentEnabled s .link = true ↔ s.link.phase ≠ .ready ∨ s.link.job ≠ none ∨ s.link.inbox ≠ [])) ∧
  (∀ (s : State) (w : Word), busWrite 0x010 4 w s = execWord w s) ∧
  (∀ (s : State) (w : Word) (i : Instr), decode s.numChannels w = .ok i → execWord w s = exec i s) ∧
  (∀ (s : State) (w : Word) (more : List HostOp) (i : Instr),
    s.host = .write 0x010 4 w :: more → decode s.numChannels w = .ok i →
    agentStep .host s = exec i { s with host := more }) ∧
  ∀ (s : State) (w : Word) (i : Instr), decode s.numChannels w = .ok i →
    step (s.withFetchWord 32 w.toNat) = exec i s

/-- Scheduling is weakly fair: in every unending run, an agent that is enabled from some state on takes a step from there on
(00_scope.md R7). How the free turns bring this about is the model's choice, log entry 2; every turn an agent could take
it can be given, by the list of turns. -/
def Obligations.SchedulingIsWeaklyFair : Prop :=
  (∀ f : Nat → State, IsRun f → WeaklyFair f) ∧
  ∀ (s : State) (a : Agent), nextAgent { s with sched := [a] } = a

/-! ## The commands: results, refusals, frames -/

/-- 44_control_commands.md R210: STOP clears RUN, in every state, and changes nothing else but CMD_STATUS. -/
def Obligations.StopClearsRun : Prop :=
  (∀ n : Nat, decode n 0x00000004#32 = .ok .stop) ∧
  ∀ s : State, exec .stop s = .next
    { s with run := false, cmdStatus := 0x00000400#32, statuses := 0x00000400#32 :: s.statuses }

/-- 44_control_commands.md R212: RESET with every channel IDLE re-arms RUN and clears statistics, labels, move records, DONE
bits and the snapshot; everything else is kept, and IRQ falls if it was high. While some channel is MOVING it is BUSY with
detail 2 and changes nothing but CMD_STATUS. -/
def Obligations.ResetRearmsAndClears : Prop :=
  (∀ n : Nat, decode n 0x00000005#32 = .ok .reset) ∧
  (∀ s : State, (∀ c ∈ s.chans, c.moving = false) →
    exec .reset s = .next
      { s with
        run := true
        chans := s.chans.map fun c =>
          { c with
            totalPulses := 0#64, totalRevolutions := 0#64, totalRunTime := 0#64
            running := false, startValid := false, runStart := 0#64, label := 0#32
            total := 0#32, ramp := 0#32, cruise := 0#32, steps := 0#32, idx := 0#32
            dropped := 0#32, result := .none, profile := .full, curve := .sine }
        irqStatus := 0#16
        irqEvents :=
          if s.irqStatus &&& s.irqEnable = 0#16 then s.irqEvents
          else { level := false, recorded := s.chans.map fun ch => ch.events.length } :: s.irqEvents
        snap := ⟨0#32, 0#32, 0#64, 0#64, 0#64, 0#64, 0#32, 0#32⟩
        cmdStatus := 0x00000500#32
        statuses := 0x00000500#32 :: s.statuses }) ∧
  ∀ (s : State) (c : Channel), c ∈ s.chans → c.moving = true →
    exec .reset s = .next { s with cmdStatus := 0x00000522#32, statuses := 0x00000522#32 :: s.statuses }

/-- 44_control_commands.md R213: PPR on an IDLE channel with a nonzero ARG0 sets `ppr` and changes nothing else; with
ARG0 = 0 it is INVALID_SPEC detail 1, on a MOVING channel BUSY detail 1, and the old value stays. -/
def Obligations.PprSetsPulsesPerRevolution : Prop :=
  (∀ (n : Nat) (ch : BitVec 4), ch.toNat < n →
    decode n (0x00000001#32 ||| ch.setWidth 32 <<< 8) = .ok (.ppr ch)) ∧
  ∀ (s : State) (ch : BitVec 4) (c : Channel), s.chans[ch.toNat]? = some c →
    (c.moving = false → s.args[0] ≠ 0#32 →
      exec (.ppr ch) s = .next
        { s with
          chans := s.chans.set ch.toNat { c with ppr := s.args[0] }
          cmdStatus := 0x00000100#32
          statuses := 0x00000100#32 :: s.statuses }) ∧
    (c.moving = false → s.args[0] = 0#32 →
      exec (.ppr ch) s = .next { s with cmdStatus := 0x00000114#32, statuses := 0x00000114#32 :: s.statuses }) ∧
    (c.moving = true →
      exec (.ppr ch) s = .next { s with cmdStatus := 0x00000112#32, statuses := 0x00000112#32 :: s.statuses })

/-- 44_control_commands.md R214: SETEMIT on an IDLE channel sets `emit` and changes nothing else; on a MOVING channel it is
BUSY detail 1. -/
def Obligations.SetemitSelectsMode : Prop :=
  (∀ (n : Nat) (ch : BitVec 4), ch.toNat < n →
    decode n (0x00000002#32 ||| ch.setWidth 32 <<< 8) = .ok (.setemit ch .direct) ∧
    decode n (0x00020002#32 ||| ch.setWidth 32 <<< 8) = .ok (.setemit ch .chunked)) ∧
  ∀ (s : State) (ch : BitVec 4) (c : Channel) (e : EmitMode), s.chans[ch.toNat]? = some c →
    (c.moving = false →
      exec (.setemit ch e) s = .next
        { s with
          chans := s.chans.set ch.toNat { c with emit := e }
          cmdStatus := 0x00000200#32
          statuses := 0x00000200#32 :: s.statuses }) ∧
    (c.moving = true →
      exec (.setemit ch e) s = .next { s with cmdStatus := 0x00000212#32, statuses := 0x00000212#32 :: s.statuses })

/-- 44_control_commands.md R215: CLRSTAT on an IDLE channel clears its statistics; label, move record, RUN and the other
channels are kept. On a MOVING channel it is BUSY detail 1. That `result` is kept is the model's choice, log entry 7:
10_state.md R33 says that `result` is NONE after CLRSTAT, R215 and vector T11 say that CLRSTAT keeps it. -/
def Obligations.ClrstatClearsStatistics : Prop :=
  (∀ (n : Nat) (ch : BitVec 4), ch.toNat < n →
    decode n (0x00000006#32 ||| ch.setWidth 32 <<< 8) = .ok (.clrstat ch)) ∧
  ∀ (s : State) (ch : BitVec 4) (c : Channel), s.chans[ch.toNat]? = some c →
    (c.moving = false →
      exec (.clrstat ch) s = .next
        { s with
          chans := s.chans.set ch.toNat
            { c with
              totalPulses := 0#64, totalRevolutions := 0#64, totalRunTime := 0#64
              running := false, startValid := false, runStart := 0#64 }
          cmdStatus := 0x00000600#32
          statuses := 0x00000600#32 :: s.statuses }) ∧
    (c.moving = true →
      exec (.clrstat ch) s = .next { s with cmdStatus := 0x00000612#32, statuses := 0x00000612#32 :: s.statuses })

/-- 44_control_commands.md R216: SNAP copies one channel's statistics to the snapshot registers in one step, whether or not
the channel is MOVING, and changes nothing else. -/
def Obligations.SnapCopiesStatistics : Prop :=
  (∀ (n : Nat) (ch : BitVec 4), ch.toNat < n →
    decode n (0x00000007#32 ||| ch.setWidth 32 <<< 8) = .ok (.snap ch)) ∧
  ∀ (s : State) (ch : BitVec 4) (c : Channel), s.chans[ch.toNat]? = some c →
    exec (.snap ch) s = .next
      { s with
        snap :=
          { ctrl := 1#1 ++ 0#27 ++ ch
            flags :=
              0#23 ++ BitVec.ofBool c.startValid ++ BitVec.ofBool c.running ++ 0#6 ++ BitVec.ofBool c.moving
            pulses := c.totalPulses
            revs := c.totalRevolutions
            runtime := c.totalRunTime
            start := c.runStart
            label := c.label
            steps := c.steps }
        cmdStatus := 0x00000700#32
        statuses := 0x00000700#32 :: s.statuses }

/-- 44_control_commands.md R217: SETLABEL sets `label`, whether or not the channel is MOVING, and changes nothing else. -/
def Obligations.SetlabelSetsLabel : Prop :=
  (∀ (n : Nat) (ch : BitVec 4), ch.toNat < n →
    decode n (0x00000008#32 ||| ch.setWidth 32 <<< 8) = .ok (.setlabel ch)) ∧
  ∀ (s : State) (ch : BitVec 4) (c : Channel), s.chans[ch.toNat]? = some c →
    exec (.setlabel ch) s = .next
      { s with
        chans := s.chans.set ch.toNat { c with label := s.args[0] }
        cmdStatus := 0x00000800#32
        statuses := 0x00000800#32 :: s.statuses }

/-- 43_motion_commands.md R195: a MOVE on a MOVING channel is BUSY with detail 1 and changes nothing but CMD_STATUS: not the
DIR pin, and no second move is kept. -/
def Obligations.MoveOnMovingChannelIsBusy : Prop :=
  ∀ (s : State) (ch : BitVec 4) (c : Channel), s.chans[ch.toNat]? = some c → c.moving = true →
    ∀ dir profile curve given, exec (.move ch dir profile curve given) s =
      .next { s with cmdStatus := 0x00000312#32, statuses := 0x00000312#32 :: s.statuses }

/-- The MOVE word bit by bit, as 43_motion_commands.md R180 and 30_encoding.md R81, R83, R85 and R92 write it:
`0x03 OR c<<8 OR d<<12 OR P<<13 OR K<<15 OR G<<16`. -/
def Obligations.MoveWordFields : Prop :=
  ∀ (n : Nat) (ch : BitVec 4) (dir : Bool) (profile : Profile) (curve : Curve) (given : Bool) (p : Word) (k : Word),
    ch.toNat < n →
    p = (match profile with
         | .full => 0#32
         | .rampUpOnly => 1#32
         | .rampDownOnly => 2#32) →
    k = (match curve with
         | .sine => 0#32
         | .linear => 1#32) →
    decode n (0x00000003#32 ||| ch.setWidth 32 <<< 8 ||| (BitVec.ofBool dir).setWidth 32 <<< 12 ||| p <<< 13 |||
        k <<< 15 ||| (BitVec.ofBool given).setWidth 32 <<< 16) =
      .ok (.move ch dir profile curve given)

/-- 43_motion_commands.md R180, R181 with 41_ramp_profile_generator.md R120 to R126: a MOVE on an IDLE channel whose operands
pass every check of R182 is accepted, whatever RUN is. The hypotheses and the new record are written out from the
rules; everything not named is kept, `ppr`, `emit`, the label, the statistics' sums and the other channels included. -/
def Obligations.MoveAcceptedFillsRecord : Prop :=
  ∀ (s : State) (ch : BitVec 4) (c : Channel) (dir : Bool) (profile : Profile) (curve : Curve) (given : Bool)
    (v t rt sd td : B64) (total r cr : Nat),
    s.chans[ch.toNat]? = some c → c.moving = false →
    v = s.args[1] ++ s.args[0] → t = s.args[3] ++ s.args[2] → rt = s.args[5] ++ s.args[4] →
    sd = div (ofNat 60) (mul (mul (ofNat 2) (ofNat c.ppr.toNat)) v) →
    td = div (ofNat 60) (mul (mul (ofNat 2) (ofNat c.ppr.toNat)) t) →
    c.ppr ≠ 0#32 →
    (finite v = true ∧ lt 0#64 v = true) →
    (finite t = true ∧ lt 0#64 t = true) →
    (finite rt = true ∧ le 0#64 rt = true) →
    le (ofNat 4294967296) (mul (if le td sd then sd else td) (ofNat s.params.tickHz.toNat)) = false →
    (eq rt 0#64 = false →
      finite (mul (div (mul (ofNat c.ppr.toNat) t) (ofNat 60)) rt) = true ∧
      le (ofNat 4294967296) (mul (div (mul (ofNat c.ppr.toNat) t) (ofNat 60)) rt) = false) →
    total = (if eq rt 0#64 then 0 else (floor (mul (div (mul (ofNat c.ppr.toNat) t) (ofNat 60)) rt)).toNat) →
    r = (if given then min s.args[6].toNat (total / 2)
         else if le (ofNat (total / 2)) (mul s.params.rampBase (div (abs (sub t v)) (ofNat 20))) then total / 2
         else (floor (mul s.params.rampBase (div (abs (sub t v)) (ofNat 20)))).toNat) →
    cr = (if profile = .full then total - 2 * r else total - r) →
    exec (.move ch dir profile curve given) s = .next
      { s with
        chans := s.chans.set ch.toNat
          { c with
            dirPin := dir, events := .dirSet dir :: c.events
            mvStart := v, mvTarget := t, mvRuntime := rt, mvDir := dir, sd := sd, td := td
            total := BitVec.ofNat 32 total, ramp := BitVec.ofNat 32 r, cruise := BitVec.ofNat 32 cr
            profile := profile, curve := curve
            idx := 0#32, steps := 0#32, dropped := 0#32, result := .none
            moving := true, running := true, startValid := true, runStart := s.time
            seq := if c.emit = .direct then .s0 else .c0 }
        cmdStatus := 0x00000300#32
        statuses := 0x00000300#32 :: s.statuses }

/-- 43_motion_commands.md R182, R183, R184: a MOVE on an IDLE channel whose operands fail a check reports the first failing
check, in the listed order, and changes nothing but CMD_STATUS and the DIR pin (with its event). -/
def Obligations.MoveRefusedKeepsAllButDir : Prop :=
  ∀ (s : State) (ch : BitVec 4) (c : Channel) (dir : Bool) (profile : Profile) (curve : Curve) (given : Bool)
    (v t rt sd td : B64) (word : Word),
    s.chans[ch.toNat]? = some c → c.moving = false →
    v = s.args[1] ++ s.args[0] → t = s.args[3] ++ s.args[2] → rt = s.args[5] ++ s.args[4] →
    sd = div (ofNat 60) (mul (mul (ofNat 2) (ofNat c.ppr.toNat)) v) →
    td = div (ofNat 60) (mul (mul (ofNat 2) (ofNat c.ppr.toNat)) t) →
    word =
      (if c.ppr = 0#32 then 0x00000314#32
       else if ¬ (finite v = true ∧ lt 0#64 v = true) then 0x00000313#32
       else if ¬ (finite t = true ∧ lt 0#64 t = true) then 0x00000323#32
       else if ¬ (finite rt = true ∧ le 0#64 rt = true) then 0x00000324#32
       else if le (ofNat 4294967296) (mul (if le td sd then sd else td) (ofNat s.params.tickHz.toNat)) = true then
         0x00000333#32
       else if eq rt 0#64 = false ∧
           (finite (mul (div (mul (ofNat c.ppr.toNat) t) (ofNat 60)) rt) = false ∨
             le (ofNat 4294967296) (mul (div (mul (ofNat c.ppr.toNat) t) (ofNat 60)) rt) = true) then
         0x00000334#32
       else 0x00000300#32) →
    word ≠ 0x00000300#32 →
    exec (.move ch dir profile curve given) s = .next
      { s with
        chans := s.chans.set ch.toNat { c with dirPin := dir, events := .dirSet dir :: c.events }
        cmdStatus := word
        statuses := word :: s.statuses }

/-- A command on a channel that does not exist, which no word decodes to, is ILLEGAL with detail 3 and changes nothing but
CMD_STATUS (30_encoding.md R86; the model's reading for such a term, log entry 10). -/
def Obligations.MissingChannelIsIllegal : Prop :=
  ∀ (s : State) (i : Instr) (ch : BitVec 4), i.channel? = some ch → s.numChannels ≤ ch.toNat →
    exec i s = .next
      { s with
        cmdStatus := 0#16 ++ i.opcode ++ 3#4 ++ 1#4
        statuses := (0#16 ++ i.opcode ++ 3#4 ++ 1#4) :: s.statuses }

/-- 60_exceptions.md R241, 10_state.md R24, 30_encoding.md R80: every command answers a next state; its CMD_STATUS is recorded,
holds the command's opcode and 0 in bits 31:16, and in bits 7:0 one of the (DETAIL, CODE) pairs of the table that the
command can raise. The pair 0x31 (no such channel) is that of a term no word decodes to (log entry 10). -/
def Obligations.CommandsReportStatus : Prop :=
  ∀ (i : Instr) (s : State), ∃ (t : State) (low : BitVec 8), exec i s = .next t ∧
    t.statuses = t.cmdStatus :: s.statuses ∧ t.cmdStatus = 0#16 ++ i.opcode ++ low ∧
    match i with
    | .ppr _ => low ∈ [0x00#8, 0x12#8, 0x14#8, 0x31#8]
    | .setemit _ _ => low ∈ [0x00#8, 0x12#8, 0x31#8]
    | .move _ _ _ _ _ => low ∈ [0x00#8, 0x12#8, 0x13#8, 0x23#8, 0x33#8, 0x14#8, 0x24#8, 0x34#8, 0x31#8]
    | .stop => low = 0x00#8
    | .reset => low ∈ [0x00#8, 0x22#8]
    | .clrstat _ => low ∈ [0x00#8, 0x12#8, 0x31#8]
    | .snap _ => low ∈ [0x00#8, 0x31#8]
    | .setlabel _ => low ∈ [0x00#8, 0x31#8]

/-- What no command changes: the argument registers (70_reset_and_hazards.md R281), TIME and its latch, IRQ_ENABLE, the
parameters, the number of channels, what the host and the oracle still have to give, the reads made; and every channel
that a command other than RESET does not name (43_motion_commands.md R196). -/
def Obligations.CommandFrame : Prop :=
  ∀ (i : Instr) (s t : State), exec i s = .next t →
    t.args = s.args ∧ t.time = s.time ∧ t.timeHiLatch = s.timeHiLatch ∧ t.irqEnable = s.irqEnable ∧
    t.params = s.params ∧ t.chans.length = s.chans.length ∧
    t.host = s.host ∧ t.link = s.link ∧ t.sched = s.sched ∧ t.turn = s.turn ∧ t.renewed = s.renewed ∧
    t.waveAnswers = s.waveAnswers ∧ t.draws = s.draws ∧
    t.reads = s.reads ∧
    (i ≠ .reset → ∀ d, (∀ ch, i.channel? = some ch → ch.toNat ≠ d) → t.chans[d]? = s.chans[d]?)

/-! ## Whole-machine rules -/

/-- 10_state.md R22: RUN is 1 after reset, is read at RUNFLAG[0], and a step that changes it is one that ran STOP, which sets
0, or RESET, which sets 1. -/
def Obligations.RunWrittenOnlyByStopAndReset : Prop :=
  State.reset.run = true ∧
  (∀ s : State, regAt s.numChannels 0x00C 4 = some .runflag ∧
    (readReg s .runflag).getLsbD 0 = s.run ∧ (readReg s .runflag).extractLsb' 1 31 = 0#31) ∧
  ∀ s t : State, step s = .next t → t.run ≠ s.run →
    (t.run = false ∧ t.cmdStatus = 0x00000400#32 ∧ t.statuses = 0x00000400#32 :: s.statuses) ∨
    (t.run = true ∧ t.cmdStatus = 0x00000500#32 ∧ t.statuses = 0x00000500#32 :: s.statuses)

/-- HEADLINE. Every step keeps the invariant: legal parameters, no invalid interrupt bit, reserved status bits 0, and of
every channel that it is MOVING exactly while its sequencer runs, that STEP and the engine are where the sequencer's
position says, that `steps + dropped = idx` and `idx <= total`, that the ramp is at most half and the phases add up;
and no IrqLevel event is placed after a pin event that is not recorded yet (00_scope.md R9, 10_state.md,
41_ramp_profile_generator.md R126, 42_pulse_delay_sequencer.md R161, R169, 43_motion_commands.md R194). -/
def Obligations.StepKeepsInvariant : Prop :=
  ∀ s t : State, s.Inv → step s = .next t → t.Inv

/-- The invariant holds after reset, in every legal configuration, and the reference configuration is legal
(70_reset_and_hazards.md R271, R272; 00_scope.md R6). -/
def Obligations.ResetMeetsInvariant : Prop :=
  (∀ (n : Nat) (p : Params), legalParams p n → (State.resetWith n p).Inv) ∧
  legalParams Config.reference Config.numChannels ∧ State.reset.Inv

/-- 70_reset_and_hazards.md R271: the value of every piece of state after reset, in every configuration. -/
def Obligations.ResetValues : Prop :=
  ∀ (n : Nat) (p : Params) (s : State), s = State.resetWith n p →
    s.run = true ∧ (∀ k : Fin 8, s.args[k] = 0#32) ∧ s.cmdStatus = 0#32 ∧ s.irqStatus = 0#16 ∧ s.irqEnable = 0#16 ∧
    irqLevel s = false ∧ s.time = 0#64 ∧ s.timeHiLatch = 0#32 ∧
    s.snap = ⟨0#32, 0#32, 0#64, 0#64, 0#64, 0#64, 0#32, 0#32⟩ ∧
    s.params = p ∧ s.chans.length = n ∧
    ∀ c ∈ s.chans,
      c.ppr = 0#32 ∧ c.emit = .direct ∧ c.moving = false ∧ c.waveBusy = false ∧ c.total = 0#32 ∧ c.ramp = 0#32 ∧
      c.cruise = 0#32 ∧ c.steps = 0#32 ∧ c.idx = 0#32 ∧ c.dropped = 0#32 ∧ c.result = .none ∧ c.profile = .full ∧
      c.curve = .sine ∧ c.mvStart = 0#64 ∧ c.mvTarget = 0#64 ∧ c.mvRuntime = 0#64 ∧ c.sd = 0#64 ∧ c.td = 0#64 ∧
      c.mvDir = false ∧ c.totalPulses = 0#64 ∧ c.totalRevolutions = 0#64 ∧ c.totalRunTime = 0#64 ∧
      c.running = false ∧ c.startValid = false ∧ c.runStart = 0#64 ∧ c.label = 0#32 ∧ c.stepPin = false ∧
      c.dirPin = false ∧ c.buffer = [] ∧ c.chunkValid = 0 ∧ c.playPos = none ∧ c.seq = .idle

/-- 10_state.md R30: the constant registers at their offsets, and that no step changes what they read. -/
def Obligations.ConstantRegistersNeverChange : Prop :=
  (∀ s : State,
    [0x000, 0x004, 0x008, 0x048, 0x04C, 0x050, 0x054, 0x058].map (fun off => regAt s.numChannels off 4) =
      [some .id, some .caps, some .tickHz, some .minDelayLo, some .minDelayHi, some .rampBaseLo, some .rampBaseHi,
        some .dirSetup] ∧
    readReg s .id = 0x53544531#32 ∧
    readReg s .caps = s.params.chunkSize ++ 0#11 ++ BitVec.ofNat 5 s.chans.length ∧
    readReg s .tickHz = s.params.tickHz ∧
    readReg s .minDelayHi ++ readReg s .minDelayLo = s.params.minDelay ∧
    readReg s .rampBaseHi ++ readReg s .rampBaseLo = s.params.rampBase ∧
    readReg s .dirSetup = s.params.dirSetupTicks) ∧
  ∀ s t : State, step s = .next t →
    t.params = s.params ∧ t.chans.length = s.chans.length ∧
    ∀ r ∈ [Reg.id, .caps, .tickHz, .minDelayLo, .minDelayHi, .rampBaseLo, .rampBaseHi, .dirSetup],
      readReg t r = readReg s r ∧ ∀ v : Word, busWrite r.offset 4 v s = .fault (.busError true r.offset 4)

/-- Channels run independently (43_motion_commands.md R196, 60_exceptions.md R256): a step of the sequencer or engine of
channel `c` changes no other channel and no register but the DONE bit of `c` and the oracle's own fields. -/
def Obligations.SequencerAndEngineTouchOneChannel : Prop :=
  ∀ (s t : State) (c : Nat), (t = sequencerStep c s ∨ t = engineStep c s) →
    (∀ d, d ≠ c → t.chans[d]? = s.chans[d]?) ∧ t.chans.length = s.chans.length ∧
    t.run = s.run ∧ t.args = s.args ∧ t.cmdStatus = s.cmdStatus ∧ t.irqEnable = s.irqEnable ∧ t.time = s.time ∧
    t.timeHiLatch = s.timeHiLatch ∧ t.snap = s.snap ∧ t.params = s.params ∧ t.host = s.host ∧ t.link = s.link ∧
    t.sched = s.sched ∧ t.turn = s.turn ∧ t.renewed = s.renewed ∧ t.reads = s.reads ∧ t.statuses = s.statuses ∧
    (∀ d, d ≠ c → t.irqStatus.getLsbD d = s.irqStatus.getLsbD d)

/-- 43_motion_commands.md R194: a channel goes from IDLE to MOVING only in a step that accepts a MOVE, and from MOVING to
IDLE only in a step of its own sequencer that finishes the move with a result. -/
def Obligations.MovingChangesOnlyByAcceptAndFinish : Prop :=
  ∀ (s t : State) (c : Nat) (a b : Channel), step s = .next t → s.chans[c]? = some a → t.chans[c]? = some b →
    (a.moving = false → b.moving = true →
      t.cmdStatus = 0x00000300#32 ∧ t.statuses = 0x00000300#32 :: s.statuses ∧
      b.result = .none ∧ b.idx = 0#32 ∧ b.steps = 0#32 ∧ b.dropped = 0#32 ∧
      b.running = true ∧ b.startValid = true ∧ b.runStart = s.time ∧
      b.seq = (if a.emit = .direct then .s0 else .c0)) ∧
    (a.moving = true → b.moving = false →
      nextAgent s = .sequencer c ∧ b.result ≠ .none ∧ b.seq = .idle ∧ t.irqStatus = s.irqStatus ||| 1#16 <<< c)

/-- The DIR pin changes only in the step of a MOVE, whose status that step records, and never during a move
(70_reset_and_hazards.md R288, 43_motion_commands.md R183). -/
def Obligations.DirChangesOnlyByMove : Prop :=
  ∀ (s t : State) (c : Nat) (a b : Channel), step s = .next t → s.chans[c]? = some a → t.chans[c]? = some b →
    a.dirPin ≠ b.dirPin →
      a.moving = false ∧ t.cmdStatus.extractLsb' 8 8 = 0x03#8 ∧ t.statuses = t.cmdStatus :: s.statuses ∧
        b.events = .dirSet b.dirPin :: a.events

/-- Each statistic changes only by the rules that name it (10_state.md R36, R38, 43_motion_commands.md R181, R190, R197,
44_control_commands.md R212, R215, R217): the three sums at the end of a move by the channel's own sequencer, or to 0 by CLRSTAT
or RESET; `running`, `start_valid` and `run_start` when a MOVE is accepted, or cleared by CLRSTAT or RESET; the label by
SETLABEL, or to 0 by RESET. The status of each command is recorded by the step. The model has no reset step (log entry
19). -/
def Obligations.StatisticsChangeOnlyByRule : Prop :=
  ∀ (s t : State) (c : Nat) (a b : Channel), step s = .next t → s.chans[c]? = some a → t.chans[c]? = some b →
    ((a.totalPulses, a.totalRevolutions, a.totalRunTime) ≠ (b.totalPulses, b.totalRevolutions, b.totalRunTime) →
      (nextAgent s = .sequencer c ∧ b.moving = false ∧
        b.totalPulses = a.totalPulses + a.steps.setWidth 64 ∧
        b.totalRevolutions = add a.totalRevolutions (div (ofNat a.steps.toNat) (ofNat a.ppr.toNat)) ∧
        b.totalRunTime = add a.totalRunTime a.mvRuntime) ∨
      ((t.cmdStatus = 0x00000600#32 ∨ t.cmdStatus = 0x00000500#32) ∧ t.statuses = t.cmdStatus :: s.statuses ∧
        a.moving = false ∧
        b.totalPulses = 0#64 ∧ b.totalRevolutions = 0#64 ∧ b.totalRunTime = 0#64)) ∧
    ((a.running, a.startValid, a.runStart) ≠ (b.running, b.startValid, b.runStart) →
      (t.cmdStatus = 0x00000300#32 ∧ t.statuses = t.cmdStatus :: s.statuses ∧ a.moving = false ∧ b.moving = true ∧
        b.running = true ∧ b.startValid = true ∧ b.runStart = s.time) ∨
      ((t.cmdStatus = 0x00000600#32 ∨ t.cmdStatus = 0x00000500#32) ∧ t.statuses = t.cmdStatus :: s.statuses ∧
        a.moving = false ∧
        b.running = false ∧ b.startValid = false ∧ b.runStart = 0#64)) ∧
    (a.label ≠ b.label →
      (t.cmdStatus = 0x00000800#32 ∧ t.statuses = t.cmdStatus :: s.statuses ∧ b.label = s.args[0]) ∨
      (t.cmdStatus = 0x00000500#32 ∧ t.statuses = t.cmdStatus :: s.statuses ∧ a.moving = false ∧ b.label = 0#32))

/-- The snapshot registers are written by SNAP and cleared by RESET, whose status the step records, and by nothing else
(10_state.md R29, 44_control_commands.md R212, R216, 70_reset_and_hazards.md R285). -/
def Obligations.SnapshotChangesOnlyBySnapAndReset : Prop :=
  ∀ s t : State, step s = .next t → t.snap ≠ s.snap →
    t.statuses = t.cmdStatus :: s.statuses ∧
    ((t.cmdStatus = 0x00000700#32 ∧ t.snap.ctrl.getLsbD 31 = true) ∨
      (t.cmdStatus = 0x00000500#32 ∧ t.snap = ⟨0#32, 0#32, 0#64, 0#64, 0#64, 0#64, 0#32, 0#32⟩))

/-! ## The end of a move and the sequencer -/

/-- 43_motion_commands.md R190, R191: `finish` is one update, the same for every result, with the DONE bit and the change of
IRQ it brings; and the sums of the rule's example, 3200 pulses at 400 a revolution and 6.0 s. -/
def Obligations.FinishUpdatesStatistics : Prop :=
  (∀ (s : State) (c : Nat) (ch : Channel) (res : Result), c < 16 → s.chans[c]? = some ch →
    finish c ch res s =
      { s with
        chans := s.chans.set c
          { ch with
            result := res
            totalPulses := ch.totalPulses + ch.steps.setWidth 64
            totalRevolutions := add ch.totalRevolutions (div (ofNat ch.steps.toNat) (ofNat ch.ppr.toNat))
            totalRunTime := add ch.totalRunTime ch.mvRuntime
            moving := false
            seq := .idle }
        irqStatus := s.irqStatus ||| 1#16 <<< c
        irqEvents :=
          if s.irqStatus &&& s.irqEnable = 0#16 ∧ (s.irqStatus ||| 1#16 <<< c) &&& s.irqEnable ≠ 0#16 then
            { level := true, recorded := s.chans.map fun ch => ch.events.length } :: s.irqEvents
          else s.irqEvents }) ∧
  add 0#64 (div (ofNat 3200) (ofNat 400)) = 0x4020000000000000#64 ∧
  add 0#64 0x4018000000000000#64 = 0x4018000000000000#64

/-- 42_pulse_delay_sequencer.md R169: at every `finish`, STEP is 0 and no chunk plays; direct mode finishes only at `[S1]` or
`[S2]`, chunked mode only at `[C1]` or `[C2]`. -/
def Obligations.FinishLeavesOutputsLow : Prop :=
  ∀ (s t : State) (c : Nat) (a b : Channel), s.Inv → step s = .next t → s.chans[c]? = some a → t.chans[c]? = some b →
    a.moving = true → b.moving = false →
    b.stepPin = false ∧ b.waveBusy = false ∧
      (a.emit = .direct → a.seq = .s1 ∨ a.seq = .s2) ∧ (a.emit = .chunked → a.seq = .c1 ∨ a.seq = .c2)

/-- 42_pulse_delay_sequencer.md R155: the direct-mode sequencer, label by label, in the order of the pseudocode
(60_exceptions.md R246); and the rule's example, a move of four delays. -/
def Obligations.DirectSequencerSteps : Prop :=
  (∀ (s : State) (c : Nat) (ch : Channel) (d : B64), s.chans[c]? = some ch → d = delayOf s.params ch ch.idx.toNat →
    (ch.seq = .s0 → sequencerStep c s = { s with chans := s.chans.set c { ch with seq := .s1 } }) ∧
    (ch.seq = .s1 → ch.total = 0#32 →
      sequencerStep c s = finish c ch (if s.run then .complete else .cancelled) s) ∧
    (ch.seq = .s1 → ch.total ≠ 0#32 →
      sequencerStep c s = { s with chans := s.chans.set c { ch with seq := .s2 } }) ∧
    (ch.seq = .s2 → ch.idx = ch.total → sequencerStep c s = finish c ch .complete s) ∧
    (ch.seq = .s2 → ch.idx ≠ ch.total → s.run = false → sequencerStep c s = finish c ch .cancelled s) ∧
    (ch.seq = .s2 → ch.idx ≠ ch.total → s.run = true → ¬ (lt 0#64 d = true ∧ 1 ≤ (ticks s.params d).toNat) →
      sequencerStep c s =
        { s with chans := s.chans.set c { ch with dropped := ch.dropped + 1#32, idx := ch.idx + 1#32 } }) ∧
    (ch.seq = .s2 → ch.idx ≠ ch.total → s.run = true → (lt 0#64 d = true ∧ 1 ≤ (ticks s.params d).toNat) →
      sequencerStep c s =
        { s with
          chans := s.chans.set c
            { ch with
              stepPin := true
              events := .pulse (ticks s.params d) (ticks s.params d) :: ch.events
              seq := .s3 (ticks s.params d) } }) ∧
    (∀ k, ch.seq = .s3 k →
      sequencerStep c s = { s with chans := s.chans.set c { ch with stepPin := false, seq := .s4 k } }) ∧
    (∀ k, ch.seq = .s4 k →
      sequencerStep c s =
        { s with chans := s.chans.set c { ch with steps := ch.steps + 1#32, idx := ch.idx + 1#32, seq := .s2 } })) ∧
  ∀ s : State,
    s = { State.reset with
          chans :=
            [{ Channel.reset with
               ppr := 4#32, moving := true, total := 4#32, ramp := 2#32, sd := 0x3FD0000000000000#64
               td := 0x3FC0000000000000#64, seq := .s0 }] } →
    ((sequencerStep 0)^[15] s).chans.map (fun b => (b.events, b.result, b.steps)) =
      [([.pulse 213388#32 213388#32, .pulse 125000#32 125000#32, .pulse 161611#32 161611#32,
          .pulse 250000#32 250000#32], .complete, 4#32)]

/-- 42_pulse_delay_sequencer.md R156, R157: a pulse that has started completes, high then low for the same tick count,
whatever STOP and RESET do to RUN between its steps. -/
def Obligations.PulseCompletesOnceStarted : Prop :=
  ∀ (s : State) (c : Nat) (ch : Channel) (k : Word) (r₁ r₂ : Bool), s.chans[c]? = some ch → ch.seq = .s2 →
    ch.idx ≠ ch.total → s.run = true → validDelay s.params (delayOf s.params ch ch.idx.toNat) = true →
    k = ticks s.params (delayOf s.params ch ch.idx.toNat) →
    sequencerStep c { sequencerStep c { sequencerStep c s with run := r₁ } with run := r₂ } =
      { s with
        run := r₂
        chans := s.chans.set c
          { ch with
            events := .pulse k k :: ch.events
            stepPin := false
            steps := ch.steps + 1#32
            idx := ch.idx + 1#32 } }

/-- 42_pulse_delay_sequencer.md R161, R163, R164: the chunked-mode sequencer, label by label. `ks` are the tick counts of the
chunk's valid delays, indices `idx` up to `e`. The answer of WAVE_FAULT is the next one given in advance, else none fails in
the reference run and any answer may come otherwise (the model's choice, log entry 5); `chunk_valid` is 0 again at `[C3]`
(the model's choice, log entry 13). -/
def Obligations.ChunkedSequencerSteps : Prop :=
  ∀ (s : State) (c : Nat) (ch : Channel) (e : Nat) (ks : List Word),
    s.chans[c]? = some ch →
    e = min (ch.idx.toNat + s.params.chunkSize.toNat) ch.total.toNat →
    ks = ((List.range (e - ch.idx.toNat)).map fun j => delayOf s.params ch (ch.idx.toNat + j)).filterMap (fun d =>
      if lt 0#64 d = true ∧ 1 ≤ (ticks s.params d).toNat then some (ticks s.params d) else none) →
    (ch.seq = .c0 → sequencerStep c s = { s with chans := s.chans.set c { ch with seq := .c1 } }) ∧
    (ch.seq = .c1 → ch.total = 0#32 →
      sequencerStep c s = finish c ch (if s.run then .complete else .cancelled) s) ∧
    (ch.seq = .c1 → ch.total ≠ 0#32 →
      sequencerStep c s = { s with chans := s.chans.set c { ch with seq := .c2 } }) ∧
    (ch.seq = .c2 → ch.idx = ch.total → sequencerStep c s = finish c ch .complete s) ∧
    (ch.seq = .c2 → ch.idx ≠ ch.total → s.run = false → sequencerStep c s = finish c ch .cancelled s) ∧
    (ch.seq = .c2 → ch.idx ≠ ch.total → s.run = true → ks = [] →
      sequencerStep c s =
        { s with
          chans := s.chans.set c
            { ch with
              dropped := ch.dropped + BitVec.ofNat 32 (e - ch.idx.toNat)
              idx := BitVec.ofNat 32 e } }) ∧
    (∀ rest, ch.seq = .c2 → ch.idx ≠ ch.total → s.run = true → ks ≠ [] → s.waveAnswers = true :: rest →
      sequencerStep c s = finish c ch .hwFault { s with waveAnswers := rest }) ∧
    (∀ rest, ch.seq = .c2 → ch.idx ≠ ch.total → s.run = true → ks ≠ [] → s.waveAnswers = false :: rest →
      sequencerStep c s =
        { s with
          waveAnswers := rest
          chans := s.chans.set c
            { ch with
              buffer := ks.flatMap fun k => [(true, k), (false, k)]
              chunkValid := ks.length
              playPos := some 0
              waveBusy := true
              seq := .c3 (e - ch.idx.toNat - ks.length) e } }) ∧
    (ch.seq = .c2 → ch.idx ≠ ch.total → s.run = true → ks ≠ [] → s.waveAnswers = [] → s.params.waveFault = .never →
      sequencerStep c s =
        { s with
          chans := s.chans.set c
            { ch with
              buffer := ks.flatMap fun k => [(true, k), (false, k)]
              chunkValid := ks.length
              playPos := some 0
              waveBusy := true
              seq := .c3 (e - ch.idx.toNat - ks.length) e } }) ∧
    (ch.seq = .c2 → ch.idx ≠ ch.total → s.run = true → ks ≠ [] → s.waveAnswers = [] →
      s.params.waveFault = .anyAnswer →
      sequencerStep c s =
        if Config.waveFault s.draws then finish c ch .hwFault { s with draws := s.draws + 1 }
        else
          { s with
            draws := s.draws + 1
            chans := s.chans.set c
              { ch with
                buffer := ks.flatMap fun k => [(true, k), (false, k)]
                chunkValid := ks.length
                playPos := some 0
                waveBusy := true
                seq := .c3 (e - ch.idx.toNat - ks.length) e } }) ∧
    (∀ ndrop e', ch.seq = .c3 ndrop e' → ch.waveBusy = true → sequencerStep c s = s) ∧
    (∀ ndrop e', ch.seq = .c3 ndrop e' → ch.waveBusy = false →
      sequencerStep c s =
        { s with
          chans := s.chans.set c
            { ch with
              steps := ch.steps + BitVec.ofNat 32 ch.chunkValid
              dropped := ch.dropped + BitVec.ofNat 32 ndrop
              idx := BitVec.ofNat 32 e'
              chunkValid := 0
              seq := .c2 } })

/-- 42_pulse_delay_sequencer.md R160: an engine that starts on a chunk of tick counts `ks` plays every entry, one a step,
records one pulse for each delay in order, and ends with STEP low, `wave_busy` 0 and the buffer released; nothing else
changes. That `wave_busy` falls and the buffer is released in the step of the last entry, so in exactly two steps a delay,
is the model's choice, log entry 13. -/
def Obligations.EnginePlaysWholeChunk : Prop :=
  ∀ (s : State) (c : Nat) (ch : Channel) (ks : List Word), s.chans[c]? = some ch → ks ≠ [] →
    ch.waveBusy = true → ch.buffer = (ks.flatMap fun k => [(true, k), (false, k)]) → ch.playPos = some 0 →
    (engineStep c)^[2 * ks.length] s =
      { s with
        chans := s.chans.set c
          { ch with
            events := (ks.map fun k => PinEvent.pulse k k).reverse ++ ch.events
            stepPin := false
            waveBusy := false
            buffer := []
            playPos := none } }

/-- 42_pulse_delay_sequencer.md R157, R162, R168: while RUN is 0 no sequencer step starts a pulse or submits a chunk. -/
def Obligations.NoPulseStartsAfterStop : Prop :=
  ∀ (s : State) (c d : Nat) (a b : Channel), s.run = false → s.chans[d]? = some a →
    (sequencerStep c s).chans[d]? = some b →
    b.events = a.events ∧ (a.stepPin = false → b.stepPin = false) ∧ b.buffer = a.buffer ∧ b.waveBusy = a.waveBusy

/-- A move ends (60_exceptions.md R259). From any state of a moving direct-mode channel that meets the channel invariant, its
sequencer alone reaches IDLE within three steps for each delay and three more, with every index passed emitted or dropped;
and with RUN = 1 it ends COMPLETE at the end of the sequence (42_pulse_delay_sequencer.md R167). From any state of a moving
channel that meets it, in chunked mode too, and in whatever order its sequencer and its engine take their enabled steps,
one of the two is enabled until the channel is IDLE, which is within four steps for each delay and three more: a chunk of
`n` delays takes at most two steps of the engine for each and two of the sequencer (R160, R161). With RUN = 1 a
chunked-mode move ends COMPLETE, or HW_FAULT where WAVE_FAULT rejects a chunk (R163). -/
def Obligations.DirectMoveEnds : Prop :=
  (∀ (s : State) (c : Nat) (ch : Channel), s.chans[c]? = some ch → ch.Inv → ch.moving = true → ch.emit = .direct →
    ∃ (k : Nat) (b : Channel), k ≤ 3 * ch.total.toNat + 3 ∧ ((sequencerStep c)^[k] s).chans[c]? = some b ∧
      b.moving = false ∧ b.seq = .idle ∧ b.result ≠ .none ∧ b.total = ch.total ∧
      b.steps.toNat + b.dropped.toNat = b.idx.toNat ∧
      (s.run = true → b.result = .complete ∧ b.idx = b.total)) ∧
  ∀ (f : Nat → State) (c : Nat) (ch : Channel), (f 0).chans[c]? = some ch → ch.Inv → ch.moving = true →
    1 ≤ (f 0).params.chunkSize.toNat →
    (∀ j, (agentEnabled (f j) (.sequencer c) = true ∧ f (j + 1) = sequencerStep c (f j)) ∨
      (agentEnabled (f j) (.engine c) = true ∧ f (j + 1) = engineStep c (f j)) ∨
      (agentEnabled (f j) (.sequencer c) = false ∧ agentEnabled (f j) (.engine c) = false ∧ f (j + 1) = f j)) →
    ∃ (k : Nat) (b : Channel), k ≤ 4 * ch.total.toNat + 3 ∧
      (∀ j < k, (agentEnabled (f j) (.sequencer c) = true ∨ agentEnabled (f j) (.engine c) = true) ∧
        ∃ a, (f j).chans[c]? = some a ∧ a.moving = true) ∧
      (f k).chans[c]? = some b ∧ b.moving = false ∧ b.seq = .idle ∧ b.waveBusy = false ∧ b.stepPin = false ∧
      b.result ≠ .none ∧ b.total = ch.total ∧ b.steps.toNat + b.dropped.toNat = b.idx.toNat ∧
      (b.result = .complete → b.idx = b.total) ∧
      ((f 0).run = true → b.result = .complete ∨ (b.result = .hwFault ∧ ch.emit = .chunked)) ∧
      ((f 0).waveAnswers = [] → (f 0).params.waveFault = .never → b.result ≠ .hwFault)

/-! ## The register interface -/

/-- 10_state.md R42: the register map. An aligned 32-bit access reaches exactly the registers at their offsets, written out
here, the channel blocks for `c < NUM_CHANNELS` only, all inside the 4096-byte window. -/
def Obligations.RegisterMap : Prop :=
  (∀ (n off : Nat) (r : Reg),
    regAt n off 4 = some r ↔ r.offset = off ∧ ∀ c q, r = .chan c q → c < n) ∧
  (∀ (n off width : Nat) (r : Reg), n ≤ 16 → regAt n off width = some r → off < 4096 ∧ off % 4 = 0 ∧ width = 4) ∧
  (∀ n : Nat,
    (∀ p ∈ ([(0x000, .id), (0x004, .caps), (0x008, .tickHz), (0x00C, .runflag), (0x010, .cmd), (0x014, .cmdStatus),
        (0x018, .irqStatus), (0x01C, .irqEnable), (0x040, .timeLo), (0x044, .timeHi), (0x048, .minDelayLo),
        (0x04C, .minDelayHi), (0x050, .rampBaseLo), (0x054, .rampBaseHi), (0x058, .dirSetup)] : List (Nat × Reg)),
      regAt n p.1 4 = some p.2) ∧
    (∀ p ∈ ([(0x060, .snapCtrl), (0x064, .snapFlags), (0x068, .snapPulsesLo), (0x06C, .snapPulsesHi),
        (0x070, .snapRevsLo), (0x074, .snapRevsHi), (0x078, .snapRuntimeLo), (0x07C, .snapRuntimeHi),
        (0x080, .snapStartLo), (0x084, .snapStartHi), (0x088, .snapLabel), (0x08C, .snapSteps)] : List (Nat × Reg)),
      regAt n p.1 4 = some p.2) ∧
    ∀ k : Fin 8, regAt n (0x020 + 4 * k.val) 4 = some (.arg k)) ∧
  ∀ n c : Nat, c < n →
    ∀ p ∈ ([(0x00, .state), (0x04, .ppr), (0x08, .last), (0x0C, .totalSteps), (0x10, .rampSteps), (0x14, .cruiseSteps),
        (0x18, .stepsEmitted), (0x1C, .index), (0x20, .dropped), (0x24, .label), (0x28, .pulsesLo), (0x2C, .pulsesHi),
        (0x30, .revsLo), (0x34, .revsHi), (0x38, .runtimeLo), (0x3C, .runtimeHi)] : List (Nat × ChReg)),
      regAt n (0x100 + 0x40 * c + p.1) 4 = some (.chan c p.2)

/-- 20_memory.md R63, R64, R65: an access of another width, misaligned or to an unmapped offset, and a write to a read-only
register, is a bus error that names the access; a read of CMD returns 0. -/
def Obligations.BusErrors : Prop :=
  (∀ (s : State) (off width : Nat) (v : Word), (width ≠ 4 ∨ off % 4 ≠ 0) →
    busRead off width s = .fault (.busError false off width) ∧
    busWrite off width v s = .fault (.busError true off width)) ∧
  (∀ (s : State) (off : Nat) (v : Word), (∀ r : Reg, r.offset = off → ∃ c q, r = .chan c q ∧ s.numChannels ≤ c) →
    busRead off 4 s = .fault (.busError false off 4) ∧ busWrite off 4 v s = .fault (.busError true off 4)) ∧
  (∀ (s : State) (r : Reg) (v : Word), r ≠ .cmd → r ≠ .irqStatus → r ≠ .irqEnable → (∀ n, r ≠ .arg n) →
    busWrite r.offset 4 v s = .fault (.busError true r.offset 4)) ∧
  ∀ s : State, busRead 0x010 4 s = .next { s with reads := (0x010, 0#32) :: s.reads }

/-- 10_state.md R28: a read of TIME_LO returns TIME[31:0] and latches TIME[63:32]; a read of TIME_HI returns the latch; so
the pair is one consistent value however far the time base runs between the two. And 10_state.md R27: TIME is 0 after
reset, a step of the time base adds 1 modulo 2^64 and changes nothing else, no other agent's step changes TIME, and it is
not writable; that one step of the time base is one tick is the model's choice, log entry 6. -/
def Obligations.TimeReadIsConsistent : Prop :=
  State.reset.time = 0#64 ∧ State.reset.timeHiLatch = 0#32 ∧
  (∀ s : State, timeBaseStep s = { s with time := BitVec.ofNat 64 (s.time.toNat + 1) }) ∧
  (∀ s t : State, step s = .next t →
    t.time = if nextAgent s = .timeBase then BitVec.ofNat 64 (s.time.toNat + 1) else s.time) ∧
  (∀ (s : State) (v : Word), busWrite 0x040 4 v s = .fault (.busError true 0x040 4) ∧
    busWrite 0x044 4 v s = .fault (.busError true 0x044 4)) ∧
  (∀ s : State, busRead 0x040 4 s = .next
    { s with timeHiLatch := s.time.extractLsb' 32 32, reads := (0x040, s.time.extractLsb' 0 32) :: s.reads }) ∧
  (∀ s : State, busRead 0x044 4 s = .next { s with reads := (0x044, s.timeHiLatch) :: s.reads }) ∧
  ∀ (s t u : State) (k : Nat), busRead 0x040 4 s = .next t → busRead 0x044 4 (timeBaseStep^[k] t) = .next u →
    ∃ lo hi : Word, u.reads = (0x044, hi) :: (0x040, lo) :: s.reads ∧ hi ++ lo = s.time

/-- 20_memory.md R68, 10_state.md R25: a read of any mapped register but TIME_LO changes nothing but the record of reads;
writes of ARGn, IRQ_STATUS (write 1 to clear) and IRQ_ENABLE (valid bits only) change what they name, and IRQ events. And
10_state.md R23 to R25, R29, R31, R33, R36: what the registers read, with the fields of CH_LAST. -/
def Obligations.RegisterAccessEffects : Prop :=
  (∀ (s : State) (off : Nat) (r : Reg), regAt s.numChannels off 4 = some r → r ≠ .timeLo →
    busRead off 4 s = .next { s with reads := (off, readReg s r) :: s.reads }) ∧
  (∀ (s : State) (n : Fin 8) (v : Word), busWrite (0x020 + 4 * n.val) 4 v s = .next { s with args := s.args.set n v }) ∧
  (∀ (s : State) (v : Word), ∃ t, busWrite 0x018 4 v s = .next t ∧
    (∀ i < 16, t.irqStatus.getLsbD i = (s.irqStatus.getLsbD i && !v.getLsbD i)) ∧
    t = { s with irqStatus := t.irqStatus, irqEvents := t.irqEvents }) ∧
  (∀ (s : State) (v : Word), s.numChannels ≤ 16 → ∃ t, busWrite 0x01C 4 v s = .next t ∧
    (∀ i < 16, t.irqEnable.getLsbD i = (v.getLsbD i && decide (i < s.numChannels))) ∧
    t = { s with irqEnable := t.irqEnable, irqEvents := t.irqEvents }) ∧
  (∀ s : State,
    readReg s .cmdStatus = s.cmdStatus ∧ readReg s .irqStatus = 0#16 ++ s.irqStatus ∧
    readReg s .irqEnable = 0#16 ++ s.irqEnable ∧ (∀ n : Fin 8, readReg s (.arg n) = s.args[n]) ∧
    readReg s .snapCtrl = s.snap.ctrl ∧ readReg s .snapFlags = s.snap.flags ∧
    readReg s .snapPulsesHi ++ readReg s .snapPulsesLo = s.snap.pulses ∧
    readReg s .snapRevsHi ++ readReg s .snapRevsLo = s.snap.revs ∧
    readReg s .snapRuntimeHi ++ readReg s .snapRuntimeLo = s.snap.runtime ∧
    readReg s .snapStartHi ++ readReg s .snapStartLo = s.snap.start ∧
    readReg s .snapLabel = s.snap.label ∧ readReg s .snapSteps = s.snap.steps) ∧
  ∀ (s : State) (c : Nat) (ch : Channel) (last : Word), s.chans[c]? = some ch → last = readReg s (.chan c .last) →
    readReg s (.chan c .ppr) = ch.ppr ∧ readReg s (.chan c .totalSteps) = ch.total ∧
    readReg s (.chan c .rampSteps) = ch.ramp ∧ readReg s (.chan c .cruiseSteps) = ch.cruise ∧
    readReg s (.chan c .stepsEmitted) = ch.steps ∧ readReg s (.chan c .index) = ch.idx ∧
    readReg s (.chan c .dropped) = ch.dropped ∧ readReg s (.chan c .label) = ch.label ∧
    readReg s (.chan c .pulsesHi) ++ readReg s (.chan c .pulsesLo) = ch.totalPulses ∧
    readReg s (.chan c .revsHi) ++ readReg s (.chan c .revsLo) = ch.totalRevolutions ∧
    readReg s (.chan c .runtimeHi) ++ readReg s (.chan c .runtimeLo) = ch.totalRunTime ∧
    last.extractLsb' 0 4 =
      (match ch.result with
       | .none => 0#4
       | .complete => 1#4
       | .cancelled => 2#4
       | .hwFault => 3#4) ∧
    last.extractLsb' 4 2 =
      (match ch.profile with
       | .full => 0#2
       | .rampUpOnly => 1#2
       | .rampDownOnly => 2#2) ∧
    last.getLsbD 6 = decide (ch.curve = .linear) ∧ last.extractLsb' 7 25 = 0#25

/-- 10_state.md R26, 60_exceptions.md R251: IRQ is high exactly when an enabled DONE bit is set, is 0 after reset, and every
step records the event of its change and no other. The sequence of output events of a channel (00_scope.md R9) starts
empty; a step that changes IRQ puts that event, and no event of the pins, in front of it, and any other step at most one
event of the channel's pins: so each event stands in the order of the steps. That every channel's sequence holds the
block's IrqLevel events is the model's choice, log entry 11. -/
def Obligations.InterruptEvents : Prop :=
  (∀ s : State, irqLevel s = true ↔ s.irqStatus &&& s.irqEnable ≠ 0#16) ∧ irqLevel State.reset = false ∧
  (∀ s t : State, step s = .next t →
    t.irqEvents =
      if irqLevel t = irqLevel s then s.irqEvents
      else { level := irqLevel t, recorded := s.chans.map fun ch => ch.events.length } :: s.irqEvents) ∧
  (∀ c : Nat, outputEvents State.reset c = []) ∧
  ∀ (s t : State) (c : Nat) (a b : Channel), s.Inv → step s = .next t → s.chans[c]? = some a → t.chans[c]? = some b →
    (irqLevel t ≠ irqLevel s →
      b.events = a.events ∧ outputEvents t c = .irqLevel (irqLevel t) :: outputEvents s c) ∧
    (irqLevel t = irqLevel s →
      (b.events = a.events ∧ outputEvents t c = outputEvents s c) ∨
      ∃ e, b.events = e :: a.events ∧ outputEvents t c = .pin e :: outputEvents s c)

/-- 60_exceptions.md R250: a DONE bit is set only by the end of a move on its channel, which was MOVING before and is IDLE
after, and cleared only by a host write of 1 to it in IRQ_STATUS or by a RESET that this step runs. -/
def Obligations.DoneBitsFollowMoves : Prop :=
  ∀ (s t : State) (c : Nat), step s = .next t → c < 16 →
    (s.irqStatus.getLsbD c = false → t.irqStatus.getLsbD c = true →
      nextAgent s = .sequencer c ∧ (∃ b, t.chans[c]? = some b ∧ b.moving = false) ∧
      (s.Inv → ∃ a, s.chans[c]? = some a ∧ a.moving = true)) ∧
    (s.irqStatus.getLsbD c = true → t.irqStatus.getLsbD c = false →
      (nextAgent s = .host ∧ ∃ v more, s.host = .write 0x018 4 v :: more ∧ v.getLsbD c = true) ∨
      (t.statuses = 0x00000500#32 :: s.statuses ∧ t.cmdStatus = 0x00000500#32 ∧ t.irqStatus = 0#16))

/-- 10_state.md R40: the layout of CH_STATE, its place, that it is read-only, and 0 after reset; with the phase field of R32:
that of the next delay while the channel is MOVING and one is to come, else NONE. -/
def Obligations.ChStateLayout : Prop :=
  (∀ (s : State) (c : Nat) (ch : Channel), s.chans[c]? = some ch →
    regAt s.numChannels (0x100 + 0x40 * c) 4 = some (.chan c .state) ∧
    readReg s (.chan c .state) = chStateWord ch ∧
    ∀ v : Word, busWrite (0x100 + 0x40 * c) 4 v s = .fault (.busError true (0x100 + 0x40 * c) 4)) ∧
  (∀ ch : Channel,
    (chStateWord ch).getLsbD 0 = ch.moving ∧ (chStateWord ch).extractLsb' 1 2 = (phaseOf ch).code ∧
    (chStateWord ch).getLsbD 3 = ch.stepPin ∧ (chStateWord ch).getLsbD 4 = ch.dirPin ∧
    (chStateWord ch).getLsbD 5 = decide (ch.emit = .chunked) ∧ (chStateWord ch).getLsbD 6 = ch.waveBusy ∧
    (chStateWord ch).getLsbD 7 = ch.running ∧ (chStateWord ch).getLsbD 8 = ch.startValid ∧
    (chStateWord ch).extractLsb' 9 23 = 0#23) ∧
  (∀ ch : Channel,
    (ch.moving = true → ch.idx.toNat < ch.total.toNat →
      phaseOf ch = phaseAt ch.profile ch.ramp.toNat ch.cruise.toNat ch.idx.toNat) ∧
    ((ch.moving = false ∨ ch.total.toNat ≤ ch.idx.toNat) → phaseOf ch = .none)) ∧
  (Phase.none.code = 0#2 ∧ Phase.rampUp.code = 1#2 ∧ Phase.const.code = 2#2 ∧ Phase.rampDown.code = 3#2) ∧
  chStateWord Channel.reset = 0#32

/-! ## Curves, profiles, ticks -/

/-- 40_delay_curve.md R100, R101, R105: the two laws, which return `b` at progress 1.0 and the formula, rounded at each
operation, elsewhere; the formula of the sine law would not give `b` at progress 1.0 for the rule's operands, and no ramp
presents that progress. -/
def Obligations.EasingLaws : Prop :=
  (∀ (f : SinFn) (p a b : B64), eq p one = true → sineEase f p a b = b ∧ linearEase p a b = b) ∧
  (∀ (f : SinFn) (p a b : B64), eq p one = false →
    sineEase f p a b = sub a (mul (sub a b) (sinFn f (div (mul p 0x400921FB54442D18#64) 0x4000000000000000#64))) ∧
    linearEase p a b = add a (mul (sub b a) p)) ∧
  one = ofNat 1 ∧
  sub 0x3F8EB851EB851EB8#64
      (mul (sub 0x3F8EB851EB851EB8#64 0x3F4EB851EB851EB8#64)
        (sinFn .correctlyRounded (div (mul one 0x400921FB54442D18#64) 0x4000000000000000#64))) =
    0x3F4EB851EB851EC0#64 ∧
  ∀ k r : Nat, k < r → r ≤ 2 ^ 31 - 1 → eq (progress k r) one = false

/-- 41_ramp_profile_generator.md R127: the progress of ramp sample `k` of `r` is the rounded quotient; it lies in `[0, 1)`, is
never 1.0, and is +0.0 for sample 0. -/
def Obligations.ProgressStaysBelowOne : Prop :=
  ∀ k r : Nat, k < r → r ≤ 2 ^ 31 - 1 →
    progress k r = div (ofNat k) (ofNat r) ∧ finite (progress k r) = true ∧ le 0#64 (progress k r) = true ∧
      lt (progress k r) one = true ∧ (k = 0 → progress k r = 0#64)

/-- 40_delay_curve.md R102, R105: at progress 0 both laws give `a` exactly, bit for bit, on the unit's domain (R106): `a` and
`b` finite with the sign bit clear. For +0.0 this holds of every SIN_FN, for -0.0 of the default. The rule's wider domain
fails by overflow of `a - b` (log entry 22). -/
def Obligations.EasingStartsAtFirstDelay : Prop :=
  ∀ a b : B64, finite a = true → signBit a = false → finite b = true → signBit b = false →
    (∀ f, sineEase f 0#64 a b = a) ∧ sineEase .correctlyRounded 0x8000000000000000#64 a b = a ∧
    linearEase 0#64 a b = a ∧ linearEase 0x8000000000000000#64 a b = a

/-- 41_ramp_profile_generator.md R128: the delay floor, and that it is the greater of the delay and MIN_DELAY. -/
def Obligations.DelayFloor : Prop :=
  ∀ (p : Params) (d : B64),
    (lt d p.minDelay = true → floorMin p d = p.minDelay) ∧ (lt d p.minDelay = false → floorMin p d = d) ∧
    (isNaN d = false → isNaN p.minDelay = false → le p.minDelay (floorMin p d) = true ∧ le d (floorMin p d) = true)

/-- 42_pulse_delay_sequencer.md R154: with every parameter in its range, whatever SIN_FN is, every delay not below MIN_DELAY is
valid; and in a legal configuration every delay of every move that `validate` accepts is valid, in every profile and curve.
Which SIN_FN are legal is the model's choice, log entry 28. For an infinite `d`, and for one whose product with TICK_HZ
overflows, that it is valid rests on the saturation of `ticks` for a product that is not finite, the model's choice, log
entry 9. -/
def Obligations.FlooredDelaysAreValid : Prop :=
  (∀ (p : Params) (n : Nat) (d : B64), legalRanges p n = true → le p.minDelay d = true → validDelay p d = true) ∧
  ∀ (p : Params) (n : Nat) (profile : Profile) (curve : Curve) (ppr : Word) (v t rt : B64) (ramp : Option Word)
    (total r i : Nat), legalParams p n → validate p ppr v t rt = none → total = totalSteps ppr t rt →
    r = rampSteps p v t ramp total → i < total →
    validDelay p
      (delayAt p profile curve r (cruiseSteps profile total r) (halfStepDelay ppr v) (halfStepDelay ppr t) i) = true

/-- 41_ramp_profile_generator.md R135: in a legal configuration every delay of every move that `validate` accepts is finite,
positive and not below MIN_DELAY, in every profile and curve. Which SIN_FN are legal is the model's choice between R6 and
R135, log entry 28: every one whose value at the arguments of ramp samples has a finite product with 2^32 is, whatever it
gives elsewhere. With the default sine and with each of these, the delays are so for all start and target delays that are
finite, not negative and at most 2^32 s. -/
def Obligations.DelaysNeverBelowFloor : Prop :=
  (∀ (p : Params) (n : Nat) (profile : Profile) (curve : Curve) (ppr : Word) (v t rt : B64) (ramp : Option Word)
      (total r i : Nat), legalParams p n → validate p ppr v t rt = none → total = totalSteps ppr t rt →
    r = rampSteps p v t ramp total → i < total →
    ∃ d, d = delayAt p profile curve r (cruiseSteps profile total r) (halfStepDelay ppr v) (halfStepDelay ppr t) i ∧
      finite d = true ∧ lt 0#64 d = true ∧ le p.minDelay d = true) ∧
  (∀ (p : Params) (n : Nat), legalRanges p n = true →
    (p.sinFn = .correctlyRounded ∨ ∀ k r, k < r → r < 2 ^ 31 →
      finite (mul (ofNat (2 ^ 32)) (sinFn p.sinFn (div (mul (progress k r) pi64) two))) = true) →
    legalParams p n ∧
    ∀ (profile : Profile) (curve : Curve) (r c i : Nat) (sd td : B64), r < 2 ^ 31 → i < 2 ^ 32 →
      (profile = .full → i < 2 * r + c) →
      finite sd = true → signBit sd = false → le sd (ofNat (2 ^ 32)) = true →
      finite td = true → signBit td = false → le td (ofNat (2 ^ 32)) = true →
      finite (delayAt p profile curve r c sd td i) = true ∧ lt 0#64 (delayAt p profile curve r c sd td i) = true ∧
        le p.minDelay (delayAt p profile curve r c sd td i) = true)

/-- 42_pulse_delay_sequencer.md R151: the tick count of a positive finite delay is the floor of the rounded product, saturated
at 2^32 - 1; with the rule's worked values. -/
def Obligations.TickConversion : Prop :=
  (∀ (p : Params) (d : B64), finite d = true → lt 0#64 d = true → finite (mul d (ofNat p.tickHz.toNat)) = true →
    ((ticks p d).toNat : Int) =
      if 4294967295 < floor (mul d (ofNat p.tickHz.toNat)) then 4294967295
      else floor (mul d (ofNat p.tickHz.toNat))) ∧
  ticks Config.reference 0x3F4EB851EB851EB8#64 = 937#32 ∧ ticks Config.reference 0x3F8EB851EB851EB8#64 = 15000#32 ∧
  ticks Config.reference Config.reference.minDelay = 10#32 ∧
  mul 0x3F4EB851EB851EB8#64 (ofNat 1000000) = 0x408D4C0000000000#64

/-- 41_ramp_profile_generator.md R122, R125, R126: the resolved ramp is at most half the total, a given ramp is clamped to
it, and ramp and constant phase add up to the total in every profile; with the rules' examples, 100 of 3200. -/
def Obligations.RampAndCruiseAddUp : Prop :=
  (∀ (p : Params) (n : Nat) (v t : B64) (given : Option Word) (total r : Nat), legalRanges p n = true →
    finite v = true → lt 0#64 v = true → finite t = true → lt 0#64 t = true → total < 2 ^ 32 →
    r = rampSteps p v t given total →
    r ≤ total / 2 ∧ (∀ k, given = some k → r = min k.toNat (total / 2)) ∧
    2 * r + cruiseSteps .full total r = total ∧ r + cruiseSteps .rampUpOnly total r = total ∧
    r + cruiseSteps .rampDownOnly total r = total) ∧
  rampSteps Config.reference 0x4014000000000000#64 0x4054000000000000#64 (some 100#32) 3200 = 100 ∧
  cruiseSteps .full 3200 100 = 3000

/-- 41_ramp_profile_generator.md R130, R131, R133, R134, 30_encoding.md R85: the delay sequence, the phase of each index by
profile, and the phase codes; which law each curve is, and that the delays of a channel's move are those of its record. -/
def Obligations.DelaySequenceByProfile : Prop :=
  (∀ (p : Params) (curve : Curve) (r c i : Nat) (sd td : B64),
    (i < r →
      delayAt p .full curve r c sd td i =
        floorMin p (ease p.sinFn curve (div (ofNat i) (ofNat r)) sd td) ∧
      delayAt p .rampUpOnly curve r c sd td i = delayAt p .full curve r c sd td i ∧
      delayAt p .rampDownOnly curve r c sd td i =
        floorMin p (ease p.sinFn curve (div (ofNat i) (ofNat r)) td sd) ∧
      phaseAt .full r c i = .rampUp ∧ phaseAt .rampUpOnly r c i = .rampUp ∧
      phaseAt .rampDownOnly r c i = .rampDown) ∧
    (r ≤ i →
      delayAt p .rampUpOnly curve r c sd td i = floorMin p td ∧
      delayAt p .rampDownOnly curve r c sd td i = floorMin p sd ∧
      phaseAt .rampUpOnly r c i = .const ∧ phaseAt .rampDownOnly r c i = .const) ∧
    (r ≤ i → i < r + c → delayAt p .full curve r c sd td i = floorMin p td ∧ phaseAt .full r c i = .const) ∧
    (r + c ≤ i →
      delayAt p .full curve r c sd td i =
        floorMin p (ease p.sinFn curve (div (ofNat (i - r - c)) (ofNat r)) td sd) ∧
      phaseAt .full r c i = .rampDown)) ∧
  (∀ (f : SinFn) (x a b : B64), ease f .sine x a b = sineEase f x a b ∧ ease f .linear x a b = linearEase x a b) ∧
  (∀ (p : Params) (ch : Channel) (i : Nat),
    delayOf p ch i = delayAt p ch.profile ch.curve ch.ramp.toNat ch.cruise.toNat ch.sd ch.td i) ∧
  Phase.rampUp.code = 1#2 ∧ Phase.const.code = 2#2 ∧ Phase.rampDown.code = 3#2

/-! ## Arithmetic -/

/-- 00_scope.md R12: on finite operands, a divisor not 0, every operation returns no NaN; a finite value exactly where the exact
result's magnitude is below 2^1024 - 2^970, the overflow of 41_ramp_profile_generator.md R120 and R123; then a binary64
nearest to the exact result, and on a tie the one whose last bit is 0; and the sign of an exact result that is not 0. A
finite value divided by an infinity is a zero (R120). The sign of a zero result is IEEE 754's, log entry 8. -/
def Obligations.ArithmeticRoundsToNearest : Prop :=
  ∀ (val : B64 → ℚ), (∀ x, val x = (signedUnits x : ℚ) / 2 ^ 1074) →
    (∀ (x y res : B64) (exact : ℚ), finite x = true → finite y = true →
      ((res = add x y ∧ exact = val x + val y) ∨ (res = sub x y ∧ exact = val x - val y) ∨
        (res = mul x y ∧ exact = val x * val y) ∨ (res = div x y ∧ val y ≠ 0 ∧ exact = val x / val y)) →
      isNaN res = false ∧ (finite res = true ↔ |exact| < 2 ^ 1024 - 2 ^ 970) ∧
      (exact ≠ 0 → signBit res = decide (exact < 0)) ∧
      (finite res = true → ∀ z, finite z = true →
        |val res - exact| ≤ |val z - exact| ∧
          (|val res - exact| = |val z - exact| → val z = val res ∨ res.toNat % 2 = 0))) ∧
    ∀ x y : B64, finite x = true → isInf y = true → isZero (div x y) = true ∧ signBit (div x y) = (signBit x != signBit y)

/-- 40_delay_curve.md R108: the default sine returns a binary64 nearest to the exact sine, for every argument between -2 and 2
whose two series bounds round alike (all the arguments the block presents lie in that range, R106). The restriction to
those arguments is the model's choice, log entry 4. -/
def Obligations.DefaultSineIsCorrectlyRounded : Prop :=
  ∀ (val : B64 → ℝ), (∀ x, val x = (signedUnits x : ℝ) / 2 ^ 1074) →
    ∀ (y z : B64), finite y = true → |val y| < 2 → finite z = true →
      (|val y| < 1 / 2 ^ 27 ∨ sineBits (Binary64.abs y) 29 = sineBits (Binary64.abs y) 30) →
      |val (correctSine y) - Real.sin (val y)| ≤ |val z - Real.sin (val y)|

/-! ## The assembler -/

/-- 30_encoding.md R92: the register writes every command mnemonic expands to, the ARG writes first and the CMD write last,
with the words of the table; and the rule's example, as text. -/
def Obligations.MnemonicsExpandToWrites : Prop :=
  (∀ (c : BitVec 4) (n : Word) (w : Word), w = c.setWidth 32 <<< 8 →
    asmPpr c n = [.write 0x020 4 n, .write 0x010 4 (0x01#32 ||| w)] ∧
    asmSetemit c .direct = [.write 0x010 4 (0x02#32 ||| w)] ∧
    asmSetemit c .chunked = [.write 0x010 4 (0x02#32 ||| w ||| 1#32 <<< 17)] ∧
    asmStop = [.write 0x010 4 0x04#32] ∧ asmReset = [.write 0x010 4 0x05#32] ∧
    asmClrstat c = [.write 0x010 4 (0x06#32 ||| w)] ∧ asmSnap c = [.write 0x010 4 (0x07#32 ||| w)] ∧
    asmSetlabel c n = [.write 0x020 4 n, .write 0x010 4 (0x08#32 ||| w)]) ∧
  (∀ (c : BitVec 4) (profile : Profile) (curve : Curve) (s t r : B64) (dir : Bool) (ramp : Option Word) (word p k : Word),
    p = (match profile with
         | .full => 0#32
         | .rampUpOnly => 1#32
         | .rampDownOnly => 2#32) →
    k = (match curve with
         | .sine => 0#32
         | .linear => 1#32) →
    word = 0x03#32 ||| c.setWidth 32 <<< 8 ||| (BitVec.ofBool dir).setWidth 32 <<< 12 ||| p <<< 13 ||| k <<< 15 →
    asmMove c profile curve ⟨s, t, r, dir, ramp⟩ =
      [.write 0x020 4 (s.extractLsb' 0 32), .write 0x024 4 (s.extractLsb' 32 32), .write 0x028 4 (t.extractLsb' 0 32),
        .write 0x02C 4 (t.extractLsb' 32 32), .write 0x030 4 (r.extractLsb' 0 32), .write 0x034 4 (r.extractLsb' 32 32)] ++
      match ramp with
      | none => [.write 0x010 4 word]
      | some n => [.write 0x038 4 n, .write 0x010 4 (word ||| 1#32 <<< 16)]) ∧
  parseStatement "MOVE.FULL.SINE 0, 1, 5.0, 80.0, 6.0, 100".toList = some
    [.write 0x020 4 0x00000000#32, .write 0x024 4 0x40140000#32, .write 0x028 4 0x00000000#32,
      .write 0x02C 4 0x40540000#32, .write 0x030 4 0x00000000#32, .write 0x034 4 0x40180000#32, .write 0x038 4 100#32,
      .write 0x010 4 0x00011003#32]

/-! ## The line protocol -/

/-- 30_encoding.md R93, R94: the text of each accepted line, and the command or commands it maps onto, on channel LINK_CHANNEL,
with profile FULL and curve sine; a line that has a command has one of these texts, with operands of the forms R93 gives, and
a line of no accepted form issues no command. Every digit string with a value below 2^32 is that integer, and every decimal
literal of R93's form is read as the binary64 nearest to its exact value, ties to even, an infinity from 2^1024 - 2^970 on.
That `digits` are one or more digits and a line has its newline and no spaces is the model's reading, log entry 16; that a
zero has the sign written is its choice, log entry 30. The command's register writes are those of
the assembler, one a step. That the front end is an agent, the phases it goes through and what it keeps are the model's
choice, log entry 15. -/
def Obligations.LinesMapToCommands : Prop :=
  (parseLine "STOP\n".toList = some .stop ∧ parseLine "RESET\n".toList = some .reset ∧
    (∀ n : Word, parseLine ("PPR:".toList ++ Nat.toDigits 10 n.toNat ++ ['\n']) = some (.ppr n)) ∧
    (∀ (text : List Char) (m : MoveLine), parseMove text = some m →
      parseLine ("MOVE:".toList ++ text ++ ['\n']) = some (.move m)) ∧
    (∀ (text : List Char) (m : MoveLine) (ms : List MoveLine),
      (splitAtSep ';' text).map parseMove = (m :: ms).map some →
      parseLine ("BATCH:".toList ++ text ++ ['\n']) = some (.batch m ms)) ∧
    (∀ (a b c d e : List Char) (v t r : B64) (dir : Bool) (n : Word), (∀ f ∈ [a, b, c, d, e], ',' ∉ f) →
      parseFloat a = some v → parseFloat b = some t → parseFloat c = some r → parseDirection d = some dir →
      parseU32 e = some n →
      parseMove (a ++ [','] ++ b ++ [','] ++ c ++ [','] ++ d) = some ⟨v, t, r, dir, none⟩ ∧
      parseMove (a ++ [','] ++ b ++ [','] ++ c ++ [','] ++ d ++ [','] ++ e) = some ⟨v, t, r, dir, some n⟩) ∧
    parseDirection ['0'] = some false ∧ parseDirection ['1'] = some true ∧
    (∀ n : Word, parseU32 (Nat.toDigits 10 n.toNat) = some n) ∧
    parseFloat "5".toList = some 0x4014000000000000#64 ∧ parseFloat "+80.0".toList = some 0x4054000000000000#64 ∧
    parseFloat "1e-5".toList = some 0x3EE4F8B588E368F1#64 ∧ parseFloat "-0.9375E-3".toList = some 0xBF4EB851EB851EB8#64 ∧
    parseLine "MOVE:5,80,6,1,100\n".toList =
      some (.move ⟨0x4014000000000000#64, 0x4054000000000000#64, 0x4018000000000000#64, true, some 100#32⟩)) ∧
  (∀ (line : List Char) (cmd : LineCmd), parseLine line = some cmd →
    (line = "STOP\n".toList ∧ cmd = .stop) ∨ (line = "RESET\n".toList ∧ cmd = .reset) ∨
    (∃ text n, line = "PPR:".toList ++ text ++ ['\n'] ∧ parseU32 text = some n ∧ cmd = .ppr n) ∨
    (∃ text m, line = "MOVE:".toList ++ text ++ ['\n'] ∧ parseMove text = some m ∧ cmd = .move m) ∨
    ∃ text m ms, line = "BATCH:".toList ++ text ++ ['\n'] ∧
      (splitAtSep ';' text).map parseMove = (m :: ms).map some ∧ cmd = .batch m ms) ∧
  (∀ (text : List Char) (m : MoveLine), parseMove text = some m → ∃ a b c d : List Char,
    parseFloat a = some m.startRpm ∧ parseFloat b = some m.targetRpm ∧ parseFloat c = some m.runTime ∧
    parseDirection d = some m.dir ∧
    ((m.rampSteps = none ∧ text = a ++ [','] ++ b ++ [','] ++ c ++ [','] ++ d) ∨
      ∃ e n, m.rampSteps = some n ∧ parseU32 e = some n ∧
        text = a ++ [','] ++ b ++ [','] ++ c ++ [','] ++ d ++ [','] ++ e)) ∧
  (∀ (text : List Char) (dir : Bool), parseDirection text = some dir → text = [if dir then '1' else '0']) ∧
  (∀ (digits : List Char → Prop) (value : List Char → Nat),
    (∀ cs, digits cs ↔ cs ≠ [] ∧ ∀ c ∈ cs, '0' ≤ c ∧ c ≤ '9') →
    (∀ cs, value cs = cs.foldl (fun k c => 10 * k + (c.toNat - 48)) 0) →
    (∀ (text : List Char) (n : Word), parseU32 text = some n ↔ digits text ∧ n.toNat = value text) ∧
    (∀ (text : List Char) (x : B64), parseFloat text = some x → ∃ sign whole frac expo : List Char,
      text = sign ++ whole ++ frac ++ expo ∧ sign ∈ [[], ['+'], ['-']] ∧ digits whole ∧
      (frac = [] ∨ ∃ ds, frac = '.' :: ds ∧ digits ds) ∧
      (expo = [] ∨ ∃ e esign ds, expo = e :: (esign ++ ds) ∧ e ∈ ['e', 'E'] ∧ esign ∈ [[], ['+'], ['-']] ∧ digits ds)) ∧
    ∀ (val : B64 → ℚ), (∀ y, val y = (signedUnits y : ℚ) / 2 ^ 1074) →
      ∀ (sign whole frac ds expo : List Char) (e10 : Int) (x : B64) (exact : ℚ),
        sign ∈ [[], ['+'], ['-']] → digits whole → ((frac = [] ∧ ds = []) ∨ (frac = '.' :: ds ∧ digits ds)) →
        ((expo = [] ∧ e10 = 0) ∨
          ∃ e esign eds, expo = e :: (esign ++ eds) ∧ e ∈ ['e', 'E'] ∧ esign ∈ [[], ['+'], ['-']] ∧ digits eds ∧
            e10 = if esign = ['-'] then -(value eds : Int) else (value eds : Int)) →
        x = ofDecimal (decide (sign = ['-'])) (value (whole ++ ds)) (whole ++ ds).length (e10 - (ds.length : Int)) →
        exact = (if sign = ['-'] then -1 else 1) * (value (whole ++ ds) : ℚ) * (10 : ℚ) ^ (e10 - (ds.length : Int)) →
        parseFloat (sign ++ whole ++ frac ++ expo) = some x ∧ isNaN x = false ∧ signBit x = decide (sign = ['-']) ∧
        (finite x = true ↔ |exact| < 2 ^ 1024 - 2 ^ 970) ∧
        (finite x = true → ∀ z, finite z = true →
          |val x - exact| ≤ |val z - exact| ∧
            (|val x - exact| = |val z - exact| → val z = val x ∨ x.toNat % 2 = 0))) ∧
  (∀ (s : State) (line : List Char), (parseLine line = none → takeLine line s = s) ∧
    ∀ cmd follow,
      ((parseLine line = some .stop ∧ cmd = .stop ∧ follow = .nothing) ∨
        (parseLine line = some .reset ∧ cmd = .reset ∧ follow = .nothing) ∨
        (∃ n, parseLine line = some (.ppr n) ∧ cmd = .ppr n ∧ follow = .nothing) ∨
        (∃ m, parseLine line = some (.move m) ∧ cmd = .move m ∧ follow = .first []) ∨
        ∃ m ms, parseLine line = some (.batch m ms) ∧ cmd = .move m ∧ follow = .first ms) →
      takeLine line s = { s with link := { s.link with phase := .writing cmd 0 follow } }) ∧
  (∀ (ch : BitVec 4) (n : Word) (m : MoveLine),
    linkWrites ch (.ppr n) = asmPpr ch n ∧ linkWrites ch .reset = asmReset ∧ linkWrites ch .stop = asmStop ∧
    linkWrites ch (.move m) = asmMove ch .full .sine m) ∧
  ∀ (s : State) (cmd : LinkCmd) (k : Nat) (follow : Follow) (off width : Nat) (v : Word),
    s.link.phase = .writing cmd k follow →
    (linkWrites s.params.linkChannel cmd)[k]? = some (.write off width v) →
    linkStep s = andThen (busWrite off width v s) fun t => .next
      { t with
        link :=
          { t.link with
            phase :=
              if k + 1 < (linkWrites s.params.linkChannel cmd).length then .writing cmd (k + 1) follow
              else if follow = .nothing then .ready
              else .checking follow } }

/-- 30_encoding.md R94: a BATCH line is parsed whole; if one of its moves does not parse, no command is issued, and else its
moves are all there, in order. -/
def Obligations.BatchIsParsedWhole : Prop :=
  (∀ fields : List (List Char), (∃ f ∈ fields, parseMove f = none) → parseMoves fields = none) ∧
  (∀ (fields : List (List Char)) (ms : List MoveLine), fields.map parseMove = ms.map some → parseMoves fields = some ms) ∧
  ∀ (s : State) (text : List Char), (∃ f ∈ splitAtSep ';' text, parseMove f = none) →
    takeLine (['B', 'A', 'T', 'C', 'H', ':'] ++ text ++ ['\n']) s = s

/-- 30_encoding.md R94, R95: after the CMD write of a move the front end reads CMD_STATUS: an accepted move is awaited, a
refused first move of a line is followed by nothing, and a refused later one by `DONE`. While it awaits a move it reads
CH_STATE; when the channel is IDLE, `DONE` is sent after the last move of a line, and before the next move of a batch the
result is read, which goes on only after COMPLETE and else sends `DONE`. Every read is one step. These phases, `DONE` at
once after a refused later move, and that a line is taken up while a move is awaited only by a free choice and never
between the moves of a batch, are the model's choice, log entry 15. -/
def Obligations.DoneIsSentAtTheEnd : Prop :=
  (∀ (s : State) (rest : List MoveLine) (l : List (Nat × Word)), l = (0x014, s.cmdStatus) :: s.reads →
    (s.link.phase = .checking (.first rest) → s.cmdStatus.extractLsb' 0 4 = 0#4 → s.link.job = none →
      linkStep s = .next { s with reads := l, link := { s.link with phase := .ready, job := some rest } }) ∧
    (s.link.phase = .checking (.first rest) → s.cmdStatus.extractLsb' 0 4 = 0#4 → s.link.job ≠ none →
      linkStep s = .next
        { s with
          reads := l
          link :=
            { s.link with
              phase := .ready, job := some rest, sent := ['D', 'O', 'N', 'E', '\n'] :: s.link.sent } }) ∧
    (s.link.phase = .checking (.first rest) → s.cmdStatus.extractLsb' 0 4 ≠ 0#4 →
      linkStep s = .next { s with reads := l, link := { s.link with phase := .ready } }) ∧
    (s.link.phase = .checking (.next rest) → s.cmdStatus.extractLsb' 0 4 = 0#4 →
      linkStep s = .next { s with reads := l, link := { s.link with phase := .ready, job := some rest } }) ∧
    (s.link.phase = .checking (.next rest) → s.cmdStatus.extractLsb' 0 4 ≠ 0#4 →
      linkStep s = .next
        { s with
          reads := l
          link :=
            { s.link with phase := .ready, job := none, sent := ['D', 'O', 'N', 'E', '\n'] :: s.link.sent } })) ∧
  (∀ (s : State) (rest : List MoveLine) (ch : Channel) (c : Nat) (l : List (Nat × Word)), c = s.params.linkChannel.toNat →
    s.chans[c]? = some ch → l = (0x100 + 0x40 * c, chStateWord ch) :: s.reads →
    (ch.moving = true → pollStep rest s = .next { s with reads := l }) ∧
    (ch.moving = false → rest = [] →
      pollStep rest s = .next
        { s with
          reads := l
          link :=
            { s.link with phase := .ready, job := none, sent := ['D', 'O', 'N', 'E', '\n'] :: s.link.sent } }) ∧
    (∀ m ms, ch.moving = false → rest = m :: ms →
      pollStep rest s = .next { s with reads := l, link := { s.link with phase := .judging m ms } })) ∧
  (∀ (s : State) (m : MoveLine) (ms : List MoveLine) (ch : Channel) (c : Nat) (l : List (Nat × Word)),
    c = s.params.linkChannel.toNat → s.chans[c]? = some ch → l = (0x108 + 0x40 * c, chLastWord ch) :: s.reads →
    s.link.phase = .judging m ms →
    (ch.result = .complete →
      linkStep s = .next { s with reads := l, link := { s.link with phase := .writing (.move m) 0 (.next ms) } }) ∧
    (ch.result ≠ .complete →
      linkStep s = .next
        { s with
          reads := l
          link :=
            { s.link with phase := .ready, job := none, sent := ['D', 'O', 'N', 'E', '\n'] :: s.link.sent } })) ∧
  (∀ (s : State) (rest : List MoveLine), s.link.phase = .ready → s.link.job = some rest → mayTakeLine rest s = false →
    linkStep s = pollStep rest s) ∧
  (∀ (s : State) (rest : List MoveLine), s.link.inbox = [] → mayTakeLine rest s = false) ∧
  ∀ (s : State) (rest : List MoveLine) (line : List Char) (lines : List (List Char)),
    s.link.inbox = line :: lines → s.link.phase = .ready →
    (s.link.job = none → linkStep s = .next (takeLine line { s with link := { s.link with inbox := lines } })) ∧
    (mayTakeLine rest s = true ↔
      rest = [] ∨ ((∀ m, parseLine line ≠ some (.move m)) ∧ ∀ m ms, parseLine line ≠ some (.batch m ms))) ∧
    (s.link.job = some rest → mayTakeLine rest s = true →
      linkStep s =
        if Config.takesLine s.draws then
          .next (takeLine line { s with draws := s.draws + 1, link := { s.link with inbox := lines } })
        else pollStep rest { s with draws := s.draws + 1 })
end

