-- ==== Sys2Proof/Laws/Binary64.lean ====
section
/-! SUPPORT. What the binary64 operations' parts do: the fields of a pattern, the units of magnitude bits, and rounding as
exponent and significand, monotone and exact on integers below 2^53. -/

namespace Sys2Proof.Machine.Binary64

/-- The units of magnitude bits `b` (exponent and fraction fields). -/
def bitsUnits (b : Nat) : Nat :=
  (if b / 2 ^ 52 = 0 then b % 2 ^ 52 else 2 ^ 52 + b % 2 ^ 52) * 2 ^ (b / 2 ^ 52 - 1)

theorem unitsPerOne_eq : unitsPerOne = 2 ^ 1074 := by unfold unitsPerOne; rfl

theorem unitsPerOne_pos : 0 < unitsPerOne := unitsPerOne_eq ▸ Nat.two_pow_pos _

theorem toNat_withSign (n : Bool) {b : Nat} (h : b < 2 ^ 63) :
    (withSign n b).toNat = if n then 2 ^ 63 + b else b := by
  cases n <;> simp [withSign] <;> omega

theorem expField_withSign (n : Bool) {b : Nat} (h : b < 2 ^ 63) : expField (withSign n b) = b / 2 ^ 52 := by
  rw [expField, toNat_withSign n h]; cases n <;> simp <;> omega

theorem fracField_withSign (n : Bool) {b : Nat} (h : b < 2 ^ 63) : fracField (withSign n b) = b % 2 ^ 52 := by
  rw [fracField, toNat_withSign n h]; cases n <;> simp <;> omega

theorem signBit_withSign (n : Bool) {b : Nat} (h : b < 2 ^ 63) : signBit (withSign n b) = n := by
  rw [signBit, BitVec.msb_eq_decide, toNat_withSign n h]; cases n <;> simp <;> omega

theorem units_withSign (n : Bool) {b : Nat} (h : b < 2 ^ 63) : units (withSign n b) = bitsUnits b := by
  rw [units, significand, unitExp, expField_withSign n h, fracField_withSign n h, bitsUnits]

theorem isNaN_withSign (n : Bool) {b : Nat} (h : b ≤ infBits) : isNaN (withSign n b) = false := by
  have hb : b < 2 ^ 63 := lt_of_le_of_lt h (by decide)
  rw [isNaN, expField_withSign n hb, fracField_withSign n hb]
  unfold infBits at h
  simp only [Bool.and_eq_false_iff, beq_eq_false_iff_ne, bne_eq_false_iff_eq]
  omega

theorem roundUnits_le (num den : Nat) : roundUnits num den ≤ infBits := by simp [roundUnits]

theorem roundUnits_lt (num den : Nat) : roundUnits num den < 2 ^ 63 :=
  lt_of_le_of_lt (roundUnits_le num den) (by decide)

/-- Exponent `e` and significand `q` as magnitude bits stand for `q * 2 ^ e` units. -/
theorem bitsUnits_pack {e q : Nat} (hq : q ≤ 2 ^ 53) (he : e = 0 ∨ 2 ^ 52 ≤ q) :
    bitsUnits (e * 2 ^ 52 + q) = q * 2 ^ e := by
  unfold bitsUnits
  by_cases h1 : q < 2 ^ 52
  · have he0 : e = 0 := by omega
    subst he0
    have hd : (0 * 2 ^ 52 + q) / 2 ^ 52 = 0 := by omega
    rw [if_pos hd, hd]; simp; omega
  · by_cases h2 : q < 2 ^ 53
    · have hd : (e * 2 ^ 52 + q) / 2 ^ 52 = e + 1 := by omega
      have hm : (e * 2 ^ 52 + q) % 2 ^ 52 = q - 2 ^ 52 := by omega
      rw [if_neg (by omega), hd, hm]
      have : 2 ^ 52 + (q - 2 ^ 52) = q := by omega
      rw [this]; simp
    · have hq' : q = 2 ^ 53 := by omega
      subst hq'
      have hd : (e * 2 ^ 52 + 2 ^ 53) / 2 ^ 52 = e + 2 := by omega
      have hm : (e * 2 ^ 52 + 2 ^ 53) % 2 ^ 52 = 0 := by omega
      rw [if_neg (by omega), hd, hm]
      have : e + 2 - 1 = e + 1 := by omega
      rw [this, pow_succ]; ring

theorem nearestEven_le (num den : Nat) : num / den ≤ nearestEven num den := by
  unfold nearestEven; split_ifs <;> omega

theorem nearestEven_le_succ (num den : Nat) : nearestEven num den ≤ num / den + 1 := by
  unfold nearestEven; split_ifs <;> omega

theorem nearestEven_one (num : Nat) : nearestEven num 1 = num := by
  simp [nearestEven, Nat.mod_one]

theorem nearestEven_of_dvd {num den : Nat} (hd : 0 < den) (h : den ∣ num) : nearestEven num den = num / den := by
  have : num % den = 0 := Nat.mod_eq_zero_of_dvd h
  simp [nearestEven, this, hd]

/-- The nearest integer is within half of the quotient. -/
theorem nearestEven_close {num den : Nat} (hd : 0 < den) :
    2 * num ≤ (2 * nearestEven num den + 1) * den ∧ 2 * nearestEven num den * den ≤ 2 * num + den := by
  have h := Nat.div_add_mod num den
  have hr := Nat.mod_lt num hd
  unfold nearestEven
  generalize num / den = q at *
  generalize num % den = r at *
  subst h
  constructor <;> split_ifs <;> nlinarith

theorem nearestEven_mono {n₁ d₁ n₂ d₂ : Nat} (h₁ : 0 < d₁) (h₂ : 0 < d₂) (h : n₁ * d₂ ≤ n₂ * d₁) :
    nearestEven n₁ d₁ ≤ nearestEven n₂ d₂ := by
  have hf : n₁ / d₁ ≤ n₂ / d₂ := by
    rw [Nat.le_div_iff_mul_le h₂]
    have : n₁ / d₁ * d₁ ≤ n₁ := Nat.div_mul_le_self _ _
    by_contra hc
    push Not at hc
    have h3 : n₂ * d₁ < n₁ / d₁ * d₂ * d₁ := Nat.mul_lt_mul_of_pos_right hc h₁
    nlinarith
  by_cases he : n₁ / d₁ < n₂ / d₂
  · calc nearestEven n₁ d₁ ≤ n₁ / d₁ + 1 := nearestEven_le_succ _ _
      _ ≤ n₂ / d₂ := he
      _ ≤ _ := nearestEven_le _ _
  · have heq : n₁ / d₁ = n₂ / d₂ := by omega
    have e1 := Nat.div_add_mod n₁ d₁
    have e2 := Nat.div_add_mod n₂ d₂
    rw [← heq] at e2
    have hr : n₁ % d₁ * d₂ ≤ n₂ % d₂ * d₁ := by nlinarith
    have step1 : d₁ < 2 * (n₁ % d₁) → d₂ < 2 * (n₂ % d₂) := by
      intro a; by_contra b; push Not at b; nlinarith
    have step2 : d₁ ≤ 2 * (n₁ % d₁) → d₂ ≤ 2 * (n₂ % d₂) := by
      intro a; by_contra b; push Not at b; nlinarith
    unfold nearestEven
    rw [← heq]
    split_ifs <;> omega

theorem log2_mono {a b : Nat} (h : a ≤ b) : Nat.log2 a ≤ Nat.log2 b := by
  rw [Nat.log2_eq_log_two, Nat.log2_eq_log_two]; exact Nat.log_mono_right h

/-- Rounding before the clip to infinity. -/
def roundBits (num den : Nat) : Nat :=
  (Nat.log2 (num / den) - 52) * 2 ^ 52 + nearestEven num (den * 2 ^ (Nat.log2 (num / den) - 52))

theorem roundUnits_eq (num den : Nat) : roundUnits num den = min (roundBits num den) infBits := rfl

/-- The significand `num / den` rounds to lies in `[2^52, 2^53]` unless the spacing is one unit. -/
theorem significand_range {num den : Nat} :
    nearestEven num (den * 2 ^ (Nat.log2 (num / den) - 52)) ≤ 2 ^ 53 ∧
      (Nat.log2 (num / den) - 52 = 0 ∨
        2 ^ 52 ≤ nearestEven num (den * 2 ^ (Nat.log2 (num / den) - 52))) := by
  have hdd : num / (den * 2 ^ (Nat.log2 (num / den) - 52)) = num / den / 2 ^ (Nat.log2 (num / den) - 52) :=
    (Nat.div_div_eq_div_mul _ _ _).symm
  have hup : num / den < 2 ^ (Nat.log2 (num / den) + 1) := Nat.lt_log2_self
  constructor
  · refine le_trans (nearestEven_le_succ _ _) ?_
    rw [hdd]
    have : num / den / 2 ^ (Nat.log2 (num / den) - 52) < 2 ^ 53 := by
      rw [Nat.div_lt_iff_lt_mul (Nat.pow_pos (by decide)), ← pow_add]
      exact lt_of_lt_of_le hup (Nat.pow_le_pow_right (by decide) (by omega))
    omega
  · by_cases h0 : Nat.log2 (num / den) - 52 = 0
    · exact Or.inl h0
    · right
      refine le_trans ?_ (nearestEven_le _ _)
      rw [hdd, Nat.le_div_iff_mul_le (Nat.pow_pos (by decide)), ← pow_add]
      have hne : num / den ≠ 0 := by
        intro hz; rw [hz] at h0; exact h0 (by decide)
      have hlow := Nat.log2_self_le hne
      exact le_trans (Nat.pow_le_pow_right (by decide) (by omega)) hlow

/-- Rounding is monotone. -/
theorem roundUnits_mono {n₁ d₁ n₂ d₂ : Nat} (h₁ : 0 < d₁) (h₂ : 0 < d₂) (h : n₁ * d₂ ≤ n₂ * d₁) :
    roundUnits n₁ d₁ ≤ roundUnits n₂ d₂ := by
  have hf : n₁ / d₁ ≤ n₂ / d₂ := by
    rw [Nat.le_div_iff_mul_le h₂]
    have : n₁ / d₁ * d₁ ≤ n₁ := Nat.div_mul_le_self _ _
    by_contra hc
    push Not at hc
    have h3 : n₂ * d₁ < n₁ / d₁ * d₂ * d₁ := Nat.mul_lt_mul_of_pos_right hc h₁
    nlinarith
  have hl := log2_mono hf
  rw [roundUnits_eq, roundUnits_eq]
  refine min_le_min ?_ le_rfl
  have s1 := significand_range (num := n₁) (den := d₁)
  have s2 := significand_range (num := n₂) (den := d₂)
  unfold roundBits
  by_cases he : Nat.log2 (n₁ / d₁) - 52 = Nat.log2 (n₂ / d₂) - 52
  · rw [he]
    have hp : 0 < 2 ^ (Nat.log2 (n₂ / d₂) - 52) := Nat.pow_pos (by decide)
    have := nearestEven_mono (n₁ := n₁) (d₁ := d₁ * 2 ^ (Nat.log2 (n₂ / d₂) - 52)) (n₂ := n₂)
      (d₂ := d₂ * 2 ^ (Nat.log2 (n₂ / d₂) - 52)) (Nat.mul_pos h₁ hp) (Nat.mul_pos h₂ hp) (by nlinarith)
    omega
  · omega

theorem log2_mul_pow {q : Nat} (e : Nat) (h : q ≠ 0) : Nat.log 2 (q * 2 ^ e) = Nat.log 2 q + e := by
  induction e with
  | zero => simp
  | succ e ih =>
    rw [pow_succ, ← mul_assoc, Nat.log_mul_base (by decide) (Nat.mul_ne_zero h (by positivity)), ih, add_assoc]

/-- Rounding of what is already exponent and significand changes nothing. -/
theorem roundBits_exact {q e : Nat} (hq : q < 2 ^ 53) (he : e = 0 ∨ 2 ^ 52 ≤ q) :
    roundBits (q * 2 ^ e) 1 = e * 2 ^ 52 + q := by
  unfold roundBits
  have hexp : Nat.log2 (q * 2 ^ e / 1) - 52 = e := by
    rw [Nat.div_one, Nat.log2_eq_log_two]
    rcases Nat.eq_zero_or_pos q with h0 | h0
    · subst h0
      have : e = 0 := by omega
      subst this; simp
    · rw [log2_mul_pow e (by omega)]
      rcases he with he | he
      · subst he
        have : Nat.log 2 q < 53 := Nat.log_lt_of_lt_pow (by omega) hq
        omega
      · have : Nat.log 2 q = 52 := (Nat.log_eq_iff (by left; decide)).2 ⟨he, hq⟩
        omega
  rw [hexp, one_mul, nearestEven_of_dvd (Nat.pow_pos (by decide)) (Nat.dvd_mul_left _ _),
    Nat.mul_div_cancel _ (Nat.pow_pos (by decide))]

/-- `f64(n)` is exact below 2^53 (00_scope.md R12). -/
theorem units_ofNat {n : Nat} (h : n < 2 ^ 53) : units (ofNat n) = n * unitsPerOne := by
  rw [ofNat, units_withSign _ (roundUnits_lt _ _)]
  rcases Nat.eq_zero_or_pos n with h0 | h0
  · subst h0; simp [roundUnits, nearestEven, bitsUnits]
  have hl : Nat.log2 n ≤ 52 := by
    rw [Nat.log2_eq_log_two]; have : Nat.log 2 n < 53 := Nat.log_lt_of_lt_pow (by omega) h
    omega
  have hlow : 2 ^ Nat.log2 n ≤ n := Nat.log2_self_le (by omega)
  have hup : n < 2 ^ (Nat.log2 n + 1) := Nat.lt_log2_self
  have key : n * unitsPerOne = n * 2 ^ (52 - Nat.log2 n) * 2 ^ (1022 + Nat.log2 n) := by
    rw [unitsPerOne_eq, mul_assoc, ← pow_add]; congr 2; omega
  have hq1 : 2 ^ 52 ≤ n * 2 ^ (52 - Nat.log2 n) := by
    calc 2 ^ 52 = 2 ^ Nat.log2 n * 2 ^ (52 - Nat.log2 n) := by rw [← pow_add]; congr 1; omega
      _ ≤ _ := Nat.mul_le_mul_right _ hlow
  have hq2 : n * 2 ^ (52 - Nat.log2 n) < 2 ^ 53 := by
    calc n * 2 ^ (52 - Nat.log2 n) < 2 ^ (Nat.log2 n + 1) * 2 ^ (52 - Nat.log2 n) :=
          Nat.mul_lt_mul_of_pos_right hup (Nat.pow_pos (by decide))
      _ = 2 ^ 53 := by rw [← pow_add]; congr 1; omega
  rw [roundUnits_eq, key, roundBits_exact hq2 (Or.inr hq1)]
  have hle : (1022 + Nat.log2 n) * 2 ^ 52 + n * 2 ^ (52 - Nat.log2 n) ≤ infBits := by
    unfold infBits
    have : (1022 + Nat.log2 n) ≤ 1074 := by omega
    omega
  rw [min_eq_left hle, bitsUnits_pack (by omega) (Or.inr hq1)]

theorem isNaN_ofNat (n : Nat) : isNaN (ofNat n) = false := isNaN_withSign _ (roundUnits_le _ _)

theorem signBit_ofNat (n : Nat) : signBit (ofNat n) = false := signBit_withSign _ (roundUnits_lt _ _)

theorem signedUnits_ofNat {n : Nat} (h : n < 2 ^ 53) : signedUnits (ofNat n) = (n * unitsPerOne : Nat) := by
  rw [signedUnits, signBit_ofNat, units_ofNat h]; simp

/-- The floor of `f64(n)` is `n`. -/
theorem floor_ofNat {n : Nat} (h : n < 2 ^ 53) : floor (ofNat n) = n := by
  rw [floor, signedUnits_ofNat h]
  push_cast
  rw [Int.mul_ediv_cancel]
  exact_mod_cast unitsPerOne_pos.ne'

theorem bitsUnits_mono {a b : Nat} (h : a ≤ b) : bitsUnits a ≤ bitsUnits b := by
  unfold bitsUnits
  rcases Nat.eq_or_lt_of_le (Nat.div_le_div_right h : a / 2 ^ 52 ≤ b / 2 ^ 52) with he | he
  · rw [he]
    refine Nat.mul_le_mul_right _ ?_
    split <;> omega
  · rw [if_neg (by omega : ¬ b / 2 ^ 52 = 0)]
    by_cases h0 : a / 2 ^ 52 = 0
    · rw [if_pos h0, h0]
      calc a % 2 ^ 52 * 2 ^ (0 - 1) ≤ (2 ^ 52 + b % 2 ^ 52) * 1 := by simp; omega
        _ ≤ _ := Nat.mul_le_mul_left _ (Nat.one_le_two_pow)
    · rw [if_neg h0]
      calc (2 ^ 52 + a % 2 ^ 52) * 2 ^ (a / 2 ^ 52 - 1) ≤ 2 ^ 52 * 2 * 2 ^ (a / 2 ^ 52 - 1) :=
            Nat.mul_le_mul_right _ (by omega)
        _ = 2 ^ 52 * 2 ^ (a / 2 ^ 52 - 1 + 1) := by rw [Nat.pow_succ]; ring
        _ ≤ 2 ^ 52 * 2 ^ (b / 2 ^ 52 - 1) := Nat.mul_le_mul_left _ (Nat.pow_le_pow_right (by decide) (by omega))
        _ ≤ _ := Nat.mul_le_mul_right _ (by omega)

theorem roundUnits_exact {q e : Nat} (hq : q < 2 ^ 53) (he : e = 0 ∨ 2 ^ 52 ≤ q) (hm : e * 2 ^ 52 + q ≤ infBits) :
    roundUnits (q * 2 ^ e) 1 = e * 2 ^ 52 + q := by
  rw [roundUnits_eq, roundBits_exact hq he, Nat.min_eq_left hm]

theorem lt_of_lt_infBits {b : Nat} (h : b < infBits) : b < 2 ^ 63 := lt_trans h (by decide)

theorem finite_withSign (n : Bool) {b : Nat} (h : b < infBits) : finite (withSign n b) = true := by
  rw [finite, expField_withSign n (lt_of_lt_infBits h)]
  unfold infBits at h
  simp only [bne_iff_ne, ne_eq]; omega

theorem isInf_withSign (n : Bool) {b : Nat} (h : b < infBits) : isInf (withSign n b) = false := by
  have := finite_withSign n h
  rw [finite, bne_iff_ne] at this
  simp [isInf, this]

/-- The product of two finite values with the sign bit clear. -/
theorem mul_withSign {a b : Nat} (ha : a < infBits) (hb : b < infBits) :
    mul (withSign false a) (withSign false b) =
      withSign false (roundUnits (bitsUnits a * bitsUnits b) unitsPerOne) := by
  simp [mul, isNaN_withSign _ ha.le, isNaN_withSign _ hb.le, isInf_withSign _ ha, isInf_withSign _ hb,
    signBit_withSign _ (lt_of_lt_infBits ha), signBit_withSign _ (lt_of_lt_infBits hb),
    units_withSign _ (lt_of_lt_infBits ha), units_withSign _ (lt_of_lt_infBits hb)]

/-- The quotient of two finite values with the sign bit clear, by one that is not 0. -/
theorem div_withSign {a b : Nat} (ha : a < infBits) (hb : b < infBits) (h0 : bitsUnits b ≠ 0) :
    div (withSign false a) (withSign false b) =
      withSign false (roundUnits (bitsUnits a * unitsPerOne) (bitsUnits b)) := by
  simp [div, isZero, isNaN_withSign _ ha.le, isNaN_withSign _ hb.le, isInf_withSign _ ha, isInf_withSign _ hb,
    signBit_withSign _ (lt_of_lt_infBits ha), signBit_withSign _ (lt_of_lt_infBits hb),
    units_withSign _ (lt_of_lt_infBits ha), units_withSign _ (lt_of_lt_infBits hb), h0]

end Sys2Proof.Machine.Binary64
end

