-- ==== Sys2Proof/Laws/State.lean ====
section
/-! SUPPORT. One lemma per field per update, true by rfl, so that no later proof unfolds a record update. -/

namespace Sys2Proof.Machine

/-! Writing a channel. -/

@[simp] theorem setChan_params (s : State) (c : Nat) (ch : Channel) : (s.setChan c ch).params = s.params := rfl
@[simp] theorem setChan_run (s : State) (c : Nat) (ch : Channel) : (s.setChan c ch).run = s.run := rfl
@[simp] theorem setChan_args (s : State) (c : Nat) (ch : Channel) : (s.setChan c ch).args = s.args := rfl
@[simp] theorem setChan_cmdStatus (s : State) (c : Nat) (ch : Channel) : (s.setChan c ch).cmdStatus = s.cmdStatus := rfl
@[simp] theorem setChan_irqStatus (s : State) (c : Nat) (ch : Channel) : (s.setChan c ch).irqStatus = s.irqStatus := rfl
@[simp] theorem setChan_irqEnable (s : State) (c : Nat) (ch : Channel) : (s.setChan c ch).irqEnable = s.irqEnable := rfl
@[simp] theorem setChan_time (s : State) (c : Nat) (ch : Channel) : (s.setChan c ch).time = s.time := rfl
@[simp] theorem setChan_timeHiLatch (s : State) (c : Nat) (ch : Channel) : (s.setChan c ch).timeHiLatch = s.timeHiLatch := rfl
@[simp] theorem setChan_snap (s : State) (c : Nat) (ch : Channel) : (s.setChan c ch).snap = s.snap := rfl
@[simp] theorem setChan_chans (s : State) (c : Nat) (ch : Channel) : (s.setChan c ch).chans = s.chans.set c ch := rfl
@[simp] theorem setChan_host (s : State) (c : Nat) (ch : Channel) : (s.setChan c ch).host = s.host := rfl
@[simp] theorem setChan_link (s : State) (c : Nat) (ch : Channel) : (s.setChan c ch).link = s.link := rfl
@[simp] theorem setChan_sched (s : State) (c : Nat) (ch : Channel) : (s.setChan c ch).sched = s.sched := rfl
@[simp] theorem setChan_turn (s : State) (c : Nat) (ch : Channel) : (s.setChan c ch).turn = s.turn := rfl
@[simp] theorem setChan_renewed (s : State) (c : Nat) (ch : Channel) : (s.setChan c ch).renewed = s.renewed := rfl
@[simp] theorem setChan_waveAnswers (s : State) (c : Nat) (ch : Channel) : (s.setChan c ch).waveAnswers = s.waveAnswers := rfl
@[simp] theorem setChan_draws (s : State) (c : Nat) (ch : Channel) : (s.setChan c ch).draws = s.draws := rfl
@[simp] theorem setChan_irqEvents (s : State) (c : Nat) (ch : Channel) : (s.setChan c ch).irqEvents = s.irqEvents := rfl
@[simp] theorem setChan_reads (s : State) (c : Nat) (ch : Channel) : (s.setChan c ch).reads = s.reads := rfl
@[simp] theorem setChan_statuses (s : State) (c : Nat) (ch : Channel) : (s.setChan c ch).statuses = s.statuses := rfl

/-! Ending a command. -/

@[simp] theorem setStatus_params (w : Word) (s : State) : (setStatus w s).params = s.params := rfl
@[simp] theorem setStatus_run (w : Word) (s : State) : (setStatus w s).run = s.run := rfl
@[simp] theorem setStatus_args (w : Word) (s : State) : (setStatus w s).args = s.args := rfl
@[simp] theorem setStatus_cmdStatus (w : Word) (s : State) : (setStatus w s).cmdStatus = w := rfl
@[simp] theorem setStatus_irqStatus (w : Word) (s : State) : (setStatus w s).irqStatus = s.irqStatus := rfl
@[simp] theorem setStatus_irqEnable (w : Word) (s : State) : (setStatus w s).irqEnable = s.irqEnable := rfl
@[simp] theorem setStatus_time (w : Word) (s : State) : (setStatus w s).time = s.time := rfl
@[simp] theorem setStatus_timeHiLatch (w : Word) (s : State) : (setStatus w s).timeHiLatch = s.timeHiLatch := rfl
@[simp] theorem setStatus_snap (w : Word) (s : State) : (setStatus w s).snap = s.snap := rfl
@[simp] theorem setStatus_chans (w : Word) (s : State) : (setStatus w s).chans = s.chans := rfl
@[simp] theorem setStatus_host (w : Word) (s : State) : (setStatus w s).host = s.host := rfl
@[simp] theorem setStatus_link (w : Word) (s : State) : (setStatus w s).link = s.link := rfl
@[simp] theorem setStatus_sched (w : Word) (s : State) : (setStatus w s).sched = s.sched := rfl
@[simp] theorem setStatus_turn (w : Word) (s : State) : (setStatus w s).turn = s.turn := rfl
@[simp] theorem setStatus_renewed (w : Word) (s : State) : (setStatus w s).renewed = s.renewed := rfl
@[simp] theorem setStatus_waveAnswers (w : Word) (s : State) : (setStatus w s).waveAnswers = s.waveAnswers := rfl
@[simp] theorem setStatus_draws (w : Word) (s : State) : (setStatus w s).draws = s.draws := rfl
@[simp] theorem setStatus_irqEvents (w : Word) (s : State) : (setStatus w s).irqEvents = s.irqEvents := rfl
@[simp] theorem setStatus_reads (w : Word) (s : State) : (setStatus w s).reads = s.reads := rfl
@[simp] theorem setStatus_statuses (w : Word) (s : State) : (setStatus w s).statuses = w :: s.statuses := rfl

/-! Writing the interrupt registers. -/

@[simp] theorem setIrq_params (a b : BitVec 16) (s : State) : (setIrq a b s).params = s.params := rfl
@[simp] theorem setIrq_run (a b : BitVec 16) (s : State) : (setIrq a b s).run = s.run := rfl
@[simp] theorem setIrq_args (a b : BitVec 16) (s : State) : (setIrq a b s).args = s.args := rfl
@[simp] theorem setIrq_cmdStatus (a b : BitVec 16) (s : State) : (setIrq a b s).cmdStatus = s.cmdStatus := rfl
@[simp] theorem setIrq_irqStatus (a b : BitVec 16) (s : State) : (setIrq a b s).irqStatus = a := rfl
@[simp] theorem setIrq_irqEnable (a b : BitVec 16) (s : State) : (setIrq a b s).irqEnable = b := rfl
@[simp] theorem setIrq_time (a b : BitVec 16) (s : State) : (setIrq a b s).time = s.time := rfl
@[simp] theorem setIrq_timeHiLatch (a b : BitVec 16) (s : State) : (setIrq a b s).timeHiLatch = s.timeHiLatch := rfl
@[simp] theorem setIrq_snap (a b : BitVec 16) (s : State) : (setIrq a b s).snap = s.snap := rfl
@[simp] theorem setIrq_chans (a b : BitVec 16) (s : State) : (setIrq a b s).chans = s.chans := rfl
@[simp] theorem setIrq_host (a b : BitVec 16) (s : State) : (setIrq a b s).host = s.host := rfl
@[simp] theorem setIrq_link (a b : BitVec 16) (s : State) : (setIrq a b s).link = s.link := rfl
@[simp] theorem setIrq_sched (a b : BitVec 16) (s : State) : (setIrq a b s).sched = s.sched := rfl
@[simp] theorem setIrq_turn (a b : BitVec 16) (s : State) : (setIrq a b s).turn = s.turn := rfl
@[simp] theorem setIrq_renewed (a b : BitVec 16) (s : State) : (setIrq a b s).renewed = s.renewed := rfl
@[simp] theorem setIrq_waveAnswers (a b : BitVec 16) (s : State) : (setIrq a b s).waveAnswers = s.waveAnswers := rfl
@[simp] theorem setIrq_draws (a b : BitVec 16) (s : State) : (setIrq a b s).draws = s.draws := rfl
@[simp] theorem setIrq_irqEvents (a b : BitVec 16) (s : State) : (setIrq a b s).irqEvents = if irqOf a b = irqOf s.irqStatus s.irqEnable then s.irqEvents else irqEvent (irqOf a b) s :: s.irqEvents := rfl
@[simp] theorem setIrq_reads (a b : BitVec 16) (s : State) : (setIrq a b s).reads = s.reads := rfl
@[simp] theorem setIrq_statuses (a b : BitVec 16) (s : State) : (setIrq a b s).statuses = s.statuses := rfl

/-! The end of a move. -/

@[simp] theorem finish_params (c : Nat) (ch : Channel) (r : Result) (s : State) : (finish c ch r s).params = s.params := rfl
@[simp] theorem finish_run (c : Nat) (ch : Channel) (r : Result) (s : State) : (finish c ch r s).run = s.run := rfl
@[simp] theorem finish_args (c : Nat) (ch : Channel) (r : Result) (s : State) : (finish c ch r s).args = s.args := rfl
@[simp] theorem finish_cmdStatus (c : Nat) (ch : Channel) (r : Result) (s : State) : (finish c ch r s).cmdStatus = s.cmdStatus := rfl
@[simp] theorem finish_irqStatus (c : Nat) (ch : Channel) (r : Result) (s : State) : (finish c ch r s).irqStatus = s.irqStatus ||| doneBit c := rfl
@[simp] theorem finish_irqEnable (c : Nat) (ch : Channel) (r : Result) (s : State) : (finish c ch r s).irqEnable = s.irqEnable := rfl
@[simp] theorem finish_time (c : Nat) (ch : Channel) (r : Result) (s : State) : (finish c ch r s).time = s.time := rfl
@[simp] theorem finish_timeHiLatch (c : Nat) (ch : Channel) (r : Result) (s : State) : (finish c ch r s).timeHiLatch = s.timeHiLatch := rfl
@[simp] theorem finish_snap (c : Nat) (ch : Channel) (r : Result) (s : State) : (finish c ch r s).snap = s.snap := rfl
@[simp] theorem finish_chans (c : Nat) (ch : Channel) (r : Result) (s : State) : (finish c ch r s).chans = s.chans.set c (ch.finished r) := rfl
@[simp] theorem finish_host (c : Nat) (ch : Channel) (r : Result) (s : State) : (finish c ch r s).host = s.host := rfl
@[simp] theorem finish_link (c : Nat) (ch : Channel) (r : Result) (s : State) : (finish c ch r s).link = s.link := rfl
@[simp] theorem finish_sched (c : Nat) (ch : Channel) (r : Result) (s : State) : (finish c ch r s).sched = s.sched := rfl
@[simp] theorem finish_turn (c : Nat) (ch : Channel) (r : Result) (s : State) : (finish c ch r s).turn = s.turn := rfl
@[simp] theorem finish_renewed (c : Nat) (ch : Channel) (r : Result) (s : State) : (finish c ch r s).renewed = s.renewed := rfl
@[simp] theorem finish_waveAnswers (c : Nat) (ch : Channel) (r : Result) (s : State) : (finish c ch r s).waveAnswers = s.waveAnswers := rfl
@[simp] theorem finish_draws (c : Nat) (ch : Channel) (r : Result) (s : State) : (finish c ch r s).draws = s.draws := rfl
@[simp] theorem finish_irqEvents (c : Nat) (ch : Channel) (r : Result) (s : State) : (finish c ch r s).irqEvents = if irqOf (s.irqStatus ||| doneBit c) s.irqEnable = irqOf s.irqStatus s.irqEnable then s.irqEvents else irqEvent (irqOf (s.irqStatus ||| doneBit c) s.irqEnable) (s.setChan c (ch.finished r)) :: s.irqEvents := rfl
@[simp] theorem finish_reads (c : Nat) (ch : Channel) (r : Result) (s : State) : (finish c ch r s).reads = s.reads := rfl
@[simp] theorem finish_statuses (c : Nat) (ch : Channel) (r : Result) (s : State) : (finish c ch r s).statuses = s.statuses := rfl

/-! Time base and front end. -/

@[simp] theorem timeBaseStep_params (s : State) : (timeBaseStep s).params = s.params := rfl
@[simp] theorem timeBaseStep_run (s : State) : (timeBaseStep s).run = s.run := rfl
@[simp] theorem timeBaseStep_args (s : State) : (timeBaseStep s).args = s.args := rfl
@[simp] theorem timeBaseStep_cmdStatus (s : State) : (timeBaseStep s).cmdStatus = s.cmdStatus := rfl
@[simp] theorem timeBaseStep_irqStatus (s : State) : (timeBaseStep s).irqStatus = s.irqStatus := rfl
@[simp] theorem timeBaseStep_irqEnable (s : State) : (timeBaseStep s).irqEnable = s.irqEnable := rfl
@[simp] theorem timeBaseStep_time (s : State) : (timeBaseStep s).time = s.time + 1#64 := rfl
@[simp] theorem timeBaseStep_timeHiLatch (s : State) : (timeBaseStep s).timeHiLatch = s.timeHiLatch := rfl
@[simp] theorem timeBaseStep_snap (s : State) : (timeBaseStep s).snap = s.snap := rfl
@[simp] theorem timeBaseStep_chans (s : State) : (timeBaseStep s).chans = s.chans := rfl
@[simp] theorem timeBaseStep_host (s : State) : (timeBaseStep s).host = s.host := rfl
@[simp] theorem timeBaseStep_link (s : State) : (timeBaseStep s).link = s.link := rfl
@[simp] theorem timeBaseStep_sched (s : State) : (timeBaseStep s).sched = s.sched := rfl
@[simp] theorem timeBaseStep_turn (s : State) : (timeBaseStep s).turn = s.turn := rfl
@[simp] theorem timeBaseStep_renewed (s : State) : (timeBaseStep s).renewed = s.renewed := rfl
@[simp] theorem timeBaseStep_waveAnswers (s : State) : (timeBaseStep s).waveAnswers = s.waveAnswers := rfl
@[simp] theorem timeBaseStep_draws (s : State) : (timeBaseStep s).draws = s.draws := rfl
@[simp] theorem timeBaseStep_irqEvents (s : State) : (timeBaseStep s).irqEvents = s.irqEvents := rfl
@[simp] theorem timeBaseStep_reads (s : State) : (timeBaseStep s).reads = s.reads := rfl
@[simp] theorem timeBaseStep_statuses (s : State) : (timeBaseStep s).statuses = s.statuses := rfl

@[simp] theorem setPhase_params (p : LinkPhase) (s : State) : (setPhase p s).params = s.params := rfl
@[simp] theorem setPhase_run (p : LinkPhase) (s : State) : (setPhase p s).run = s.run := rfl
@[simp] theorem setPhase_args (p : LinkPhase) (s : State) : (setPhase p s).args = s.args := rfl
@[simp] theorem setPhase_cmdStatus (p : LinkPhase) (s : State) : (setPhase p s).cmdStatus = s.cmdStatus := rfl
@[simp] theorem setPhase_irqStatus (p : LinkPhase) (s : State) : (setPhase p s).irqStatus = s.irqStatus := rfl
@[simp] theorem setPhase_irqEnable (p : LinkPhase) (s : State) : (setPhase p s).irqEnable = s.irqEnable := rfl
@[simp] theorem setPhase_time (p : LinkPhase) (s : State) : (setPhase p s).time = s.time := rfl
@[simp] theorem setPhase_timeHiLatch (p : LinkPhase) (s : State) : (setPhase p s).timeHiLatch = s.timeHiLatch := rfl
@[simp] theorem setPhase_snap (p : LinkPhase) (s : State) : (setPhase p s).snap = s.snap := rfl
@[simp] theorem setPhase_chans (p : LinkPhase) (s : State) : (setPhase p s).chans = s.chans := rfl
@[simp] theorem setPhase_host (p : LinkPhase) (s : State) : (setPhase p s).host = s.host := rfl
@[simp] theorem setPhase_link (p : LinkPhase) (s : State) : (setPhase p s).link = { s.link with phase := p } := rfl
@[simp] theorem setPhase_sched (p : LinkPhase) (s : State) : (setPhase p s).sched = s.sched := rfl
@[simp] theorem setPhase_turn (p : LinkPhase) (s : State) : (setPhase p s).turn = s.turn := rfl
@[simp] theorem setPhase_renewed (p : LinkPhase) (s : State) : (setPhase p s).renewed = s.renewed := rfl
@[simp] theorem setPhase_waveAnswers (p : LinkPhase) (s : State) : (setPhase p s).waveAnswers = s.waveAnswers := rfl
@[simp] theorem setPhase_draws (p : LinkPhase) (s : State) : (setPhase p s).draws = s.draws := rfl
@[simp] theorem setPhase_irqEvents (p : LinkPhase) (s : State) : (setPhase p s).irqEvents = s.irqEvents := rfl
@[simp] theorem setPhase_reads (p : LinkPhase) (s : State) : (setPhase p s).reads = s.reads := rfl
@[simp] theorem setPhase_statuses (p : LinkPhase) (s : State) : (setPhase p s).statuses = s.statuses := rfl

@[simp] theorem awaitMove_params (ms : List MoveLine) (s : State) : (awaitMove ms s).params = s.params := rfl
@[simp] theorem awaitMove_run (ms : List MoveLine) (s : State) : (awaitMove ms s).run = s.run := rfl
@[simp] theorem awaitMove_args (ms : List MoveLine) (s : State) : (awaitMove ms s).args = s.args := rfl
@[simp] theorem awaitMove_cmdStatus (ms : List MoveLine) (s : State) : (awaitMove ms s).cmdStatus = s.cmdStatus := rfl
@[simp] theorem awaitMove_irqStatus (ms : List MoveLine) (s : State) : (awaitMove ms s).irqStatus = s.irqStatus := rfl
@[simp] theorem awaitMove_irqEnable (ms : List MoveLine) (s : State) : (awaitMove ms s).irqEnable = s.irqEnable := rfl
@[simp] theorem awaitMove_time (ms : List MoveLine) (s : State) : (awaitMove ms s).time = s.time := rfl
@[simp] theorem awaitMove_timeHiLatch (ms : List MoveLine) (s : State) : (awaitMove ms s).timeHiLatch = s.timeHiLatch := rfl
@[simp] theorem awaitMove_snap (ms : List MoveLine) (s : State) : (awaitMove ms s).snap = s.snap := rfl
@[simp] theorem awaitMove_chans (ms : List MoveLine) (s : State) : (awaitMove ms s).chans = s.chans := rfl
@[simp] theorem awaitMove_host (ms : List MoveLine) (s : State) : (awaitMove ms s).host = s.host := rfl
@[simp] theorem awaitMove_link (ms : List MoveLine) (s : State) : (awaitMove ms s).link = { s.link with phase := .ready, job := some ms } := rfl
@[simp] theorem awaitMove_sched (ms : List MoveLine) (s : State) : (awaitMove ms s).sched = s.sched := rfl
@[simp] theorem awaitMove_turn (ms : List MoveLine) (s : State) : (awaitMove ms s).turn = s.turn := rfl
@[simp] theorem awaitMove_renewed (ms : List MoveLine) (s : State) : (awaitMove ms s).renewed = s.renewed := rfl
@[simp] theorem awaitMove_waveAnswers (ms : List MoveLine) (s : State) : (awaitMove ms s).waveAnswers = s.waveAnswers := rfl
@[simp] theorem awaitMove_draws (ms : List MoveLine) (s : State) : (awaitMove ms s).draws = s.draws := rfl
@[simp] theorem awaitMove_irqEvents (ms : List MoveLine) (s : State) : (awaitMove ms s).irqEvents = s.irqEvents := rfl
@[simp] theorem awaitMove_reads (ms : List MoveLine) (s : State) : (awaitMove ms s).reads = s.reads := rfl
@[simp] theorem awaitMove_statuses (ms : List MoveLine) (s : State) : (awaitMove ms s).statuses = s.statuses := rfl

@[simp] theorem sendDone_params (s : State) : (sendDone s).params = s.params := rfl
@[simp] theorem sendDone_run (s : State) : (sendDone s).run = s.run := rfl
@[simp] theorem sendDone_args (s : State) : (sendDone s).args = s.args := rfl
@[simp] theorem sendDone_cmdStatus (s : State) : (sendDone s).cmdStatus = s.cmdStatus := rfl
@[simp] theorem sendDone_irqStatus (s : State) : (sendDone s).irqStatus = s.irqStatus := rfl
@[simp] theorem sendDone_irqEnable (s : State) : (sendDone s).irqEnable = s.irqEnable := rfl
@[simp] theorem sendDone_time (s : State) : (sendDone s).time = s.time := rfl
@[simp] theorem sendDone_timeHiLatch (s : State) : (sendDone s).timeHiLatch = s.timeHiLatch := rfl
@[simp] theorem sendDone_snap (s : State) : (sendDone s).snap = s.snap := rfl
@[simp] theorem sendDone_chans (s : State) : (sendDone s).chans = s.chans := rfl
@[simp] theorem sendDone_host (s : State) : (sendDone s).host = s.host := rfl
@[simp] theorem sendDone_link (s : State) : (sendDone s).link = { s.link with phase := .ready, job := none, sent := doneLine :: s.link.sent } := rfl
@[simp] theorem sendDone_sched (s : State) : (sendDone s).sched = s.sched := rfl
@[simp] theorem sendDone_turn (s : State) : (sendDone s).turn = s.turn := rfl
@[simp] theorem sendDone_renewed (s : State) : (sendDone s).renewed = s.renewed := rfl
@[simp] theorem sendDone_waveAnswers (s : State) : (sendDone s).waveAnswers = s.waveAnswers := rfl
@[simp] theorem sendDone_draws (s : State) : (sendDone s).draws = s.draws := rfl
@[simp] theorem sendDone_irqEvents (s : State) : (sendDone s).irqEvents = s.irqEvents := rfl
@[simp] theorem sendDone_reads (s : State) : (sendDone s).reads = s.reads := rfl
@[simp] theorem sendDone_statuses (s : State) : (sendDone s).statuses = s.statuses := rfl

@[simp] theorem placeCommand_params (s : State) (w : Word) : (placeCommand s w).params = s.params := rfl
@[simp] theorem placeCommand_run (s : State) (w : Word) : (placeCommand s w).run = s.run := rfl
@[simp] theorem placeCommand_args (s : State) (w : Word) : (placeCommand s w).args = s.args := rfl
@[simp] theorem placeCommand_cmdStatus (s : State) (w : Word) : (placeCommand s w).cmdStatus = s.cmdStatus := rfl
@[simp] theorem placeCommand_irqStatus (s : State) (w : Word) : (placeCommand s w).irqStatus = s.irqStatus := rfl
@[simp] theorem placeCommand_irqEnable (s : State) (w : Word) : (placeCommand s w).irqEnable = s.irqEnable := rfl
@[simp] theorem placeCommand_time (s : State) (w : Word) : (placeCommand s w).time = s.time := rfl
@[simp] theorem placeCommand_timeHiLatch (s : State) (w : Word) : (placeCommand s w).timeHiLatch = s.timeHiLatch := rfl
@[simp] theorem placeCommand_snap (s : State) (w : Word) : (placeCommand s w).snap = s.snap := rfl
@[simp] theorem placeCommand_chans (s : State) (w : Word) : (placeCommand s w).chans = s.chans := rfl
@[simp] theorem placeCommand_host (s : State) (w : Word) : (placeCommand s w).host = wr .cmd w :: s.host := rfl
@[simp] theorem placeCommand_link (s : State) (w : Word) : (placeCommand s w).link = s.link := rfl
@[simp] theorem placeCommand_sched (s : State) (w : Word) : (placeCommand s w).sched = .host :: s.sched := rfl
@[simp] theorem placeCommand_turn (s : State) (w : Word) : (placeCommand s w).turn = s.turn := rfl
@[simp] theorem placeCommand_renewed (s : State) (w : Word) : (placeCommand s w).renewed = s.renewed := rfl
@[simp] theorem placeCommand_waveAnswers (s : State) (w : Word) : (placeCommand s w).waveAnswers = s.waveAnswers := rfl
@[simp] theorem placeCommand_draws (s : State) (w : Word) : (placeCommand s w).draws = s.draws := rfl
@[simp] theorem placeCommand_irqEvents (s : State) (w : Word) : (placeCommand s w).irqEvents = s.irqEvents := rfl
@[simp] theorem placeCommand_reads (s : State) (w : Word) : (placeCommand s w).reads = s.reads := rfl
@[simp] theorem placeCommand_statuses (s : State) (w : Word) : (placeCommand s w).statuses = s.statuses := rfl

/-! Channel updates. -/

@[simp] theorem driveDir_ppr (ch : Channel) (l : Bool) : (ch.driveDir l).ppr = ch.ppr := rfl
@[simp] theorem driveDir_emit (ch : Channel) (l : Bool) : (ch.driveDir l).emit = ch.emit := rfl
@[simp] theorem driveDir_moving (ch : Channel) (l : Bool) : (ch.driveDir l).moving = ch.moving := rfl
@[simp] theorem driveDir_waveBusy (ch : Channel) (l : Bool) : (ch.driveDir l).waveBusy = ch.waveBusy := rfl
@[simp] theorem driveDir_total (ch : Channel) (l : Bool) : (ch.driveDir l).total = ch.total := rfl
@[simp] theorem driveDir_ramp (ch : Channel) (l : Bool) : (ch.driveDir l).ramp = ch.ramp := rfl
@[simp] theorem driveDir_cruise (ch : Channel) (l : Bool) : (ch.driveDir l).cruise = ch.cruise := rfl
@[simp] theorem driveDir_steps (ch : Channel) (l : Bool) : (ch.driveDir l).steps = ch.steps := rfl
@[simp] theorem driveDir_idx (ch : Channel) (l : Bool) : (ch.driveDir l).idx = ch.idx := rfl
@[simp] theorem driveDir_dropped (ch : Channel) (l : Bool) : (ch.driveDir l).dropped = ch.dropped := rfl
@[simp] theorem driveDir_result (ch : Channel) (l : Bool) : (ch.driveDir l).result = ch.result := rfl
@[simp] theorem driveDir_profile (ch : Channel) (l : Bool) : (ch.driveDir l).profile = ch.profile := rfl
@[simp] theorem driveDir_curve (ch : Channel) (l : Bool) : (ch.driveDir l).curve = ch.curve := rfl
@[simp] theorem driveDir_mvStart (ch : Channel) (l : Bool) : (ch.driveDir l).mvStart = ch.mvStart := rfl
@[simp] theorem driveDir_mvTarget (ch : Channel) (l : Bool) : (ch.driveDir l).mvTarget = ch.mvTarget := rfl
@[simp] theorem driveDir_mvRuntime (ch : Channel) (l : Bool) : (ch.driveDir l).mvRuntime = ch.mvRuntime := rfl
@[simp] theorem driveDir_sd (ch : Channel) (l : Bool) : (ch.driveDir l).sd = ch.sd := rfl
@[simp] theorem driveDir_td (ch : Channel) (l : Bool) : (ch.driveDir l).td = ch.td := rfl
@[simp] theorem driveDir_mvDir (ch : Channel) (l : Bool) : (ch.driveDir l).mvDir = ch.mvDir := rfl
@[simp] theorem driveDir_totalPulses (ch : Channel) (l : Bool) : (ch.driveDir l).totalPulses = ch.totalPulses := rfl
@[simp] theorem driveDir_totalRevolutions (ch : Channel) (l : Bool) : (ch.driveDir l).totalRevolutions = ch.totalRevolutions := rfl
@[simp] theorem driveDir_totalRunTime (ch : Channel) (l : Bool) : (ch.driveDir l).totalRunTime = ch.totalRunTime := rfl
@[simp] theorem driveDir_running (ch : Channel) (l : Bool) : (ch.driveDir l).running = ch.running := rfl
@[simp] theorem driveDir_startValid (ch : Channel) (l : Bool) : (ch.driveDir l).startValid = ch.startValid := rfl
@[simp] theorem driveDir_runStart (ch : Channel) (l : Bool) : (ch.driveDir l).runStart = ch.runStart := rfl
@[simp] theorem driveDir_label (ch : Channel) (l : Bool) : (ch.driveDir l).label = ch.label := rfl
@[simp] theorem driveDir_stepPin (ch : Channel) (l : Bool) : (ch.driveDir l).stepPin = ch.stepPin := rfl
@[simp] theorem driveDir_dirPin (ch : Channel) (l : Bool) : (ch.driveDir l).dirPin = l := rfl
@[simp] theorem driveDir_buffer (ch : Channel) (l : Bool) : (ch.driveDir l).buffer = ch.buffer := rfl
@[simp] theorem driveDir_chunkValid (ch : Channel) (l : Bool) : (ch.driveDir l).chunkValid = ch.chunkValid := rfl
@[simp] theorem driveDir_playPos (ch : Channel) (l : Bool) : (ch.driveDir l).playPos = ch.playPos := rfl
@[simp] theorem driveDir_seq (ch : Channel) (l : Bool) : (ch.driveDir l).seq = ch.seq := rfl
@[simp] theorem driveDir_events (ch : Channel) (l : Bool) : (ch.driveDir l).events = .dirSet l :: ch.events := rfl

@[simp] theorem raiseStep_ppr (ch : Channel) (k : Word) : (ch.raiseStep k).ppr = ch.ppr := rfl
@[simp] theorem raiseStep_emit (ch : Channel) (k : Word) : (ch.raiseStep k).emit = ch.emit := rfl
@[simp] theorem raiseStep_moving (ch : Channel) (k : Word) : (ch.raiseStep k).moving = ch.moving := rfl
@[simp] theorem raiseStep_waveBusy (ch : Channel) (k : Word) : (ch.raiseStep k).waveBusy = ch.waveBusy := rfl
@[simp] theorem raiseStep_total (ch : Channel) (k : Word) : (ch.raiseStep k).total = ch.total := rfl
@[simp] theorem raiseStep_ramp (ch : Channel) (k : Word) : (ch.raiseStep k).ramp = ch.ramp := rfl
@[simp] theorem raiseStep_cruise (ch : Channel) (k : Word) : (ch.raiseStep k).cruise = ch.cruise := rfl
@[simp] theorem raiseStep_steps (ch : Channel) (k : Word) : (ch.raiseStep k).steps = ch.steps := rfl
@[simp] theorem raiseStep_idx (ch : Channel) (k : Word) : (ch.raiseStep k).idx = ch.idx := rfl
@[simp] theorem raiseStep_dropped (ch : Channel) (k : Word) : (ch.raiseStep k).dropped = ch.dropped := rfl
@[simp] theorem raiseStep_result (ch : Channel) (k : Word) : (ch.raiseStep k).result = ch.result := rfl
@[simp] theorem raiseStep_profile (ch : Channel) (k : Word) : (ch.raiseStep k).profile = ch.profile := rfl
@[simp] theorem raiseStep_curve (ch : Channel) (k : Word) : (ch.raiseStep k).curve = ch.curve := rfl
@[simp] theorem raiseStep_mvStart (ch : Channel) (k : Word) : (ch.raiseStep k).mvStart = ch.mvStart := rfl
@[simp] theorem raiseStep_mvTarget (ch : Channel) (k : Word) : (ch.raiseStep k).mvTarget = ch.mvTarget := rfl
@[simp] theorem raiseStep_mvRuntime (ch : Channel) (k : Word) : (ch.raiseStep k).mvRuntime = ch.mvRuntime := rfl
@[simp] theorem raiseStep_sd (ch : Channel) (k : Word) : (ch.raiseStep k).sd = ch.sd := rfl
@[simp] theorem raiseStep_td (ch : Channel) (k : Word) : (ch.raiseStep k).td = ch.td := rfl
@[simp] theorem raiseStep_mvDir (ch : Channel) (k : Word) : (ch.raiseStep k).mvDir = ch.mvDir := rfl
@[simp] theorem raiseStep_totalPulses (ch : Channel) (k : Word) : (ch.raiseStep k).totalPulses = ch.totalPulses := rfl
@[simp] theorem raiseStep_totalRevolutions (ch : Channel) (k : Word) : (ch.raiseStep k).totalRevolutions = ch.totalRevolutions := rfl
@[simp] theorem raiseStep_totalRunTime (ch : Channel) (k : Word) : (ch.raiseStep k).totalRunTime = ch.totalRunTime := rfl
@[simp] theorem raiseStep_running (ch : Channel) (k : Word) : (ch.raiseStep k).running = ch.running := rfl
@[simp] theorem raiseStep_startValid (ch : Channel) (k : Word) : (ch.raiseStep k).startValid = ch.startValid := rfl
@[simp] theorem raiseStep_runStart (ch : Channel) (k : Word) : (ch.raiseStep k).runStart = ch.runStart := rfl
@[simp] theorem raiseStep_label (ch : Channel) (k : Word) : (ch.raiseStep k).label = ch.label := rfl
@[simp] theorem raiseStep_stepPin (ch : Channel) (k : Word) : (ch.raiseStep k).stepPin = true := rfl
@[simp] theorem raiseStep_dirPin (ch : Channel) (k : Word) : (ch.raiseStep k).dirPin = ch.dirPin := rfl
@[simp] theorem raiseStep_buffer (ch : Channel) (k : Word) : (ch.raiseStep k).buffer = ch.buffer := rfl
@[simp] theorem raiseStep_chunkValid (ch : Channel) (k : Word) : (ch.raiseStep k).chunkValid = ch.chunkValid := rfl
@[simp] theorem raiseStep_playPos (ch : Channel) (k : Word) : (ch.raiseStep k).playPos = ch.playPos := rfl
@[simp] theorem raiseStep_seq (ch : Channel) (k : Word) : (ch.raiseStep k).seq = ch.seq := rfl
@[simp] theorem raiseStep_events (ch : Channel) (k : Word) : (ch.raiseStep k).events = .pulse k k :: ch.events := rfl

@[simp] theorem finished_ppr (ch : Channel) (r : Result) : (ch.finished r).ppr = ch.ppr := rfl
@[simp] theorem finished_emit (ch : Channel) (r : Result) : (ch.finished r).emit = ch.emit := rfl
@[simp] theorem finished_moving (ch : Channel) (r : Result) : (ch.finished r).moving = false := rfl
@[simp] theorem finished_waveBusy (ch : Channel) (r : Result) : (ch.finished r).waveBusy = ch.waveBusy := rfl
@[simp] theorem finished_total (ch : Channel) (r : Result) : (ch.finished r).total = ch.total := rfl
@[simp] theorem finished_ramp (ch : Channel) (r : Result) : (ch.finished r).ramp = ch.ramp := rfl
@[simp] theorem finished_cruise (ch : Channel) (r : Result) : (ch.finished r).cruise = ch.cruise := rfl
@[simp] theorem finished_steps (ch : Channel) (r : Result) : (ch.finished r).steps = ch.steps := rfl
@[simp] theorem finished_idx (ch : Channel) (r : Result) : (ch.finished r).idx = ch.idx := rfl
@[simp] theorem finished_dropped (ch : Channel) (r : Result) : (ch.finished r).dropped = ch.dropped := rfl
@[simp] theorem finished_result (ch : Channel) (r : Result) : (ch.finished r).result = r := rfl
@[simp] theorem finished_profile (ch : Channel) (r : Result) : (ch.finished r).profile = ch.profile := rfl
@[simp] theorem finished_curve (ch : Channel) (r : Result) : (ch.finished r).curve = ch.curve := rfl
@[simp] theorem finished_mvStart (ch : Channel) (r : Result) : (ch.finished r).mvStart = ch.mvStart := rfl
@[simp] theorem finished_mvTarget (ch : Channel) (r : Result) : (ch.finished r).mvTarget = ch.mvTarget := rfl
@[simp] theorem finished_mvRuntime (ch : Channel) (r : Result) : (ch.finished r).mvRuntime = ch.mvRuntime := rfl
@[simp] theorem finished_sd (ch : Channel) (r : Result) : (ch.finished r).sd = ch.sd := rfl
@[simp] theorem finished_td (ch : Channel) (r : Result) : (ch.finished r).td = ch.td := rfl
@[simp] theorem finished_mvDir (ch : Channel) (r : Result) : (ch.finished r).mvDir = ch.mvDir := rfl
@[simp] theorem finished_totalPulses (ch : Channel) (r : Result) : (ch.finished r).totalPulses = ch.totalPulses + ch.steps.setWidth 64 := rfl
@[simp] theorem finished_totalRevolutions (ch : Channel) (r : Result) : (ch.finished r).totalRevolutions = Binary64.add ch.totalRevolutions (Binary64.div (Binary64.ofNat ch.steps.toNat) (Binary64.ofNat ch.ppr.toNat)) := rfl
@[simp] theorem finished_totalRunTime (ch : Channel) (r : Result) : (ch.finished r).totalRunTime = Binary64.add ch.totalRunTime ch.mvRuntime := rfl
@[simp] theorem finished_running (ch : Channel) (r : Result) : (ch.finished r).running = ch.running := rfl
@[simp] theorem finished_startValid (ch : Channel) (r : Result) : (ch.finished r).startValid = ch.startValid := rfl
@[simp] theorem finished_runStart (ch : Channel) (r : Result) : (ch.finished r).runStart = ch.runStart := rfl
@[simp] theorem finished_label (ch : Channel) (r : Result) : (ch.finished r).label = ch.label := rfl
@[simp] theorem finished_stepPin (ch : Channel) (r : Result) : (ch.finished r).stepPin = ch.stepPin := rfl
@[simp] theorem finished_dirPin (ch : Channel) (r : Result) : (ch.finished r).dirPin = ch.dirPin := rfl
@[simp] theorem finished_buffer (ch : Channel) (r : Result) : (ch.finished r).buffer = ch.buffer := rfl
@[simp] theorem finished_chunkValid (ch : Channel) (r : Result) : (ch.finished r).chunkValid = ch.chunkValid := rfl
@[simp] theorem finished_playPos (ch : Channel) (r : Result) : (ch.finished r).playPos = ch.playPos := rfl
@[simp] theorem finished_seq (ch : Channel) (r : Result) : (ch.finished r).seq = .idle := rfl
@[simp] theorem finished_events (ch : Channel) (r : Result) : (ch.finished r).events = ch.events := rfl

@[simp] theorem clearStats_ppr (ch : Channel) : (ch.clearStats).ppr = ch.ppr := rfl
@[simp] theorem clearStats_emit (ch : Channel) : (ch.clearStats).emit = ch.emit := rfl
@[simp] theorem clearStats_moving (ch : Channel) : (ch.clearStats).moving = ch.moving := rfl
@[simp] theorem clearStats_waveBusy (ch : Channel) : (ch.clearStats).waveBusy = ch.waveBusy := rfl
@[simp] theorem clearStats_total (ch : Channel) : (ch.clearStats).total = ch.total := rfl
@[simp] theorem clearStats_ramp (ch : Channel) : (ch.clearStats).ramp = ch.ramp := rfl
@[simp] theorem clearStats_cruise (ch : Channel) : (ch.clearStats).cruise = ch.cruise := rfl
@[simp] theorem clearStats_steps (ch : Channel) : (ch.clearStats).steps = ch.steps := rfl
@[simp] theorem clearStats_idx (ch : Channel) : (ch.clearStats).idx = ch.idx := rfl
@[simp] theorem clearStats_dropped (ch : Channel) : (ch.clearStats).dropped = ch.dropped := rfl
@[simp] theorem clearStats_result (ch : Channel) : (ch.clearStats).result = ch.result := rfl
@[simp] theorem clearStats_profile (ch : Channel) : (ch.clearStats).profile = ch.profile := rfl
@[simp] theorem clearStats_curve (ch : Channel) : (ch.clearStats).curve = ch.curve := rfl
@[simp] theorem clearStats_mvStart (ch : Channel) : (ch.clearStats).mvStart = ch.mvStart := rfl
@[simp] theorem clearStats_mvTarget (ch : Channel) : (ch.clearStats).mvTarget = ch.mvTarget := rfl
@[simp] theorem clearStats_mvRuntime (ch : Channel) : (ch.clearStats).mvRuntime = ch.mvRuntime := rfl
@[simp] theorem clearStats_sd (ch : Channel) : (ch.clearStats).sd = ch.sd := rfl
@[simp] theorem clearStats_td (ch : Channel) : (ch.clearStats).td = ch.td := rfl
@[simp] theorem clearStats_mvDir (ch : Channel) : (ch.clearStats).mvDir = ch.mvDir := rfl
@[simp] theorem clearStats_totalPulses (ch : Channel) : (ch.clearStats).totalPulses = 0#64 := rfl
@[simp] theorem clearStats_totalRevolutions (ch : Channel) : (ch.clearStats).totalRevolutions = 0#64 := rfl
@[simp] theorem clearStats_totalRunTime (ch : Channel) : (ch.clearStats).totalRunTime = 0#64 := rfl
@[simp] theorem clearStats_running (ch : Channel) : (ch.clearStats).running = false := rfl
@[simp] theorem clearStats_startValid (ch : Channel) : (ch.clearStats).startValid = false := rfl
@[simp] theorem clearStats_runStart (ch : Channel) : (ch.clearStats).runStart = 0#64 := rfl
@[simp] theorem clearStats_label (ch : Channel) : (ch.clearStats).label = ch.label := rfl
@[simp] theorem clearStats_stepPin (ch : Channel) : (ch.clearStats).stepPin = ch.stepPin := rfl
@[simp] theorem clearStats_dirPin (ch : Channel) : (ch.clearStats).dirPin = ch.dirPin := rfl
@[simp] theorem clearStats_buffer (ch : Channel) : (ch.clearStats).buffer = ch.buffer := rfl
@[simp] theorem clearStats_chunkValid (ch : Channel) : (ch.clearStats).chunkValid = ch.chunkValid := rfl
@[simp] theorem clearStats_playPos (ch : Channel) : (ch.clearStats).playPos = ch.playPos := rfl
@[simp] theorem clearStats_seq (ch : Channel) : (ch.clearStats).seq = ch.seq := rfl
@[simp] theorem clearStats_events (ch : Channel) : (ch.clearStats).events = ch.events := rfl

@[simp] theorem clearMotion_ppr (ch : Channel) : (ch.clearMotion).ppr = ch.ppr := rfl
@[simp] theorem clearMotion_emit (ch : Channel) : (ch.clearMotion).emit = ch.emit := rfl
@[simp] theorem clearMotion_moving (ch : Channel) : (ch.clearMotion).moving = ch.moving := rfl
@[simp] theorem clearMotion_waveBusy (ch : Channel) : (ch.clearMotion).waveBusy = ch.waveBusy := rfl
@[simp] theorem clearMotion_total (ch : Channel) : (ch.clearMotion).total = 0#32 := rfl
@[simp] theorem clearMotion_ramp (ch : Channel) : (ch.clearMotion).ramp = 0#32 := rfl
@[simp] theorem clearMotion_cruise (ch : Channel) : (ch.clearMotion).cruise = 0#32 := rfl
@[simp] theorem clearMotion_steps (ch : Channel) : (ch.clearMotion).steps = 0#32 := rfl
@[simp] theorem clearMotion_idx (ch : Channel) : (ch.clearMotion).idx = 0#32 := rfl
@[simp] theorem clearMotion_dropped (ch : Channel) : (ch.clearMotion).dropped = 0#32 := rfl
@[simp] theorem clearMotion_result (ch : Channel) : (ch.clearMotion).result = .none := rfl
@[simp] theorem clearMotion_profile (ch : Channel) : (ch.clearMotion).profile = .full := rfl
@[simp] theorem clearMotion_curve (ch : Channel) : (ch.clearMotion).curve = .sine := rfl
@[simp] theorem clearMotion_mvStart (ch : Channel) : (ch.clearMotion).mvStart = ch.mvStart := rfl
@[simp] theorem clearMotion_mvTarget (ch : Channel) : (ch.clearMotion).mvTarget = ch.mvTarget := rfl
@[simp] theorem clearMotion_mvRuntime (ch : Channel) : (ch.clearMotion).mvRuntime = ch.mvRuntime := rfl
@[simp] theorem clearMotion_sd (ch : Channel) : (ch.clearMotion).sd = ch.sd := rfl
@[simp] theorem clearMotion_td (ch : Channel) : (ch.clearMotion).td = ch.td := rfl
@[simp] theorem clearMotion_mvDir (ch : Channel) : (ch.clearMotion).mvDir = ch.mvDir := rfl
@[simp] theorem clearMotion_totalPulses (ch : Channel) : (ch.clearMotion).totalPulses = 0#64 := rfl
@[simp] theorem clearMotion_totalRevolutions (ch : Channel) : (ch.clearMotion).totalRevolutions = 0#64 := rfl
@[simp] theorem clearMotion_totalRunTime (ch : Channel) : (ch.clearMotion).totalRunTime = 0#64 := rfl
@[simp] theorem clearMotion_running (ch : Channel) : (ch.clearMotion).running = false := rfl
@[simp] theorem clearMotion_startValid (ch : Channel) : (ch.clearMotion).startValid = false := rfl
@[simp] theorem clearMotion_runStart (ch : Channel) : (ch.clearMotion).runStart = 0#64 := rfl
@[simp] theorem clearMotion_label (ch : Channel) : (ch.clearMotion).label = 0#32 := rfl
@[simp] theorem clearMotion_stepPin (ch : Channel) : (ch.clearMotion).stepPin = ch.stepPin := rfl
@[simp] theorem clearMotion_dirPin (ch : Channel) : (ch.clearMotion).dirPin = ch.dirPin := rfl
@[simp] theorem clearMotion_buffer (ch : Channel) : (ch.clearMotion).buffer = ch.buffer := rfl
@[simp] theorem clearMotion_chunkValid (ch : Channel) : (ch.clearMotion).chunkValid = ch.chunkValid := rfl
@[simp] theorem clearMotion_playPos (ch : Channel) : (ch.clearMotion).playPos = ch.playPos := rfl
@[simp] theorem clearMotion_seq (ch : Channel) : (ch.clearMotion).seq = ch.seq := rfl
@[simp] theorem clearMotion_events (ch : Channel) : (ch.clearMotion).events = ch.events := rfl

@[simp] theorem submitted_ppr (ch : Channel) (ks : List Word) (d e : Nat) : (ch.submitted ks d e).ppr = ch.ppr := rfl
@[simp] theorem submitted_emit (ch : Channel) (ks : List Word) (d e : Nat) : (ch.submitted ks d e).emit = ch.emit := rfl
@[simp] theorem submitted_moving (ch : Channel) (ks : List Word) (d e : Nat) : (ch.submitted ks d e).moving = ch.moving := rfl
@[simp] theorem submitted_waveBusy (ch : Channel) (ks : List Word) (d e : Nat) : (ch.submitted ks d e).waveBusy = true := rfl
@[simp] theorem submitted_total (ch : Channel) (ks : List Word) (d e : Nat) : (ch.submitted ks d e).total = ch.total := rfl
@[simp] theorem submitted_ramp (ch : Channel) (ks : List Word) (d e : Nat) : (ch.submitted ks d e).ramp = ch.ramp := rfl
@[simp] theorem submitted_cruise (ch : Channel) (ks : List Word) (d e : Nat) : (ch.submitted ks d e).cruise = ch.cruise := rfl
@[simp] theorem submitted_steps (ch : Channel) (ks : List Word) (d e : Nat) : (ch.submitted ks d e).steps = ch.steps := rfl
@[simp] theorem submitted_idx (ch : Channel) (ks : List Word) (d e : Nat) : (ch.submitted ks d e).idx = ch.idx := rfl
@[simp] theorem submitted_dropped (ch : Channel) (ks : List Word) (d e : Nat) : (ch.submitted ks d e).dropped = ch.dropped := rfl
@[simp] theorem submitted_result (ch : Channel) (ks : List Word) (d e : Nat) : (ch.submitted ks d e).result = ch.result := rfl
@[simp] theorem submitted_profile (ch : Channel) (ks : List Word) (d e : Nat) : (ch.submitted ks d e).profile = ch.profile := rfl
@[simp] theorem submitted_curve (ch : Channel) (ks : List Word) (d e : Nat) : (ch.submitted ks d e).curve = ch.curve := rfl
@[simp] theorem submitted_mvStart (ch : Channel) (ks : List Word) (d e : Nat) : (ch.submitted ks d e).mvStart = ch.mvStart := rfl
@[simp] theorem submitted_mvTarget (ch : Channel) (ks : List Word) (d e : Nat) : (ch.submitted ks d e).mvTarget = ch.mvTarget := rfl
@[simp] theorem submitted_mvRuntime (ch : Channel) (ks : List Word) (d e : Nat) : (ch.submitted ks d e).mvRuntime = ch.mvRuntime := rfl
@[simp] theorem submitted_sd (ch : Channel) (ks : List Word) (d e : Nat) : (ch.submitted ks d e).sd = ch.sd := rfl
@[simp] theorem submitted_td (ch : Channel) (ks : List Word) (d e : Nat) : (ch.submitted ks d e).td = ch.td := rfl
@[simp] theorem submitted_mvDir (ch : Channel) (ks : List Word) (d e : Nat) : (ch.submitted ks d e).mvDir = ch.mvDir := rfl
@[simp] theorem submitted_totalPulses (ch : Channel) (ks : List Word) (d e : Nat) : (ch.submitted ks d e).totalPulses = ch.totalPulses := rfl
@[simp] theorem submitted_totalRevolutions (ch : Channel) (ks : List Word) (d e : Nat) : (ch.submitted ks d e).totalRevolutions = ch.totalRevolutions := rfl
@[simp] theorem submitted_totalRunTime (ch : Channel) (ks : List Word) (d e : Nat) : (ch.submitted ks d e).totalRunTime = ch.totalRunTime := rfl
@[simp] theorem submitted_running (ch : Channel) (ks : List Word) (d e : Nat) : (ch.submitted ks d e).running = ch.running := rfl
@[simp] theorem submitted_startValid (ch : Channel) (ks : List Word) (d e : Nat) : (ch.submitted ks d e).startValid = ch.startValid := rfl
@[simp] theorem submitted_runStart (ch : Channel) (ks : List Word) (d e : Nat) : (ch.submitted ks d e).runStart = ch.runStart := rfl
@[simp] theorem submitted_label (ch : Channel) (ks : List Word) (d e : Nat) : (ch.submitted ks d e).label = ch.label := rfl
@[simp] theorem submitted_stepPin (ch : Channel) (ks : List Word) (d e : Nat) : (ch.submitted ks d e).stepPin = ch.stepPin := rfl
@[simp] theorem submitted_dirPin (ch : Channel) (ks : List Word) (d e : Nat) : (ch.submitted ks d e).dirPin = ch.dirPin := rfl
@[simp] theorem submitted_buffer (ch : Channel) (ks : List Word) (d e : Nat) : (ch.submitted ks d e).buffer = chunkEntries ks := rfl
@[simp] theorem submitted_chunkValid (ch : Channel) (ks : List Word) (d e : Nat) : (ch.submitted ks d e).chunkValid = ks.length := rfl
@[simp] theorem submitted_playPos (ch : Channel) (ks : List Word) (d e : Nat) : (ch.submitted ks d e).playPos = some 0 := rfl
@[simp] theorem submitted_seq (ch : Channel) (ks : List Word) (d e : Nat) : (ch.submitted ks d e).seq = .c3 d e := rfl
@[simp] theorem submitted_events (ch : Channel) (ks : List Word) (d e : Nat) : (ch.submitted ks d e).events = ch.events := rfl

@[simp] theorem chunkPlayed_ppr (ch : Channel) (d e : Nat) : (ch.chunkPlayed d e).ppr = ch.ppr := rfl
@[simp] theorem chunkPlayed_emit (ch : Channel) (d e : Nat) : (ch.chunkPlayed d e).emit = ch.emit := rfl
@[simp] theorem chunkPlayed_moving (ch : Channel) (d e : Nat) : (ch.chunkPlayed d e).moving = ch.moving := rfl
@[simp] theorem chunkPlayed_waveBusy (ch : Channel) (d e : Nat) : (ch.chunkPlayed d e).waveBusy = ch.waveBusy := rfl
@[simp] theorem chunkPlayed_total (ch : Channel) (d e : Nat) : (ch.chunkPlayed d e).total = ch.total := rfl
@[simp] theorem chunkPlayed_ramp (ch : Channel) (d e : Nat) : (ch.chunkPlayed d e).ramp = ch.ramp := rfl
@[simp] theorem chunkPlayed_cruise (ch : Channel) (d e : Nat) : (ch.chunkPlayed d e).cruise = ch.cruise := rfl
@[simp] theorem chunkPlayed_steps (ch : Channel) (d e : Nat) : (ch.chunkPlayed d e).steps = ch.steps + BitVec.ofNat 32 ch.chunkValid := rfl
@[simp] theorem chunkPlayed_idx (ch : Channel) (d e : Nat) : (ch.chunkPlayed d e).idx = BitVec.ofNat 32 e := rfl
@[simp] theorem chunkPlayed_dropped (ch : Channel) (d e : Nat) : (ch.chunkPlayed d e).dropped = ch.dropped + BitVec.ofNat 32 d := rfl
@[simp] theorem chunkPlayed_result (ch : Channel) (d e : Nat) : (ch.chunkPlayed d e).result = ch.result := rfl
@[simp] theorem chunkPlayed_profile (ch : Channel) (d e : Nat) : (ch.chunkPlayed d e).profile = ch.profile := rfl
@[simp] theorem chunkPlayed_curve (ch : Channel) (d e : Nat) : (ch.chunkPlayed d e).curve = ch.curve := rfl
@[simp] theorem chunkPlayed_mvStart (ch : Channel) (d e : Nat) : (ch.chunkPlayed d e).mvStart = ch.mvStart := rfl
@[simp] theorem chunkPlayed_mvTarget (ch : Channel) (d e : Nat) : (ch.chunkPlayed d e).mvTarget = ch.mvTarget := rfl
@[simp] theorem chunkPlayed_mvRuntime (ch : Channel) (d e : Nat) : (ch.chunkPlayed d e).mvRuntime = ch.mvRuntime := rfl
@[simp] theorem chunkPlayed_sd (ch : Channel) (d e : Nat) : (ch.chunkPlayed d e).sd = ch.sd := rfl
@[simp] theorem chunkPlayed_td (ch : Channel) (d e : Nat) : (ch.chunkPlayed d e).td = ch.td := rfl
@[simp] theorem chunkPlayed_mvDir (ch : Channel) (d e : Nat) : (ch.chunkPlayed d e).mvDir = ch.mvDir := rfl
@[simp] theorem chunkPlayed_totalPulses (ch : Channel) (d e : Nat) : (ch.chunkPlayed d e).totalPulses = ch.totalPulses := rfl
@[simp] theorem chunkPlayed_totalRevolutions (ch : Channel) (d e : Nat) : (ch.chunkPlayed d e).totalRevolutions = ch.totalRevolutions := rfl
@[simp] theorem chunkPlayed_totalRunTime (ch : Channel) (d e : Nat) : (ch.chunkPlayed d e).totalRunTime = ch.totalRunTime := rfl
@[simp] theorem chunkPlayed_running (ch : Channel) (d e : Nat) : (ch.chunkPlayed d e).running = ch.running := rfl
@[simp] theorem chunkPlayed_startValid (ch : Channel) (d e : Nat) : (ch.chunkPlayed d e).startValid = ch.startValid := rfl
@[simp] theorem chunkPlayed_runStart (ch : Channel) (d e : Nat) : (ch.chunkPlayed d e).runStart = ch.runStart := rfl
@[simp] theorem chunkPlayed_label (ch : Channel) (d e : Nat) : (ch.chunkPlayed d e).label = ch.label := rfl
@[simp] theorem chunkPlayed_stepPin (ch : Channel) (d e : Nat) : (ch.chunkPlayed d e).stepPin = ch.stepPin := rfl
@[simp] theorem chunkPlayed_dirPin (ch : Channel) (d e : Nat) : (ch.chunkPlayed d e).dirPin = ch.dirPin := rfl
@[simp] theorem chunkPlayed_buffer (ch : Channel) (d e : Nat) : (ch.chunkPlayed d e).buffer = ch.buffer := rfl
@[simp] theorem chunkPlayed_chunkValid (ch : Channel) (d e : Nat) : (ch.chunkPlayed d e).chunkValid = 0 := rfl
@[simp] theorem chunkPlayed_playPos (ch : Channel) (d e : Nat) : (ch.chunkPlayed d e).playPos = ch.playPos := rfl
@[simp] theorem chunkPlayed_seq (ch : Channel) (d e : Nat) : (ch.chunkPlayed d e).seq = .c2 := rfl
@[simp] theorem chunkPlayed_events (ch : Channel) (d e : Nat) : (ch.chunkPlayed d e).events = ch.events := rfl

@[simp] theorem accepted_ppr (ch : Channel) (p : Params) (tm : BitVec 64) (x y z : B64) (d : Bool) (pr : Profile) (k : Curve) (n : Option Word) : (ch.accepted p tm x y z d pr k n).ppr = ch.ppr := by simp only [Channel.accepted]
@[simp] theorem accepted_emit (ch : Channel) (p : Params) (tm : BitVec 64) (x y z : B64) (d : Bool) (pr : Profile) (k : Curve) (n : Option Word) : (ch.accepted p tm x y z d pr k n).emit = ch.emit := by simp only [Channel.accepted]
@[simp] theorem accepted_moving (ch : Channel) (p : Params) (tm : BitVec 64) (x y z : B64) (d : Bool) (pr : Profile) (k : Curve) (n : Option Word) : (ch.accepted p tm x y z d pr k n).moving = true := by simp only [Channel.accepted]
@[simp] theorem accepted_waveBusy (ch : Channel) (p : Params) (tm : BitVec 64) (x y z : B64) (d : Bool) (pr : Profile) (k : Curve) (n : Option Word) : (ch.accepted p tm x y z d pr k n).waveBusy = ch.waveBusy := by simp only [Channel.accepted]
@[simp] theorem accepted_total (ch : Channel) (p : Params) (tm : BitVec 64) (x y z : B64) (d : Bool) (pr : Profile) (k : Curve) (n : Option Word) : (ch.accepted p tm x y z d pr k n).total = BitVec.ofNat 32 (totalSteps ch.ppr y z) := by simp only [Channel.accepted]
@[simp] theorem accepted_ramp (ch : Channel) (p : Params) (tm : BitVec 64) (x y z : B64) (d : Bool) (pr : Profile) (k : Curve) (n : Option Word) : (ch.accepted p tm x y z d pr k n).ramp = BitVec.ofNat 32 (rampSteps p x y n (totalSteps ch.ppr y z)) := by simp only [Channel.accepted]
@[simp] theorem accepted_cruise (ch : Channel) (p : Params) (tm : BitVec 64) (x y z : B64) (d : Bool) (pr : Profile) (k : Curve) (n : Option Word) : (ch.accepted p tm x y z d pr k n).cruise = BitVec.ofNat 32 (cruiseSteps pr (totalSteps ch.ppr y z) (rampSteps p x y n (totalSteps ch.ppr y z))) := by simp only [Channel.accepted]
@[simp] theorem accepted_steps (ch : Channel) (p : Params) (tm : BitVec 64) (x y z : B64) (d : Bool) (pr : Profile) (k : Curve) (n : Option Word) : (ch.accepted p tm x y z d pr k n).steps = 0#32 := by simp only [Channel.accepted]
@[simp] theorem accepted_idx (ch : Channel) (p : Params) (tm : BitVec 64) (x y z : B64) (d : Bool) (pr : Profile) (k : Curve) (n : Option Word) : (ch.accepted p tm x y z d pr k n).idx = 0#32 := by simp only [Channel.accepted]
@[simp] theorem accepted_dropped (ch : Channel) (p : Params) (tm : BitVec 64) (x y z : B64) (d : Bool) (pr : Profile) (k : Curve) (n : Option Word) : (ch.accepted p tm x y z d pr k n).dropped = 0#32 := by simp only [Channel.accepted]
@[simp] theorem accepted_result (ch : Channel) (p : Params) (tm : BitVec 64) (x y z : B64) (d : Bool) (pr : Profile) (k : Curve) (n : Option Word) : (ch.accepted p tm x y z d pr k n).result = .none := by simp only [Channel.accepted]
@[simp] theorem accepted_profile (ch : Channel) (p : Params) (tm : BitVec 64) (x y z : B64) (d : Bool) (pr : Profile) (k : Curve) (n : Option Word) : (ch.accepted p tm x y z d pr k n).profile = pr := by simp only [Channel.accepted]
@[simp] theorem accepted_curve (ch : Channel) (p : Params) (tm : BitVec 64) (x y z : B64) (d : Bool) (pr : Profile) (k : Curve) (n : Option Word) : (ch.accepted p tm x y z d pr k n).curve = k := by simp only [Channel.accepted]
@[simp] theorem accepted_mvStart (ch : Channel) (p : Params) (tm : BitVec 64) (x y z : B64) (d : Bool) (pr : Profile) (k : Curve) (n : Option Word) : (ch.accepted p tm x y z d pr k n).mvStart = x := by simp only [Channel.accepted]
@[simp] theorem accepted_mvTarget (ch : Channel) (p : Params) (tm : BitVec 64) (x y z : B64) (d : Bool) (pr : Profile) (k : Curve) (n : Option Word) : (ch.accepted p tm x y z d pr k n).mvTarget = y := by simp only [Channel.accepted]
@[simp] theorem accepted_mvRuntime (ch : Channel) (p : Params) (tm : BitVec 64) (x y z : B64) (d : Bool) (pr : Profile) (k : Curve) (n : Option Word) : (ch.accepted p tm x y z d pr k n).mvRuntime = z := by simp only [Channel.accepted]
@[simp] theorem accepted_sd (ch : Channel) (p : Params) (tm : BitVec 64) (x y z : B64) (d : Bool) (pr : Profile) (k : Curve) (n : Option Word) : (ch.accepted p tm x y z d pr k n).sd = halfStepDelay ch.ppr x := by simp only [Channel.accepted]
@[simp] theorem accepted_td (ch : Channel) (p : Params) (tm : BitVec 64) (x y z : B64) (d : Bool) (pr : Profile) (k : Curve) (n : Option Word) : (ch.accepted p tm x y z d pr k n).td = halfStepDelay ch.ppr y := by simp only [Channel.accepted]
@[simp] theorem accepted_mvDir (ch : Channel) (p : Params) (tm : BitVec 64) (x y z : B64) (d : Bool) (pr : Profile) (k : Curve) (n : Option Word) : (ch.accepted p tm x y z d pr k n).mvDir = d := by simp only [Channel.accepted]
@[simp] theorem accepted_totalPulses (ch : Channel) (p : Params) (tm : BitVec 64) (x y z : B64) (d : Bool) (pr : Profile) (k : Curve) (n : Option Word) : (ch.accepted p tm x y z d pr k n).totalPulses = ch.totalPulses := by simp only [Channel.accepted]
@[simp] theorem accepted_totalRevolutions (ch : Channel) (p : Params) (tm : BitVec 64) (x y z : B64) (d : Bool) (pr : Profile) (k : Curve) (n : Option Word) : (ch.accepted p tm x y z d pr k n).totalRevolutions = ch.totalRevolutions := by simp only [Channel.accepted]
@[simp] theorem accepted_totalRunTime (ch : Channel) (p : Params) (tm : BitVec 64) (x y z : B64) (d : Bool) (pr : Profile) (k : Curve) (n : Option Word) : (ch.accepted p tm x y z d pr k n).totalRunTime = ch.totalRunTime := by simp only [Channel.accepted]
@[simp] theorem accepted_running (ch : Channel) (p : Params) (tm : BitVec 64) (x y z : B64) (d : Bool) (pr : Profile) (k : Curve) (n : Option Word) : (ch.accepted p tm x y z d pr k n).running = true := by simp only [Channel.accepted]
@[simp] theorem accepted_startValid (ch : Channel) (p : Params) (tm : BitVec 64) (x y z : B64) (d : Bool) (pr : Profile) (k : Curve) (n : Option Word) : (ch.accepted p tm x y z d pr k n).startValid = true := by simp only [Channel.accepted]
@[simp] theorem accepted_runStart (ch : Channel) (p : Params) (tm : BitVec 64) (x y z : B64) (d : Bool) (pr : Profile) (k : Curve) (n : Option Word) : (ch.accepted p tm x y z d pr k n).runStart = tm := by simp only [Channel.accepted]
@[simp] theorem accepted_label (ch : Channel) (p : Params) (tm : BitVec 64) (x y z : B64) (d : Bool) (pr : Profile) (k : Curve) (n : Option Word) : (ch.accepted p tm x y z d pr k n).label = ch.label := by simp only [Channel.accepted]
@[simp] theorem accepted_stepPin (ch : Channel) (p : Params) (tm : BitVec 64) (x y z : B64) (d : Bool) (pr : Profile) (k : Curve) (n : Option Word) : (ch.accepted p tm x y z d pr k n).stepPin = ch.stepPin := by simp only [Channel.accepted]
@[simp] theorem accepted_dirPin (ch : Channel) (p : Params) (tm : BitVec 64) (x y z : B64) (d : Bool) (pr : Profile) (k : Curve) (n : Option Word) : (ch.accepted p tm x y z d pr k n).dirPin = ch.dirPin := by simp only [Channel.accepted]
@[simp] theorem accepted_buffer (ch : Channel) (p : Params) (tm : BitVec 64) (x y z : B64) (d : Bool) (pr : Profile) (k : Curve) (n : Option Word) : (ch.accepted p tm x y z d pr k n).buffer = ch.buffer := by simp only [Channel.accepted]
@[simp] theorem accepted_chunkValid (ch : Channel) (p : Params) (tm : BitVec 64) (x y z : B64) (d : Bool) (pr : Profile) (k : Curve) (n : Option Word) : (ch.accepted p tm x y z d pr k n).chunkValid = ch.chunkValid := by simp only [Channel.accepted]
@[simp] theorem accepted_playPos (ch : Channel) (p : Params) (tm : BitVec 64) (x y z : B64) (d : Bool) (pr : Profile) (k : Curve) (n : Option Word) : (ch.accepted p tm x y z d pr k n).playPos = ch.playPos := by simp only [Channel.accepted]
@[simp] theorem accepted_seq (ch : Channel) (p : Params) (tm : BitVec 64) (x y z : B64) (d : Bool) (pr : Profile) (k : Curve) (n : Option Word) : (ch.accepted p tm x y z d pr k n).seq = startLabel ch.emit := by simp only [Channel.accepted]
@[simp] theorem accepted_events (ch : Channel) (p : Params) (tm : BitVec 64) (x y z : B64) (d : Bool) (pr : Profile) (k : Curve) (n : Option Word) : (ch.accepted p tm x y z d pr k n).events = ch.events := by simp only [Channel.accepted]

end Sys2Proof.Machine
end

