-- ==== Sys2Proof/Laws/Ops.lean ====
section
/-! SUPPORT. Everything each shared operation can do, said once: commands on a channel, the oracle, the sequencer's checks,
register accesses, turns. -/

namespace Sys2Proof.Machine

theorem onChannel_some {op : BitVec 8} {ch : BitVec 4} {s : State} {c : Channel} (k : Channel → Out)
    (h : s.chans[ch.toNat]? = some c) : onChannel op ch s k = k c := by simp [onChannel, h]

theorem onIdleChannel_idle {op : BitVec 8} {ch : BitVec 4} {s : State} {c : Channel} (k : Channel → Out)
    (h : s.chans[ch.toNat]? = some c) (hm : c.moving = false) : onIdleChannel op ch s k = k c := by
  simp [onIdleChannel, onChannel, h, hm]

theorem onIdleChannel_moving {op : BitVec 8} {ch : BitVec 4} {s : State} {c : Channel} (k : Channel → Out)
    (h : s.chans[ch.toNat]? = some c) (hm : c.moving = true) :
    onIdleChannel op ch s k = raiseStatus op .busy 1#4 s := by
  simp [onIdleChannel, onChannel, h, hm]

theorem onChannel_cases (op : BitVec 8) (ch : BitVec 4) (s : State) (k : Channel → Out) :
    (s.chans[ch.toNat]? = none ∧ onChannel op ch s k = raiseStatus op .illegal 3#4 s) ∨
      ∃ c, s.chans[ch.toNat]? = some c ∧ onChannel op ch s k = k c := by
  cases h : s.chans[ch.toNat]? with
  | none => exact .inl ⟨rfl, by simp [onChannel, h]⟩
  | some c => exact .inr ⟨c, rfl, by simp [onChannel, h]⟩

theorem onIdleChannel_cases (op : BitVec 8) (ch : BitVec 4) (s : State) (k : Channel → Out) :
    (s.chans[ch.toNat]? = none ∧ onIdleChannel op ch s k = raiseStatus op .illegal 3#4 s) ∨
      (∃ c, s.chans[ch.toNat]? = some c ∧ c.moving = true ∧ onIdleChannel op ch s k = raiseStatus op .busy 1#4 s) ∨
      ∃ c, s.chans[ch.toNat]? = some c ∧ c.moving = false ∧ onIdleChannel op ch s k = k c := by
  rcases onChannel_cases op ch s (fun c => if c.moving then raiseStatus op .busy 1#4 s else k c) with
    ⟨h, e⟩ | ⟨c, h, e⟩
  · exact .inl ⟨h, e⟩
  · cases hm : c.moving with
    | true => exact .inr (.inl ⟨c, h, hm, onIdleChannel_moving k h hm⟩)
    | false => exact .inr (.inr ⟨c, h, hm, onIdleChannel_idle k h hm⟩)

theorem raiseStatus_eq (op : BitVec 8) (code : StatusCode) (d : BitVec 4) (s : State) :
    raiseStatus op code d s = .next (setStatus (statusWord op code d) s) := rfl

theorem completeCommand_eq (op : BitVec 8) (s : State) :
    completeCommand op s = .next (setStatus (statusWord op .ok 0#4) s) := rfl

/-! The sequence of output events of a channel (00_scope.md R9). -/

/-- A pin event that comes after every IrqLevel event stands in front. -/
theorem mergeIrq_pin {c : Nat} {e : PinEvent} {pins : List PinEvent} {es : List IrqEvent}
    (h : ∀ i ∈ es, i.recorded.getD c 0 ≤ pins.length) :
    mergeIrq c (e :: pins) es = .pin e :: mergeIrq c pins es := by
  cases es with
  | nil => rfl
  | cons i es =>
    have hi := h i List.mem_cons_self
    have hl : (e :: pins).length - i.recorded.getD c 0 = (pins.length - i.recorded.getD c 0) + 1 := by
      rw [List.length_cons]; omega
    simp only [mergeIrq, hl, List.take_succ_cons, List.drop_succ_cons, List.map_cons, List.cons_append]

/-- An IrqLevel event that comes after every pin event stands in front. -/
theorem mergeIrq_irq {c : Nat} {i : IrqEvent} {pins : List PinEvent} {es : List IrqEvent}
    (h : i.recorded.getD c 0 = pins.length) : mergeIrq c pins (i :: es) = .irqLevel i.level :: mergeIrq c pins es := by
  rw [mergeIrq, h, Nat.sub_self, List.take_zero, List.drop_zero]; rfl

/-- The place an IrqLevel event has in the sequence of a channel: after all its pin events so far. -/
theorem irqEvent_recorded {level : Bool} {s : State} {c : Nat} {ch : Channel} (h : s.chans[c]? = some ch) :
    (irqEvent level s).recorded.getD c 0 = ch.events.length := by
  simp [irqEvent, h]

theorem outputEvents_eq {s : State} {c : Nat} {ch : Channel} (h : s.chans[c]? = some ch) :
    outputEvents s c = mergeIrq c ch.events s.irqEvents := by
  simp [outputEvents, h]

theorem andThen_eq_next {o : Out} {k : State → Out} {t : State} :
    andThen o k = .next t ↔ ∃ m, o = .next m ∧ k m = .next t := by
  cases o <;> simp [andThen]

/-- A drawn answer changes nothing but the oracle's own fields. -/
theorem drawWaveFault_cases (s : State) :
    (∃ a rest, s.waveAnswers = a :: rest ∧ drawWaveFault s = (a, { s with waveAnswers := rest })) ∨
      (s.waveAnswers = [] ∧ s.params.waveFault = .never ∧ drawWaveFault s = (false, s)) ∨
      (s.waveAnswers = [] ∧ s.params.waveFault = .anyAnswer ∧
        drawWaveFault s = (Config.waveFault s.draws, { s with draws := s.draws + 1 })) := by
  cases h : s.waveAnswers with
  | cons a rest => exact .inl ⟨a, rest, rfl, by simp [drawWaveFault, h]⟩
  | nil =>
    cases hp : s.params.waveFault with
    | never => exact .inr (.inl ⟨rfl, rfl, by simp [drawWaveFault, h, hp]⟩)
    | anyAnswer => exact .inr (.inr ⟨rfl, rfl, by simp [drawWaveFault, h, hp]⟩)

theorem directCheck_cases (c : Nat) (ch : Channel) (s : State) :
    (ch.idx = ch.total ∧ directCheck c ch s = finish c ch .complete s) ∨
      (ch.idx ≠ ch.total ∧ s.run = false ∧ directCheck c ch s = finish c ch .cancelled s) ∨
      (ch.idx ≠ ch.total ∧ s.run = true ∧ validDelay s.params (delayOf s.params ch ch.idx.toNat) = true ∧
        directCheck c ch s = s.setChan c
          { ch.raiseStep (ticks s.params (delayOf s.params ch ch.idx.toNat)) with
            seq := .s3 (ticks s.params (delayOf s.params ch ch.idx.toNat)) }) ∨
      (ch.idx ≠ ch.total ∧ s.run = true ∧ validDelay s.params (delayOf s.params ch ch.idx.toNat) = false ∧
        directCheck c ch s = s.setChan c { ch with dropped := ch.dropped + 1#32, idx := ch.idx + 1#32 }) := by
  by_cases h1 : ch.idx = ch.total
  · exact .inl ⟨h1, by simp [directCheck, h1]⟩
  · cases h2 : s.run with
    | false => exact .inr (.inl ⟨h1, rfl, by simp [directCheck, h1, h2]⟩)
    | true =>
      cases h3 : validDelay s.params (delayOf s.params ch ch.idx.toNat) with
      | true => exact .inr (.inr (.inl ⟨h1, rfl, rfl, by simp [directCheck, h1, h2, h3]⟩))
      | false => exact .inr (.inr (.inr ⟨h1, rfl, rfl, by simp [directCheck, h1, h2, h3]⟩))

/-- The valid delays of the chunk the sequencer builds at `[C2]`. -/
def nextChunk (p : Params) (ch : Channel) : List Word :=
  chunkTicks p ch ch.idx.toNat (chunkEnd p ch - ch.idx.toNat)

/-- How many delays of that chunk are dropped. -/
def nextDrop (p : Params) (ch : Channel) : Nat :=
  chunkEnd p ch - ch.idx.toNat - (nextChunk p ch).length

theorem chunkCheck_cases (c : Nat) (ch : Channel) (s : State) :
    (ch.idx = ch.total ∧ chunkCheck c ch s = finish c ch .complete s) ∨
      (ch.idx ≠ ch.total ∧ s.run = false ∧ chunkCheck c ch s = finish c ch .cancelled s) ∨
      (ch.idx ≠ ch.total ∧ s.run = true ∧ nextChunk s.params ch = [] ∧
        chunkCheck c ch s = s.setChan c
          { ch with
            dropped := ch.dropped + BitVec.ofNat 32 (nextDrop s.params ch)
            idx := BitVec.ofNat 32 (chunkEnd s.params ch) }) ∨
      (ch.idx ≠ ch.total ∧ s.run = true ∧ nextChunk s.params ch ≠ [] ∧ (drawWaveFault s).1 = true ∧
        chunkCheck c ch s = finish c ch .hwFault (drawWaveFault s).2) ∨
      (ch.idx ≠ ch.total ∧ s.run = true ∧ nextChunk s.params ch ≠ [] ∧ (drawWaveFault s).1 = false ∧
        chunkCheck c ch s = (drawWaveFault s).2.setChan c
          (ch.submitted (nextChunk s.params ch) (nextDrop s.params ch) (chunkEnd s.params ch))) := by
  have hdef : chunkCheck c ch s =
      if ch.idx = ch.total then finish c ch .complete s
      else if s.run = false then finish c ch .cancelled s
      else if (nextChunk s.params ch).isEmpty then
        s.setChan c
          { ch with
            dropped := ch.dropped + BitVec.ofNat 32 (nextDrop s.params ch)
            idx := BitVec.ofNat 32 (chunkEnd s.params ch) }
      else if (drawWaveFault s).1 then finish c ch .hwFault (drawWaveFault s).2
      else (drawWaveFault s).2.setChan c
        (ch.submitted (nextChunk s.params ch) (nextDrop s.params ch) (chunkEnd s.params ch)) := rfl
  by_cases h1 : ch.idx = ch.total
  · exact .inl ⟨h1, by rw [hdef, if_pos h1]⟩
  · cases h2 : s.run with
    | false => exact .inr (.inl ⟨h1, rfl, by rw [hdef, if_neg h1, if_pos h2]⟩)
    | true =>
      by_cases h3 : nextChunk s.params ch = []
      · exact .inr (.inr (.inl ⟨h1, rfl, h3, by rw [hdef, if_neg h1, if_neg (by simp [h2]), if_pos (by simp [h3])]⟩))
      · have h3' : ¬ (nextChunk s.params ch).isEmpty = true := by simpa using h3
        cases h4 : (drawWaveFault s).1 with
        | true =>
          exact .inr (.inr (.inr (.inl ⟨h1, rfl, h3, rfl,
            by rw [hdef, if_neg h1, if_neg (by simp [h2]), if_neg h3', if_pos h4]⟩)))
        | false =>
          exact .inr (.inr (.inr (.inr ⟨h1, rfl, h3, rfl,
            by rw [hdef, if_neg h1, if_neg (by simp [h2]), if_neg h3', if_neg (by simp [h4])]⟩)))

theorem length_chunkEntries (ks : List Word) : (chunkEntries ks).length = 2 * ks.length := by
  induction ks with
  | nil => rfl
  | cons k ks ih => simp only [chunkEntries, List.flatMap_cons, List.length_append] at ih ⊢; simp [ih]; omega

theorem length_chunkTicks_le (p : Params) (ch : Channel) (i n : Nat) : (chunkTicks p ch i n).length ≤ n := by
  unfold chunkTicks
  exact le_trans (List.length_filterMap_le _ _) (by simp)

/-- A read that is answered changes only the latch of TIME_HI and the record of reads. -/
theorem busRead_eq_next {off width : Nat} {s t : State} :
    busRead off width s = .next t ↔
      ∃ r, regAt s.numChannels off width = some r ∧
        t = { readEffect r s with reads := (off, readReg s r) :: s.reads } := by
  unfold busRead
  cases regAt s.numChannels off width with
  | none => simp
  | some r =>
    constructor
    · intro h; exact ⟨r, rfl, by injection h with h; exact h.symm⟩
    · rintro ⟨r', hr, rfl⟩; injection hr with hr; subst hr; rfl

/-- A write that is answered runs a command, clears DONE bits, sets enables or stores an argument. -/
theorem busWrite_eq_next {off width : Nat} {v : Word} {s t : State} (h : busWrite off width v s = .next t) :
    (regAt s.numChannels off width = some .cmd ∧ execWord v s = .next t) ∨
      (regAt s.numChannels off width = some .irqStatus ∧
        t = setIrq (s.irqStatus &&& ~~~(v.setWidth 16)) s.irqEnable s) ∨
      (regAt s.numChannels off width = some .irqEnable ∧
        t = setIrq s.irqStatus (v.setWidth 16 &&& irqMask s.numChannels) s) ∨
      ∃ n, regAt s.numChannels off width = some (.arg n) ∧ t = { s with args := s.args.set n v } := by
  unfold busWrite at h
  cases hr : regAt s.numChannels off width with
  | none => rw [hr] at h; simp at h
  | some r =>
    rw [hr] at h
    cases r <;> simp only [Option.bind_some, writeReg] at h <;>
      first
        | (exact .inl ⟨rfl, h⟩)
        | (injection h with h; exact .inr (.inl ⟨rfl, h.symm⟩))
        | (injection h with h; exact .inr (.inr (.inl ⟨rfl, h.symm⟩)))
        | (injection h with h; exact .inr (.inr (.inr ⟨_, rfl, h.symm⟩)))
        | (cases h)

/-- A word written to CMD either runs the command it decodes to or raises ILLEGAL. -/
theorem execWord_cases (w : Word) (s : State) :
    (∃ i, decode s.numChannels w = .ok i ∧ execWord w s = exec i s) ∨
      ∃ e, decode s.numChannels w = .error e ∧
        execWord w s = .next (setStatus (statusWord (opcodeField w) .illegal e.detail) s) := by
  cases h : decode s.numChannels w with
  | ok i => exact .inl ⟨i, rfl, by simp [execWord, h]⟩
  | error e => exact .inr ⟨e, rfl, by simp [execWord, h, raiseStatus]⟩

theorem step_eq (s : State) : step s = agentStep (nextAgent s) (takeTurn s) := rfl

/-- Taking a turn changes only the list of turns, or the count of free turns and who was renewed. -/
theorem takeTurn_cases (s : State) :
    (∃ a rest, s.sched = a :: rest ∧ nextAgent s = a ∧ takeTurn s = { s with sched := rest }) ∨
      (s.sched = [] ∧ nextAgent s = freeAgent s ∧
        takeTurn s = { s with turn := s.turn + 1, renewed := renewedAfter (freeAgent s) s }) := by
  cases h : s.sched with
  | cons a rest => exact .inl ⟨a, rest, rfl, by simp [nextAgent, h], by simp [takeTurn, h]⟩
  | nil => exact .inr ⟨rfl, by simp [nextAgent, h], by simp [takeTurn, h]⟩

/-- An access that is over or not changes only the host's list. -/
theorem hostStep_cons {op : HostOp} {rest : List HostOp} {s : State} (h : s.host = op :: rest) :
    hostStep s = busAccess op (if opOver op s then { s with host := rest } else s) := by
  simp [hostStep, h]

end Sys2Proof.Machine
end

