-- ==== Sys2Proof/Laws/Commands.lean ====
section
/-! SUPPORT. Everything a command can do, said once: refused with its status, or its effect and an OK status. -/

namespace Sys2Proof.Machine

/-- The channel with number `ch` is `c`, and it is IDLE. -/
structure IdleChannel (s : State) (ch : BitVec 4) (c : Channel) : Prop where
  there : s.chans[ch.toNat]? = some c
  idle : c.moving = false

/-- What a command can do: the state it ends in. -/
inductive CommandCase (s u : State) : Instr → Prop where
  /-- Refused: nothing changes but the status. -/
  | refused (i : Instr) (code : StatusCode) (detail : BitVec 4) (hc : code ≠ .ok)
      (h : u = setStatus (statusWord i.opcode code detail) s) : CommandCase s u i
  /-- A MOVE whose operands fail a check: the DIR pin has changed. -/
  | moveRefused (ch : BitVec 4) (dir : Bool) (profile : Profile) (curve : Curve) (given : Bool) (c : Channel)
      (code : StatusCode) (detail : BitVec 4) (at' : IdleChannel s ch c)
      (hv : validate s.params c.ppr (startRpmArg s) (targetRpmArg s) (runTimeArg s) = some (code, detail))
      (h : u = setStatus (statusWord 0x03#8 code detail) (s.setChan ch.toNat (c.driveDir dir))) :
      CommandCase s u (.move ch dir profile curve given)
  | moveAccepted (ch : BitVec 4) (dir : Bool) (profile : Profile) (curve : Curve) (given : Bool) (c : Channel)
      (at' : IdleChannel s ch c)
      (hv : validate s.params c.ppr (startRpmArg s) (targetRpmArg s) (runTimeArg s) = none)
      (h : u = setStatus (statusWord 0x03#8 .ok 0#4)
        (s.setChan ch.toNat ((c.driveDir dir).accepted s.params s.time (startRpmArg s) (targetRpmArg s) (runTimeArg s)
          dir profile curve (rampStepsArg given s)))) :
      CommandCase s u (.move ch dir profile curve given)
  | stopped (h : u = setStatus (statusWord 0x04#8 .ok 0#4) { s with run := false }) : CommandCase s u .stop
  | cleared (idle : ∀ c ∈ s.chans, c.moving = false)
      (h : u = setStatus (statusWord 0x05#8 .ok 0#4)
        (setIrq 0#16 s.irqEnable
          { s with run := true, chans := s.chans.map Channel.clearMotion, snap := Snapshot.cleared })) :
      CommandCase s u .reset
  | pprSet (ch : BitVec 4) (c : Channel) (at' : IdleChannel s ch c) (hn : argWord s ≠ 0#32)
      (h : u = setStatus (statusWord 0x01#8 .ok 0#4) (s.setChan ch.toNat { c with ppr := argWord s })) :
      CommandCase s u (.ppr ch)
  | emitSet (ch : BitVec 4) (e : EmitMode) (c : Channel) (at' : IdleChannel s ch c)
      (h : u = setStatus (statusWord 0x02#8 .ok 0#4) (s.setChan ch.toNat { c with emit := e })) :
      CommandCase s u (.setemit ch e)
  | statsCleared (ch : BitVec 4) (c : Channel) (at' : IdleChannel s ch c)
      (h : u = setStatus (statusWord 0x06#8 .ok 0#4) (s.setChan ch.toNat c.clearStats)) :
      CommandCase s u (.clrstat ch)
  | snapped (ch : BitVec 4) (c : Channel) (there : s.chans[ch.toNat]? = some c)
      (h : u = setStatus (statusWord 0x07#8 .ok 0#4) { s with snap := snapshotOf ch c }) : CommandCase s u (.snap ch)
  | labelSet (ch : BitVec 4) (c : Channel) (there : s.chans[ch.toNat]? = some c)
      (h : u = setStatus (statusWord 0x08#8 .ok 0#4) (s.setChan ch.toNat { c with label := argWord s })) :
      CommandCase s u (.setlabel ch)

/-- `validate` fails with a code that is not OK. -/
theorem validate_ne_ok {p : Params} {ppr : Word} {a b r : B64} {code : StatusCode} {d : BitVec 4}
    (h : validate p ppr a b r = some (code, d)) : code ≠ .ok := by
  unfold validate at h
  split_ifs at h <;> simp only [Option.some.injEq, Prod.mk.injEq] at h <;> rw [← h.1] <;> decide

/-- A command on an IDLE channel ends refused or with what its rule does there. -/
theorem onIdleChannel_case {i : Instr} {ch : BitVec 4} {s u : State} {k : Channel → Out}
    (h : onIdleChannel i.opcode ch s k = .next u)
    (hk : ∀ c, IdleChannel s ch c → k c = .next u → CommandCase s u i) : CommandCase s u i := by
  rcases onIdleChannel_cases i.opcode ch s k with ⟨-, e⟩ | ⟨c, -, -, e⟩ | ⟨c, hc, hm, e⟩
  · rw [e] at h; injection h with h; exact .refused i _ _ (by decide) h.symm
  · rw [e] at h; injection h with h; exact .refused i _ _ (by decide) h.symm
  · exact hk c ⟨hc, hm⟩ (e ▸ h)

/-- A command on any channel ends refused or with what its rule does there. -/
theorem onChannel_case {i : Instr} {ch : BitVec 4} {s u : State} {k : Channel → Out}
    (h : onChannel i.opcode ch s k = .next u)
    (hk : ∀ c, s.chans[ch.toNat]? = some c → k c = .next u → CommandCase s u i) : CommandCase s u i := by
  rcases onChannel_cases i.opcode ch s k with ⟨-, e⟩ | ⟨c, hc, e⟩
  · rw [e] at h; injection h with h; exact .refused i _ _ (by decide) h.symm
  · exact hk c hc (e ▸ h)

theorem completeCommand_next {op : BitVec 8} {s u : State} (h : completeCommand op s = .next u) :
    u = setStatus (statusWord op .ok 0#4) s := by injection h with h; exact h.symm

/-- What a command can do. -/
theorem exec_case {i : Instr} {s u : State} (h : exec i s = .next u) : CommandCase s u i := by
  cases i with
  | ppr ch =>
    refine onIdleChannel_case (i := .ppr ch) h fun c hc hk => ?_
    split at hk
    · injection hk with hk; exact .refused _ _ _ (by decide) hk.symm
    · rename_i hn; exact .pprSet ch c hc hn (completeCommand_next hk)
  | setemit ch e =>
    exact onIdleChannel_case (i := .setemit ch e) h fun c hc hk => .emitSet ch e c hc (completeCommand_next hk)
  | move ch dir profile curve given =>
    refine onIdleChannel_case (i := .move ch dir profile curve given) h fun c hc hk => ?_
    split at hk
    · rename_i code detail hv
      injection hk with hk
      exact .moveRefused ch dir profile curve given c code detail hc hv hk.symm
    · rename_i hv
      exact .moveAccepted ch dir profile curve given c hc hv (completeCommand_next hk)
  | stop => exact .stopped (completeCommand_next h)
  | reset =>
    change execReset s = .next u at h
    unfold execReset at h
    split at h
    · injection h with h; exact .refused .reset .busy 2#4 (by decide) h.symm
    · rename_i hi
      refine .cleared (fun c hc => ?_) (completeCommand_next h)
      rw [List.any_eq_true] at hi
      cases hm : c.moving with
      | false => rfl
      | true => exact absurd ⟨c, hc, hm⟩ hi
  | clrstat ch =>
    exact onIdleChannel_case (i := .clrstat ch) h fun c hc hk => .statsCleared ch c hc (completeCommand_next hk)
  | snap ch =>
    exact onChannel_case (i := .snap ch) h fun c hc hk => .snapped ch c hc (completeCommand_next hk)
  | setlabel ch =>
    exact onChannel_case (i := .setlabel ch) h fun c hc hk => .labelSet ch c hc (completeCommand_next hk)

/-- Every command answers a next state. -/
theorem exec_next (i : Instr) (s : State) : ∃ u, exec i s = .next u := by
  have idle : ∀ (op : BitVec 8) (ch : BitVec 4) (k : Channel → Out), (∀ c, ∃ u, k c = .next u) →
      ∃ u, onIdleChannel op ch s k = .next u := fun op ch k hk => by
    rcases onIdleChannel_cases op ch s k with ⟨-, e⟩ | ⟨c, -, -, e⟩ | ⟨c, -, -, e⟩
    · exact ⟨_, e⟩
    · exact ⟨_, e⟩
    · rw [e]; exact hk c
  have any : ∀ (op : BitVec 8) (ch : BitVec 4) (k : Channel → Out), (∀ c, ∃ u, k c = .next u) →
      ∃ u, onChannel op ch s k = .next u := fun op ch k hk => by
    rcases onChannel_cases op ch s k with ⟨-, e⟩ | ⟨c, -, e⟩
    · exact ⟨_, e⟩
    · rw [e]; exact hk c
  cases i with
  | ppr ch => exact idle _ _ _ fun c => by split <;> exact ⟨_, rfl⟩
  | setemit ch e => exact idle _ _ _ fun c => ⟨_, rfl⟩
  | move ch dir profile curve given => exact idle _ _ _ fun c => by split <;> exact ⟨_, rfl⟩
  | stop => exact ⟨_, rfl⟩
  | reset => simp only [exec, execReset]; split <;> exact ⟨_, rfl⟩
  | clrstat ch => exact idle _ _ _ fun c => ⟨_, rfl⟩
  | snap ch => exact any _ _ _ fun c => ⟨_, rfl⟩
  | setlabel ch => exact any _ _ _ fun c => ⟨_, rfl⟩

end Sys2Proof.Machine
end

