-- ==== Sys2Proof/Laws/Curve.lean ====
section
/-! SUPPORT. SIN_FN as plain data: the tables give every function that takes +0 to +0, and no other. The arguments the
unit is presented and the bounds of the default sine there. -/

namespace Sys2Proof.Machine

theorem lookup_graph (f : B64 → B64) (l : List B64) {y : B64} (h : y ∈ l) :
    (l.map fun x => (x, f x)).lookup y = some (f y) := by
  induction l with
  | nil => cases h
  | cons x l ih =>
    rw [List.map_cons, List.lookup_cons]
    by_cases hx : y = x
    · subst hx; simp
    · simp only [beq_eq_false_iff_ne.2 hx]
      exact ih ((List.mem_cons.1 h).resolve_left hx)

theorem exists_all (n : Nat) : ∃ l : List (BitVec n), ∀ y, y ∈ l :=
  ⟨(List.range (2 ^ n)).map (BitVec.ofNat n), fun y => List.mem_map.2 ⟨y.toNat, List.mem_range.2 y.isLt, by simp⟩⟩

/-- Every function that takes +0 to +0 is the SIN_FN of a configuration (00_scope.md R6). -/
theorem sinFn_surjective (f : B64 → B64) (h : f 0#64 = 0#64) : ∃ g : SinFn, ∀ y, sinFn g y = f y := by
  obtain ⟨l, hl⟩ := exists_all 64
  refine ⟨.table (l.map fun x => (x, f x)), fun y => ?_⟩
  simp only [sinFn, lookup_graph f l (hl y), Option.getD_some]
  split
  · rename_i h0; rw [h0, h]
  · rfl

/-- Every SIN_FN takes +0 to +0 (00_scope.md R6). -/
theorem sinFn_zero (g : SinFn) : sinFn g 0#64 = 0#64 := by
  cases g with
  | correctlyRounded => rfl
  | table e => rfl

/-- A table has the default's value at an argument it does not list. -/
theorem sinFn_unlisted {e : List (B64 × B64)} {y : B64} (h0 : y ≠ 0#64) (h : e.lookup y = none) :
    sinFn (.table e) y = correctSine y := by
  rw [sinFn, if_neg h0, h, Option.getD_none]

/-! ### What the unit is presented -/

open Binary64

/-- The argument of ramp sample `k` of `r` is a finite value from +0 up to pi/2 (40_delay_curve.md R106). -/
theorem sineArgument_eq {k r : Nat} (hk : k < r) (hr : r < 2 ^ 53) :
    ∃ b ≤ 0x3FF921FB54442D18, div (mul (progress k r) pi64) two = withSign false b := by
  have hpos : 0 < unitsPerOne := unitsPerOne_pos
  have hu : unitsPerOne = 2 ^ 52 * 2 ^ 1022 := by rw [unitsPerOne_eq, ← Nat.pow_add]
  have huk : ∀ n < 2 ^ 53, bitsUnits (roundUnits (n * unitsPerOne) 1) = n * unitsPerOne := fun n hn => by
    have := units_ofNat hn
    rwa [ofNat, units_withSign _ (roundUnits_lt _ _)] at this
  have hb : ∀ n < 2 ^ 53, roundUnits (n * unitsPerOne) 1 < infBits := fun n hn => by
    refine lt_of_le_of_lt (b := roundUnits (2 ^ 52 * 2 ^ 1075) 1) (roundUnits_mono one_pos one_pos ?_) ?_
    · have : 2 ^ 52 * 2 ^ 1075 = 2 ^ 53 * unitsPerOne := by rw [unitsPerOne_eq, ← Nat.pow_add, ← Nat.pow_add]
      rw [this, Nat.mul_one, Nat.mul_one]; exact Nat.mul_le_mul_right _ hn.le
    · rw [roundUnits_exact (by decide) (.inr (by decide)) (by decide)]; decide
  have h1 : bitsUnits 0x3FF0000000000000 = unitsPerOne := by
    rw [hu, show 0x3FF0000000000000 = 1022 * 2 ^ 52 + 2 ^ 52 from rfl,
      bitsUnits_pack (by decide) (.inr (by decide))]
  have h2 : bitsUnits 0x4000000000000000 = 2 * unitsPerOne := by
    rw [unitsPerOne_eq, show 0x4000000000000000 = 1023 * 2 ^ 52 + 2 ^ 52 from rfl,
      bitsUnits_pack (by decide) (.inr (by decide)), ← Nat.pow_add, ← Nat.pow_succ']
  have hpi : bitsUnits 0x400921FB54442D18 = 0x1921FB54442D18 * 2 ^ 1023 := by
    rw [show 0x400921FB54442D18 = 1023 * 2 ^ 52 + 0x1921FB54442D18 from rfl,
      bitsUnits_pack (by decide) (.inr (by decide))]
  have hp : progress k r = withSign false (roundUnits (k * unitsPerOne * unitsPerOne) (r * unitsPerOne)) := by
    rw [progress, ofNat, ofNat, div_withSign (hb k (by omega)) (hb r hr), huk k (by omega), huk r hr]
    rw [huk r hr]; exact (Nat.mul_pos (by omega) hpos).ne'
  have hP : roundUnits (k * unitsPerOne * unitsPerOne) (r * unitsPerOne) ≤ 0x3FF0000000000000 := by
    refine le_trans (b := roundUnits (2 ^ 52 * 2 ^ 1022) 1) (roundUnits_mono (Nat.mul_pos (by omega) hpos) one_pos ?_) ?_
    · rw [← hu, Nat.mul_one, ← Nat.mul_assoc, Nat.mul_comm unitsPerOne r]
      exact Nat.mul_le_mul_right _ (Nat.mul_le_mul_right _ hk.le)
    · rw [roundUnits_exact (by decide) (.inr (by decide)) (by decide)]; decide
  generalize roundUnits (k * unitsPerOne * unitsPerOne) (r * unitsPerOne) = P at hp hP
  have hM : roundUnits (bitsUnits P * bitsUnits 0x400921FB54442D18) unitsPerOne ≤ 0x400921FB54442D18 := by
    refine le_trans (b := roundUnits (0x1921FB54442D18 * 2 ^ 1023) 1) (roundUnits_mono hpos one_pos ?_) ?_
    · rw [Nat.mul_one, ← hpi, Nat.mul_comm _ unitsPerOne, ← h1]
      exact Nat.mul_le_mul_right _ (bitsUnits_mono hP)
    · rw [roundUnits_exact (by decide) (.inr (by decide)) (by decide)]; decide
  refine ⟨roundUnits (bitsUnits (roundUnits (bitsUnits P * bitsUnits 0x400921FB54442D18) unitsPerOne) * unitsPerOne)
    (bitsUnits 0x4000000000000000), ?_, ?_⟩
  · refine le_trans (b := roundUnits (0x1921FB54442D18 * 2 ^ 1022) 1) (roundUnits_mono (by omega) one_pos ?_) ?_
    · rw [Nat.mul_one, h2]
      calc _ ≤ bitsUnits 0x400921FB54442D18 * unitsPerOne := Nat.mul_le_mul_right _ (bitsUnits_mono hM)
        _ = _ := by rw [hpi, show (1023 : Nat) = 1022 + 1 from rfl, Nat.pow_succ]; ring
    · rw [roundUnits_exact (by decide) (.inr (by decide)) (by decide)]; decide
  · rw [hp, show pi64 = withSign false 0x400921FB54442D18 from rfl, show two = withSign false 0x4000000000000000 from rfl,
      mul_withSign (lt_of_le_of_lt hP (by decide)) (by decide),
      div_withSign (lt_of_le_of_lt hM (by decide)) (by decide) (by rw [h2]; omega)]

theorem sineNest_le (yy : Nat) {qq : Nat} (hq : 0 < qq) (k : Nat) : ∀ j, 0 < j →
    (sineNest yy qq k j).1 ≤ (sineNest yy qq k j).2 ∧ 0 < (sineNest yy qq k j).2 := by
  induction k with
  | zero => intro j _; exact ⟨le_rfl, one_pos⟩
  | succ k ih =>
    intro j hj
    exact ⟨Nat.sub_le _ _, by
      simp only [sineNest]
      exact Nat.mul_pos (Nat.mul_pos (Nat.mul_pos hq (by omega)) (by omega)) (ih (j + 1) (by omega)).2⟩

/-- The series bounds of the sine of an argument below 2 are at most 2. -/
theorem sineBits_le {y : B64} (h : units y < 2 * unitsPerOne) (k : Nat) : sineBits y k ≤ 0x4000000000000000 := by
  have he : unitExp y ≤ 1074 := by
    by_contra hc
    have hs : significand y ≠ 0 := by
      unfold significand; unfold unitExp at hc
      rw [if_neg (by omega)]; omega
    have : 2 ^ 1075 ≤ units y :=
      le_trans (Nat.pow_le_pow_right (by decide) (by omega)) (Nat.le_mul_of_pos_left _ (by omega))
    have hu : 2 * unitsPerOne = 2 ^ 1075 := by rw [unitsPerOne_eq, ← Nat.pow_succ']
    rw [hu] at h
    exact absurd (lt_of_le_of_lt this h) (lt_irrefl _)
  have hq : 0 < 2 ^ (1074 - unitExp y) := Nat.two_pow_pos _
  obtain ⟨h1, h2⟩ := sineNest_le (significand y * significand y) (Nat.mul_pos hq hq) k 1 one_pos
  have hs : significand y ≤ 2 * 2 ^ (1074 - unitExp y) := by
    rw [unitsPerOne_eq, units] at h
    have : 2 * 2 ^ 1074 = 2 * 2 ^ (1074 - unitExp y) * 2 ^ unitExp y := by
      rw [Nat.mul_assoc, ← Nat.pow_add, Nat.sub_add_cancel he]
    rw [this] at h
    exact (Nat.lt_of_mul_lt_mul_right h).le
  unfold sineBits
  refine le_trans (b := roundUnits (2 ^ 52 * 2 ^ 1023) 1) (roundUnits_mono (Nat.mul_pos hq h2) one_pos ?_) ?_
  · have h3 : 2 ^ 52 * 2 ^ 1023 = 2 * unitsPerOne := by
      rw [unitsPerOne_eq, ← Nat.pow_add, ← Nat.pow_succ']
    rw [h3, Nat.mul_one]
    calc _ ≤ 2 * 2 ^ (1074 - unitExp y) * (sineNest _ _ k 1).2 * unitsPerOne :=
          Nat.mul_le_mul_right _ (Nat.mul_le_mul hs h1)
      _ = _ := by ring
  · rw [roundUnits_exact (by decide) (.inr (by decide)) (by decide)]; decide

theorem smallSine_eq {y : B64} (h : units y < 2 * unitsPerOne) :
    ∃ v ≤ 0x4000000000000000, smallSine y = withSign false v := by
  refine ⟨_, ?_, smallSine.eq_1 y⟩
  split
  · exact sineBits_le h _
  · split <;> exact sineBits_le h _

theorem abs_withSign {b : Nat} (h : b < 2 ^ 63) : Binary64.abs (withSign false b) = withSign false b := by
  apply BitVec.eq_of_toNat_eq
  rw [Binary64.abs, BitVec.toNat_and, toNat_withSign false h, show (0x7FFFFFFFFFFFFFFF#64).toNat = 2 ^ 63 - 1 from rfl]
  exact Nat.and_two_pow_sub_one_of_lt_two_pow h

theorem positiveSine_tiny {y : B64} (h : units y * 2 ^ 27 < unitsPerOne) : positiveSine y = some y := by
  rw [positiveSine, if_pos h]

theorem positiveSine_small {y : B64} (h : ¬units y * 2 ^ 27 < unitsPerOne) (h2 : units y < 2 * unitsPerOne) :
    positiveSine y = some (smallSine y) := by
  rw [positiveSine, if_neg h, if_pos h2]

/-- The default sine of a positive finite argument. -/
theorem correctSine_positive {y v : B64} (hz : ¬isZero y = true) (hf : finite y = true) (ha : Binary64.abs y = y)
    (hs : signBit y = false) (hv : positiveSine y = some v) : correctSine y = v := by
  rw [correctSine, if_neg hz, if_neg (by rw [hf]; exact Bool.noConfusion), ha, hv]
  simp only [hs, Bool.false_eq_true, if_false]

theorem pi_half_lt : bitsUnits 0x3FF921FB54442D18 < 2 * unitsPerOne := by
  have h : 2 * unitsPerOne = 2 ^ 53 * 2 ^ 1022 := by rw [unitsPerOne_eq, ← Nat.pow_succ', ← Nat.pow_add]
  rw [h, show 0x3FF921FB54442D18 = 1022 * 2 ^ 52 + 0x1921FB54442D18 from rfl,
    bitsUnits_pack (by decide) (.inr (by decide))]
  exact Nat.mul_lt_mul_of_pos_right (by decide) (Nat.two_pow_pos _)

/-- The default sine of an argument from +0 up to pi/2 is a value from +0 up to 2. -/
theorem correctSine_eq {b : Nat} (hb : b ≤ 0x3FF921FB54442D18) :
    ∃ v ≤ 0x4000000000000000, correctSine (withSign false b) = withSign false v := by
  have hi : b < infBits := lt_of_le_of_lt hb (by decide)
  have hab : Binary64.abs (withSign false b) = withSign false b := abs_withSign (lt_of_lt_infBits hi)
  have hlt : units (withSign false b) < 2 * unitsPerOne := by
    rw [units_withSign _ (lt_of_lt_infBits hi)]
    exact lt_of_le_of_lt (bitsUnits_mono hb) pi_half_lt
  have hf : finite (withSign false b) = true := finite_withSign _ hi
  have hs : signBit (withSign false b) = false := signBit_withSign _ (lt_of_lt_infBits hi)
  have h2 : b ≤ 0x4000000000000000 := le_trans hb (by decide)
  generalize hy : withSign false b = y at *
  by_cases hz : isZero y = true
  · exact ⟨b, h2, by rw [correctSine, if_pos hz, hy]⟩
  by_cases ht : units y * 2 ^ 27 < unitsPerOne
  · exact ⟨b, h2, (correctSine_positive hz hf hab hs (positiveSine_tiny ht)).trans hy.symm⟩
  · obtain ⟨v, hv, h⟩ := smallSine_eq hlt
    exact ⟨v, hv, (correctSine_positive hz hf hab hs (positiveSine_small ht hlt)).trans h⟩

/-- The default sine keeps the sine law finite: at the argument of a ramp sample its value has a finite product with 2^32. -/
theorem finite_mul_correctSine {k r : Nat} (hk : k < r) (hr : r < 2 ^ 53) :
    finite (mul (ofNat (2 ^ 32)) (correctSine (div (mul (progress k r) pi64) two))) = true := by
  obtain ⟨b, hb, h⟩ := sineArgument_eq hk hr
  obtain ⟨v, hv, h'⟩ := correctSine_eq hb
  have h32 : ofNat (2 ^ 32) = withSign false 0x41F0000000000000 := by decide +kernel
  rw [h, h', h32, mul_withSign (by decide) (lt_of_le_of_lt hv (by decide))]
  refine finite_withSign _ (lt_of_le_of_lt (b := roundUnits (2 ^ 52 * 2 ^ 1055) 1) (roundUnits_mono unitsPerOne_pos one_pos ?_) ?_)
  · rw [Nat.mul_one]
    refine le_trans (Nat.mul_le_mul_left _ (bitsUnits_mono hv)) (le_of_eq ?_)
    rw [show 0x41F0000000000000 = 1054 * 2 ^ 52 + 2 ^ 52 from rfl, show 0x4000000000000000 = 1023 * 2 ^ 52 + 2 ^ 52 from rfl,
      bitsUnits_pack (by decide) (.inr (by decide)), bitsUnits_pack (by decide) (.inr (by decide)), unitsPerOne_eq]
    simp only [← Nat.pow_add]
  · rw [roundUnits_exact (by decide) (.inr (by decide)) (by decide)]; decide

end Sys2Proof.Machine
end

