-- ==== Sys2Proof/Laws/Step.lean ====
section
/-! SUPPORT. Everything one step of the block can do, said once: nothing to the block, one command, an illegal word, a
write of the interrupt registers, a step of one sequencer or engine. -/

namespace Sys2Proof.Machine

/-- The block's own state is the same: all of it but the argument registers, TIME and its latch. -/
structure SameBlock (s t : State) : Prop where
  params : t.params = s.params
  run : t.run = s.run
  cmdStatus : t.cmdStatus = s.cmdStatus
  irqStatus : t.irqStatus = s.irqStatus
  irqEnable : t.irqEnable = s.irqEnable
  snap : t.snap = s.snap
  chans : t.chans = s.chans
  irqEvents : t.irqEvents = s.irqEvents
  statuses : t.statuses = s.statuses

theorem SameBlock.refl (s : State) : SameBlock s s := ⟨rfl, rfl, rfl, rfl, rfl, rfl, rfl, rfl, rfl⟩

theorem SameBlock.trans {s t u : State} (h : SameBlock s t) (k : SameBlock t u) : SameBlock s u :=
  ⟨k.params.trans h.params, k.run.trans h.run, k.cmdStatus.trans h.cmdStatus, k.irqStatus.trans h.irqStatus,
    k.irqEnable.trans h.irqEnable, k.snap.trans h.snap, k.chans.trans h.chans, k.irqEvents.trans h.irqEvents,
    k.statuses.trans h.statuses⟩

theorem SameBlock.numChannels {s t : State} (h : SameBlock s t) : t.numChannels = s.numChannels := by
  simp [State.numChannels, h.chans]

theorem takeTurn_same (s : State) : SameBlock s (takeTurn s) := by
  rcases takeTurn_cases s with ⟨a, rest, -, -, h⟩ | ⟨-, -, h⟩ <;> rw [h] <;> exact ⟨rfl, rfl, rfl, rfl, rfl, rfl, rfl, rfl, rfl⟩

@[simp] theorem takeTurn_time (s : State) : (takeTurn s).time = s.time := by
  rcases takeTurn_cases s with ⟨a, rest, -, -, h⟩ | ⟨-, -, h⟩ <;> rw [h]

@[simp] theorem takeTurn_host (s : State) : (takeTurn s).host = s.host := by
  rcases takeTurn_cases s with ⟨a, rest, -, -, h⟩ | ⟨-, -, h⟩ <;> rw [h]

@[simp] theorem takeTurn_link (s : State) : (takeTurn s).link = s.link := by
  rcases takeTurn_cases s with ⟨a, rest, -, -, h⟩ | ⟨-, -, h⟩ <;> rw [h]

@[simp] theorem takeTurn_args (s : State) : (takeTurn s).args = s.args := by
  rcases takeTurn_cases s with ⟨a, rest, -, -, h⟩ | ⟨-, -, h⟩ <;> rw [h]

@[simp] theorem takeTurn_timeHiLatch (s : State) : (takeTurn s).timeHiLatch = s.timeHiLatch := by
  rcases takeTurn_cases s with ⟨a, rest, -, -, h⟩ | ⟨-, -, h⟩ <;> rw [h]

@[simp] theorem takeTurn_reads (s : State) : (takeTurn s).reads = s.reads := by
  rcases takeTurn_cases s with ⟨a, rest, -, -, h⟩ | ⟨-, -, h⟩ <;> rw [h]

@[simp] theorem takeTurn_waveAnswers (s : State) : (takeTurn s).waveAnswers = s.waveAnswers := by
  rcases takeTurn_cases s with ⟨a, rest, -, -, h⟩ | ⟨-, -, h⟩ <;> rw [h]

/-- Everything a command word can do: its command, or an illegal word. -/
theorem execWord_eq_next {w : Word} {s t : State} (h : execWord w s = .next t) :
    (∃ i, decode s.numChannels w = .ok i ∧ exec i s = .next t) ∨
      ∃ e : Illegal, decode s.numChannels w = .error e ∧
        t = setStatus (statusWord (opcodeField w) .illegal e.detail) s := by
  rcases execWord_cases w s with ⟨i, hi, he⟩ | ⟨e, hi, he⟩
  · exact .inl ⟨i, hi, he ▸ h⟩
  · rw [he] at h; injection h with h; exact .inr ⟨e, hi, h.symm⟩

/-- A step runs a command `i`: on a state `m` whose block is that of `s`, and it ends in `t` up to the front end. -/
structure RunsCommand (s t : State) (i : Instr) (m u : State) : Prop where
  same : SameBlock s m
  time : m.time = s.time
  args : m.args = s.args
  runs : exec i m = .next u
  after : SameBlock u t

/-- What one step can do to the block. -/
inductive StepCase (s t : State) : Prop where
  /-- Nothing: an access of another register, the front end, the time base, an agent with no step to take. -/
  | outside (h : SameBlock s t)
  /-- A command. -/
  | command (i : Instr) (m u : State) (h : RunsCommand s t i m u)
  /-- An illegal command word. -/
  | illegal (op : BitVec 8) (e : Illegal) (h : SameBlock (setStatus (statusWord op .illegal e.detail) s) t)
  /-- A host write of IRQ_STATUS. -/
  | clearDone (v : Word) (more : List HostOp) (ha : nextAgent s = .host) (hh : s.host = .write 0x018 4 v :: more)
      (h : SameBlock (setIrq (s.irqStatus &&& ~~~(v.setWidth 16)) s.irqEnable s) t)
  /-- A host write of IRQ_ENABLE. -/
  | setEnable (v : Word) (h : SameBlock (setIrq s.irqStatus (v.setWidth 16 &&& irqMask s.numChannels) s) t)
  /-- A step of the sequencer of channel `c`. -/
  | sequencer (c : Nat) (ha : nextAgent s = .sequencer c) (h : t = sequencerStep c (takeTurn s))
  /-- A step of the waveform engine of channel `c`. -/
  | engine (c : Nat) (ha : nextAgent s = .engine c) (h : t = engineStep c (takeTurn s))

theorem setStatus_same {s t : State} (w : Word) (h : SameBlock s t) : SameBlock (setStatus w s) (setStatus w t) :=
  ⟨h.params, h.run, rfl, h.irqStatus, h.irqEnable, h.snap, h.chans, h.irqEvents, congrArg (w :: ·) h.statuses⟩

theorem setIrq_same {s t : State} {a b : BitVec 16} (h : SameBlock s t) : SameBlock (setIrq a b s) (setIrq a b t) := by
  refine ⟨h.params, h.run, h.cmdStatus, rfl, rfl, h.snap, h.chans, ?_, h.statuses⟩
  simp only [setIrq, irqEvent, h.irqStatus, h.irqEnable, h.chans, h.irqEvents]

/-- A command word executed on a state with the block of `s`. -/
theorem StepCase.ofWord {s m u t : State} {w : Word} (same : SameBlock s m) (time : m.time = s.time)
    (args : m.args = s.args) (h : execWord w m = .next u) (after : SameBlock u t) : StepCase s t := by
  rcases execWord_eq_next h with ⟨i, -, hi⟩ | ⟨e, -, rfl⟩
  · exact .command i m u ⟨same, time, args, hi, after⟩
  · exact .illegal (opcodeField w) e ((setStatus_same _ same).trans after)

theorem readEffect_same (r : Reg) (s : State) : SameBlock s (readEffect r s) := by
  unfold readEffect; split <;> exact ⟨rfl, rfl, rfl, rfl, rfl, rfl, rfl, rfl, rfl⟩

theorem busRead_same {off width : Nat} {s t : State} (h : busRead off width s = .next t) : SameBlock s t := by
  obtain ⟨r, -, rfl⟩ := busRead_eq_next.1 h
  exact (readEffect_same r s).trans ⟨rfl, rfl, rfl, rfl, rfl, rfl, rfl, rfl, rfl⟩

theorem regAt_irqStatus {n off width : Nat} (h : regAt n off width = some .irqStatus) : off = 0x018 ∧ width = 4 := by
  unfold regAt at h
  split at h
  · rename_i hw
    split at h
    · refine ⟨?_, hw.1⟩
      unfold Reg.globalOfWord at h
      split at h <;> first | (cases h; omega) | cases h
    · split at h
      · rw [Option.map_eq_some_iff] at h; obtain ⟨q, -, hq⟩ := h; cases hq
      · cases h
  · cases h

/-- The writes a bus master of the block may make: any for the host, and for the front end the argument registers and CMD. -/
theorem busWrite_case {s p t : State} {off width : Nat} {v : Word} (hp : SameBlock s p) (ht : p.time = s.time)
    (hg : p.args = s.args) (h : busWrite off width v p = .next t) :
    StepCase s t ∨ (off = 0x018 ∧ width = 4 ∧
      SameBlock (setIrq (s.irqStatus &&& ~~~(v.setWidth 16)) s.irqEnable s) t) := by
  rcases busWrite_eq_next h with ⟨-, hc⟩ | ⟨hr, rfl⟩ | ⟨-, rfl⟩ | ⟨n, -, rfl⟩
  · exact .inl (.ofWord hp ht hg hc (SameBlock.refl _))
  · obtain ⟨rfl, rfl⟩ := regAt_irqStatus hr
    refine .inr ⟨rfl, rfl, ?_⟩
    have := setIrq_same (a := s.irqStatus &&& ~~~(v.setWidth 16)) (b := s.irqEnable) hp
    simpa only [hp.irqStatus, hp.irqEnable] using this
  · refine .inl (.setEnable v ?_)
    have := setIrq_same (a := s.irqStatus) (b := v.setWidth 16 &&& irqMask s.numChannels) hp
    simpa only [hp.irqStatus, State.numChannels, hp.chans] using this
  · exact .inl (.outside (hp.trans ⟨rfl, rfl, rfl, rfl, rfl, rfl, rfl, rfl, rfl⟩))

theorem host_same (s : State) (l : List HostOp) : SameBlock s { s with host := l } :=
  ⟨rfl, rfl, rfl, rfl, rfl, rfl, rfl, rfl, rfl⟩

theorem hostStep_case {s t : State} (ha : nextAgent s = .host) (h : hostStep (takeTurn s) = .next t) : StepCase s t := by
  have hs := takeTurn_same s
  cases hh : (takeTurn s).host with
  | nil =>
    simp only [hostStep, hh, Host.Outcome.next.injEq] at h
    exact .outside (h ▸ hs)
  | cons op rest =>
    rw [hostStep_cons hh] at h
    cases op with
    | write off width v =>
      rcases busWrite_case (hs.trans (host_same _ rest)) (takeTurn_time s) (takeTurn_args s) h with
        hc | ⟨rfl, rfl, hc⟩
      · exact hc
      · exact .clearDone v rest ha (takeTurn_host s ▸ hh) hc
    | read off width => exact .outside ((hs.trans (host_same _ rest)).trans (busRead_same h))
    | waitDone c =>
      refine .outside (hs.trans (SameBlock.trans ?_ (busRead_same h)))
      split
      · exact host_same _ rest
      · exact SameBlock.refl _
    | waitIrq =>
      injection h with h; subst h
      refine .outside (hs.trans ?_)
      split
      · exact host_same _ rest
      · exact SameBlock.refl _

theorem args_same (s : State) (a : Vector Word 8) : SameBlock s { s with args := a } :=
  ⟨rfl, rfl, rfl, rfl, rfl, rfl, rfl, rfl, rfl⟩

theorem link_same (s : State) (l : Link) : SameBlock s { s with link := l } :=
  ⟨rfl, rfl, rfl, rfl, rfl, rfl, rfl, rfl, rfl⟩

/-! Everything the front end keeps for itself stands in `link` and `draws`. -/

theorem takeLine_same (line : List Char) (s : State) : SameBlock s (takeLine line s) := by
  unfold takeLine
  split
  all_goals exact link_same _ _

theorem takeNextLine_same (s : State) : SameBlock s (takeNextLine s) := by
  unfold takeNextLine
  split
  · exact SameBlock.refl _
  · exact (link_same _ _).trans (takeLine_same _ _)

theorem commandIssued_same (f : Follow) (s : State) : SameBlock s (commandIssued f s) := by
  cases f <;> exact link_same _ _

theorem moveChecked_same (ok : Bool) (f : Follow) (s : State) : SameBlock s (moveChecked ok f s) := by
  unfold moveChecked
  split
  · exact link_same _ _
  · split
    · refine SameBlock.trans ?_ (link_same _ _)
      split
      · exact link_same _ _
      · exact SameBlock.refl _
    · exact link_same _ _
  · split <;> exact link_same _ _

theorem moveLookedAt_same (moving : Bool) (rest : List MoveLine) (s : State) : SameBlock s (moveLookedAt moving rest s) := by
  unfold moveLookedAt
  split
  · exact SameBlock.refl _
  · split <;> exact link_same _ _

/-- A step that reads one register and then changes only what the front end keeps for itself. -/
theorem readThen_same {off width : Nat} {p t : State} {k : State → State} (hk : ∀ u, SameBlock u (k u))
    (h : (andThen (busRead off width p) fun u => .next (k u)) = .next t) : SameBlock p t := by
  obtain ⟨u, hu, h⟩ := andThen_eq_next.1 h
  injection h with h; subst h
  exact (busRead_same hu).trans (hk u)

/-- The front end writes the argument registers and CMD, and nothing else. -/
theorem linkWrites_mem {ch : BitVec 4} {cmd : LinkCmd} {op : HostOp} (h : op ∈ linkWrites ch cmd) :
    ∃ v, op = wr .cmd v ∨ ∃ n, op = wr (.arg n) v := by
  cases cmd with
  | ppr n =>
    simp only [linkWrites, asmPpr, List.mem_cons, List.not_mem_nil, or_false] at h
    rcases h with rfl | rfl
    · exact ⟨_, .inr ⟨_, rfl⟩⟩
    · exact ⟨_, .inl rfl⟩
  | reset => simp only [linkWrites, asmReset, List.mem_singleton] at h; exact ⟨_, .inl h⟩
  | stop => simp only [linkWrites, asmStop, List.mem_singleton] at h; exact ⟨_, .inl h⟩
  | move m =>
    obtain ⟨a, b, r, d, n⟩ := m
    cases n <;> simp only [linkWrites, asmMove, List.append_nil, List.cons_append, List.nil_append, List.mem_cons,
      List.not_mem_nil, or_false] at h
    · rcases h with h | h | h | h | h | h | h <;> first | exact ⟨_, .inr ⟨_, h⟩⟩ | exact ⟨_, .inl h⟩
    · rcases h with h | h | h | h | h | h | h | h <;> first | exact ⟨_, .inr ⟨_, h⟩⟩ | exact ⟨_, .inl h⟩

/-- One register write of the front end. -/
theorem linkWrite_case {ch : BitVec 4} {cmd : LinkCmd} {op : HostOp} {s p u t : State} (hp : SameBlock s p)
    (ht : p.time = s.time) (hg : p.args = s.args) (hop : op ∈ linkWrites ch cmd) (hu : busAccess op p = .next u) (h : SameBlock u t) :
    StepCase s t := by
  obtain ⟨v, rfl | ⟨n, rfl⟩⟩ := linkWrites_mem hop
  · have hu : busWrite 0x010 4 v p = .next u := hu
    rcases busWrite_eq_next hu with ⟨-, hc⟩ | ⟨hr, -⟩ | ⟨hr, -⟩ | ⟨n, hr, -⟩
    · exact .ofWord hp ht hg hc h
    · cases hr
    · cases hr
    · cases hr
  · have hu : busWrite (0x020 + 4 * n.val) 4 v p = .next u := hu
    rcases busWrite_eq_next hu with ⟨hr, -⟩ | ⟨hr, -⟩ | ⟨hr, -⟩ | ⟨k, -, rfl⟩
    · fin_cases n <;> cases hr
    · fin_cases n <;> cases hr
    · fin_cases n <;> cases hr
    · exact .outside ((hp.trans (args_same p _)).trans h)

theorem writeStep_case {cmd : LinkCmd} {k : Nat} {f : Follow} {s p t : State} (hp : SameBlock s p)
    (ht : p.time = s.time) (hg : p.args = s.args) (h : writeStep cmd k f p = .next t) : StepCase s t := by
  unfold writeStep at h
  split at h
  · injection h with h; subst h; exact .outside (hp.trans (commandIssued_same _ _))
  · rename_i op hd
    obtain ⟨u, hu, h⟩ := andThen_eq_next.1 h
    injection h with h; subst h
    exact linkWrite_case hp ht hg (List.mem_of_mem_drop (hd ▸ List.mem_cons_self)) hu (commandIssued_same _ _)
  · rename_i op _ _ hd
    obtain ⟨u, hu, h⟩ := andThen_eq_next.1 h
    injection h with h; subst h
    exact linkWrite_case hp ht hg (List.mem_of_mem_drop (hd ▸ List.mem_cons_self)) hu (link_same _ _)

theorem pollStep_same {rest : List MoveLine} {p t : State} (h : pollStep rest p = .next t) : SameBlock p t :=
  readThen_same (fun _ => moveLookedAt_same _ _ _) h

theorem awaitStep_same {rest : List MoveLine} {p t : State} (h : awaitStep rest p = .next t) : SameBlock p t := by
  have hd : SameBlock p { p with draws := p.draws + 1 } := ⟨rfl, rfl, rfl, rfl, rfl, rfl, rfl, rfl, rfl⟩
  unfold awaitStep at h
  split at h
  · split at h
    · injection h with h; subst h; exact hd.trans (takeNextLine_same _)
    · exact hd.trans (pollStep_same h)
  · exact pollStep_same h

theorem linkStep_case {s p t : State} (hp : SameBlock s p) (ht : p.time = s.time) (hg : p.args = s.args) (h : linkStep p = .next t) :
    StepCase s t := by
  unfold linkStep at h
  split at h
  · exact writeStep_case hp ht hg h
  · exact .outside (hp.trans (readThen_same (fun _ => moveChecked_same _ _ _) h))
  · refine .outside (hp.trans (readThen_same (fun u => ?_) h))
    split <;> exact link_same _ _
  · split at h
    · exact .outside (hp.trans (awaitStep_same h))
    · injection h with h; subst h; exact .outside (hp.trans (takeNextLine_same _))

/-- What a step can do. -/
theorem step_case {s t : State} (h : step s = .next t) : StepCase s t := by
  rw [step_eq] at h
  cases ha : nextAgent s with
  | host => rw [ha] at h; exact hostStep_case ha h
  | link => rw [ha] at h; exact linkStep_case (takeTurn_same s) (takeTurn_time s) (takeTurn_args s) h
  | sequencer c => rw [ha] at h; injection h with h; exact .sequencer c ha h.symm
  | engine c => rw [ha] at h; injection h with h; exact .engine c ha h.symm
  | timeBase =>
    rw [ha] at h; injection h with h; subst h
    exact .outside ((takeTurn_same s).trans ⟨rfl, rfl, rfl, rfl, rfl, rfl, rfl, rfl, rfl⟩)

end Sys2Proof.Machine
end

