-- ==== Sys2Proof/Laws/Finish.lean ====
section
/-! SUPPORT. The end of a run (70_reset_and_hazards.md R294): once it is over it stays over, and every step leaves its result
as it is. -/

namespace Sys2Proof.Machine

/-- What the steps after the end of a run leave as it is: the block but for TIME, and the observations. -/
structure SameResult (s t : State) : Prop where
  same : SameBlock s t
  args : t.args = s.args
  timeHiLatch : t.timeHiLatch = s.timeHiLatch
  reads : t.reads = s.reads
  sent : t.link.sent = s.link.sent

/-- A step of a host that makes no further access: it stands still or goes past a wait. -/
theorem hostStep_silent {s : State} (h : hostSilent s) :
    ∃ l, hostStep s = .next { s with host := l } ∧ hostSilent { s with host := l } := by
  cases hh : s.host with
  | nil =>
    have hs : hostStep s = .next s := by simp [hostStep, hh]
    exact ⟨s.host, hs, h⟩
  | cons op rest =>
    obtain rfl : op = .waitIrq := by
      rcases h with h | ⟨-, h⟩
      · exact h op (by simp [hh])
      · simpa [hh] using h
    rw [hostStep_cons hh]
    cases hi : irqLevel s with
    | false =>
      exact ⟨s.host, by simp [opOver, hi, busAccess], h⟩
    | true =>
      refine ⟨rest, by simp [opOver, hi, busAccess], .inl fun x hx => ?_⟩
      rcases h with h | ⟨h, -⟩
      · exact h x (by simp [hh, hx])
      · rw [hi] at h; cases h

/-- A step of a front end that makes no further access: it drops a line or stands still. -/
theorem linkStep_silent {s : State} (h : linkSilent s) :
    ∃ l, linkStep s = .next { s with link := { s.link with inbox := l } } ∧
      linkSilent { s with link := { s.link with inbox := l } } := by
  have h' := h
  obtain ⟨hp, hj, hl⟩ := h
  cases hi : s.link.inbox with
  | nil =>
    have hs : linkStep s = .next s := by simp [linkStep, hp, hj, takeNextLine, hi]
    exact ⟨s.link.inbox, hs, h'⟩
  | cons line lines =>
    have hn : parseLine line = none := hl line (by simp [hi])
    exact ⟨lines, by simp [linkStep, hp, hj, takeNextLine, hi, takeLine, hn], hp, hj,
      fun x hx => hl x (by simp [hi, hx])⟩

theorem hostSilent_congr {s t : State} (hh : t.host = s.host) (h : SameBlock s t) (hs : hostSilent s) : hostSilent t := by
  unfold hostSilent irqLevel at *
  rw [hh, h.irqStatus, h.irqEnable]; exact hs

theorem linkSilent_congr {s t : State} (hl : t.link = s.link) (hs : linkSilent s) : linkSilent t := by
  unfold linkSilent at *
  rw [hl]; exact hs

theorem finished_congr {s t : State} (hh : t.host = s.host) (hl : t.link = s.link) (h : SameBlock s t)
    (hs : s.finished) : t.finished :=
  ⟨hostSilent_congr hh h hs.1, linkSilent_congr hl hs.2.1, h.chans ▸ hs.2.2⟩

/-- After the end of a run every step is answered, the run stays over and its result stays the same (R294). -/
theorem step_finished {s : State} (hi : ∀ ch ∈ s.chans, ch.Inv) (h : s.finished) :
    ∃ t, step s = .next t ∧ t.finished ∧ SameResult s t := by
  have hb := takeTurn_same s
  have hf : (takeTurn s).finished := finished_congr (by simp) (by simp) hb h
  obtain ⟨hh, hl, hc⟩ := hf
  have stay : ∀ u, step s = .next u → u = takeTurn s → ∃ t, step s = .next t ∧ t.finished ∧ SameResult s t := by
    rintro u hu rfl
    exact ⟨_, hu, ⟨hh, hl, hc⟩, hb, by simp, by simp, by simp, by simp⟩
  have hs := step_eq s
  cases ha : nextAgent s with
  | host =>
    rw [ha] at hs
    obtain ⟨l, h1, h2⟩ := hostStep_silent hh
    exact ⟨_, hs.trans h1, ⟨h2, hl, hc⟩, hb.trans (host_same _ l), by simp, by simp, by simp, by simp⟩
  | link =>
    rw [ha] at hs
    obtain ⟨l, h1, h2⟩ := linkStep_silent hl
    exact ⟨_, hs.trans h1, ⟨hh, h2, hc⟩, hb.trans (link_same _ _), by simp, by simp, by simp, by simp⟩
  | timeBase =>
    rw [ha] at hs
    exact ⟨_, hs, ⟨hh, hl, hc⟩, hb.trans ⟨rfl, rfl, rfl, rfl, rfl, rfl, rfl, rfl, rfl⟩, by simp [timeBaseStep],
      by simp [timeBaseStep], by simp [timeBaseStep], by simp [timeBaseStep]⟩
  | sequencer c =>
    rw [ha] at hs
    refine stay _ hs ?_
    unfold sequencerStep
    cases hch : (takeTurn s).chans[c]? with
    | none => rfl
    | some ch =>
      have hm := List.mem_of_getElem? hch
      have hq : ch.seq = .idle := by
        by_contra hne
        have := (hi ch (hb.chans ▸ hm)).moving_iff.2 hne
        rw [(hc ch hm).1] at this; cases this
      simp only [hq]
  | engine c =>
    rw [ha] at hs
    refine stay _ hs ?_
    unfold engineStep
    cases hch : (takeTurn s).chans[c]? with
    | none => rfl
    | some ch => simp only [(hc ch (List.mem_of_getElem? hch)).2, Bool.false_eq_true, if_false]

end Sys2Proof.Machine
end

