-- ==== Sys2Proof/Laws/PerInstr.lean ====
section
/-! SUPPORT. What holds of the command word of every command: its opcode field is the command's opcode, and no bit outside
the opcode's used mask is set (30_encoding.md R86, R87). -/

namespace Sys2Proof.Laws

/-- The fields of a command word that every check of 30_encoding.md R86 before the channel check reads. -/
def EncodedWord.Statement (i : Instr) : Prop :=
  opcodeField (encode i) = i.opcode ∧ ∃ m, usedMask i.opcode = some m ∧ encode i &&& ~~~m = 0#32

/-- The opcode field of a command word. -/
theorem opcodeField_commandWord (emit given curve : Bool) (profile : BitVec 2) (dir : Bool) (ch : BitVec 4)
    (op : BitVec 8) : opcodeField (commandWord emit given curve profile dir ch op) = op := by
  apply BitVec.eq_of_toNat_eq
  have h := op.isLt
  simp only [opcodeField, commandWord, BitVec.extractLsb'_toNat, BitVec.toNat_append, Nat.shiftRight_zero]
  rw [← Nat.shiftLeft_add_eq_or_of_lt (b := op.toNat) h, Nat.shiftLeft_eq]
  omega

theorem EncodedWord.ppr (ch : BitVec 4) : EncodedWord.Statement (.ppr ch) :=
  ⟨opcodeField_commandWord _ _ _ _ _ _ _, 0x00000FFF#32, rfl, by revert ch; decide⟩

theorem EncodedWord.setemit (ch : BitVec 4) (e : EmitMode) : EncodedWord.Statement (.setemit ch e) :=
  ⟨opcodeField_commandWord _ _ _ _ _ _ _, 0x00020FFF#32, rfl, by cases e <;> revert ch <;> decide⟩

theorem EncodedWord.move (ch : BitVec 4) (dir : Bool) (profile : Profile) (curve : Curve) (given : Bool) :
    EncodedWord.Statement (.move ch dir profile curve given) :=
  ⟨opcodeField_commandWord _ _ _ _ _ _ _, 0x0001FFFF#32, rfl, by
    cases dir <;> cases profile <;> cases curve <;> cases given <;> revert ch <;> decide⟩

theorem EncodedWord.stop : EncodedWord.Statement .stop :=
  ⟨opcodeField_commandWord _ _ _ _ _ _ _, 0x000000FF#32, rfl, by decide⟩

theorem EncodedWord.reset : EncodedWord.Statement .reset :=
  ⟨opcodeField_commandWord _ _ _ _ _ _ _, 0x000000FF#32, rfl, by decide⟩

theorem EncodedWord.clrstat (ch : BitVec 4) : EncodedWord.Statement (.clrstat ch) :=
  ⟨opcodeField_commandWord _ _ _ _ _ _ _, 0x00000FFF#32, rfl, by revert ch; decide⟩

theorem EncodedWord.snap (ch : BitVec 4) : EncodedWord.Statement (.snap ch) :=
  ⟨opcodeField_commandWord _ _ _ _ _ _ _, 0x00000FFF#32, rfl, by revert ch; decide⟩

theorem EncodedWord.setlabel (ch : BitVec 4) : EncodedWord.Statement (.setlabel ch) :=
  ⟨opcodeField_commandWord _ _ _ _ _ _ _, 0x00000FFF#32, rfl, by revert ch; decide⟩

end Sys2Proof.Laws
end

