-- ==== Sys2Proof/Laws/Schedule.lean ====
section
/-! SUPPORT. The free turns: the agent that takes one is enabled and no enabled agent is due before it; which agents it
renews. -/

namespace Sys2Proof.Machine

theorem pairs_get {α : Type} (f g : Nat → α) (n : Nat) :
    ((List.range n).flatMap fun c => [f c, g c]).length = 2 * n ∧
      ∀ c < n, ((List.range n).flatMap fun c => [f c, g c])[2 * c]? = some (f c) ∧
        ((List.range n).flatMap fun c => [f c, g c])[2 * c + 1]? = some (g c) := by
  induction n with
  | zero => simp
  | succ n ih =>
    rw [List.range_succ, List.flatMap_append]
    refine ⟨by simp [ih.1]; omega, fun c hc => ?_⟩
    rcases Nat.lt_succ_iff_lt_or_eq.1 hc with h | rfl
    · rw [List.getElem?_append_left (by rw [ih.1]; omega), List.getElem?_append_left (by rw [ih.1]; omega)]
      exact ih.2 c h
    · rw [List.getElem?_append_right (by rw [ih.1]), List.getElem?_append_right (by rw [ih.1]; omega), ih.1]
      simp

/-- An agent stands in `agents` at its index. -/
theorem agents_index {n : Nat} {a : Agent} (h : a ∈ agents n) : (agents n)[a.index]? = some a := by
  have hp := (pairs_get Agent.sequencer Agent.engine n).2
  cases a with
  | host => rfl
  | link => rfl
  | timeBase => rfl
  | sequencer c =>
    have hc : c < n := by simpa [agents] using h
    rw [Agent.index, show 3 + 2 * c = 2 * c + 3 by omega]; exact (hp c hc).1
  | engine c =>
    have hc : c < n := by simpa [agents] using h
    rw [Agent.index, show 4 + 2 * c = 2 * c + 1 + 3 by omega]; exact (hp c hc).2

theorem mem_enabledAgents {s : State} {a : Agent} :
    a ∈ enabledAgents s ↔ a ∈ agents s.numChannels ∧ agentEnabled s a = true := by
  simp [enabledAgents]

/-- An enabled agent is one of the block's agents. -/
theorem mem_enabledAgents_of_enabled {s : State} {a : Agent} (h : agentEnabled s a = true) : a ∈ enabledAgents s := by
  refine mem_enabledAgents.2 ⟨?_, h⟩
  cases a with
  | host => simp [agents]
  | link => simp [agents]
  | timeBase => simp [agents]
  | sequencer c =>
    have : c < s.chans.length := by
      by_contra hc
      simp [agentEnabled, List.getElem?_eq_none (not_lt.1 hc)] at h
    simpa [agents, State.numChannels] using this
  | engine c =>
    have : c < s.chans.length := by
      by_contra hc
      simp [agentEnabled, List.getElem?_eq_none (not_lt.1 hc)] at h
    simpa [agents, State.numChannels] using this

theorem foldl_earlier (s : State) (l : List Agent) (a : Agent) :
    (l.foldl (earlier s) a = a ∨ l.foldl (earlier s) a ∈ l) ∧
      due s (l.foldl (earlier s) a) ≤ due s a ∧ ∀ b ∈ l, due s (l.foldl (earlier s) a) ≤ due s b := by
  induction l generalizing a with
  | nil => simp
  | cons x l ih =>
    obtain ⟨h1, h2, h3⟩ := ih (earlier s a x)
    have he : due s (earlier s a x) ≤ due s a ∧ due s (earlier s a x) ≤ due s x ∧
        (earlier s a x = a ∨ earlier s a x = x) := by
      unfold earlier; split <;> simp <;> omega
    rw [List.foldl_cons]
    refine ⟨?_, h2.trans he.1, ?_⟩
    · rcases h1 with h1 | h1
      · rw [h1]; rcases he.2.2 with h | h <;> rw [h] <;> simp
      · exact .inr (List.mem_cons_of_mem _ h1)
    · intro b hb
      rcases List.mem_cons.1 hb with rfl | hb
      · exact h2.trans he.2.1
      · exact h3 b hb

/-- The agent that takes a free turn is enabled, and no enabled agent is due before it. -/
theorem freeAgent_spec (s : State) :
    freeAgent s ∈ enabledAgents s ∧ ∀ b ∈ enabledAgents s, due s (freeAgent s) ≤ due s b := by
  obtain ⟨h1, -, h3⟩ := foldl_earlier s (enabledAgents s) .timeBase
  refine ⟨?_, h3⟩
  rcases h1 with h | h
  · unfold freeAgent; rw [h]; exact mem_enabledAgents_of_enabled rfl
  · exact h

/-- Who a free turn renews: the agent whose turn it is and the agents not enabled; the others keep when they are due. -/
theorem renewedOf_takeTurn {s : State} (hs : s.sched = []) {a : Agent} (ha : a ∈ agents s.numChannels) :
    (takeTurn s).renewedOf a =
      if a = freeAgent s ∨ agentEnabled s a = false then s.turn + 1 else s.renewedOf a := by
  rcases takeTurn_cases s with ⟨b, rest, h, -, -⟩ | ⟨-, -, h⟩
  · simp [hs] at h
  · rw [h]
    simp only [State.renewedOf, renewedAfter, List.getD_eq_getElem?_getD, List.getElem?_map, agents_index ha]
    rfl

end Sys2Proof.Machine
end

