-- ==== Sys2Proof/Laws/Turns.lean ====
section
/-! SUPPORT. What no step of an agent changes beside the agent's own turn: the turns, the number of channels, and TIME for
every agent but the time base. -/

namespace Sys2Proof.Machine

/-- The turns, TIME and the number of channels are the same. -/
structure KeepsTurns (s t : State) : Prop where
  sched : t.sched = s.sched
  turn : t.turn = s.turn
  renewed : t.renewed = s.renewed
  time : t.time = s.time
  count : t.chans.length = s.chans.length

theorem KeepsTurns.refl (s : State) : KeepsTurns s s := ⟨rfl, rfl, rfl, rfl, rfl⟩

theorem KeepsTurns.trans {s t u : State} (h : KeepsTurns s t) (k : KeepsTurns t u) : KeepsTurns s u :=
  ⟨k.sched.trans h.sched, k.turn.trans h.turn, k.renewed.trans h.renewed, k.time.trans h.time, k.count.trans h.count⟩

theorem setChan_turns (s : State) (c : Nat) (ch : Channel) : KeepsTurns s (s.setChan c ch) :=
  ⟨rfl, rfl, rfl, rfl, by simp⟩

theorem setStatus_turns (w : Word) (s : State) : KeepsTurns s (setStatus w s) := ⟨rfl, rfl, rfl, rfl, rfl⟩

theorem setIrq_turns (a b : BitVec 16) (s : State) : KeepsTurns s (setIrq a b s) := ⟨rfl, rfl, rfl, rfl, rfl⟩

theorem finish_turns (c : Nat) (ch : Channel) (r : Result) (s : State) : KeepsTurns s (finish c ch r s) :=
  ⟨rfl, rfl, rfl, rfl, by simp⟩

theorem drawWaveFault_turns (s : State) : KeepsTurns s (drawWaveFault s).2 := by
  rcases drawWaveFault_cases s with ⟨a, rest, -, h⟩ | ⟨-, -, h⟩ | ⟨-, -, h⟩ <;> rw [h] <;> exact ⟨rfl, rfl, rfl, rfl, rfl⟩

theorem exec_turns {i : Instr} {s u : State} (h : exec i s = .next u) : KeepsTurns s u := by
  have chan : ∀ (w : Word) (c : Nat) (ch : Channel), KeepsTurns s (setStatus w (s.setChan c ch)) := fun w c ch =>
    (setChan_turns s c ch).trans (setStatus_turns w _)
  rcases exec_case h with ⟨_, _, _, _, rfl⟩ | ⟨_, _, _, _, _, _, _, _, _, _, rfl⟩ | ⟨_, _, _, _, _, _, _, _, rfl⟩ |
    rfl | ⟨_, rfl⟩ | ⟨_, _, _, _, rfl⟩ | ⟨_, _, _, _, rfl⟩ | ⟨_, _, _, rfl⟩ | ⟨_, _, _, rfl⟩ | ⟨_, _, _, rfl⟩
  · exact setStatus_turns _ _
  · exact chan _ _ _
  · exact chan _ _ _
  · exact ⟨rfl, rfl, rfl, rfl, rfl⟩
  · exact ⟨rfl, rfl, rfl, rfl, by simp⟩
  · exact chan _ _ _
  · exact chan _ _ _
  · exact chan _ _ _
  · exact ⟨rfl, rfl, rfl, rfl, rfl⟩
  · exact chan _ _ _

theorem execWord_turns {w : Word} {s u : State} (h : execWord w s = .next u) : KeepsTurns s u := by
  rcases execWord_cases w s with ⟨i, -, e⟩ | ⟨e, -, he⟩
  · exact exec_turns (e ▸ h)
  · rw [he] at h; injection h with h; exact h ▸ setStatus_turns _ _

theorem busRead_turns {off width : Nat} {s t : State} (h : busRead off width s = .next t) : KeepsTurns s t := by
  obtain ⟨r, -, rfl⟩ := busRead_eq_next.1 h
  unfold readEffect; split <;> exact ⟨rfl, rfl, rfl, rfl, rfl⟩

theorem busWrite_turns {off width : Nat} {v : Word} {s t : State} (h : busWrite off width v s = .next t) :
    KeepsTurns s t := by
  rcases busWrite_eq_next h with ⟨-, hc⟩ | ⟨-, rfl⟩ | ⟨-, rfl⟩ | ⟨n, -, rfl⟩
  · exact execWord_turns hc
  · exact setIrq_turns _ _ _
  · exact setIrq_turns _ _ _
  · exact ⟨rfl, rfl, rfl, rfl, rfl⟩

theorem busAccess_turns {op : HostOp} {s t : State} (h : busAccess op s = .next t) : KeepsTurns s t := by
  cases op with
  | write off width v => exact busWrite_turns h
  | read off width => exact busRead_turns h
  | waitDone c => exact busRead_turns h
  | waitIrq => injection h with h; exact h ▸ KeepsTurns.refl s

theorem hostStep_turns {s t : State} (h : hostStep s = .next t) : KeepsTurns s t := by
  cases hh : s.host with
  | nil => simp only [hostStep, hh, Host.Outcome.next.injEq] at h; exact h ▸ KeepsTurns.refl s
  | cons op rest =>
    rw [hostStep_cons hh] at h
    refine KeepsTurns.trans ?_ (busAccess_turns h)
    split <;> exact ⟨rfl, rfl, rfl, rfl, rfl⟩

theorem link_turns (s : State) (l : Link) : KeepsTurns s { s with link := l } := ⟨rfl, rfl, rfl, rfl, rfl⟩

theorem takeNextLine_turns (s : State) : KeepsTurns s (takeNextLine s) := by
  unfold takeNextLine takeLine
  split
  · exact KeepsTurns.refl _
  · split <;> exact ⟨rfl, rfl, rfl, rfl, rfl⟩

theorem commandIssued_turns (f : Follow) (s : State) : KeepsTurns s (commandIssued f s) := by
  cases f <;> exact link_turns _ _

theorem moveChecked_turns (ok : Bool) (f : Follow) (s : State) : KeepsTurns s (moveChecked ok f s) := by
  unfold moveChecked
  split
  · exact link_turns _ _
  · split
    · split <;> exact ⟨rfl, rfl, rfl, rfl, rfl⟩
    · exact link_turns _ _
  · split <;> exact link_turns _ _

theorem moveLookedAt_turns (m : Bool) (rest : List MoveLine) (s : State) : KeepsTurns s (moveLookedAt m rest s) := by
  unfold moveLookedAt
  split
  · exact KeepsTurns.refl _
  · split <;> exact link_turns _ _

theorem andThen_turns {o : Out} {k : State → State} {s t : State} (ho : ∀ u, o = .next u → KeepsTurns s u)
    (hk : ∀ u, KeepsTurns u (k u)) (h : (andThen o fun u => .next (k u)) = .next t) : KeepsTurns s t := by
  obtain ⟨u, hu, h⟩ := andThen_eq_next.1 h
  injection h with h; subst h
  exact (ho u hu).trans (hk u)

theorem pollStep_turns {rest : List MoveLine} {s t : State} (h : pollStep rest s = .next t) : KeepsTurns s t :=
  andThen_turns (fun _ => busRead_turns) (fun _ => moveLookedAt_turns _ _ _) h

theorem linkStep_turns {s t : State} (h : linkStep s = .next t) : KeepsTurns s t := by
  unfold linkStep at h
  split at h
  · unfold writeStep at h
    split at h
    · injection h with h; exact h ▸ commandIssued_turns _ _
    · exact andThen_turns (fun _ => busAccess_turns) (fun _ => commandIssued_turns _ _) h
    · exact andThen_turns (fun _ => busAccess_turns) (fun _ => link_turns _ _) h
  · exact andThen_turns (fun _ => busRead_turns) (fun _ => moveChecked_turns _ _ _) h
  · refine andThen_turns (fun _ => busRead_turns) (fun u => ?_) h
    split <;> exact link_turns _ _
  · split at h
    · have hd : KeepsTurns s { s with draws := s.draws + 1 } := ⟨rfl, rfl, rfl, rfl, rfl⟩
      unfold awaitStep at h
      split at h
      · split at h
        · injection h with h; exact h ▸ hd.trans (takeNextLine_turns _)
        · exact hd.trans (pollStep_turns h)
      · exact pollStep_turns h
    · injection h with h; exact h ▸ takeNextLine_turns _

theorem sequencerStep_turns (c : Nat) (s : State) : KeepsTurns s (sequencerStep c s) := by
  unfold sequencerStep
  split
  · exact KeepsTurns.refl _
  · rename_i ch _
    split
    · exact KeepsTurns.refl _
    · exact setChan_turns _ _ _
    · split
      · exact finish_turns _ _ _ _
      · exact setChan_turns _ _ _
    · rcases directCheck_cases c ch s with ⟨-, h⟩ | ⟨-, -, h⟩ | ⟨-, -, -, h⟩ | ⟨-, -, -, h⟩ <;> rw [h]
      · exact finish_turns _ _ _ _
      · exact finish_turns _ _ _ _
      · exact setChan_turns _ _ _
      · exact setChan_turns _ _ _
    · exact setChan_turns _ _ _
    · exact setChan_turns _ _ _
    · exact setChan_turns _ _ _
    · split
      · exact finish_turns _ _ _ _
      · exact setChan_turns _ _ _
    · rcases chunkCheck_cases c ch s with ⟨-, h⟩ | ⟨-, -, h⟩ | ⟨-, -, -, h⟩ | ⟨-, -, -, -, h⟩ | ⟨-, -, -, -, h⟩ <;> rw [h]
      · exact finish_turns _ _ _ _
      · exact finish_turns _ _ _ _
      · exact setChan_turns _ _ _
      · exact (drawWaveFault_turns s).trans (finish_turns _ _ _ _)
      · exact (drawWaveFault_turns s).trans (setChan_turns _ _ _)
    · split
      · exact KeepsTurns.refl _
      · exact setChan_turns _ _ _

theorem engineStep_turns (c : Nat) (s : State) : KeepsTurns s (engineStep c s) := by
  unfold engineStep
  split
  · exact KeepsTurns.refl _
  · split
    · exact setChan_turns _ _ _
    · exact KeepsTurns.refl _

/-- What no agent but the time base changes. -/
theorem agentStep_turns {a : Agent} {s t : State} (ha : a ≠ .timeBase) (h : agentStep a s = .next t) : KeepsTurns s t := by
  cases a with
  | host => exact hostStep_turns h
  | link => exact linkStep_turns h
  | sequencer c => injection h with h; exact h ▸ sequencerStep_turns c s
  | engine c => injection h with h; exact h ▸ engineStep_turns c s
  | timeBase => exact absurd rfl ha

end Sys2Proof.Machine
end

