-- ==== Sys2Proof/Tests/Slice0.lean ====
section
/-! SUPPORT. Tests: expected values are those of 95_test_vectors.md, or of the rule a test names. The last part shows that
the hypotheses of each statement of Certificates/Slice0/Obligations.lean can be met. -/

namespace Sys2Proof.Tests

set_option Elab.async false

open Sys2Proof Sys2Proof.Machine Sys2Proof.Machine.Binary64

/-! ## Helpers -/

/-- The state an outcome goes on to. -/
def nextOf (o : Out) : Option State :=
  match o with
  | .next s => some s
  | .fault _ => none
  | .refused _ => none

/-- The fault an outcome stops with. -/
def faultOf (o : Out) : Option Fault :=
  match o with
  | .next _ => none
  | .fault f => some f
  | .refused _ => none

/-- A field of the state an outcome goes on to. -/
def after {α : Type} (f : State → α) (o : Out) : Option α := (nextOf o).map f

/-- A field of channel `c`. -/
def chan {α : Type} (c : Nat) (f : Channel → α) (s : State) : Option α := s.chans[c]?.map f

/-- The block after reset with channel 0 as given. -/
def withChan0 (ch : Channel) : State := { State.reset with chans := [ch, Channel.reset] }

/-- A channel with `ppr` pulses per revolution. -/
def withPpr (ppr : Word) : Channel := { Channel.reset with ppr := ppr }

/-- Channel 0 with `ppr`, and the operands of a move in ARG0 to ARG6. -/
def moveState (ppr : Word) (s t r : B64) (n : Word) : State :=
  { withChan0 (withPpr ppr) with args := #v[lo32 s, hi32 s, lo32 t, hi32 t, lo32 r, hi32 r, n, 0#32] }

/-- 5.0, 80.0 and 6.0: the operands of vector M1. -/
def m1State : State := moveState 400#32 0x4014000000000000#64 0x4054000000000000#64 0x4018000000000000#64 100#32

/-- Channel with the move of vector G6 just accepted, in the given emission mode. -/
def movingG6 (e : EmitMode) : Channel :=
  { withPpr 4#32 with
    emit := e
    moving := true
    running := true
    startValid := true
    total := 4#32
    ramp := 2#32
    sd := 0x3FD0000000000000#64
    td := 0x3FC0000000000000#64
    mvStart := 0x403E000000000000#64
    mvTarget := 0x404E000000000000#64
    mvRuntime := 0x3FF0000000000000#64
    seq := startLabel e }

/-- The block with the move of vector G6 on channel 0. -/
def g6State (e : EmitMode) : State := withChan0 (movingG6 e)

/-! ## Well-formed commands: one ill-formed term for the one check of `wf` (30_encoding.md R86, third check) -/

theorem test_wf_channel_exists : (Instr.ppr 1#4).wf 2 = true := by decide

theorem test_wf_refuses_missing_channel : (Instr.move 2#4 false .full .sine false).wf 2 = false := by decide

/-! ## Decoding: words written out from the patterns of 43_motion_commands.md and 44_control_commands.md, and the ILLEGAL
words of 95_test_vectors.md 6.1 -/

/-- What a word decodes to on two channels. -/
def decoded (w : Word) : Option Instr := decodeTableWord 32 w.toNat

/-- Why a word is illegal on two channels. -/
def illegal (w : Word) : Option Illegal :=
  match decode 2 w with
  | .ok _ => none
  | .error e => some e

/-- R213: `0000 0000 0000 0000 0000 cccc 0000 0001`, c = 1. -/
theorem test_decode_ppr : decoded 0b00000000000000000000000100000001#32 = some (.ppr 1#4) := by decide

/-- R214: `0000 0000 0000 00E0 0000 cccc 0000 0010`, E = 1, c = 0. -/
theorem test_decode_setemit : decoded 0b00000000000000100000000000000010#32 = some (.setemit 0#4 .chunked) := by decide

/-- R180: `0000 0000 0000 000G KPPd cccc 0000 0011`, G = 1, K = 0, PP = 00, d = 1, c = 1. -/
theorem test_decode_move_given :
    decoded 0b00000000000000010001000100000011#32 = some (.move 1#4 true .full .sine true) := by decide

/-- R180 with G = 0, K = 1, PP = 10, d = 0, c = 0. -/
theorem test_decode_move_down_linear :
    decoded 0b00000000000000001100000000000011#32 = some (.move 0#4 false .rampDownOnly .linear false) := by decide

/-- R210. -/
theorem test_decode_stop : decoded 0b00000000000000000000000000000100#32 = some .stop := by decide

/-- R212. -/
theorem test_decode_reset : decoded 0b00000000000000000000000000000101#32 = some .reset := by decide

/-- R215, c = 1. -/
theorem test_decode_clrstat : decoded 0b00000000000000000000000100000110#32 = some (.clrstat 1#4) := by decide

/-- R216, c = 0. -/
theorem test_decode_snap : decoded 0b00000000000000000000000000000111#32 = some (.snap 0#4) := by decide

/-- R217, c = 1. -/
theorem test_decode_setlabel : decoded 0b00000000000000000000000100001000#32 = some (.setlabel 1#4) := by decide

/-- E1, E2, E3. -/
theorem test_illegal_opcode :
    illegal 0x00000000#32 = some .unknownOpcode ∧ illegal 0x00000009#32 = some .unknownOpcode ∧
      illegal 0x000000FF#32 = some .unknownOpcode := by decide

/-- E4 to E7, E10, E12. -/
theorem test_illegal_bit :
    illegal 0x00000204#32 = some .unusedBitSet ∧ illegal 0x00040003#32 = some .unusedBitSet ∧
      illegal 0x00001002#32 = some .unusedBitSet ∧ illegal 0x00020001#32 = some .unusedBitSet ∧
      illegal 0x00086003#32 = some .unusedBitSet ∧ illegal 0x80000005#32 = some .unusedBitSet := by decide

/-- E8, E9, E11. -/
theorem test_illegal_channel_and_profile :
    illegal 0x00000201#32 = some .noSuchChannel ∧ illegal 0x00006003#32 = some .reservedProfile ∧
      illegal 0x00006203#32 = some .noSuchChannel := by decide

/-- E11's status, with everything else kept. -/
theorem test_illegal_status :
    nextOf (execWord 0x00006203#32 m1State) =
      some { m1State with cmdStatus := 0x00000331#32, statuses := [0x00000331#32] } := by decide +kernel

/-! ## Commands: 95_test_vectors.md 6.2 and 6.3 -/

/-- T1. -/
theorem test_ppr_sets :
    (after (chan 0 (·.ppr)) (exec (.ppr 0#4) { State.reset with args := State.reset.args.set 0 400#32 }),
      after (·.cmdStatus) (exec (.ppr 0#4) { State.reset with args := State.reset.args.set 0 400#32 })) =
      (some (some 400#32), some 0x00000100#32) := by decide +kernel

/-- T2 and T3. -/
theorem test_ppr_refused :
    after (·.cmdStatus) (exec (.ppr 0#4) State.reset) = some 0x00000114#32 ∧
      after (·.cmdStatus) (exec (.ppr 0#4) (g6State .direct)) = some 0x00000112#32 := by decide +kernel

/-- T8 and T9: CH_STATE[5]. -/
theorem test_setemit_selects :
    after (fun s => (readReg s (.chan 0 .state)).getLsbD 5) (exec (.setemit 0#4 .chunked) State.reset) = some true ∧
      after (fun s => (readReg s (.chan 0 .state)).getLsbD 5)
        (exec (.setemit 0#4 .direct) (withChan0 { Channel.reset with emit := .chunked })) = some false := by
  decide +kernel

/-- SETEMIT on a MOVING channel (R214). -/
theorem test_setemit_busy :
    after (·.cmdStatus) (exec (.setemit 0#4 .chunked) (g6State .direct)) = some 0x00000212#32 := by decide +kernel

/-- M1: accepted, `DIR[0] = 1`, total 3200, ramp 100, cruise 3000. -/
theorem test_move_accepted :
    after (·.cmdStatus) (exec (.move 0#4 true .full .sine true) m1State) = some 0x00000300#32 ∧
      after (chan 0 fun c => [c.total, c.ramp, c.cruise]) (exec (.move 0#4 true .full .sine true) m1State) =
        some (some [3200#32, 100#32, 3000#32]) ∧
      after (chan 0 fun c => (c.dirPin, c.moving)) (exec (.move 0#4 true .full .sine true) m1State) =
        some (some (true, true)) := by decide +kernel

/-- M2, M4, M5, M8, M9, M10: the checks in their order. -/
theorem test_move_refused :
    [moveState 400#32 0#64 0x4054000000000000#64 0x4018000000000000#64 0#32,
      moveState 400#32 0x4014000000000000#64 0x7FF8000000000000#64 0x4018000000000000#64 0#32,
      moveState 400#32 0x4014000000000000#64 0x4054000000000000#64 0xBFF0000000000000#64 0#32,
      moveState 1#32 0x3F50624DD2F1A9FC#64 0x4054000000000000#64 0x4018000000000000#64 0#32,
      moveState 4294967295#32 0x412E848000000000#64 0x412E848000000000#64 0x412E848000000000#64 0#32,
      moveState 0#32 0#64 0x4054000000000000#64 0x4018000000000000#64 0#32].map
        (fun s => after (·.cmdStatus) (exec (.move 0#4 false .full .sine false) s)) =
      [some 0x00000313#32, some 0x00000323#32, some 0x00000324#32, some 0x00000333#32, some 0x00000334#32,
        some 0x00000314#32] := by decide +kernel

/-- T4. -/
theorem test_stop_clears_run :
    after (fun s => (s.run, s.cmdStatus)) (exec .stop (g6State .direct)) = some (false, 0x00000400#32) := by decide +kernel

/-- T6. -/
theorem test_reset_busy : after (·.cmdStatus) (exec .reset (g6State .direct)) = some 0x00000522#32 := by decide +kernel

/-- T7: RUN is set, DONE bits and statistics are cleared, `ppr` is kept. -/
theorem test_reset_clears :
    after (fun s => (s.run, s.irqStatus, chan 0 (fun c => (c.ppr, c.totalPulses, c.result)) s))
      (exec .reset
        { withChan0 { withPpr 400#32 with totalPulses := 9#64, result := .cancelled } with
          run := false, irqStatus := 1#16 }) =
      some (true, 0#16, some (400#32, 0#64, Result.none)) := by decide +kernel

/-- T11: statistics cleared, `result` kept. -/
theorem test_clrstat_keeps_result :
    after (chan 0 fun c => (c.totalPulses, c.running, c.result))
      (exec (.clrstat 0#4)
        (withChan0 { withPpr 400#32 with totalPulses := 3200#64, running := true, startValid := true, result := .complete })) =
      some (some (0#64, false, Result.complete)) := by decide +kernel

/-- T10's status on channel 0 (R215). -/
theorem test_clrstat_busy :
    after (·.cmdStatus) (exec (.clrstat 0#4) (g6State .direct)) = some 0x00000612#32 := by decide +kernel

/-- T12. -/
theorem test_snap_copies :
    after (fun s => (s.snap.ctrl, s.snap.flags, s.snap.pulses, s.snap.steps))
      (exec (.snap 0#4)
        (withChan0
          { withPpr 400#32 with totalPulses := 3200#64, running := true, startValid := true, steps := 3200#32 })) =
      some (0x80000000#32, 0x00000180#32, 3200#64, 3200#32) := by decide +kernel

/-- T13 on channel 0: accepted while MOVING. -/
theorem test_snap_while_moving :
    after (fun s => (s.cmdStatus, s.snap.flags)) (exec (.snap 0#4) (g6State .direct)) =
      some (0x00000700#32, 0x00000181#32) := by decide +kernel

/-- T14. -/
theorem test_setlabel_sets :
    after (fun s => (s.cmdStatus, chan 1 (·.label) s))
      (exec (.setlabel 1#4) { State.reset with args := State.reset.args.set 0 0x43594331#32 }) =
      some (0x00000800#32, some 0x43594331#32) := by decide +kernel

/-- The word of SETEMIT 1 placed after reset is run by the next step (70_reset_and_hazards.md R274). -/
theorem test_step_runs_placed_word :
    after (fun s => (s.cmdStatus, chan 1 chStateWord s)) (step (State.reset.withFetchWord 32 0x00020102)) =
      some (0x00000200#32, some 0x00000020#32) := by decide +kernel

/-! ## Arithmetic, curves, profiles, ticks: 95_test_vectors.md sections 3 to 5.1 -/

/-- V1. -/
theorem test_sine_ease :
    sineEase .correctlyRounded 0x3FE0000000000000#64 0x3FD0000000000000#64 0x3FC0000000000000#64 =
      0x3FC4AFB0CCC0621A#64 := by decide +kernel

/-- V6: the formula alone at progress 1, and V7: the sine there is 1. -/
theorem test_sine_at_one :
    correctSine (div (mul one pi64) two) = one ∧
      sub 0x3F8EB851EB851EB8#64
        (mul (sub 0x3F8EB851EB851EB8#64 0x3F4EB851EB851EB8#64) (correctSine (div (mul one pi64) two))) =
        0x3F4EB851EB851EC0#64 := by decide +kernel

/-- V8. -/
theorem test_linear_ease :
    linearEase 0x3FD0000000000000#64 0x3F747AE147AE147B#64 0x3F647AE147AE147B#64 = 0x3F71EB851EB851EC#64 := by
  decide +kernel

/-- 4.3: rounding lowers the total for 200, 79.0, 7.5 and raises it for 200, 1.0, 0.3. -/
theorem test_total_rounding :
    totalSteps 200#32 0x4053C00000000000#64 0x401E000000000000#64 = 1974 ∧
      totalSteps 200#32 0x3FF0000000000000#64 0x3FD3333333333333#64 = 1 := by decide +kernel

/-- G6: the automatic ramp and the four delays. -/
theorem test_delays_g6 :
    rampSteps Config.reference 0x403E000000000000#64 0x404E000000000000#64 none 4 = 2 ∧
      (List.range 4).map (delayOf Config.reference (movingG6 .direct)) =
        [0x3FD0000000000000#64, 0x3FC4AFB0CCC0621A#64, 0x3FC0000000000000#64, 0x3FCB504F333F9DE6#64] := by
  decide +kernel

/-- G12: the floor (7.5e-06 s is below MIN_DELAY). -/
theorem test_floor :
    floorMin Config.reference 0x3EDF75104D551D69#64 = Config.reference.minDelay := by decide +kernel

/-- 5.1: 0.0009375, 0.015, 0.16161165235168157, MIN_DELAY, 0.00125. -/
theorem test_ticks :
    [0x3F4EB851EB851EB8#64, 0x3F8EB851EB851EB8#64, 0x3FC4AFB0CCC0621A#64, Config.reference.minDelay,
      0x3F547AE147AE147B#64].map (ticks Config.reference) = [937#32, 15000#32, 161611#32, 10#32, 1250#32] := by
  decide +kernel

/-! ## Sequencer, engine, registers: 95_test_vectors.md 5.2, 5.3, 6.4 and section 8 -/

/-- S1, first pulse: `Pulse(0, 250000, 250000)` at the rising edge. -/
theorem test_direct_pulse :
    chan 0 (fun c => (c.events, c.stepPin)) (sequencerStep 0 (withChan0 { movingG6 .direct with seq := .s2 })) =
      some ([PinEvent.pulse 250000#32 250000#32], true) := by decide +kernel

/-- S2: CANCELLED with no pulse when RUN = 0 at `[S2]`, and the DONE bit (R190). -/
theorem test_direct_cancelled :
    (fun s => (s.irqStatus, chan 0 (fun c => (c.result, c.steps, c.events, c.moving)) s))
      (sequencerStep 0 { withChan0 { movingG6 .direct with seq := .s2 } with run := false }) =
      (1#16, some (Result.cancelled, 0#32, [], false)) := by decide +kernel

/-- S7: the end test comes before the RUN check. -/
theorem test_end_before_run_check :
    chan 0 (·.result)
      (sequencerStep 0 { withChan0 { movingG6 .direct with seq := .s2, idx := 4#32, steps := 4#32 } with run := false }) =
      some Result.complete := by decide +kernel

/-- The chunk of G6: four delays, eight entries, submitted in one step (R161). -/
theorem test_chunk_submitted :
    chan 0 (fun c => (c.buffer, c.waveBusy, c.chunkValid))
      (sequencerStep 0 (withChan0 { movingG6 .chunked with seq := .c2 })) =
      some (chunkEntries [250000#32, 161611#32, 125000#32, 213388#32], true, 4) := by decide +kernel

/-- K2: a rejected submission is HW_FAULT, and STEP stays 0. -/
theorem test_wave_fault :
    chan 0 (fun c => (c.result, c.stepPin, c.events))
      (sequencerStep 0 { withChan0 { movingG6 .chunked with seq := .c2 } with waveAnswers := [true] }) =
      some (Result.hwFault, false, []) := by decide +kernel

/-- A1 to A5. -/
theorem test_constant_reads :
    [(0x000, 0x53544531#32), (0x004, 0x03E80002#32), (0x008, 0x000F4240#32), (0x048, 0x88E368F1#32),
      (0x04C, 0x3EE4F8B5#32), (0x010, 0#32)].map (fun a => after (·.reads) (busRead a.1 4 State.reset)) =
      [(0x000, 0x53544531#32), (0x004, 0x03E80002#32), (0x008, 0x000F4240#32), (0x048, 0x88E368F1#32),
        (0x04C, 0x3EE4F8B5#32), (0x010, 0#32)].map fun a => some [a] := by decide +kernel

/-- A6 to A9. -/
theorem test_bus_errors :
    [faultOf (busWrite 0x000 4 0#32 State.reset), faultOf (busRead 0x002 4 State.reset),
      faultOf (busRead 0x000 2 State.reset), faultOf (busRead 0x090 4 State.reset),
      faultOf (busRead 0x180 4 State.reset)] =
      [some (.busError true 0x000 4), some (.busError false 0x002 4), some (.busError false 0x000 2),
        some (.busError false 0x090 4), some (.busError false 0x180 4)] := by decide +kernel

/-- A10: the low half returned, the high half latched. -/
theorem test_time_latch :
    after (fun s => (s.reads, s.timeHiLatch)) (busRead 0x040 4 { State.reset with time := 0x00000001FFFFFFFF#64 }) =
      some ([(0x040, 0xFFFFFFFF#32)], 1#32) := by decide +kernel

/-- A11 and Q2: write 1 to clear, with the fall of IRQ. -/
theorem test_irq_status_clear :
    after (·.irqStatus) (busWrite 0x018 4 2#32 { State.reset with irqStatus := 3#16 }) = some 1#16 ∧
      after (·.irqEvents) (busWrite 0x018 4 1#32 { State.reset with irqStatus := 1#16, irqEnable := 1#16 }) =
        some [⟨false, [0, 0]⟩] := by decide +kernel

/-- A12 and Q4. -/
theorem test_irq_enable_mask :
    after (·.irqEnable) (busWrite 0x01C 4 0xFFFFFFFF#32 State.reset) = some 3#16 ∧
      after (·.irqEvents) (busWrite 0x01C 4 2#32 { State.reset with irqStatus := 2#16 }) = some [⟨true, [0, 0]⟩] := by
  decide +kernel

/-- R9, R156, R251: the sequence of channel 0, newest first, when IRQ rises after its DIR event and before its pulse; channel 1 has the
IrqLevel event alone. -/
theorem test_output_events_in_order :
    (outputEvents
        { withChan0 { Channel.reset with events := [.pulse 5#32 5#32, .dirSet true] } with
          irqEvents := [⟨true, [1, 0]⟩] } 0,
      outputEvents
        { withChan0 { Channel.reset with events := [.pulse 5#32 5#32, .dirSet true] } with
          irqEvents := [⟨true, [1, 0]⟩] } 1) =
      ([.pin (.pulse 5#32 5#32), .irqLevel true, .pin (.dirSet true)], [.irqLevel true]) := by decide +kernel

/-- R92's example: the writes of `MOVE.FULL.SINE 0, 1, 5.0, 80.0, 6.0, 100`. -/
theorem test_move_expansion :
    asmMove 0#4 .full .sine
      ⟨0x4014000000000000#64, 0x4054000000000000#64, 0x4018000000000000#64, true, some 100#32⟩ =
      [.write 0x020 4 0#32, .write 0x024 4 0x40140000#32, .write 0x028 4 0#32, .write 0x02C 4 0x40540000#32,
        .write 0x030 4 0#32, .write 0x034 4 0x40180000#32, .write 0x038 4 100#32, .write 0x010 4 0x00011003#32] := by
  decide +kernel

/-- The boot example of 70_reset_and_hazards.md R274 and statements of programs P1 and P4, as text. -/
theorem test_assembler_text :
    assemble ["WR ARG0, 400".toList, "WR CMD, 0x00000001".toList, "SETEMIT.CHUNKED 1".toList,
        "WR IRQ_ENABLE, 0x3".toList] =
      some [.write 0x020 4 400#32, .write 0x010 4 1#32, .write 0x010 4 0x00020102#32, .write 0x01C 4 3#32] ∧
      assemble ["PPR 1, 200".toList, "WAITDONE 0".toList, "RD CH_LAST(0)".toList, "RD SNAP_PULSES_HI".toList] =
        some [.write 0x020 4 200#32, .write 0x010 4 0x00000101#32, .waitDone 0, .read 0x108 4, .read 0x06C 4] ∧
      parseStatement "WR ARG1, hi(5.0)".toList = some [.write 0x024 4 0x40140000#32] ∧
      parseStatement "PPR 0, hi(5.0)".toList = some [.write 0x020 4 0x40140000#32, .write 0x010 4 1#32] ∧
      parseStatement "PPR 16, 1".toList = none := by decide +kernel

/-! ## Lines: 95_test_vectors.md section 7 -/

/-- L1. -/
theorem test_line_ppr : parseLine "PPR:400\n".toList = some (.ppr 400#32) := by decide +kernel

/-- L2. -/
theorem test_line_move :
    parseLine "MOVE:5,80,6,1,100\n".toList =
      some (.move ⟨0x4014000000000000#64, 0x4054000000000000#64, 0x4018000000000000#64, true, some 100#32⟩) := by
  decide +kernel

/-- L3, its second and last moves: 80.0, 80.0, 2.5 and 60.0, 60.0, 0.5. -/
theorem test_line_batch :
    parseLine "BATCH:80,80,2.5,1;60,60,0.5,0\n".toList =
      some (.batch ⟨0x4054000000000000#64, 0x4054000000000000#64, 0x4004000000000000#64, true, none⟩
        [⟨0x404E000000000000#64, 0x404E000000000000#64, 0x3FE0000000000000#64, false, none⟩]) := by decide +kernel

/-- L4, L5, L6: no command. -/
theorem test_line_refused :
    parseLine "BATCH:5,80,6,1;5,x,6,1\n".toList = none ∧ parseLine "BATCH:\n".toList = none ∧
      parseLine "MOVE:5,80,6,2\n".toList = none := by decide +kernel

/-! ## The hypotheses of the statements can be met -/

/-- A channel whose `[S2]` is next, with the move of G6. -/
def atS2 : Channel := { movingG6 .direct with seq := .s2 }

/-- A channel whose `[C2]` is next, with the move of G6. -/
def atC2 : Channel := { movingG6 .chunked with seq := .c2 }

/-- A channel whose engine starts on the one pulse of 250000 ticks. -/
def playing : Channel :=
  { movingG6 .chunked with
    seq := .c3 0 1
    waveBusy := true
    buffer := [(true, 250000#32), (false, 250000#32)]
    chunkValid := 1
    playPos := some 0 }

/-- The block with its next turn given. -/
def turn (a : Agent) (s : State) : State := { s with sched := [a] }

/-- The block whose next step is a host access. -/
def hostTurn (op : HostOp) (s : State) : State := { s with sched := [.host], host := [op] }

theorem witness_DecodeEncodeRoundTrip : (Instr.move 15#4 true .rampDownOnly .linear true).wf 16 = true := by decide

theorem witness_EncodeDecodeRoundTrip : decode 16 0x0001DF03#32 = .ok (.move 15#4 true .rampDownOnly .linear true) := rfl

/-- The first check, at the opcodes beside the legal ones: 0 and 9. -/
theorem witness_DecodeChecksInOrder_opcode :
    (0x00000000#32).toNat % 256 = 0 ∧ 8 < (0x00000009#32).toNat % 256 := by decide

/-- The second check, at the lowest bit outside each mask. -/
theorem witness_DecodeChecksInOrder_mask :
    (0x00001001#32).toNat % 256 = 1 ∧ 0x00001001#32 &&& ~~~0x00000FFF#32 ≠ 0#32 ∧
      (0x00001002#32).toNat % 256 = 2 ∧ 0x00001002#32 &&& ~~~0x00020FFF#32 ≠ 0#32 ∧
      (0x00020003#32).toNat % 256 = 3 ∧ 0x00020003#32 &&& ~~~0x0001FFFF#32 ≠ 0#32 ∧
      (0x00000104#32).toNat % 256 = 4 ∧ 0x00000104#32 &&& ~~~0x000000FF#32 ≠ 0#32 := by decide

/-- The third check, at the first channel that does not exist of two and of fifteen. -/
theorem witness_DecodeChecksInOrder_channel :
    0x00000201#32 &&& ~~~0x00000FFF#32 = 0#32 ∧ (0x00000201#32).toNat % 256 = 1 ∧ 2 ≤ (0x00000201#32).toNat / 256 % 16 ∧
      0x00000F08#32 &&& ~~~0x00000FFF#32 = 0#32 ∧ (0x00000F08#32).toNat % 256 = 8 ∧
      15 ≤ (0x00000F08#32).toNat / 256 % 16 := by decide

/-- The fourth check, on the last channel of two. -/
theorem witness_DecodeChecksInOrder_profile :
    0x00006103#32 &&& ~~~0x0001FFFF#32 = 0#32 ∧ (0x00006103#32).toNat % 256 = 3 ∧
      (0x00006103#32).toNat / 256 % 16 < 2 ∧ (0x00006103#32).toNat / 8192 % 4 = 3 := by decide

/-- No check fails: MOVE with the highest legal profile on the last channel of two, and STOP. -/
theorem witness_DecodeChecksInOrder_ok :
    0x00004103#32 &&& ~~~0x0001FFFF#32 = 0#32 ∧ (0x00004103#32).toNat / 256 % 16 < 2 ∧
      (0x00004103#32).toNat / 8192 % 4 ≠ 3 ∧ 0x00000004#32 &&& ~~~0x000000FF#32 = 0#32 ∧
      (0x00000004#32).toNat % 256 = 4 := by decide

theorem witness_DecodeChecksInOrder_status : decode State.reset.numChannels 0x00006203#32 = .error .noSuchChannel := rfl

theorem witness_StepRunsDecodedCommand :
    (turn .timeBase State.reset).sched = .timeBase :: [] ∧ State.reset.sched = [] ∧
      (hostTurn (.write 0x010 4 0x00000105#32) State.reset).host = .write 0x010 4 0x00000105#32 :: [] ∧
      (hostTurn (.write 0x010 4 0x00000004#32) State.reset).host = .write 0x010 4 0x00000004#32 :: [] ∧
      decode (hostTurn (.write 0x010 4 0x00000004#32) State.reset).numChannels 0x00000004#32 = .ok .stop :=
  ⟨rfl, rfl, rfl, rfl, rfl⟩

/-- A read, no access, a WAITDONE of the last channel of two and of the first that does not exist. -/
theorem witness_StepRunsDecodedCommand_host :
    (hostTurn (.read 0x000 4) State.reset).host = .read 0x000 4 :: [] ∧ State.reset.host = [] ∧
      (hostTurn (.waitDone 1) State.reset).host = .waitDone 1 :: [] ∧ State.reset.chans[1]? = some Channel.reset ∧
      (hostTurn (.waitDone 2) State.reset).host = .waitDone 2 :: [] ∧ State.reset.chans[2]? = none :=
  ⟨rfl, rfl, rfl, rfl, rfl, rfl⟩

/-- Channels at `[C3]` while the engine plays and when it is done, one at `[C2]`, an IDLE one and a missing one; a front end with
a line, and one with none. -/
theorem witness_StepRunsDecodedCommand_enabled :
    (withChan0 playing).chans[0]? = some playing ∧ playing.seq = .c3 0 1 ∧ playing.waveBusy = true ∧
      (withChan0 { playing with waveBusy := false }).chans[0]? = some { playing with waveBusy := false } ∧
      atC2.seq = .c2 ∧ Channel.reset.seq = .idle ∧ State.reset.chans[2]? = none ∧
      agentEnabled State.reset (.sequencer 0) = false ∧ State.reset.link.phase = .ready ∧ State.reset.link.job = none ∧
      State.reset.link.inbox = [] := by decide +kernel

/-- The IRQ level of channel 1's DONE bit. -/
def irqOn (s : State) : State := { s with irqStatus := 2#16, irqEnable := 2#16 }

/-- A host that waits for `IRQ`, at level 0 and 1. -/
theorem witness_StepRunsDecodedCommand_irq :
    (hostTurn .waitIrq State.reset).host = .waitIrq :: [] ∧ irqLevel (hostTurn .waitIrq State.reset) = false ∧
      (hostTurn .waitIrq (irqOn State.reset)).host = .waitIrq :: [] ∧
      (irqOn State.reset).irqStatus &&& (irqOn State.reset).irqEnable ≠ 0#16 := by decide

/-- 70_reset_and_hazards.md R275: the wait for `IRQ` is no step at level 0 and over at level 1. -/
theorem test_wait_irq :
    agentEnabled (hostTurn .waitIrq State.reset) .host = false ∧
      agentEnabled (hostTurn .waitIrq (irqOn State.reset)) .host = true ∧
      (step (hostTurn .waitIrq State.reset) |> after (·.host)) = some [.waitIrq] ∧
      (step (hostTurn .waitIrq (irqOn State.reset)) |> after (fun s => (s.host, s.reads))) = some ([], []) := by
  decide

/-- 70_reset_and_hazards.md R294: a run is over with only a wait for `IRQ`, a wait at level 0 before an access, or a line of no
accepted form to come. -/
theorem test_finished :
    State.reset.finished ∧ (hostTurn .waitIrq (irqOn State.reset)).finished ∧
      { State.reset with host := [.waitIrq, .read 0x000 4] }.finished ∧
      { State.reset with link := { State.reset.link with inbox := ["X\n".toList] } }.finished := by
  unfold State.finished hostSilent linkSilent; decide

/-- It is not over with an access to come, behind a wait that is over too, or with a STOP line to come. -/
theorem test_not_finished :
    ¬(hostTurn (.read 0x000 4) State.reset).finished ∧
      ¬{ irqOn State.reset with host := [.waitIrq, .read 0x000 4] }.finished ∧
      ¬{ State.reset with link := { State.reset.link with inbox := ["STOP\n".toList] } }.finished := by
  unfold State.finished hostSilent linkSilent; decide

/-- The states from reset on, when nothing is placed: only the time base ever has a step to take. -/
def idleRun : Nat → State
  | 0 => State.reset
  | n + 1 => timeBaseStep (takeTurn (idleRun n))

theorem idleRun_idle (n : Nat) :
    (idleRun n).sched = [] ∧ (idleRun n).host = [] ∧ (idleRun n).link = State.reset.link ∧
      (idleRun n).chans = State.reset.chans := by
  induction n with
  | zero => exact ⟨rfl, rfl, rfl, rfl⟩
  | succ n ih =>
    rcases takeTurn_cases (idleRun n) with ⟨a, rest, h, -, -⟩ | ⟨-, -, h⟩
    · rw [ih.1] at h; cases h
    · simp only [idleRun, h]; exact ih

theorem witness_SchedulingIsWeaklyFair :
    IsRun idleRun ∧ ∀ m, 0 ≤ m → agentEnabled (idleRun m) .timeBase = true := by
  refine ⟨fun n => ?_, fun _ _ => rfl⟩
  obtain ⟨hs, hh, hl, hc⟩ := idleRun_idle n
  have hf : agentEnabled (idleRun n) = agentEnabled State.reset := by
    funext a; cases a <;> simp only [agentEnabled, hostEnabled, linkEnabled, hh, hl, hc] <;> rfl
  have he : enabledAgents (idleRun n) = [.timeBase] := by
    rw [enabledAgents, hf, State.numChannels, hc]; decide
  have ha : nextAgent (idleRun n) = .timeBase := by
    simpa [nextAgent, hs, he] using (freeAgent_spec (idleRun n)).1
  show agentStep (nextAgent (idleRun n)) (takeTurn (idleRun n)) = _
  rw [ha]; rfl

/-- Every channel IDLE, and one MOVING. -/
theorem witness_ResetRearmsAndClears :
    (∀ c ∈ State.reset.chans, c.moving = false) ∧ movingG6 .direct ∈ (g6State .direct).chans ∧
      (movingG6 .direct).moving = true := by decide +kernel

/-- The last channel of sixteen; an IDLE channel with a nonzero and a zero ARG0; a MOVING channel. -/
theorem witness_PprSetsPulsesPerRevolution :
    (15#4).toNat < 16 ∧ m1State.chans[(0#4).toNat]? = some (withPpr 400#32) ∧ (withPpr 400#32).moving = false ∧
      { m1State with args := m1State.args.set 0 1#32 }.args[0] ≠ 0#32 ∧ m1State.args[0] = 0#32 ∧
      (g6State .direct).chans[(0#4).toNat]? = some (movingG6 .direct) ∧ (movingG6 .direct).moving = true := by
  decide +kernel

theorem witness_SetemitSelectsMode :
    (15#4).toNat < 16 ∧ State.reset.chans[(1#4).toNat]? = some Channel.reset ∧ Channel.reset.moving = false ∧
      (g6State .direct).chans[(0#4).toNat]? = some (movingG6 .direct) ∧ (movingG6 .direct).moving = true := by
  decide +kernel

theorem witness_ClrstatClearsStatistics :
    (15#4).toNat < 16 ∧ State.reset.chans[(1#4).toNat]? = some Channel.reset ∧ Channel.reset.moving = false ∧
      (g6State .direct).chans[(0#4).toNat]? = some (movingG6 .direct) ∧ (movingG6 .direct).moving = true := by
  decide +kernel

theorem witness_SnapCopiesStatistics :
    (15#4).toNat < 16 ∧ (g6State .direct).chans[(0#4).toNat]? = some (movingG6 .direct) := by decide +kernel

theorem witness_SetlabelSetsLabel :
    (15#4).toNat < 16 ∧ (g6State .direct).chans[(0#4).toNat]? = some (movingG6 .direct) := by decide +kernel

theorem witness_MoveOnMovingChannelIsBusy :
    (g6State .direct).chans[(0#4).toNat]? = some (movingG6 .direct) ∧ (movingG6 .direct).moving = true := by
  decide +kernel

theorem witness_MoveWordFields :
    (15#4).toNat < 16 ∧
      2#32 = (match Profile.rampDownOnly with
              | .full => 0#32
              | .rampUpOnly => 1#32
              | .rampDownOnly => 2#32) ∧
      1#32 = (match Curve.linear with
              | .sine => 0#32
              | .linear => 1#32) := by decide

/-- M1's operands pass every check. -/
theorem witness_MoveAcceptedFillsRecord :
    m1State.chans[(0#4).toNat]? = some (withPpr 400#32) ∧ (withPpr 400#32).moving = false ∧
      0x4014000000000000#64 = m1State.args[1] ++ m1State.args[0] ∧
      0x4054000000000000#64 = m1State.args[3] ++ m1State.args[2] ∧
      0x4018000000000000#64 = m1State.args[5] ++ m1State.args[4] ∧
      0x3F8EB851EB851EB8#64 = div (ofNat 60) (mul (mul (ofNat 2) (ofNat 400)) 0x4014000000000000#64) ∧
      0x3F4EB851EB851EB8#64 = div (ofNat 60) (mul (mul (ofNat 2) (ofNat 400)) 0x4054000000000000#64) ∧
      le (ofNat 4294967296) (mul 0x3F8EB851EB851EB8#64 (ofNat m1State.params.tickHz.toNat)) = false ∧
      finite (mul (div (mul (ofNat 400) 0x4054000000000000#64) (ofNat 60)) 0x4018000000000000#64) = true ∧
      le (ofNat 4294967296) (mul (div (mul (ofNat 400) 0x4054000000000000#64) (ofNat 60)) 0x4018000000000000#64) =
        false ∧
      3200 = (floor (mul (div (mul (ofNat 400) 0x4054000000000000#64) (ofNat 60)) 0x4018000000000000#64)).toNat := by
  decide +kernel

/-- M7: a run time of -0.0 passes too, and its total is 0. -/
theorem witness_MoveAcceptedFillsRecord_zero_run_time :
    finite 0x8000000000000000#64 = true ∧ le 0#64 0x8000000000000000#64 = true ∧ eq 0x8000000000000000#64 0#64 = true := by
  decide +kernel

/-- M3: `start_rpm = -0.0` is refused, status 0x00000313. -/
theorem witness_MoveRefusedKeepsAllButDir :
    (moveState 400#32 0x8000000000000000#64 0x4054000000000000#64 0x4018000000000000#64 0#32).chans[(0#4).toNat]? =
        some (withPpr 400#32) ∧
      (withPpr 400#32).ppr ≠ 0#32 ∧
      ¬ (finite 0x8000000000000000#64 = true ∧ lt 0#64 0x8000000000000000#64 = true) ∧
      (0x00000313#32 : Word) ≠ 0x00000300#32 := by decide +kernel

theorem witness_MissingChannelIsIllegal :
    (Instr.ppr 2#4).channel? = some 2#4 ∧ State.reset.numChannels ≤ (2#4).toNat := by decide

theorem witness_CommandFrame : ∃ t, exec .stop (g6State .direct) = .next t := ⟨_, rfl⟩

theorem witness_RunWrittenOnlyByStopAndReset :
    (step (hostTurn (.write 0x010 4 0x00000004#32) State.reset) |> after (·.run)) = some false ∧
      (step (hostTurn (.write 0x010 4 0x00000005#32) { State.reset with run := false }) |> after (·.run)) = some true := by
  decide +kernel

/-- A state of a run with a move going on meets the invariant, and steps. -/
theorem witness_StepKeepsInvariant :
    (turn (.sequencer 0) (withChan0 atS2)).Inv ∧ ∃ t, step (turn (.sequencer 0) (withChan0 atS2)) = .next t := by
  refine ⟨⟨⟨by decide +kernel, trivial⟩, by decide, by decide, by decide, by decide, by decide, ?_,
    fun _ h => nomatch h⟩, _, rfl⟩
  intro ch h
  have hh : ch = atS2 ∨ ch = Channel.reset := by simpa [turn, withChan0] using h
  rcases hh with rfl | rfl
  · exact ⟨by decide, rfl, ⟨⟨rfl, rfl, rfl, rfl⟩, rfl⟩, Nat.zero_le _, rfl, by decide, rfl, fun _ => rfl,
      fun _ => by decide, rfl, fun _ => rfl, by decide⟩
  · exact ⟨by decide, trivial, ⟨⟨rfl, rfl, rfl, rfl⟩, rfl⟩, Nat.zero_le _, rfl, by decide, rfl, fun _ => rfl,
      (fun h => nomatch h), rfl, (fun h => nomatch h), fun _ => rfl⟩

theorem witness_ResetMeetsInvariant : legalParams { Config.reference with chunkSize := 1#16, linkChannel := 15#4 } 16 :=
  ⟨by decide +kernel, trivial⟩

theorem witness_ResetValues : State.reset = State.resetWith 2 Config.reference ∧ Channel.reset ∈ State.reset.chans := by
  decide +kernel

theorem witness_ConstantRegistersNeverChange :
    (∃ t, step (turn .timeBase State.reset) = .next t) ∧ Reg.dirSetup ∈ [Reg.id, .dirSetup] := ⟨⟨_, rfl⟩, by decide⟩

theorem witness_SequencerAndEngineTouchOneChannel :
    (sequencerStep 0 (withChan0 atS2) = sequencerStep 0 (withChan0 atS2)) ∧ (0 : Nat) ≠ 1 := ⟨rfl, by decide⟩

/-- The start of a move. -/
theorem witness_MovingChangesOnlyByAcceptAndFinish_start :
    m1State.chans[0]? = some (withPpr 400#32) ∧ (withPpr 400#32).moving = false ∧
      (step (hostTurn (.write 0x010 4 0x00011003#32) m1State) |> after (chan 0 (·.moving))) = some (some true) := by
  decide +kernel

/-- The end of a move. -/
theorem witness_MovingChangesOnlyByAcceptAndFinish_end :
    (withChan0 { atS2 with idx := 4#32, steps := 4#32 }).chans[0]? = some { atS2 with idx := 4#32, steps := 4#32 } ∧
      atS2.moving = true ∧
      (step (turn (.sequencer 0) (withChan0 { atS2 with idx := 4#32, steps := 4#32 })) |> after (chan 0 (·.moving))) =
        some (some false) := by decide +kernel

theorem witness_DirChangesOnlyByMove :
    (withPpr 400#32).dirPin = false ∧
      (step (hostTurn (.write 0x010 4 0x00011003#32) m1State) |> after (chan 0 (·.dirPin))) = some (some true) := by
  decide +kernel

/-- The sums change at the end of a move, and by CLRSTAT; `running` when a MOVE is accepted, and by CLRSTAT; the label by
SETLABEL, and by RESET. -/
theorem witness_StatisticsChangeOnlyByRule :
    (step (turn (.sequencer 0) (withChan0 { atS2 with idx := 4#32, steps := 4#32 })) |> after (chan 0 (·.totalPulses))) =
        some (some 4#64) ∧
      (step (hostTurn (.write 0x010 4 0x00000006#32) (withChan0 { withPpr 4#32 with totalPulses := 4#64 })) |>
        after (chan 0 (·.totalPulses))) = some (some 0#64) ∧
      (step (hostTurn (.write 0x010 4 0x00011003#32) { m1State with time := 7#64 }) |>
        after (chan 0 fun c => (c.running, c.startValid, c.runStart))) = some (some (true, true, 7#64)) ∧
      (step (hostTurn (.write 0x010 4 0x00000006#32) (withChan0 { withPpr 4#32 with running := true, startValid := true })) |>
        after (chan 0 fun c => (c.running, c.startValid))) = some (some (false, false)) ∧
      (step (hostTurn (.write 0x010 4 0x00000108#32) { State.reset with args := State.reset.args.set 0 7#32 }) |>
        after (chan 1 (·.label))) = some (some 7#32) ∧
      (step (hostTurn (.write 0x010 4 0x00000005#32) (withChan0 { withPpr 4#32 with label := 7#32 })) |>
        after (chan 0 (·.label))) = some (some 0#32) := by decide +kernel

theorem witness_SnapshotChangesOnlyBySnapAndReset :
    (step (hostTurn (.write 0x010 4 0x00000107#32) State.reset) |> after (·.snap.ctrl)) = some 0x80000001#32 := by
  decide +kernel

theorem witness_FinishUpdatesStatistics : 15 < 16 ∧ (withChan0 atS2).chans[0]? = some atS2 := by decide +kernel

/-- The move of G6 ends in a step of its sequencer, in a state of a run. -/
theorem inv_atEnd : (turn (.sequencer 0) (withChan0 { atS2 with idx := 4#32, steps := 4#32 })).Inv := by
  refine ⟨⟨by decide +kernel, trivial⟩, by decide, by decide, by decide, by decide, by decide, ?_,
    fun _ h => nomatch h⟩
  intro ch h
  have hh : ch = { atS2 with idx := 4#32, steps := 4#32 } ∨ ch = Channel.reset := by simpa [turn, withChan0] using h
  rcases hh with rfl | rfl
  · exact ⟨by decide, rfl, ⟨⟨rfl, rfl, rfl, rfl⟩, rfl⟩, Nat.le_refl 4, rfl, by decide, rfl, fun _ => rfl,
      fun _ => by decide, rfl, fun _ => rfl, by decide⟩
  · exact ⟨by decide, trivial, ⟨⟨rfl, rfl, rfl, rfl⟩, rfl⟩, Nat.zero_le _, rfl, by decide, rfl, fun _ => rfl,
      (fun h => nomatch h), rfl, (fun h => nomatch h), fun _ => rfl⟩

theorem witness_FinishLeavesOutputsLow :
    (turn (.sequencer 0) (withChan0 { atS2 with idx := 4#32, steps := 4#32 })).Inv ∧
      (∃ t, step (turn (.sequencer 0) (withChan0 { atS2 with idx := 4#32, steps := 4#32 })) = .next t) ∧
      { atS2 with idx := 4#32, steps := 4#32 }.moving = true ∧
      (step (turn (.sequencer 0) (withChan0 { atS2 with idx := 4#32, steps := 4#32 })) |> after (chan 0 (·.moving))) =
        some (some false) := by
  exact ⟨inv_atEnd, ⟨_, rfl⟩, rfl, by decide +kernel⟩

/-- Every label of the direct sequencer, and at `[S2]` every branch; the last is the drop, at a delay of 0. -/
theorem witness_DirectSequencerSteps :
    (withChan0 (movingG6 .direct)).chans[0]? = some (movingG6 .direct) ∧ (movingG6 .direct).seq = .s0 ∧
      { movingG6 .direct with seq := .s1, total := 0#32 }.total = 0#32 ∧ { movingG6 .direct with seq := .s1 }.total ≠ 0#32 ∧
      atS2.seq = .s2 ∧ atS2.idx ≠ atS2.total ∧ { atS2 with idx := 4#32 }.idx = { atS2 with idx := 4#32 }.total ∧
      (withChan0 atS2).run = true ∧ { withChan0 atS2 with run := false }.run = false ∧
      validDelay Config.reference (delayOf Config.reference atS2 0) = true ∧
      validDelay { Config.reference with minDelay := 0#64 }
        (delayOf { Config.reference with minDelay := 0#64 } { atS2 with sd := 0#64 } 0) = false ∧
      { atS2 with seq := .s3 1#32 }.seq = .s3 1#32 ∧ { atS2 with seq := .s4 1#32 }.seq = .s4 1#32 := by
  decide +kernel

theorem witness_PulseCompletesOnceStarted :
    (withChan0 atS2).chans[0]? = some atS2 ∧ atS2.seq = .s2 ∧ atS2.idx ≠ atS2.total ∧ (withChan0 atS2).run = true ∧
      validDelay (withChan0 atS2).params (delayOf (withChan0 atS2).params atS2 atS2.idx.toNat) = true ∧
      250000#32 = ticks (withChan0 atS2).params (delayOf (withChan0 atS2).params atS2 atS2.idx.toNat) := by
  decide +kernel

/-- Every label of the chunked sequencer, and at `[C2]` every branch: a chunk of four, none valid, rejected, submitted. -/
theorem witness_ChunkedSequencerSteps :
    (withChan0 atC2).chans[0]? = some atC2 ∧ 4 = min (atC2.idx.toNat + Config.reference.chunkSize.toNat) atC2.total.toNat ∧
      chunkTicks Config.reference atC2 0 4 = [250000#32, 161611#32, 125000#32, 213388#32] ∧
      chunkTicks { Config.reference with minDelay := 0#64 } { atC2 with sd := 0#64, td := 0#64 } 0 4 = [] ∧
      (movingG6 .chunked).seq = .c0 ∧ { atC2 with seq := .c1, total := 0#32 }.total = 0#32 ∧
      { atC2 with seq := .c1 }.total ≠ 0#32 ∧ { atC2 with idx := 4#32 }.idx = atC2.total ∧ atC2.idx ≠ atC2.total ∧
      (withChan0 atC2).run = true ∧ { withChan0 atC2 with run := false }.run = false ∧
      { withChan0 atC2 with waveAnswers := [true] }.waveAnswers = true :: [] ∧
      { withChan0 atC2 with waveAnswers := [false] }.waveAnswers = false :: [] ∧ (withChan0 atC2).waveAnswers = [] ∧
      (withChan0 atC2).params.waveFault = .never ∧
      { Config.reference with waveFault := .anyAnswer }.waveFault = .anyAnswer ∧
      playing.seq = .c3 0 1 ∧ playing.waveBusy = true ∧ { playing with waveBusy := false }.waveBusy = false := by
  decide +kernel

theorem witness_EnginePlaysWholeChunk :
    (withChan0 playing).chans[0]? = some playing ∧ [250000#32] ≠ ([] : List Word) ∧ playing.waveBusy = true ∧
      playing.buffer = ([250000#32].flatMap fun k => [(true, k), (false, k)]) ∧ playing.playPos = some 0 := by
  decide +kernel

theorem witness_NoPulseStartsAfterStop :
    { withChan0 atS2 with run := false }.run = false ∧ { withChan0 atS2 with run := false }.chans[0]? = some atS2 ∧
      ((sequencerStep 0 { withChan0 atS2 with run := false }).chans[0]?).isSome = true := by decide +kernel

theorem witness_DirectMoveEnds :
    (withChan0 atS2).chans[0]? = some atS2 ∧ atS2.Inv ∧ atS2.moving = true ∧ atS2.emit = .direct :=
  ⟨rfl,
    ⟨by decide, rfl, ⟨⟨rfl, rfl, rfl, rfl⟩, rfl⟩, Nat.zero_le _, rfl, by decide, rfl, fun _ => rfl, fun _ => by decide, rfl,
      fun _ => rfl, by decide⟩,
    rfl, rfl⟩

/-- The channel's enabled agent takes a step, the sequencer first. -/
def driveChannel (c : Nat) (s : State) : State :=
  if agentEnabled s (.sequencer c) then sequencerStep c s
  else if agentEnabled s (.engine c) then engineStep c s
  else s

/-- A chunked-mode channel at `[C2]`, and an order of its two agents' steps. -/
theorem witness_DirectMoveEnds_chunked :
    ∃ f : Nat → State, (f 0).chans[0]? = some atC2 ∧ atC2.Inv ∧ atC2.moving = true ∧ atC2.emit = .chunked ∧
      1 ≤ (f 0).params.chunkSize.toNat ∧ (f 0).run = true ∧ (f 0).waveAnswers = [] ∧ (f 0).params.waveFault = .never ∧
      ∀ j, (agentEnabled (f j) (.sequencer 0) = true ∧ f (j + 1) = sequencerStep 0 (f j)) ∨
        (agentEnabled (f j) (.engine 0) = true ∧ f (j + 1) = engineStep 0 (f j)) ∨
        (agentEnabled (f j) (.sequencer 0) = false ∧ agentEnabled (f j) (.engine 0) = false ∧ f (j + 1) = f j) := by
  refine ⟨fun n => (driveChannel 0)^[n] (withChan0 atC2), rfl,
    ⟨by decide, rfl, ⟨⟨rfl, rfl, rfl, rfl⟩, rfl⟩, Nat.zero_le _, rfl, by decide, rfl, fun _ => rfl, fun _ => by decide, rfl,
      fun _ => rfl, by decide⟩,
    rfl, rfl, by decide, rfl, rfl, rfl, fun j => ?_⟩
  simp only [Function.iterate_succ_apply', driveChannel]
  split
  · exact .inl ⟨‹_›, rfl⟩
  · split
    · exact .inr (.inl ⟨‹_›, rfl⟩)
    · exact .inr (.inr ⟨Bool.not_eq_true _ ▸ ‹_›, Bool.not_eq_true _ ▸ ‹_›, rfl⟩)

/-- Offsets at the edges of the map: the last snapshot register, the first and last register of the last channel. -/
theorem witness_RegisterMap :
    regAt 16 0x08C 4 = some .snapSteps ∧ regAt 16 0x4C0 4 = some (.chan 15 .state) ∧
      regAt 16 0x4FC 4 = some (.chan 15 .runtimeHi) ∧ 15 < 16 := by decide

/-- The clauses at their edges: a width and an offset beside the legal ones, the holes 0x05C and 0x090, the block of the
first channel that does not exist, a read-only register. -/
theorem witness_BusErrors :
    (8 ≠ 4 ∨ 0x000 % 4 ≠ 0) ∧ (4 ≠ 4 ∨ 0x011 % 4 ≠ 0) ∧ regAt 2 0x05C 4 = none ∧ regAt 2 0x090 4 = none ∧
      Reg.offset (.chan 2 .state) = 0x180 ∧ State.reset.numChannels ≤ 2 ∧ Reg.id ≠ .cmd ∧ Reg.id ≠ .irqStatus ∧
      Reg.id ≠ .irqEnable ∧ (∀ n, Reg.id ≠ .arg n) := by decide

/-- Offsets no register has, whatever the channel. -/
theorem witness_BusErrors_unmapped : ∀ r : Reg, r.offset = 0x090 → ∃ c q, r = .chan c q ∧ State.reset.numChannels ≤ c := by
  intro r h
  cases r with
  | chan c q => simp only [Reg.offset] at h; omega
  | arg n => simp only [Reg.offset] at h; have := n.isLt; omega
  | _ => exact absurd h (by decide)

theorem witness_TimeReadIsConsistent :
    (∃ t, step (turn .timeBase State.reset) = .next t) ∧ (∃ t, busRead 0x040 4 State.reset = .next t) ∧ ∃ u, busRead 0x044 4 (timeBaseStep^[3] State.reset) = .next u :=
  ⟨⟨_, rfl⟩, ⟨_, rfl⟩, ⟨_, rfl⟩⟩

theorem witness_RegisterAccessEffects :
    regAt State.reset.numChannels 0x044 4 = some .timeHi ∧ Reg.timeHi ≠ .timeLo ∧ State.reset.numChannels ≤ 16 ∧
      State.reset.chans[1]? = some Channel.reset ∧ 0#32 = readReg State.reset (.chan 1 .last) := by decide

theorem witness_InterruptEvents :
    (step (hostTurn (.write 0x01C 4 1#32) { State.reset with irqStatus := 1#16 }) |> after (·.irqEvents)) =
      some [⟨true, [0, 0]⟩] := by decide +kernel

/-- The end of G6 on channel 0 with its DONE bit enabled. -/
def endEnabled : State :=
  { turn (.sequencer 0) (withChan0 { atS2 with idx := 4#32, steps := 4#32 }) with irqEnable := 1#16 }

theorem inv_endEnabled : endEnabled.Inv :=
  { inv_atEnd with enable_bits := by decide }

/-- In states of the invariant, a step that changes IRQ, which every channel's sequence shows, and one that starts a pulse. -/
theorem witness_InterruptEvents_order :
    endEnabled.Inv ∧
      (step endEnabled |> after (fun t => (irqLevel endEnabled, irqLevel t, outputEvents t 0, outputEvents t 1))) =
        some (false, true, [.irqLevel true], [.irqLevel true]) ∧
      (turn (.sequencer 0) (withChan0 atS2)).Inv ∧
      (step (turn (.sequencer 0) (withChan0 atS2)) |> after (outputEvents · 0)) =
        some [.pin (.pulse 250000#32 250000#32)] :=
  ⟨inv_endEnabled, by decide +kernel, witness_StepKeepsInvariant.1, by decide +kernel⟩

/-- A DONE bit set by `finish`, cleared by a write of 1, cleared by RESET. -/
theorem witness_DoneBitsFollowMoves :
    (turn (.sequencer 0) (withChan0 { atS2 with idx := 4#32, steps := 4#32 })).Inv ∧
      (step (turn (.sequencer 0) (withChan0 { atS2 with idx := 4#32, steps := 4#32 })) |> after (·.irqStatus)) =
        some 1#16 ∧
      (step (hostTurn (.write 0x018 4 1#32) { State.reset with irqStatus := 1#16 }) |> after (·.irqStatus)) = some 0#16 ∧
      (step (hostTurn (.write 0x010 4 5#32) { State.reset with irqStatus := 1#16 }) |>
        after (fun s => (s.irqStatus, s.statuses))) = some (0#16, [0x00000500#32]) :=
  ⟨inv_atEnd, by decide +kernel, by decide +kernel, by decide +kernel⟩

/-- A channel; its phase field while a delay is to come, at the end of the sequence, and while IDLE. -/
theorem witness_ChStateLayout :
    State.reset.chans[1]? = some Channel.reset ∧ atS2.moving = true ∧ atS2.idx.toNat < atS2.total.toNat ∧
      { atS2 with idx := 4#32 }.total.toNat ≤ { atS2 with idx := 4#32 }.idx.toNat ∧ Channel.reset.moving = false := by
  decide +kernel

/-- Progress 1.0 and the largest progress below it; the last sample of the longest ramp. -/
theorem witness_EasingLaws :
    eq one one = true ∧ eq 0x3FEFFFFFFFFFFFFF#64 one = false ∧ 2 ^ 31 - 2 < 2 ^ 31 - 1 ∧ 2 ^ 31 - 1 ≤ 2 ^ 31 - 1 := by
  decide +kernel

/-- The last sample of the longest ramp, and the first sample of the shortest. -/
theorem witness_ProgressStaysBelowOne :
    2 ^ 31 - 2 < 2 ^ 31 - 1 ∧ 2 ^ 31 - 1 ≤ 2 ^ 31 - 1 ∧ (0 : Nat) < 1 ∧ 1 ≤ 2 ^ 31 - 1 := by decide

/-- The largest finite delays, and +0.0. -/
theorem witness_EasingStartsAtFirstDelay :
    finite 0x7FEFFFFFFFFFFFFF#64 = true ∧ signBit 0x7FEFFFFFFFFFFFFF#64 = false ∧ finite 0#64 = true ∧
      signBit 0#64 = false := by decide +kernel

/-- A delay below the floor, the floor itself, an infinite delay. -/
theorem witness_DelayFloor :
    lt 0#64 Config.reference.minDelay = true ∧ lt Config.reference.minDelay Config.reference.minDelay = false ∧
      isNaN 0x7FF0000000000000#64 = false ∧ isNaN Config.reference.minDelay = false := by decide +kernel

/-- The floor itself; M1's move at its last index. -/
theorem witness_FlooredDelaysAreValid :
    legalParams Config.reference 2 ∧ legalRanges Config.reference 2 = true ∧
      le Config.reference.minDelay Config.reference.minDelay = true ∧
      validate Config.reference 400#32 0x4014000000000000#64 0x4054000000000000#64 0x4018000000000000#64 = none ∧
      3200 = totalSteps 400#32 0x4054000000000000#64 0x4018000000000000#64 ∧
      100 = rampSteps Config.reference 0x4014000000000000#64 0x4054000000000000#64 (some 100#32) 3200 ∧ 3199 < 3200 :=
  ⟨⟨by decide +kernel, trivial⟩, by decide +kernel⟩

/-- M1's move at its last index; the last sample of the ramp-down of a FULL move with r = 2 and no cruise, from and to the
longest delay allowed; the last delay of a move with no ramp (r = 0, c = 4). -/
theorem witness_DelaysNeverBelowFloor :
    legalParams Config.reference 2 ∧
      validate Config.reference 400#32 0x4014000000000000#64 0x4054000000000000#64 0x4018000000000000#64 = none ∧
      totalSteps 400#32 0x4054000000000000#64 0x4018000000000000#64 = 3200 ∧
      rampSteps Config.reference 0x4014000000000000#64 0x4054000000000000#64 (some 100#32) 3200 = 100 ∧ 3199 < 3200 ∧
      legalRanges Config.reference 2 = true ∧ Config.reference.sinFn = .correctlyRounded ∧
      (2 : Nat) < 2 ^ 31 ∧ 3 < 2 ^ 32 ∧ 3 < 2 * 2 + 0 ∧ 0 < 2 ^ 31 ∧ 3 < 2 * 0 + 4 ∧
      finite (ofNat (2 ^ 32)) = true ∧ signBit (ofNat (2 ^ 32)) = false ∧ le (ofNat (2 ^ 32)) (ofNat (2 ^ 32)) = true :=
  ⟨⟨by decide +kernel, trivial⟩, by decide +kernel⟩

/-- A table that gives -3 at 1.0, and the default's value elsewhere. -/
def atOne : SinFn := .table [(one, 0xC008000000000000#64)]

theorem atOne_finite {y : B64} (h : finite (mul (ofNat (2 ^ 32)) (correctSine y)) = true) :
    finite (mul (ofNat (2 ^ 32)) (sinFn atOne y)) = true := by
  by_cases h0 : y = 0#64
  · rw [h0]; decide +kernel
  by_cases h1 : y = one
  · rw [h1]; decide +kernel
  · have hl : [(one, 0xC008000000000000#64)].lookup y = none := by
      rw [List.lookup_cons, beq_eq_false_iff_ne.2 h1]; rfl
    rw [atOne, sinFn_unlisted h0 hl]; exact h

theorem witness_DelaysNeverBelowFloor_table :
    legalRanges { Config.reference with sinFn := atOne } 2 = true ∧
      ∀ k r, k < r → r < 2 ^ 31 →
        finite (mul (ofNat (2 ^ 32)) (sinFn atOne (div (mul (progress k r) pi64) two))) = true :=
  ⟨by decide +kernel, fun _ _ hk hr => atOne_finite (finite_mul_correctSine hk (lt_trans hr (by decide)))⟩

/-- A NaN far below the arguments the unit presents (the first above 0 is about 2^-30) leaves the ramp sample at 1.0 as it is;
41_ramp_profile_generator.md R127, R135: only what is presented decides whether SIN_FN is legal. -/
theorem test_sine_elsewhere :
    finite (mul (ofNat (2 ^ 32)) (sinFn (.table [(0x01A56E1FC2F8F359#64, 0x7FF8000000000000#64)])
      (div (mul (progress 1 2147483647) pi64) two))) = true := by decide +kernel

theorem witness_TickConversion :
    finite 0x3F4EB851EB851EB8#64 = true ∧ lt 0#64 0x3F4EB851EB851EB8#64 = true ∧
      finite (mul 0x3F4EB851EB851EB8#64 (ofNat Config.reference.tickHz.toNat)) = true := by decide +kernel

/-- An odd total, with an automatic ramp and a given one above half of it. -/
theorem witness_RampAndCruiseAddUp :
    legalRanges Config.reference 2 = true ∧ finite 0x403E000000000000#64 = true ∧ lt 0#64 0x403E000000000000#64 = true ∧
      finite 0x404E000000000000#64 = true ∧ lt 0#64 0x404E000000000000#64 = true ∧ 4294967295 < 2 ^ 32 ∧
      2 = rampSteps Config.reference 0x403E000000000000#64 0x404E000000000000#64 none 5 ∧
      2 = rampSteps Config.reference 0x403E000000000000#64 0x404E000000000000#64 (some 3#32) 5 := by decide +kernel

/-- Indices at the edges of the phases of a move with r = 2, c = 1. -/
theorem witness_DelaySequenceByProfile : 1 < 2 ∧ 2 ≤ 2 ∧ 2 < 2 + 1 ∧ 2 + 1 ≤ 3 := by decide

/-- A tie: 1 + 2^-53 lies halfway between 1 and the next binary64 value, and goes to the even one, 1. -/
theorem witness_ArithmeticRoundsToNearest :
    add 0x3FF0000000000000#64 0x3CA0000000000000#64 = 0x3FF0000000000000#64 ∧ finite 0x3FF0000000000000#64 = true ∧
      finite 0x3CA0000000000000#64 = true ∧ signedUnits 0x3CA0000000000000#64 ≠ 0 := by decide +kernel

/-- 41_ramp_profile_generator.md R120: the largest finite value and half of its last place overflow, a quarter does not; 60
divided by the infinity is +0.0. -/
theorem witness_ArithmeticRoundsToNearest_overflow :
    add 0x7FEFFFFFFFFFFFFF#64 0x7C90000000000000#64 = 0x7FF0000000000000#64 ∧
      add 0x7FEFFFFFFFFFFFFF#64 0x7C80000000000000#64 = 0x7FEFFFFFFFFFFFFF#64 ∧
      finite 0x7FEFFFFFFFFFFFFF#64 = true ∧ finite 0x7C90000000000000#64 = true ∧ isInf 0x7FF0000000000000#64 = true ∧
      finite (ofNat 60) = true ∧ div (ofNat 60) 0x7FF0000000000000#64 = 0#64 := by decide +kernel

/-- Arguments on both sides of 2^-27: the largest below it, and it; the largest below 2, and a negative one. -/
theorem witness_DefaultSineIsCorrectlyRounded :
    finite 0x3E3FFFFFFFFFFFFF#64 = true ∧ units 0x3E3FFFFFFFFFFFFF#64 * 2 ^ 27 < unitsPerOne ∧
      units 0x3E40000000000000#64 * 2 ^ 27 = unitsPerOne ∧
      sineBits 0x3E40000000000000#64 29 = sineBits 0x3E40000000000000#64 30 ∧
      units 0x3FFFFFFFFFFFFFFF#64 < 2 * unitsPerOne ∧
      sineBits 0x3FFFFFFFFFFFFFFF#64 29 = sineBits 0x3FFFFFFFFFFFFFFF#64 30 ∧
      sineBits (Binary64.abs 0xBFF0000000000000#64) 29 = sineBits (Binary64.abs 0xBFF0000000000000#64) 30 := by
  decide +kernel

/-- The operands' hypotheses at the last channel, for a profile and a curve with a nonzero code. -/
theorem witness_MnemonicsExpandToWrites :
    0xF00#32 = (15#4).setWidth 32 <<< 8 ∧
      2#32 = (match Profile.rampDownOnly with
              | .full => 0#32
              | .rampUpOnly => 1#32
              | .rampDownOnly => 2#32) ∧
      1#32 = (match Curve.linear with
              | .sine => 0#32
              | .linear => 1#32) ∧
      0x0000DF03#32 = 0x03#32 ||| (15#4).setWidth 32 <<< 8 ||| (BitVec.ofBool true).setWidth 32 <<< 12 ||| 2#32 <<< 13 |||
        1#32 <<< 15 := by decide

/-- The front end in a phase, with the moves that follow an awaited one and the lines received. -/
def linkState (phase : LinkPhase) (job : Option (List MoveLine)) (inbox : List (List Char)) (s : State) : State :=
  { s with link := { s.link with phase := phase, job := job, inbox := inbox } }

/-- The move of L2. -/
def moveL2 : MoveLine := ⟨0x4014000000000000#64, 0x4054000000000000#64, 0x4018000000000000#64, true, some 100#32⟩

/-- Texts of every form, and the first and the last write of a MOVE with ramp steps. -/
theorem witness_LinesMapToCommands :
    parseMove "5,80,6,1,100".toList = some moveL2 ∧
      (splitAtSep ';' "5,80,6,1,100;5,80,6,1,100".toList).map parseMove = (moveL2 :: [moveL2]).map some ∧
      (∀ f ∈ ["5".toList, "80".toList, "6".toList, "1".toList, "100".toList], ',' ∉ f) ∧
      parseFloat "6".toList = some 0x4018000000000000#64 ∧ parseDirection "1".toList = some true ∧
      parseU32 "100".toList = some 100#32 ∧ parseLine "X\n".toList = none ∧
      parseLine "STOP\n".toList = some .stop ∧ parseLine "BATCH:5,80,6,1,100\n".toList = some (.batch moveL2 []) ∧
      parseMove "5,80,6,0".toList = some { moveL2 with dir := false, rampSteps := none } ∧
      parseFloat "-80.0E-1".toList = some 0xC020000000000000#64 ∧
      parseLine "PPR:4294967295\n".toList = some (.ppr 4294967295#32) ∧
      (linkWrites 0#4 (.move moveL2))[0]? = some (.write 0x020 4 0#32) ∧
      (linkWrites 0#4 (.move moveL2))[7]? = some (.write 0x010 4 0x00011003#32) ∧
      (linkState (.writing (.move moveL2) 7 (.first [])) none [] State.reset).link.phase =
        .writing (.move moveL2) 7 (.first []) := by decide +kernel

/-- The lexical form `digits`, a text of it, and the value of a text. -/
theorem witness_LinesMapToCommands_digits :
    ∃ (digits : List Char → Prop) (value : List Char → Nat),
      (∀ cs, digits cs ↔ cs ≠ [] ∧ ∀ c ∈ cs, '0' ≤ c ∧ c ≤ '9') ∧
      (∀ cs, value cs = cs.foldl (fun k c => 10 * k + (c.toNat - 48)) 0) ∧ digits ['0', '9'] ∧ value ['0', '9'] = 9 :=
  ⟨_, _, fun _ => Iff.rfl, fun _ => rfl, by simp, rfl⟩

/-- The parts of the literals -0.9375E-3 and 1e400, and what they are: a finite value and an infinity. -/
theorem witness_LinesMapToCommands_decimal :
    "-0.9375E-3".toList = ['-'] ++ ['0'] ++ '.' :: ['9', '3', '7', '5'] ++ 'E' :: (['-'] ++ ['3']) ∧
      ofDecimal true 9375 5 (-3 - 4) = 0xBF4EB851EB851EB8#64 ∧ finite 0xBF4EB851EB851EB8#64 = true ∧
      "1e400".toList = [] ++ ['1'] ++ [] ++ 'e' :: ([] ++ ['4', '0', '0']) ∧
      finite (ofDecimal false 1 1 (400 - 0)) = false := by decide +kernel

/-- Leading zeros; an integer too large; no digits; an empty fraction. -/
theorem test_line_lexical_forms :
    parseU32 "007".toList = some 7#32 ∧ parseU32 "4294967296".toList = none ∧ parseU32 [] = none ∧
      parseFloat "5.".toList = none ∧ parseFloat "-0".toList = some 0x8000000000000000#64 ∧ parseInt32 "-1".toList = none := by
  decide +kernel

/-- L2, write by write: the eighth write runs the MOVE, and the status is looked at next. -/
theorem test_link_move_write :
    (linkStep (linkState (.writing (.move moveL2) 0 (.first [])) none [] (withChan0 (withPpr 400#32))) |>
        after (·.link.phase)) = some (.writing (.move moveL2) 1 (.first [])) ∧
      (linkStep (linkState (.writing .stop 0 .nothing) none [] State.reset) |> after (fun t => (t.run, t.link.phase))) =
        some (false, .ready) := by decide +kernel

theorem witness_BatchIsParsedWhole :
    (∃ f ∈ splitAtSep ';' "5,80,6,1;5,x,6,1".toList, parseMove f = none) ∧
      ["5,80,6,1".toList].map parseMove =
        [(⟨0x4014000000000000#64, 0x4054000000000000#64, 0x4018000000000000#64, true, none⟩ : MoveLine)].map some := by
  decide +kernel

/-- Every phase with an accepted and a refused status, every end of an awaited move, and lines that may and may not be taken
up meanwhile. -/
theorem witness_DoneIsSentAtTheEnd :
    State.reset.cmdStatus.extractLsb' 0 4 = 0#4 ∧
      { State.reset with cmdStatus := 0x00000312#32 }.cmdStatus.extractLsb' 0 4 ≠ 0#4 ∧
      (linkState (.checking (.first [])) none [] State.reset).link.phase = .checking (.first []) ∧
      (linkState (.checking (.first [])) (some []) [] State.reset).link.job ≠ none ∧
      (linkState (.checking (.next [])) (some [moveL2]) [] State.reset).link.phase = .checking (.next []) ∧
      0 = State.reset.params.linkChannel.toNat ∧ State.reset.chans[0]? = some Channel.reset ∧
      (movingG6 .direct).moving = true ∧ Channel.reset.moving = false ∧
      (linkState (.judging moveL2 []) (some [moveL2]) [] State.reset).link.phase = .judging moveL2 [] ∧
      { Channel.reset with result := .complete }.result = .complete ∧ Channel.reset.result ≠ .complete ∧
      mayTakeLine [moveL2] (linkState .ready (some [moveL2]) ["MOVE:5,80,6,1\n".toList] State.reset) = false ∧
      mayTakeLine [moveL2] (linkState .ready (some [moveL2]) ["STOP\n".toList] State.reset) = true ∧
      mayTakeLine [] (linkState .ready (some []) ["MOVE:5,80,6,1\n".toList] State.reset) = true := by decide +kernel

/-! ## The sine outside the unit's domain: values computed with 2600-bit fixed-point arithmetic -/

/-- sin(1e22), sin(-2) and the sine of the largest binary64 value. -/
theorem test_large_sine :
    correctSine 0x4480F0CF064DD592#64 = 0xBFEB453AB76BF397#64 ∧ correctSine 0xC000000000000000#64 = 0xBFED18F6EAD1B446#64 ∧
      correctSine 0x7FEFFFFFFFFFFFFF#64 = 0x3F7452FC98B34E97#64 := by decide +kernel

/-- A SIN_FN given by its table: a listed argument, +0, an unlisted argument. -/
theorem test_sine_table :
    sinFn (.table [(one, two), (0#64, one)]) one = two ∧ sinFn (.table [(one, two), (0#64, one)]) 0#64 = 0#64 ∧
      sinFn (.table [(one, two)]) two = correctSine two := by decide +kernel

end Sys2Proof.Tests
end

section
/-! PROOFS. The registers that read the state directly (10_state.md R22, R30, R40): RUN and its writers, the constant
registers, CH_STATE. -/

namespace Sys2Proof.Machine

/-! ## The register map -/

/-- The register at an offset below the channel blocks. -/
theorem regAt_global (n : Nat) {off : Nat} (hlt : off < 0x100) (hal : off % 4 = 0) :
    regAt n off 4 = Reg.globalOfWord (off / 4) := by
  rw [regAt, if_pos ⟨rfl, hal⟩, if_pos hlt]

/-- The register at word `k` of the block of an existing channel. -/
theorem regAt_chan {n c : Nat} (hc : c < n) {k : Nat} (hk : k < 16) :
    regAt n (0x100 + 0x40 * c + 4 * k) 4 = (ChReg.ofWord k).map (Reg.chan c) := by
  have hblock : (0x100 + 0x40 * c + 4 * k - 0x100) / 0x40 = c := by omega
  have hword : (0x100 + 0x40 * c + 4 * k - 0x100) % 0x40 / 4 = k := by omega
  rw [regAt, if_pos ⟨rfl, by omega⟩, if_neg (by omega), hblock, if_pos hc, hword]

/-- A write that reaches a read-only register is a bus error (20_memory.md R65). -/
theorem busWrite_readOnly {off width : Nat} {r : Reg} {v : Word} {s : State}
    (hr : regAt s.numChannels off width = some r) (hw : writeReg r v s = none) :
    busWrite off width v s = .fault (.busError true off width) := by
  rw [busWrite, hr, Option.bind_some, hw]

/-- A read of a register of an existing channel. -/
theorem readReg_chan {s : State} {c : Nat} {ch : Channel} (h : s.chans[c]? = some ch) (q : ChReg) :
    readReg s (.chan c q) = readChReg ch q := by
  rw [readReg, h]

theorem lt_numChannels_of_getElem? {s : State} {c : Nat} {ch : Channel} (h : s.chans[c]? = some ch) :
    c < s.numChannels :=
  (List.getElem?_eq_some_iff.1 h).1

/-- The two halves of a 64-bit quantity (20_memory.md R66). -/
@[simp] theorem hi32_append_lo32 (x : BitVec 64) : hi32 x ++ lo32 x = x := by
  rw [hi32, lo32, BitVec.extractLsb'_append_extractLsb'_eq_extractLsb' (by rfl), BitVec.extractLsb'_eq_self]

/-! ## What a sequencer or an engine can do -/

/-- The state after at most one answer of the WAVE_FAULT oracle is drawn. -/
def Drawn (s d : State) : Prop := d = s ∨ d = (drawWaveFault s).2

/-- What a step of the sequencer or of the engine of channel `c` can do: nothing, a write of that channel, or the end of
its move. -/
inductive ChannelStep (c : Nat) (s t : State) : Prop where
  | still (h : t = s)
  | wrote (d : State) (b : Channel) (hd : Drawn s d) (h : t = d.setChan c b)
  | ended (d : State) (a : Channel) (r : Result) (there : s.chans[c]? = some a) (hd : Drawn s d)
      (h : t = finish c a r d)

theorem Drawn.same {s d : State} (h : Drawn s d) : SameBlock s d := by
  rcases h with rfl | rfl
  · exact SameBlock.refl _
  · rcases drawWaveFault_cases s with ⟨a, rest, -, e⟩ | ⟨-, -, e⟩ | ⟨-, -, e⟩ <;> rw [e] <;>
      exact ⟨rfl, rfl, rfl, rfl, rfl, rfl, rfl, rfl, rfl⟩

theorem directCheck_channelStep {c : Nat} {ch : Channel} {s : State} (hch : s.chans[c]? = some ch) :
    ChannelStep c s (directCheck c ch s) := by
  rcases directCheck_cases c ch s with ⟨-, h⟩ | ⟨-, -, h⟩ | ⟨-, -, -, h⟩ | ⟨-, -, -, h⟩
  · exact .ended s ch _ hch (.inl rfl) h
  · exact .ended s ch _ hch (.inl rfl) h
  · exact .wrote s _ (.inl rfl) h
  · exact .wrote s _ (.inl rfl) h

theorem chunkCheck_channelStep {c : Nat} {ch : Channel} {s : State} (hch : s.chans[c]? = some ch) :
    ChannelStep c s (chunkCheck c ch s) := by
  rcases chunkCheck_cases c ch s with
    ⟨-, h⟩ | ⟨-, -, h⟩ | ⟨-, -, -, h⟩ | ⟨-, -, -, -, h⟩ | ⟨-, -, -, -, h⟩
  · exact .ended s ch _ hch (.inl rfl) h
  · exact .ended s ch _ hch (.inl rfl) h
  · exact .wrote s _ (.inl rfl) h
  · exact .ended _ ch _ hch (.inr rfl) h
  · exact .wrote _ _ (.inr rfl) h

theorem sequencerStep_channelStep (c : Nat) (s : State) : ChannelStep c s (sequencerStep c s) := by
  unfold sequencerStep
  split
  case h_1 => exact .still rfl
  case h_2 ch hch =>
    cases ch.seq with
    | idle => exact .still rfl
    | s0 => exact .wrote s _ (.inl rfl) rfl
    | s1 =>
      dsimp only
      split
      · exact .ended s ch _ hch (.inl rfl) rfl
      · exact .wrote s _ (.inl rfl) rfl
    | s2 => exact directCheck_channelStep hch
    | s3 k => exact .wrote s _ (.inl rfl) rfl
    | s4 k => exact .wrote s _ (.inl rfl) rfl
    | c0 => exact .wrote s _ (.inl rfl) rfl
    | c1 =>
      dsimp only
      split
      · exact .ended s ch _ hch (.inl rfl) rfl
      · exact .wrote s _ (.inl rfl) rfl
    | c2 => exact chunkCheck_channelStep hch
    | c3 ndrop e =>
      dsimp only
      split
      · exact .still rfl
      · exact .wrote s _ (.inl rfl) rfl

theorem engineStep_channelStep (c : Nat) (s : State) : ChannelStep c s (engineStep c s) := by
  unfold engineStep
  split
  · exact .still rfl
  · split
    · exact .wrote s _ (.inl rfl) rfl
    · exact .still rfl

theorem ChannelStep.params {c : Nat} {s t : State} (h : ChannelStep c s t) : t.params = s.params := by
  cases h with
  | still h => rw [h]
  | wrote d b hd h => rw [h]; exact hd.same.params
  | ended d a r there hd h => rw [h]; exact hd.same.params

theorem ChannelStep.run {c : Nat} {s t : State} (h : ChannelStep c s t) : t.run = s.run := by
  cases h with
  | still h => rw [h]
  | wrote d b hd h => rw [h]; exact hd.same.run
  | ended d a r there hd h => rw [h]; exact hd.same.run

/-! ## The parameters and the number of channels -/

theorem exec_params {i : Instr} {s u : State} (h : exec i s = .next u) : u.params = s.params := by
  cases exec_case h <;> (subst u; rfl)

/-- The parameters are constants of the block (10_state.md R30). -/
theorem step_params {s t : State} (h : step s = .next t) : t.params = s.params := by
  cases step_case h with
  | outside h => exact h.params
  | command i m u h => exact h.after.params.trans ((exec_params h.runs).trans h.same.params)
  | illegal op e h => exact h.params
  | clearDone v more ha hh h => exact h.params
  | setEnable v h => exact h.params
  | sequencer c ha h =>
    rw [h, (sequencerStep_channelStep c _).params, (takeTurn_same s).params]
  | engine c ha h =>
    rw [h, (engineStep_channelStep c _).params, (takeTurn_same s).params]

/-- No step adds or removes a channel. -/
theorem step_numChannels {s t : State} (h : step s = .next t) : t.numChannels = s.numChannels := by
  rw [step_eq] at h
  refine Eq.trans ?_ (takeTurn_same s).numChannels
  by_cases ha : nextAgent s = .timeBase
  · rw [ha] at h; injection h with h; subst h; rfl
  · exact (agentStep_turns ha h).count

/-! ## RUN -/

/-- The step from `s` to `u` leaves `b` in RUN and records the status `w`. -/
structure WritesRun (s u : State) (b : Bool) (w : Word) : Prop where
  run : u.run = b
  cmdStatus : u.cmdStatus = w
  statuses : u.statuses = w :: s.statuses

theorem WritesRun.congr {s m u t : State} {b : Bool} {w : Word} (h : WritesRun m u b w) (hs : SameBlock s m)
    (ht : SameBlock u t) : WritesRun s t b w :=
  ⟨ht.run.trans h.run, ht.cmdStatus.trans h.cmdStatus, by rw [ht.statuses, h.statuses, hs.statuses]⟩

/-- The commands that change RUN: STOP clears it, RESET sets it (10_state.md R22). -/
theorem exec_run_ne {i : Instr} {s u : State} (h : exec i s = .next u) (hne : u.run ≠ s.run) :
    WritesRun s u false 0x00000400#32 ∨ WritesRun s u true 0x00000500#32 := by
  cases exec_case h with
  | stopped hu => subst hu; exact .inl ⟨rfl, rfl, rfl⟩
  | cleared idle hu => subst hu; exact .inr ⟨rfl, rfl, rfl⟩
  | _ => subst u; exact absurd rfl hne

/-- A step that changes RUN runs STOP or RESET; every other step keeps it. -/
theorem step_run_ne {s t : State} (h : step s = .next t) (hne : t.run ≠ s.run) :
    WritesRun s t false 0x00000400#32 ∨ WritesRun s t true 0x00000500#32 := by
  cases step_case h with
  | command i m u h =>
    have hu : u.run ≠ m.run := fun e => hne (h.after.run.trans (e.trans h.same.run))
    exact (exec_run_ne h.runs hu).imp (·.congr h.same h.after) (·.congr h.same h.after)
  | outside h => exact absurd h.run hne
  | illegal op e h => exact absurd h.run hne
  | clearDone v more ha hh h => exact absurd h.run hne
  | setEnable v h => exact absurd h.run hne
  | sequencer c ha h =>
    exact absurd (h ▸ (sequencerStep_channelStep c _).run.trans (takeTurn_same s).run) hne
  | engine c ha h =>
    exact absurd (h ▸ (engineStep_channelStep c _).run.trans (takeTurn_same s).run) hne

/-- RUNFLAG holds RUN in bit 0 and zeros above it. -/
theorem readReg_runflag_bits (s : State) :
    (readReg s .runflag).getLsbD 0 = s.run ∧ (readReg s .runflag).extractLsb' 1 31 = 0#31 := by
  cases h : s.run <;> simp only [readReg, h] <;> decide

/-! ## The constant registers -/

/-- The registers of 10_state.md R30. -/
def constantRegs : List Reg := [.id, .caps, .tickHz, .minDelayLo, .minDelayHi, .rampBaseLo, .rampBaseHi, .dirSetup]

theorem regAt_constant (n : Nat) : ∀ r ∈ constantRegs, regAt n r.offset 4 = some r := by
  have hmap : ∀ r ∈ constantRegs,
      r.offset < 0x100 ∧ r.offset % 4 = 0 ∧ Reg.globalOfWord (r.offset / 4) = some r := by decide
  intro r hr
  obtain ⟨hlt, hal, hword⟩ := hmap r hr
  rw [regAt_global n hlt hal, hword]

/-- The map at the offsets of the constant registers, in their order. -/
theorem map_regAt_constant (n : Nat) :
    (constantRegs.map Reg.offset).map (fun off => regAt n off 4) = constantRegs.map some := by
  rw [List.map_map]
  exact List.map_congr_left (regAt_constant n)

theorem writeReg_constant (v : Word) (s : State) : ∀ r ∈ constantRegs, writeReg r v s = none := by
  simp [constantRegs, writeReg]

/-- The constant registers depend on the parameters and the number of channels only. -/
theorem readReg_constant {s t : State} (hp : t.params = s.params) (hn : t.numChannels = s.numChannels) :
    ∀ r ∈ constantRegs, readReg t r = readReg s r := by
  simp [constantRegs, readReg, capsWord, hp, hn]

/-! ## CH_STATE -/

theorem EmitMode.code_eq_decide (e : EmitMode) : e.code = decide (e = .chunked) := by
  cases e <;> rfl

/-- The bits of CH_STATE from bit 0 up (10_state.md R40). -/
def chStateBits (ch : Channel) : List Bool :=
  [ch.moving, (phaseOf ch).code.getLsbD 0, (phaseOf ch).code.getLsbD 1, ch.stepPin, ch.dirPin,
    decide (ch.emit = .chunked), ch.waveBusy, ch.running, ch.startValid]

theorem chStateWord_getLsbD (ch : Channel) (i : Nat) :
    (chStateWord ch).getLsbD i = (chStateBits ch).getD i false := by
  rw [chStateWord, EmitMode.code_eq_decide, chStateBits]
  simp only [BitVec.getLsbD_append, BitVec.getLsbD_ofBool]
  match i with
  | 0 | 1 | 2 | 3 | 4 | 5 | 6 | 7 | 8 => simp
  | n + 9 => simp

/-- Bits 2:1 of CH_STATE are the phase. -/
theorem chStateWord_phase (ch : Channel) : (chStateWord ch).extractLsb' 1 2 = (phaseOf ch).code := by
  refine BitVec.eq_of_getLsbD_eq fun i hi => ?_
  rw [BitVec.getLsbD_extractLsb', chStateWord_getLsbD, decide_eq_true hi, Bool.true_and]
  obtain rfl | rfl : i = 0 ∨ i = 1 := by omega
  · rfl
  · rfl

/-- Bits 31:9 of CH_STATE read 0. -/
theorem chStateWord_high (ch : Channel) : (chStateWord ch).extractLsb' 9 23 = 0#23 := by
  refine BitVec.eq_of_getLsbD_eq fun i hi => ?_
  rw [BitVec.getLsbD_extractLsb', chStateWord_getLsbD, List.getD_eq_default _ _ (by simp [chStateBits]),
    Bool.and_false, BitVec.getLsbD_zero]

theorem phaseOf_of_pending {ch : Channel} (hm : ch.moving = true) (hi : ch.idx.toNat < ch.total.toNat) :
    phaseOf ch = phaseAt ch.profile ch.ramp.toNat ch.cruise.toNat ch.idx.toNat :=
  if_pos ⟨hm, hi⟩

theorem phaseOf_of_not_pending {ch : Channel} (h : ch.moving = false ∨ ch.total.toNat ≤ ch.idx.toNat) :
    phaseOf ch = .none := by
  refine if_neg fun ⟨hm, hi⟩ => ?_
  rcases h with h | h
  · exact Bool.false_ne_true (h.symm.trans hm)
  · exact absurd hi (not_lt.2 h)

/-- Where CH_STATE of an existing channel stands. -/
theorem regAt_chState {n c : Nat} (hc : c < n) : regAt n (0x100 + 0x40 * c) 4 = some (.chan c .state) :=
  regAt_chan hc (k := 0) (by decide)

end Sys2Proof.Machine

section

open Sys2Proof Sys2Proof.Machine

/-- Settles O21: of all commands only STOP and RESET write RUN, and no other step does. -/
theorem runWrittenOnlyByStopAndReset : Obligations.RunWrittenOnlyByStopAndReset := by
  refine ⟨rfl, fun s => ⟨regAt_global _ (by decide) (by decide), readReg_runflag_bits s⟩, fun s t h hne => ?_⟩
  exact (step_run_ne h hne).imp (fun ⟨hr, hc, hs⟩ => ⟨hr, hc, hs⟩) (fun ⟨hr, hc, hs⟩ => ⟨hr, hc, hs⟩)

/-- Settles O25: what the constant registers read is fixed by the parameters and the number of channels, which no step
changes. -/
theorem constantRegistersNeverChange : Obligations.ConstantRegistersNeverChange := by
  refine ⟨fun s => ⟨?_, rfl, rfl, rfl, hi32_append_lo32 _, hi32_append_lo32 _, rfl⟩, fun s t h => ?_⟩
  · exact map_regAt_constant s.numChannels
  · have hp := step_params h
    have hn := step_numChannels h
    exact ⟨hp, hn, fun r hr => ⟨readReg_constant hp hn r hr, fun v =>
      busWrite_readOnly (regAt_constant _ r hr) (writeReg_constant v s r hr)⟩⟩

/-- Settles O45: the map places CH_STATE, `chStateWord_getLsbD` gives each of its bits, the phase follows the index. -/
theorem chStateLayout : Obligations.ChStateLayout := by
  refine ⟨fun s c ch hch => ?_, fun ch => ?_, fun ch => ⟨phaseOf_of_pending, phaseOf_of_not_pending⟩,
    ⟨rfl, rfl, rfl, rfl⟩, rfl⟩
  · have hreg := regAt_chState (lt_numChannels_of_getElem? hch)
    exact ⟨hreg, readReg_chan hch .state, fun v => busWrite_readOnly hreg rfl⟩
  · have bit := chStateWord_getLsbD ch
    exact ⟨bit 0, chStateWord_phase ch, bit 3, bit 4, bit 5, bit 6, bit 7, bit 8, chStateWord_high ch⟩

end

end

section
/-! PROOFS. The register window (20_memory.md R63 to R65): which accesses reach a register, and which are bus errors. -/

namespace Sys2Proof.Machine

/-! ## Offsets and word numbers -/

theorem ChReg.offset_of_ofWord {k : Nat} {q : ChReg} (h : ChReg.ofWord k = some q) : q.offset = 4 * k := by
  unfold ChReg.ofWord at h
  split at h <;> cases h <;> rfl

theorem ChReg.ofWord_offset (q : ChReg) : ChReg.ofWord (q.offset / 4) = some q := by
  cases q <;> rfl

theorem ChReg.offset_lt_aligned (q : ChReg) : q.offset < 0x40 ∧ q.offset % 4 = 0 := by
  cases q <;> decide

theorem Reg.offset_of_globalOfWord {k : Nat} {r : Reg} (h : Reg.globalOfWord k = some r) :
    r.offset = 4 * k ∧ ∀ c q, r ≠ .chan c q := by
  unfold Reg.globalOfWord at h
  split at h <;> cases h <;> exact ⟨rfl, nofun⟩

theorem Reg.globalOfWord_offset {r : Reg} (h : ∀ c q, r ≠ .chan c q) :
    r.offset < 0x100 ∧ r.offset % 4 = 0 ∧ Reg.globalOfWord (r.offset / 4) = some r := by
  cases r with
  | chan c q => exact absurd rfl (h c q)
  | arg n => clear h; revert n; decide
  | _ => decide

/-! ## The register an access reaches -/

/-- Only aligned 32-bit accesses reach a register (20_memory.md R63). -/
theorem regAt_eq_none_of_width_or_misaligned {off width : Nat} (n : Nat) (h : width ≠ 4 ∨ off % 4 ≠ 0) :
    regAt n off width = none :=
  if_neg (by omega)

theorem offset_of_regAt {n off width : Nat} {r : Reg} (h : regAt n off width = some r) :
    r.offset = off ∧ ∀ c q, r = .chan c q → c < n := by
  unfold regAt at h
  split_ifs at h with hw hlt hn
  · obtain ⟨hoff, hglobal⟩ := Reg.offset_of_globalOfWord h
    exact ⟨by omega, fun c q hr => absurd hr (hglobal c q)⟩
  · obtain ⟨q, hq, rfl⟩ := Option.map_eq_some_iff.1 h
    have hoff := ChReg.offset_of_ofWord hq
    refine ⟨by rw [Reg.offset]; omega, fun c q' hr => ?_⟩
    cases hr
    exact hn

theorem regAt_chan_offset {n c : Nat} (hc : c < n) (q : ChReg) :
    regAt n (Reg.chan c q).offset 4 = some (.chan c q) := by
  obtain ⟨hlt, hal⟩ := q.offset_lt_aligned
  have hoff : (Reg.chan c q).offset = 0x100 + 0x40 * c + 4 * (q.offset / 4) := by rw [Reg.offset]; omega
  rw [hoff, regAt_chan hc (by omega), q.ofWord_offset, Option.map_some]

/-- An access reaches the register at its offset, and a channel's registers exist below NUM_CHANNELS only
(20_memory.md R64, 10_state.md R42). -/
theorem regAt_eq_some_iff {n off : Nat} {r : Reg} :
    regAt n off 4 = some r ↔ r.offset = off ∧ ∀ c q, r = .chan c q → c < n := by
  refine ⟨offset_of_regAt, fun ⟨hoff, hn⟩ => ?_⟩
  subst hoff
  by_cases hr : ∃ c q, r = .chan c q
  · obtain ⟨c, q, rfl⟩ := hr
    exact regAt_chan_offset (hn c q rfl) q
  · push Not at hr
    obtain ⟨hlt, hal, hword⟩ := Reg.globalOfWord_offset hr
    rw [regAt_global n hlt hal, hword]

/-- The block of a channel that does not exist is unmapped. -/
theorem regAt_missing_chan_offset {n c : Nat} (hc : n ≤ c) (q : ChReg) : regAt n (Reg.chan c q).offset 4 = none := by
  obtain ⟨hlt, hal⟩ := q.offset_lt_aligned
  rw [Reg.offset, regAt, if_pos ⟨rfl, by omega⟩, if_neg (by omega), if_neg (by omega)]

theorem regAt_eq_none_of_unmapped {n off : Nat}
    (h : ∀ r : Reg, r.offset = off → ∃ c q, r = .chan c q ∧ n ≤ c) : regAt n off 4 = none := by
  refine Option.eq_none_iff_forall_ne_some.2 fun r hr => ?_
  obtain ⟨hoff, hn⟩ := regAt_eq_some_iff.1 hr
  obtain ⟨c, q, hrc, hc⟩ := h r hoff
  exact absurd (hn c q hrc) (not_lt.2 hc)

/-! ## Bus errors -/

theorem busRead_of_regAt_none {off width : Nat} {s : State} (h : regAt s.numChannels off width = none) :
    busRead off width s = .fault (.busError false off width) := by
  rw [busRead, h]

theorem busWrite_of_regAt_none {off width : Nat} {s : State} (v : Word)
    (h : regAt s.numChannels off width = none) : busWrite off width v s = .fault (.busError true off width) := by
  rw [busWrite, h, Option.bind_none]

/-- The writable registers are CMD, IRQ_STATUS, IRQ_ENABLE and ARGn (10_state.md R42). -/
theorem writeReg_eq_none {r : Reg} (v : Word) (s : State) (hcmd : r ≠ .cmd) (hstatus : r ≠ .irqStatus)
    (henable : r ≠ .irqEnable) (harg : ∀ n, r ≠ .arg n) : writeReg r v s = none := by
  cases r with
  | cmd => exact absurd rfl hcmd
  | irqStatus => exact absurd rfl hstatus
  | irqEnable => exact absurd rfl henable
  | arg n => exact absurd rfl (harg n)
  | _ => rfl

/-- A write at the offset of a read-only register is a bus error, whether or not the register exists. -/
theorem busWrite_offset_of_readOnly {r : Reg} {v : Word} {s : State} (h : writeReg r v s = none) :
    busWrite r.offset 4 v s = .fault (.busError true r.offset 4) := by
  by_cases hn : ∀ c q, r = .chan c q → c < s.numChannels
  · exact busWrite_readOnly (regAt_eq_some_iff.2 ⟨rfl, hn⟩) h
  · push Not at hn
    obtain ⟨c, q, rfl, hc⟩ := hn
    exact busWrite_of_regAt_none v (regAt_missing_chan_offset hc q)

end Sys2Proof.Machine

section

open Sys2Proof Sys2Proof.Machine

/-- Settles O40: an access that reaches no register is a bus error, and so is a write that reaches a read-only one. -/
theorem busErrors : Obligations.BusErrors := by
  refine ⟨fun s off width v h => ?_, fun s off v h => ?_, fun s r v hcmd hstatus henable harg => ?_, fun s => ?_⟩
  · have hr := regAt_eq_none_of_width_or_misaligned s.numChannels h
    exact ⟨busRead_of_regAt_none hr, busWrite_of_regAt_none v hr⟩
  · have hr := regAt_eq_none_of_unmapped h
    exact ⟨busRead_of_regAt_none hr, busWrite_of_regAt_none v hr⟩
  · exact busWrite_offset_of_readOnly (writeReg_eq_none v s hcmd hstatus henable harg)
  · exact busRead_eq_next.2 ⟨.cmd, regAt_global _ (by decide) (by decide), rfl⟩

end

end

section
/-! PROOFS. The command word (30_encoding.md R81, R86): its fields as numbers, the four checks of `decode`, and what an
ILLEGAL word changes. -/

namespace Sys2Proof

/-! ## The fields of a word as numbers -/

theorem toNat_opcodeField (w : Word) : (opcodeField w).toNat = w.toNat % 256 := by
  rw [opcodeField, BitVec.extractLsb'_toNat, Nat.shiftRight_zero]

theorem toNat_chField (w : Word) : (chField w).toNat = w.toNat / 256 % 16 := by
  rw [chField, BitVec.extractLsb'_toNat, Nat.shiftRight_eq_div_pow]

theorem toNat_profileField (w : Word) : (profileField w).toNat = w.toNat / 8192 % 4 := by
  rw [profileField, BitVec.extractLsb'_toNat, Nat.shiftRight_eq_div_pow]

/-! ## What an opcode admits -/

theorem usedMask_eq_none {op : BitVec 8} (h : op.toNat = 0 ∨ 8 < op.toNat) : usedMask op = none := by
  unfold usedMask
  split
  case h_9 => rfl
  all_goals omega

/-- The used masks, opcode by opcode (30_encoding.md R86). -/
theorem usedMask_eq_some {op : BitVec 8} {m : Word}
    (h : (m = 0x00000FFF#32 ∧ (op.toNat = 1 ∨ op.toNat = 6 ∨ op.toNat = 7 ∨ op.toNat = 8)) ∨
      (m = 0x00020FFF#32 ∧ op.toNat = 2) ∨ (m = 0x0001FFFF#32 ∧ op.toNat = 3) ∨
      (m = 0x000000FF#32 ∧ (op.toNat = 4 ∨ op.toNat = 5))) : usedMask op = some m := by
  rcases h with ⟨rfl, h | h | h | h⟩ | ⟨rfl, h⟩ | ⟨rfl, h⟩ | ⟨rfl, h | h⟩ <;> simp only [usedMask, h]

/-- Of the known commands only STOP and RESET use no CH field (30_encoding.md R81). -/
theorem usesChannel_iff {op : BitVec 8} {m : Word} (h : usedMask op = some m) :
    usesChannel op = true ↔ op.toNat ≠ 4 ∧ op.toNat ≠ 5 := by
  unfold usedMask at h
  unfold usesChannel
  split at h
  case h_9 => cases h
  all_goals rename_i hop; simp [hop]

theorem Profile.ofCode_eq_none_iff {b : BitVec 2} : Profile.ofCode b = none ↔ b.toNat = 3 := by
  revert b
  decide

/-! ## The checks of `decode` -/

theorem decode_of_usedMask_none {n : Nat} {w : Word} (h : usedMask (opcodeField w) = none) :
    decode n w = .error .unknownOpcode := by
  rw [decode, h]

section

variable {n : Nat} {w m : Word} (hm : usedMask (opcodeField w) = some m)

include hm

theorem decode_of_unused_bit (hbit : w &&& ~~~m ≠ 0#32) : decode n w = .error .unusedBitSet := by
  simp only [decode, hm, if_pos hbit]

theorem decode_of_missing_channel (hbit : w &&& ~~~m = 0#32) (huse : usesChannel (opcodeField w) = true)
    (hn : n ≤ (chField w).toNat) : decode n w = .error .noSuchChannel := by
  simp only [decode, hm, if_neg (not_not.2 hbit), if_pos (And.intro huse hn)]

theorem decode_eq_commandOf (hbit : w &&& ~~~m = 0#32)
    (hch : ¬ (usesChannel (opcodeField w) = true ∧ n ≤ (chField w).toNat)) : decode n w = commandOf w := by
  simp only [decode, hm, if_neg (not_not.2 hbit), if_neg hch]

/-- A word of a known opcode with no reserved profile is a command of its opcode (30_encoding.md R82). -/
theorem commandOf_opcode (hp : (opcodeField w).toNat = 3 → (profileField w).toNat ≠ 3) :
    ∃ i, commandOf w = .ok i ∧ i.opcode = opcodeField w := by
  unfold usedMask at hm
  unfold commandOf
  split at hm <;> rename_i hop
  case h_9 => cases hm
  case h_3 =>
    obtain ⟨p, hcode⟩ := Option.ne_none_iff_exists'.1 (mt Profile.ofCode_eq_none_iff.1 (hp hop))
    simp only [hcode]
    exact ⟨_, rfl, BitVec.eq_of_toNat_eq hop.symm⟩
  all_goals exact ⟨_, rfl, BitVec.eq_of_toNat_eq hop.symm⟩

end

theorem commandOf_reservedProfile {w : Word} (hop : (opcodeField w).toNat = 3) (hp : (profileField w).toNat = 3) :
    commandOf w = .error .reservedProfile := by
  simp only [commandOf, hop, Profile.ofCode_eq_none_iff.2 hp]

end Sys2Proof

section

open Sys2Proof Sys2Proof.Machine

/-- Settles O4: each check of R86 is one lemma about `decode`, read at the word's number; an ILLEGAL word only records
its status. -/
theorem decodeChecksInOrder : Obligations.DecodeChecksInOrder := by
  refine ⟨fun n w => ?_, ⟨rfl, rfl, rfl, rfl⟩, fun s w e he => ?_⟩
  · rw [← toNat_opcodeField, ← toNat_chField, ← toNat_profileField]
    refine ⟨fun h => decode_of_usedMask_none (usedMask_eq_none h), fun m hmask => ?_⟩
    have hm := usedMask_eq_some hmask
    have huse := usesChannel_iff hm
    refine ⟨decode_of_unused_bit hm, fun hbit h4 h5 hn => ?_, fun hbit hop hn hp => ?_, fun hbit hch hp => ?_⟩
    · exact decode_of_missing_channel hm hbit (huse.2 ⟨h4, h5⟩) hn
    · rw [decode_eq_commandOf hm hbit fun h => not_le.2 hn h.2]
      exact commandOf_reservedProfile hop hp
    · rw [decode_eq_commandOf hm hbit (by rw [huse]; omega)]
      obtain ⟨i, hi, hop⟩ := commandOf_opcode hm hp
      exact ⟨i, hi, congrArg BitVec.toNat hop⟩
  · rw [execWord, he]
    rfl

end

end

section
/-! PROOFS. The command words as the assembler writes them (30_encoding.md R81, R92). -/

namespace Sys2Proof

/-- Two fields one above the other, in a word of any width. -/
theorem setWidth_append_eq_or {a b : Nat} (n : Nat) (x : BitVec a) (y : BitVec b) :
    (x ++ y).setWidth n = y.setWidth n ||| x.setWidth n <<< b := by
  ext i hi
  by_cases hb : i < b
  · simp [BitVec.getLsbD_append, hb]
  · have hy : y.getLsbD i = false := BitVec.getLsbD_of_ge y i (not_lt.1 hb)
    simp [BitVec.getLsbD_append, hb, hy]

/-- The command word is its fields, each shifted to its place (30_encoding.md R81). -/
theorem commandWord_eq_or (emit given curve : Bool) (profile : BitVec 2) (dir : Bool) (ch : BitVec 4) (op : BitVec 8) :
    commandWord emit given curve profile dir ch op =
      op.setWidth 32 ||| ch.setWidth 32 <<< 8 ||| (BitVec.ofBool dir).setWidth 32 <<< 12 |||
        profile.setWidth 32 <<< 13 ||| (BitVec.ofBool curve).setWidth 32 <<< 15 |||
        (BitVec.ofBool given).setWidth 32 <<< 16 ||| (BitVec.ofBool emit).setWidth 32 <<< 17 := by
  rw [← BitVec.setWidth_eq (commandWord emit given curve profile dir ch op), commandWord]
  simp only [setWidth_append_eq_or, BitVec.shiftLeft_or_distrib, ← BitVec.shiftLeft_add, BitVec.or_assoc,
    BitVec.setWidth_zero, BitVec.zero_shiftLeft, BitVec.or_zero]

/-- The word of a command with no field but CH (30_encoding.md R87). -/
theorem commandWord_channel (ch : BitVec 4) (op : BitVec 8) :
    commandWord false false false 0#2 false ch op = op.setWidth 32 ||| ch.setWidth 32 <<< 8 := by
  simp [commandWord_eq_or]

theorem encode_setemit (ch : BitVec 4) (e : EmitMode) :
    encode (.setemit ch e) = 0x02#32 ||| ch.setWidth 32 <<< 8 ||| (BitVec.ofBool e.code).setWidth 32 <<< 17 := by
  simp [encode, commandWord_eq_or, Instr.opcode]

theorem encode_move (ch : BitVec 4) (dir : Bool) (profile : Profile) (curve : Curve) (given : Bool) :
    encode (.move ch dir profile curve given) =
      0x03#32 ||| ch.setWidth 32 <<< 8 ||| (BitVec.ofBool dir).setWidth 32 <<< 12 |||
        profile.code.setWidth 32 <<< 13 ||| (BitVec.ofBool curve.code).setWidth 32 <<< 15 |||
        (BitVec.ofBool given).setWidth 32 <<< 16 := by
  simp [encode, commandWord_eq_or, Instr.opcode]

end Sys2Proof

section

open Sys2Proof Sys2Proof.Machine

/-- Settles O57: each expansion is its writes by definition, up to the command words, which `commandWord_channel`,
`encode_setemit` and `encode_move` write as the table does; the example is computed. -/
theorem mnemonicsExpandToWrites : Obligations.MnemonicsExpandToWrites := by
  refine ⟨?_, ?_, ?_⟩
  · rintro c n w rfl
    have hword (op : BitVec 8) := commandWord_channel c op
    refine ⟨?_, ?_, ?_, rfl, rfl, ?_, ?_, ?_⟩
    · rw [asmPpr, encode, hword]; rfl
    · rw [asmSetemit, encode, EmitMode.code, hword]; rfl
    · rw [asmSetemit, encode_setemit]; rfl
    · rw [asmClrstat, encode, hword]; rfl
    · rw [asmSnap, encode, hword]; rfl
    · rw [asmSetlabel, encode, hword]; rfl
  · intro c profile curve s t r dir ramp word p k hp hk hword
    replace hp : p = profile.code.setWidth 32 := by rw [hp]; cases profile <;> rfl
    replace hk : k = (BitVec.ofBool curve.code).setWidth 32 := by rw [hk]; cases curve <;> rfl
    have hmove (given : Bool) :
        encode (.move c dir profile curve given) = word ||| (BitVec.ofBool given).setWidth 32 <<< 16 := by
      rw [encode_move, hword, hp, hk]
    cases ramp with
    | none =>
      have hplain : word = encode (.move c dir profile curve false) := BitVec.or_zero.symm.trans (hmove false).symm
      rw [hplain]
      rfl
    | some n =>
      have hgiven : word ||| 1#32 <<< 16 = encode (.move c dir profile curve true) := (hmove true).symm
      simp only [hgiven]
      rfl
  · decide +kernel

end

end

section
/-! PROOFS. The easing laws (40_delay_curve.md R100, R101, R105) and the progress a ramp presents to them
(41_ramp_profile_generator.md R127). -/

namespace Sys2Proof.Machine

open Binary64

/-! ## The two branches of each law -/

section

variable {p : B64} (a b : B64)

theorem sineEase_of_eq_one (f : SinFn) (hp : eq p one = true) : sineEase f p a b = b :=
  if_pos hp

theorem sineEase_of_ne_one (f : SinFn) (hp : eq p one = false) :
    sineEase f p a b = sub a (mul (sub a b) (sinFn f (div (mul p pi64) two))) :=
  if_neg (Bool.eq_false_iff.1 hp)

theorem linearEase_of_eq_one (hp : eq p one = true) : linearEase p a b = b :=
  if_pos hp

theorem linearEase_of_ne_one (hp : eq p one = false) : linearEase p a b = add a (mul (sub b a) p) :=
  if_neg (Bool.eq_false_iff.1 hp)

end

/-! ## The quotient of two integers below 2^53 -/

theorem isInf_ofNat {n : Nat} (h : n < 2 ^ 53) : isInf (ofNat n) = false := by
  refine isInf_withSign _ (lt_of_le_of_lt (b := roundUnits (2 ^ 52 * 2 ^ 1075) 1) (roundUnits_mono one_pos one_pos ?_) ?_)
  · have hbound : 2 ^ 52 * 2 ^ 1075 = 2 ^ 53 * unitsPerOne := by
      rw [unitsPerOne_eq, ← Nat.pow_add, ← Nat.pow_add]
    rw [hbound]
    exact Nat.mul_le_mul_right _ (Nat.mul_le_mul_right _ h.le)
  · rw [roundUnits_exact (by decide) (.inr (by decide)) (by decide)]
    decide

/-- Both integers are exact, so the quotient is rounded once. -/
theorem div_ofNat {m n : Nat} (hm : m < 2 ^ 53) (hn : n < 2 ^ 53) (h0 : n ≠ 0) :
    div (ofNat m) (ofNat n) =
      withSign false (roundUnits (m * unitsPerOne * unitsPerOne) (n * unitsPerOne)) := by
  have hden : n * unitsPerOne ≠ 0 := Nat.mul_ne_zero h0 unitsPerOne_pos.ne'
  simp [div, isZero, isNaN_ofNat, isInf_ofNat hm, isInf_ofNat hn, signBit_ofNat, units_ofNat hm, units_ofNat hn, hden]

/-! ## Progress stays below 1.0 -/

/-- `0x3FEFFFFFFFFFFFFF`, the value just below 1.0, is `1 - 2^-53`. -/
theorem bitsUnits_predOne : bitsUnits 0x3FEFFFFFFFFFFFFF = (2 ^ 53 - 1) * 2 ^ 1021 := by
  rw [show 0x3FEFFFFFFFFFFFFF = 1021 * 2 ^ 52 + (2 ^ 53 - 1) from rfl, bitsUnits_pack (by decide) (.inr (by decide))]

theorem bitsUnits_one : bitsUnits 0x3FF0000000000000 = 2 ^ 53 * 2 ^ 1021 := by
  rw [show 0x3FF0000000000000 = 1022 * 2 ^ 52 + 2 ^ 52 from rfl, bitsUnits_pack (by decide) (.inr (by decide)),
    ← Nat.pow_add, ← Nat.pow_add]

/-- Progress is at most the value just below 1.0: `k / r ≤ 1 - 1 / r ≤ 1 - 2^-53`, and rounding is monotone. -/
theorem progress_eq_withSign {k r : Nat} (hk : k < r) (hr : r < 2 ^ 53) :
    ∃ b ≤ 0x3FEFFFFFFFFFFFFF, progress k r = withSign false b := by
  refine ⟨_, ?_, div_ofNat (hk.trans hr) hr (by omega)⟩
  have hexact : roundUnits ((2 ^ 53 - 1) * 2 ^ 1021) 1 = 0x3FEFFFFFFFFFFFFF := by
    rw [roundUnits_exact (by decide) (.inr (by decide)) (by decide)]
    decide
  rw [← hexact]
  refine roundUnits_mono (Nat.mul_pos (by omega) unitsPerOne_pos) one_pos ?_
  have hquot : k * 2 ^ 53 ≤ (2 ^ 53 - 1) * r := by omega
  have hone : unitsPerOne = 2 ^ 53 * 2 ^ 1021 := by rw [unitsPerOne_eq, ← Nat.pow_add]
  calc k * unitsPerOne * unitsPerOne * 1 = k * (2 ^ 53 * 2 ^ 1021) * unitsPerOne := by rw [← hone, Nat.mul_one]
    _ = k * 2 ^ 53 * (2 ^ 1021 * unitsPerOne) := by simp only [Nat.mul_assoc]
    _ ≤ (2 ^ 53 - 1) * r * (2 ^ 1021 * unitsPerOne) := Nat.mul_le_mul_right _ hquot
    _ = (2 ^ 53 - 1) * 2 ^ 1021 * (r * unitsPerOne) := Nat.mul_mul_mul_comm _ _ _ _

theorem signedUnits_withSign_false {b : Nat} (h : b < 2 ^ 63) : signedUnits (withSign false b) = bitsUnits b := by
  rw [signedUnits, signBit_withSign _ h, units_withSign _ h, if_neg Bool.false_ne_true]

theorem signedUnits_progress_lt_one {k r : Nat} (hk : k < r) (hr : r < 2 ^ 53) :
    signedUnits (progress k r) < signedUnits one := by
  obtain ⟨b, hb, hp⟩ := progress_eq_withSign hk hr
  rw [hp, show one = withSign false 0x3FF0000000000000 from rfl,
    signedUnits_withSign_false (lt_of_le_of_lt hb (by decide)), signedUnits_withSign_false (by decide), Int.ofNat_lt]
  refine lt_of_le_of_lt (bitsUnits_mono hb) ?_
  rw [bitsUnits_predOne, bitsUnits_one]
  exact Nat.mul_lt_mul_of_pos_right (by decide) (Nat.two_pow_pos _)

/-- No ramp presents progress 1.0 (40_delay_curve.md R101). -/
theorem eq_progress_one {k r : Nat} (hk : k < r) (hr : r < 2 ^ 53) : eq (progress k r) one = false := by
  rw [eq, decide_eq_false (signedUnits_progress_lt_one hk hr).ne, Bool.and_false]

/-- The sine formula alone, at progress 1.0, misses `b` (95_test_vectors.md V6). -/
theorem sine_formula_at_one :
    sub 0x3F8EB851EB851EB8#64
      (mul (sub 0x3F8EB851EB851EB8#64 0x3F4EB851EB851EB8#64) (sinFn .correctlyRounded (div (mul one pi64) two))) =
      0x3F4EB851EB851EC0#64 := by
  decide +kernel

end Sys2Proof.Machine

section

open Sys2Proof Sys2Proof.Machine

/-- Settles O46: the laws' two branches by their lemmas; a ramp's progress is the rounding of a quotient below `1 - 2^-53`,
so it stays below 1.0. -/
theorem easingLaws : Obligations.EasingLaws := by
  refine ⟨fun f p a b hp => ?_, fun f p a b hp => ?_, ?_, sine_formula_at_one, fun k r hk hr => ?_⟩
  · exact ⟨sineEase_of_eq_one a b f hp, linearEase_of_eq_one a b hp⟩
  · exact ⟨sineEase_of_ne_one a b f hp, linearEase_of_ne_one a b hp⟩
  · decide +kernel
  · exact eq_progress_one hk (lt_of_le_of_lt hr (by decide))

end

end

section
/-! PROOFS. Binary64 operations on finite values: what the sign operations keep of a pattern, and when a result is finite
(00_scope.md R12). -/

namespace Sys2Proof.Machine.Binary64

/-! ## Comparisons -/

theorem signedUnits_zero : signedUnits 0#64 = 0 := by decide

theorem lt_eq_true {x y : B64} (hx : isNaN x = false) (hy : isNaN y = false) :
    lt x y = true ↔ signedUnits x < signedUnits y := by
  simp [lt, hx, hy]

theorem lt_eq_false {x y : B64} (hx : isNaN x = false) (hy : isNaN y = false) :
    lt x y = false ↔ signedUnits y ≤ signedUnits x := by
  simp [lt, hx, hy]

theorem le_eq_false {x y : B64} (hx : isNaN x = false) (hy : isNaN y = false) :
    le x y = false ↔ signedUnits y < signedUnits x := by
  simp [le, hx, hy]

theorem le_eq_true {x y : B64} (hx : isNaN x = false) (hy : isNaN y = false) :
    le x y = true ↔ signedUnits x ≤ signedUnits y := by
  simp [le, hx, hy]

theorem signedUnits_lt_of_lt {x y : B64} (h : lt x y = true) : signedUnits x < signedUnits y := by
  rw [lt, Bool.and_eq_true] at h
  exact of_decide_eq_true h.2

/-- A positive value has the sign bit clear. -/
theorem signBit_of_pos {x : B64} (h : lt 0#64 x = true) : signBit x = false := by
  have hpos : 0 < signedUnits x := signedUnits_zero ▸ signedUnits_lt_of_lt h
  by_contra hs
  rw [signedUnits, if_pos (Bool.eq_true_of_not_eq_false hs)] at hpos
  omega

/-! ## Finite values -/

theorem isNaN_of_finite {x : B64} (h : finite x = true) : isNaN x = false := by
  rw [isNaN, beq_false_of_ne (bne_iff_ne.1 h), Bool.false_and]

theorem isInf_of_finite {x : B64} (h : finite x = true) : isInf x = false := by
  rw [isInf, beq_false_of_ne (bne_iff_ne.1 h), Bool.false_and]

theorem roundUnits_zero {den : Nat} (h : 0 < den) : roundUnits 0 den = 0 := by
  simp [roundUnits, nearestEven, h]

/-- A rational of at most the units of a finite value does not round to infinity. -/
theorem roundUnits_lt_infBits {x : B64} (hx : finite x = true) {num den : Nat} (hden : 0 < den)
    (h : num ≤ units x * den) : roundUnits num den < infBits := by
  have hfrac : fracField x < 2 ^ 52 := Nat.mod_lt _ (by decide)
  have hexp : expField x < 2047 := lt_of_le_of_ne (Nat.le_of_lt_succ (Nat.mod_lt _ (by decide))) (bne_iff_ne.1 hx)
  have hsig : significand x < 2 ^ 53 := by
    unfold significand
    split <;> omega
  have hpack : unitExp x = 0 ∨ 2 ^ 52 ≤ significand x := by
    unfold unitExp significand
    split <;> omega
  have hbits : unitExp x * 2 ^ 52 + significand x < infBits := by
    unfold unitExp infBits
    omega
  calc roundUnits num den ≤ roundUnits (units x) 1 := roundUnits_mono hden one_pos (by rwa [Nat.mul_one])
    _ = unitExp x * 2 ^ 52 + significand x := roundUnits_exact hsig hpack hbits.le
    _ < infBits := hbits

/-! ## The fields of `-x` and `|x|` -/

theorem expField_eq_extractLsb' (x : B64) : expField x = (x.extractLsb' 52 11).toNat := by
  rw [expField, BitVec.extractLsb'_toNat, Nat.shiftRight_eq_div_pow]

theorem fracField_eq_extractLsb' (x : B64) : fracField x = (x.extractLsb' 0 52).toNat := by
  rw [fracField, BitVec.extractLsb'_toNat, Nat.shiftRight_zero]

theorem expField_neg (x : B64) : expField (neg x) = expField x := by
  rw [expField_eq_extractLsb', expField_eq_extractLsb', neg, BitVec.extractLsb'_xor,
    show (0x8000000000000000#64).extractLsb' 52 11 = 0#11 by decide, BitVec.xor_zero]

theorem fracField_neg (x : B64) : fracField (neg x) = fracField x := by
  rw [fracField_eq_extractLsb', fracField_eq_extractLsb', neg, BitVec.extractLsb'_xor,
    show (0x8000000000000000#64).extractLsb' 0 52 = 0#52 by decide, BitVec.xor_zero]

theorem signBit_neg (x : B64) : signBit (neg x) = !signBit x := by
  rw [signBit, neg, BitVec.msb_xor, show (0x8000000000000000#64).msb = true by decide, Bool.xor_true, signBit]

theorem expField_abs (x : B64) : expField (abs x) = expField x := by
  rw [expField_eq_extractLsb', expField_eq_extractLsb', abs, BitVec.extractLsb'_and,
    show (0x7FFFFFFFFFFFFFFF#64).extractLsb' 52 11 = BitVec.allOnes 11 by decide, BitVec.and_allOnes]

@[simp] theorem finite_neg (x : B64) : finite (neg x) = finite x := by
  rw [finite, expField_neg, finite]

@[simp] theorem finite_abs (x : B64) : finite (abs x) = finite x := by
  rw [finite, expField_abs, finite]

@[simp] theorem units_neg (x : B64) : units (neg x) = units x := by
  rw [units, significand, unitExp, expField_neg, fracField_neg, units, significand, unitExp]

/-! ## Finite results -/

/-- The difference of two values with the sign bit clear is at most the greater of them. -/
theorem finite_sub {x y : B64} (hx : finite x = true) (hy : finite y = true) (sx : signBit x = false)
    (sy : signBit y = false) : finite (sub x y) = true := by
  have hny : finite (neg y) = true := (finite_neg y).trans hy
  have ux : signedUnits x = units x := by rw [signedUnits, sx, if_neg Bool.false_ne_true]
  have uy : signedUnits (neg y) = -units y := by rw [signedUnits, signBit_neg, sy, Bool.not_false, if_pos rfl, units_neg]
  have hround : roundUnits (signedUnits x + signedUnits (neg y)).natAbs 1 < infBits := by
    rw [ux, uy]
    rcases le_total (units x) (units y) with h | h
    · exact roundUnits_lt_infBits hy one_pos (by omega)
    · exact roundUnits_lt_infBits hx one_pos (by omega)
  simp only [sub, add, isNaN_of_finite, isInf_of_finite, hx, hy, hny, Bool.or_self, Bool.false_eq_true, if_false]
  split
  · exact finite_withSign _ (by decide)
  · exact finite_withSign _ hround

/-- Division of a finite value by a positive integer does not overflow. -/
theorem finite_div_ofNat {x : B64} (hx : finite x = true) {n : Nat} (h0 : 0 < n) (hn : n < 2 ^ 53) :
    finite (div x (ofNat n)) = true := by
  have hden : 0 < n * unitsPerOne := Nat.mul_pos h0 unitsPerOne_pos
  have hnz : isZero (ofNat n) = false := by rw [isZero, units_ofNat hn]; exact beq_false_of_ne hden.ne'
  have hinf : isInf (ofNat n) = false := isInf_ofNat hn
  simp only [div, isNaN_of_finite hx, isInf_of_finite hx, isNaN_ofNat, hinf, hnz, Bool.or_self, Bool.false_eq_true,
    if_false, units_ofNat hn]
  exact finite_withSign _ (roundUnits_lt_infBits hx hden (Nat.mul_le_mul_left _ (Nat.le_mul_of_pos_left _ h0)))

/-- The product of two finite values is no NaN; it may be an infinity. -/
theorem isNaN_mul {x y : B64} (hx : finite x = true) (hy : finite y = true) : isNaN (mul x y) = false := by
  simp only [mul, isNaN_of_finite, isInf_of_finite, hx, hy, Bool.or_self, Bool.false_eq_true, if_false]
  exact isNaN_withSign _ (roundUnits_le _ _)

/-- A value below the integer `n` has its floor below `n`. -/
theorem floor_lt_of_signedUnits_lt {x : B64} {n : Nat} (hn : n < 2 ^ 53) (h : signedUnits x < signedUnits (ofNat n)) :
    floor x < n := by
  rw [signedUnits_ofNat hn, Nat.cast_mul] at h
  exact Int.ediv_lt_of_lt_mul (Int.natCast_pos.2 unitsPerOne_pos) h

end Sys2Proof.Machine.Binary64
end

section
/-! PROOFS. `ramp_profile_generator` (41_ramp_profile_generator.md): progress, the resolved ramp and the constant phase, the
delay floor, and the delay and phase of every index. -/

namespace Sys2Proof.Machine

open Binary64

/-! ## Progress (R127) -/

theorem progress_zero {r : Nat} (h0 : 0 < r) (hr : r < 2 ^ 53) : progress 0 r = 0#64 := by
  rw [progress, div_ofNat (by decide) hr h0.ne', Nat.zero_mul, Nat.zero_mul,
    roundUnits_zero (Nat.mul_pos h0 unitsPerOne_pos)]
  rfl

theorem finite_progress {k r : Nat} (hk : k < r) (hr : r < 2 ^ 53) : finite (progress k r) = true := by
  obtain ⟨b, hb, hp⟩ := progress_eq_withSign hk hr
  exact hp ▸ finite_withSign _ (lt_of_le_of_lt hb (by decide))

theorem signedUnits_progress_nonneg {k r : Nat} (hk : k < r) (hr : r < 2 ^ 53) : 0 ≤ signedUnits (progress k r) := by
  obtain ⟨b, hb, hp⟩ := progress_eq_withSign hk hr
  rw [hp, signedUnits_withSign_false (lt_of_le_of_lt hb (by decide))]
  exact Int.natCast_nonneg _

/-! ## The delay floor (R128) -/

section

variable {p : Params} {d : B64}

theorem floorMin_of_lt (h : lt d p.minDelay = true) : floorMin p d = p.minDelay :=
  if_pos h

theorem floorMin_of_not_lt (h : lt d p.minDelay = false) : floorMin p d = d :=
  if_neg (Bool.eq_false_iff.1 h)

/-- Where neither is a NaN, the floored delay is at least the delay and the floor. -/
theorem le_floorMin (hd : isNaN d = false) (hm : isNaN p.minDelay = false) :
    le p.minDelay (floorMin p d) = true ∧ le d (floorMin p d) = true := by
  cases h : lt d p.minDelay with
  | true =>
    rw [floorMin_of_lt h]
    exact ⟨(le_eq_true hm hm).2 le_rfl, (le_eq_true hd hm).2 (signedUnits_lt_of_lt h).le⟩
  | false =>
    rw [floorMin_of_not_lt h]
    exact ⟨(le_eq_true hm hd).2 ((lt_eq_false hd hm).1 h), (le_eq_true hd hd).2 le_rfl⟩

end

/-! ## The resolved ramp and the constant phase (R122, R123, R125, R126) -/

/-- The automatic ramp value of finite positive speeds is no NaN: only its last multiplication can overflow. -/
theorem isNaN_autoRamp {p : Params} {v t : B64} (hbase : finite p.rampBase = true) (hv : finite v = true)
    (hv0 : lt 0#64 v = true) (ht : finite t = true) (ht0 : lt 0#64 t = true) : isNaN (autoRamp p v t) = false := by
  have hdiff : finite (sub t v) = true := finite_sub ht hv (signBit_of_pos ht0) (signBit_of_pos hv0)
  exact isNaN_mul hbase (finite_div_ofNat ((finite_abs _).trans hdiff) (by decide) (by decide))

/-- An automatic ramp is at most half the total: where its value is below the half, so is its floor. -/
theorem rampSteps_auto_le {p : Params} {v t : B64} {total : Nat} (hx : isNaN (autoRamp p v t) = false)
    (ht : total / 2 < 2 ^ 53) : rampSteps p v t none total ≤ total / 2 := by
  unfold rampSteps
  dsimp only
  split
  next => exact le_rfl
  next h =>
    have hlt := (le_eq_false (isNaN_ofNat _) hx).1 (Bool.eq_false_iff.2 h)
    exact Int.toNat_le.2 (floor_lt_of_signedUnits_lt ht hlt).le

theorem rampBase_finite_of_legalRanges {p : Params} {n : Nat} (h : legalRanges p n = true) : finite p.rampBase = true := by
  simp only [legalRanges, Bool.and_eq_true] at h
  obtain ⟨⟨⟨-, hbase⟩, -⟩, -⟩ := h
  exact hbase

theorem rampSteps_le_half {p : Params} {n : Nat} {v t : B64} {total : Nat} (given : Option Word)
    (hp : legalRanges p n = true) (hv : finite v = true) (hv0 : lt 0#64 v = true) (ht : finite t = true)
    (ht0 : lt 0#64 t = true) (htotal : total < 2 ^ 32) : rampSteps p v t given total ≤ total / 2 := by
  cases given with
  | some k => exact min_le_right _ _
  | none => exact rampSteps_auto_le (isNaN_autoRamp (rampBase_finite_of_legalRanges hp) hv hv0 ht ht0) (by omega)

/-! ## The delay and the phase of an index (R130, R131), by profile and range -/

section

variable {r c i : Nat} (p : Params) (curve : Curve) (sd td : B64)

theorem delayAt_full_rampUp (c : Nat) (h : i < r) : delayAt p .full curve r c sd td i = rampDelay p curve i r sd td :=
  if_pos h

theorem delayAt_full_const (h : r ≤ i) (hc : i < r + c) : delayAt p .full curve r c sd td i = floorMin p td :=
  (if_neg (not_lt.2 h)).trans (if_pos hc)

theorem delayAt_full_rampDown (h : r + c ≤ i) :
    delayAt p .full curve r c sd td i = rampDelay p curve (i - r - c) r td sd :=
  (if_neg (by omega)).trans (if_neg (not_lt.2 h))

theorem delayAt_rampUpOnly_ramp (c : Nat) (h : i < r) :
    delayAt p .rampUpOnly curve r c sd td i = rampDelay p curve i r sd td :=
  if_pos h

theorem delayAt_rampUpOnly_const (c : Nat) (h : r ≤ i) : delayAt p .rampUpOnly curve r c sd td i = floorMin p td :=
  if_neg (not_lt.2 h)

theorem delayAt_rampDownOnly_ramp (c : Nat) (h : i < r) :
    delayAt p .rampDownOnly curve r c sd td i = rampDelay p curve i r td sd :=
  if_pos h

theorem delayAt_rampDownOnly_const (c : Nat) (h : r ≤ i) : delayAt p .rampDownOnly curve r c sd td i = floorMin p sd :=
  if_neg (not_lt.2 h)

theorem phaseAt_full_rampUp (c : Nat) (h : i < r) : phaseAt .full r c i = .rampUp :=
  if_pos h

theorem phaseAt_full_const (h : r ≤ i) (hc : i < r + c) : phaseAt .full r c i = .const :=
  (if_neg (not_lt.2 h)).trans (if_pos hc)

theorem phaseAt_full_rampDown (h : r + c ≤ i) : phaseAt .full r c i = .rampDown :=
  (if_neg (by omega)).trans (if_neg (not_lt.2 h))

theorem phaseAt_rampUpOnly_ramp (c : Nat) (h : i < r) : phaseAt .rampUpOnly r c i = .rampUp :=
  if_pos h

theorem phaseAt_rampUpOnly_const (c : Nat) (h : r ≤ i) : phaseAt .rampUpOnly r c i = .const :=
  if_neg (not_lt.2 h)

theorem phaseAt_rampDownOnly_ramp (c : Nat) (h : i < r) : phaseAt .rampDownOnly r c i = .rampDown :=
  if_pos h

theorem phaseAt_rampDownOnly_const (c : Nat) (h : r ≤ i) : phaseAt .rampDownOnly r c i = .const :=
  if_neg (not_lt.2 h)

end

end Sys2Proof.Machine

section

open Sys2Proof Sys2Proof.Machine Sys2Proof.Machine.Binary64

/-- Settles O49: the two branches of the floor, and its bound by a case split on them. -/
theorem delayFloor : Obligations.DelayFloor :=
  fun _ _ => ⟨floorMin_of_lt, floorMin_of_not_lt, le_floorMin⟩

/-- Settles O47: progress is the rounding of a quotient from 0 up to `1 - 2^-53`, and a quotient of 0 is exact. -/
theorem progressStaysBelowOne : Obligations.ProgressStaysBelowOne := by
  intro k r hk hr
  replace hr : r < 2 ^ 53 := lt_of_le_of_lt hr (by decide)
  have hfin := finite_progress hk hr
  have hnan := isNaN_of_finite hfin
  refine ⟨rfl, hfin, ?_, ?_, ?_⟩
  · exact (le_eq_true (by decide) hnan).2 (signedUnits_zero ▸ signedUnits_progress_nonneg hk hr)
  · exact (lt_eq_true hnan (by decide)).2 (signedUnits_progress_lt_one hk hr)
  · rintro rfl
    exact progress_zero hk hr

/-- Settles O53: the resolved ramp is at most half the total, so no subtraction of the constant phase is cut off at 0. -/
theorem rampAndCruiseAddUp : Obligations.RampAndCruiseAddUp := by
  refine ⟨?_, rfl, rfl⟩
  rintro p n v t given total r hp hv hv0 ht ht0 htotal hr
  have hhalf : r ≤ total / 2 := hr ▸ rampSteps_le_half given hp hv hv0 ht ht0 htotal
  refine ⟨hhalf, ?_, ?_, ?_, ?_⟩
  · rintro k rfl
    exact hr
  all_goals
    simp only [cruiseSteps]
    omega

/-- Settles O54: each delay and phase by the lemma of its profile and range. -/
theorem delaySequenceByProfile : Obligations.DelaySequenceByProfile := by
  refine ⟨fun p curve r c i sd td => ⟨fun h => ?ramp, fun h => ?afterRamp, fun h hc => ?const, fun h => ?rampDown⟩,
    fun f x a b => ⟨rfl, rfl⟩, fun p ch i => rfl, rfl, rfl, rfl⟩
  case ramp =>
    have hup := delayAt_full_rampUp p curve sd td c h
    exact ⟨hup, (delayAt_rampUpOnly_ramp p curve sd td c h).trans hup.symm, delayAt_rampDownOnly_ramp p curve sd td c h,
      phaseAt_full_rampUp c h, phaseAt_rampUpOnly_ramp c h, phaseAt_rampDownOnly_ramp c h⟩
  case afterRamp =>
    exact ⟨delayAt_rampUpOnly_const p curve sd td c h, delayAt_rampDownOnly_const p curve sd td c h,
      phaseAt_rampUpOnly_const c h, phaseAt_rampDownOnly_const c h⟩
  case const => exact ⟨delayAt_full_const p curve sd td h hc, phaseAt_full_const h hc⟩
  case rampDown => exact ⟨delayAt_full_rampDown p curve sd td h, phaseAt_full_rampDown h⟩

end

end

section
/-! PROOFS. `pulse_delay_sequencer` (42_pulse_delay_sequencer.md): the tick count of a delay, the sequencer's step at each
label, and where a move ends. -/

namespace Sys2Proof.Machine

open Binary64

/-! ## Ticks (R151 to R153) -/

/-- The product of a finite value with the sign bit clear and an integer is not negative. -/
theorem signedUnits_mul_ofNat_nonneg {d : B64} (hd : finite d = true) (hs : signBit d = false) {n : Nat}
    (hn : n < 2 ^ 53) : 0 ≤ signedUnits (mul d (ofNat n)) := by
  have hmul : mul d (ofNat n) = withSign false (roundUnits (units d * units (ofNat n)) unitsPerOne) := by
    simp [mul, isNaN_of_finite hd, isNaN_ofNat, isInf_of_finite hd, isInf_ofNat hn, hs, signBit_ofNat]
  rw [hmul, signedUnits_withSign_false (roundUnits_lt _ _)]
  exact Int.natCast_nonneg _

theorem toNat_ticks_of_finite {p : Params} {d : B64} (h : finite (mul d (ofNat p.tickHz.toNat)) = true) :
    (ticks p d).toNat = min (floor (mul d (ofNat p.tickHz.toNat))).toNat 4294967295 := by
  simp only [ticks, h, if_true, BitVec.toNat_ofNat]
  omega

theorem validDelay_iff {p : Params} {d : B64} : validDelay p d = true ↔ lt 0#64 d = true ∧ 1 ≤ (ticks p d).toNat := by
  rw [validDelay, Bool.and_eq_true, bne_iff_ne, Nat.one_le_iff_ne_zero, ne_eq, ne_eq, BitVec.toNat_eq, BitVec.toNat_zero]

/-! ## The sequencer's step at each label (R155, R161) -/

theorem sequencerStep_missing {s : State} {c : Nat} (h : s.chans[c]? = none) : sequencerStep c s = s := by
  simp only [sequencerStep, h]

section

variable {s : State} {c : Nat} {ch : Channel} (hch : s.chans[c]? = some ch)

include hch

theorem sequencerStep_idle (h : ch.seq = .idle) : sequencerStep c s = s := by
  simp only [sequencerStep, hch, h]

theorem sequencerStep_s0 (h : ch.seq = .s0) : sequencerStep c s = s.setChan c { ch with seq := .s1 } := by
  simp only [sequencerStep, hch, h]

theorem sequencerStep_s1_empty (h : ch.seq = .s1) (h0 : ch.total = 0#32) :
    sequencerStep c s = finish c ch (emptyResult s) s := by
  simp only [sequencerStep, hch, h, h0, if_true]

theorem sequencerStep_s1 (h : ch.seq = .s1) (h0 : ch.total ≠ 0#32) :
    sequencerStep c s = s.setChan c { ch with seq := .s2 } := by
  simp only [sequencerStep, hch, h, h0, if_false]

theorem sequencerStep_s2 (h : ch.seq = .s2) : sequencerStep c s = directCheck c ch s := by
  simp only [sequencerStep, hch, h]

theorem sequencerStep_s3 {k : Word} (h : ch.seq = .s3 k) :
    sequencerStep c s = s.setChan c { ch with stepPin := false, seq := .s4 k } := by
  simp only [sequencerStep, hch, h]

theorem sequencerStep_s4 {k : Word} (h : ch.seq = .s4 k) :
    sequencerStep c s = s.setChan c { ch with steps := ch.steps + 1#32, idx := ch.idx + 1#32, seq := .s2 } := by
  simp only [sequencerStep, hch, h]

theorem sequencerStep_c0 (h : ch.seq = .c0) : sequencerStep c s = s.setChan c { ch with seq := .c1 } := by
  simp only [sequencerStep, hch, h]

theorem sequencerStep_c1_empty (h : ch.seq = .c1) (h0 : ch.total = 0#32) :
    sequencerStep c s = finish c ch (emptyResult s) s := by
  simp only [sequencerStep, hch, h, h0, if_true]

theorem sequencerStep_c1 (h : ch.seq = .c1) (h0 : ch.total ≠ 0#32) :
    sequencerStep c s = s.setChan c { ch with seq := .c2 } := by
  simp only [sequencerStep, hch, h, h0, if_false]

theorem sequencerStep_c2 (h : ch.seq = .c2) : sequencerStep c s = chunkCheck c ch s := by
  simp only [sequencerStep, hch, h]

theorem sequencerStep_c3_busy {ndrop e : Nat} (h : ch.seq = .c3 ndrop e) (hw : ch.waveBusy = true) :
    sequencerStep c s = s := by
  simp only [sequencerStep, hch, h, hw, if_true]

theorem sequencerStep_c3 {ndrop e : Nat} (h : ch.seq = .c3 ndrop e) (hw : ch.waveBusy = false) :
    sequencerStep c s = s.setChan c (ch.chunkPlayed ndrop e) := by
  simp only [sequencerStep, hch, h, hw, Bool.false_eq_true, if_false]

end

/-! ## The branches of `[S2]` -/

section

variable {s : State} {c : Nat} {ch : Channel}

theorem directCheck_end (h : ch.idx = ch.total) : directCheck c ch s = finish c ch .complete s :=
  if_pos h

theorem directCheck_stopped (h : ch.idx ≠ ch.total) (hr : s.run = false) :
    directCheck c ch s = finish c ch .cancelled s := by
  rw [directCheck, if_neg h, if_pos hr]

theorem directCheck_drop (h : ch.idx ≠ ch.total) (hr : s.run = true)
    (hd : validDelay s.params (delayOf s.params ch ch.idx.toNat) = false) :
    directCheck c ch s = s.setChan c { ch with dropped := ch.dropped + 1#32, idx := ch.idx + 1#32 } := by
  simp only [directCheck, h, hr, hd, Bool.true_eq_false, Bool.false_eq_true, if_false]

theorem directCheck_pulse (h : ch.idx ≠ ch.total) (hr : s.run = true)
    (hd : validDelay s.params (delayOf s.params ch ch.idx.toNat) = true) :
    directCheck c ch s = s.setChan c
      { ch.raiseStep (ticks s.params (delayOf s.params ch ch.idx.toNat)) with
        seq := .s3 (ticks s.params (delayOf s.params ch ch.idx.toNat)) } := by
  simp only [directCheck, h, hr, hd, Bool.true_eq_false, if_false, if_true]

end

/-! ## Where a move ends (R169) -/

/-- The labels at which a sequencer may end its move. -/
def FinishLabel (q : SeqPos) : Prop := q = .s1 ∨ q = .s2 ∨ q = .c1 ∨ q = .c2

/-- What becomes of a channel's move in a step from `a` to `b`: it goes on, or it ends by `finish` at one of those labels. -/
def MoveGoesOnOrEnds (a b : Channel) : Prop :=
  (a.moving = true → b.moving = true) ∨ FinishLabel a.seq ∧ ∃ r, b = a.finished r

theorem MoveGoesOnOrEnds.of_moving_eq {a b : Channel} (h : b.moving = a.moving) : MoveGoesOnOrEnds a b :=
  .inl h.trans

theorem MoveGoesOnOrEnds.of_idle {a b : Channel} (h : a.moving = false) : MoveGoesOnOrEnds a b :=
  .inl fun hm => absurd (h.symm.trans hm) Bool.false_ne_true

/-- A step that keeps the channels. -/
theorem MoveGoesOnOrEnds.of_same {l : List Channel} {c : Nat} {a b : Channel} (ha : l[c]? = some a)
    (hb : l[c]? = some b) : MoveGoesOnOrEnds a b :=
  .of_moving_eq (congrArg _ (Option.some.inj (hb.symm.trans ha)))

/-- A step that writes channel `k`. -/
theorem MoveGoesOnOrEnds.of_set {l : List Channel} {c k : Nat} {a b x : Channel}
    (hx : ∀ ch, l[k]? = some ch → MoveGoesOnOrEnds ch x) (ha : l[c]? = some a) (hb : (l.set k x)[c]? = some b) :
    MoveGoesOnOrEnds a b := by
  by_cases hk : k = c
  · subst hk
    rw [List.getElem?_set_self (List.getElem?_eq_some_iff.1 ha).1] at hb
    exact Option.some.inj hb ▸ hx a ha
  · rw [List.getElem?_set_ne hk] at hb
    exact .of_same ha hb

theorem directCheck_chans (c : Nat) (ch : Channel) (s : State) (h : ch.seq = .s2) :
    ∃ b, (directCheck c ch s).chans = s.chans.set c b ∧ MoveGoesOnOrEnds ch b := by
  have hq : FinishLabel ch.seq := .inr (.inl h)
  rcases directCheck_cases c ch s with ⟨-, e⟩ | ⟨-, -, e⟩ | ⟨-, -, -, e⟩ | ⟨-, -, -, e⟩ <;> rw [e]
  · exact ⟨_, rfl, .inr ⟨hq, _, rfl⟩⟩
  · exact ⟨_, rfl, .inr ⟨hq, _, rfl⟩⟩
  · exact ⟨_, rfl, .of_moving_eq rfl⟩
  · exact ⟨_, rfl, .of_moving_eq rfl⟩

theorem chunkCheck_chans (c : Nat) (ch : Channel) (s : State) (h : ch.seq = .c2) :
    ∃ b, (chunkCheck c ch s).chans = s.chans.set c b ∧ MoveGoesOnOrEnds ch b := by
  have hq : FinishLabel ch.seq := .inr (.inr (.inr h))
  have hdraw : (drawWaveFault s).2.chans = s.chans := (Drawn.same (.inr rfl)).chans
  rcases chunkCheck_cases c ch s with
    ⟨-, e⟩ | ⟨-, -, e⟩ | ⟨-, -, -, e⟩ | ⟨-, -, -, -, e⟩ | ⟨-, -, -, -, e⟩ <;> rw [e]
  · exact ⟨_, rfl, .inr ⟨hq, _, rfl⟩⟩
  · exact ⟨_, rfl, .inr ⟨hq, _, rfl⟩⟩
  · exact ⟨_, rfl, .of_moving_eq rfl⟩
  · exact ⟨_, (finish_chans _ _ _ _).trans (congrArg (List.set · c _) hdraw), .inr ⟨hq, _, rfl⟩⟩
  · exact ⟨_, (setChan_chans _ _ _).trans (congrArg (List.set · c _) hdraw), .of_moving_eq rfl⟩

/-- What a sequencer's step makes of its channel; it writes no other. -/
theorem sequencerStep_chans {s : State} {c : Nat} {ch : Channel} (hch : s.chans[c]? = some ch) :
    ∃ b, (sequencerStep c s).chans = s.chans.set c b ∧ MoveGoesOnOrEnds ch b := by
  have hself : s.chans = s.chans.set c ch := by
    obtain ⟨hc, hget⟩ := List.getElem?_eq_some_iff.1 hch
    rw [← hget, List.set_getElem_self]
  cases hq : ch.seq with
  | idle => exact ⟨ch, (congrArg State.chans (sequencerStep_idle hch hq)).trans hself, .of_moving_eq rfl⟩
  | s0 => exact ⟨_, congrArg State.chans (sequencerStep_s0 hch hq), .of_moving_eq rfl⟩
  | s1 =>
    by_cases h0 : ch.total = 0#32
    · exact ⟨_, congrArg State.chans (sequencerStep_s1_empty hch hq h0), .inr ⟨.inl hq, _, rfl⟩⟩
    · exact ⟨_, congrArg State.chans (sequencerStep_s1 hch hq h0), .of_moving_eq rfl⟩
  | s2 => exact sequencerStep_s2 hch hq ▸ directCheck_chans c ch s hq
  | s3 k => exact ⟨_, congrArg State.chans (sequencerStep_s3 hch hq), .of_moving_eq rfl⟩
  | s4 k => exact ⟨_, congrArg State.chans (sequencerStep_s4 hch hq), .of_moving_eq rfl⟩
  | c0 => exact ⟨_, congrArg State.chans (sequencerStep_c0 hch hq), .of_moving_eq rfl⟩
  | c1 =>
    by_cases h0 : ch.total = 0#32
    · exact ⟨_, congrArg State.chans (sequencerStep_c1_empty hch hq h0), .inr ⟨.inr (.inr (.inl hq)), _, rfl⟩⟩
    · exact ⟨_, congrArg State.chans (sequencerStep_c1 hch hq h0), .of_moving_eq rfl⟩
  | c2 => exact sequencerStep_c2 hch hq ▸ chunkCheck_chans c ch s hq
  | c3 ndrop e =>
    cases hw : ch.waveBusy with
    | true => exact ⟨ch, (congrArg State.chans (sequencerStep_c3_busy hch hq hw)).trans hself, .of_moving_eq rfl⟩
    | false => exact ⟨_, congrArg State.chans (sequencerStep_c3 hch hq hw), .of_moving_eq rfl⟩

@[simp] theorem driveEntry_moving (ch : Channel) (pos : Nat) : (ch.driveEntry pos).moving = ch.moving := by
  unfold Channel.driveEntry
  split
  · split <;> rfl
  · rfl
  · rfl

@[simp] theorem advanceEngine_moving (ch : Channel) (pos : Nat) : (ch.advanceEngine pos).moving = ch.moving := by
  unfold Channel.advanceEngine
  split <;> rfl

section

variable {s t : State} {c : Nat} {a b : Channel}

theorem sequencerStep_moveGoesOnOrEnds (k : Nat) (ha : s.chans[c]? = some a)
    (hb : (sequencerStep k s).chans[c]? = some b) : MoveGoesOnOrEnds a b := by
  cases hk : s.chans[k]? with
  | none => exact .of_same ha (sequencerStep_missing hk ▸ hb)
  | some ch =>
    obtain ⟨x, hx, hmove⟩ := sequencerStep_chans hk
    exact .of_set (fun _ h => Option.some.inj (hk.symm.trans h) ▸ hmove) ha (hx ▸ hb)

theorem engineStep_moveGoesOnOrEnds (k : Nat) (ha : s.chans[c]? = some a)
    (hb : (engineStep k s).chans[c]? = some b) : MoveGoesOnOrEnds a b := by
  unfold engineStep at hb
  split at hb
  · exact .of_same ha hb
  · next ch hk =>
    split at hb
    · refine .of_set (fun x hx => .of_moving_eq ?_) ha hb
      rw [advanceEngine_moving, driveEntry_moving, Option.some.inj (hk.symm.trans hx)]
    · exact .of_same ha hb

/-- No command ends a move: those that write MOVING run on an IDLE channel. -/
theorem exec_moveGoesOnOrEnds {i : Instr} (h : exec i s = .next t) (ha : s.chans[c]? = some a)
    (hb : t.chans[c]? = some b) : MoveGoesOnOrEnds a b := by
  have onIdle : ∀ {k : BitVec 4} {x y : Channel}, IdleChannel s k y → (s.chans.set k.toNat x)[c]? = some b →
      MoveGoesOnOrEnds a b := fun hidle hset =>
    .of_set (fun _ hz => .of_idle (Option.some.inj (hidle.there.symm.trans hz) ▸ hidle.idle)) ha hset
  cases exec_case h with
  | refused _ code detail hc hu => subst hu; exact .of_same ha hb
  | moveRefused k dir profile curve given x code detail at' hv hu => subst hu; exact onIdle at' hb
  | moveAccepted k dir profile curve given x at' hv hu => subst hu; exact onIdle at' hb
  | stopped hu => subst hu; exact .of_same ha hb
  | cleared idle hu => exact .of_idle (idle a (List.mem_of_getElem? ha))
  | pprSet k x at' hn hu => subst hu; exact onIdle at' hb
  | emitSet k e x at' hu => subst hu; exact onIdle at' hb
  | statsCleared k x at' hu => subst hu; exact onIdle at' hb
  | snapped k x there hu => subst hu; exact .of_same ha hb
  | labelSet k x there hu =>
    subst hu
    refine .of_set (fun y hy => ?_) ha hb
    rw [Option.some.inj (hy.symm.trans there)]
    exact .of_moving_eq rfl

/-- In every step a channel's move goes on, or it ends by `finish` at one of the finish labels. -/
theorem step_moveGoesOnOrEnds (h : step s = .next t) (ha : s.chans[c]? = some a) (hb : t.chans[c]? = some b) :
    MoveGoesOnOrEnds a b := by
  have hturn : (takeTurn s).chans[c]? = some a := (takeTurn_same s).chans ▸ ha
  cases step_case h with
  | outside h => exact .of_same ha (h.chans ▸ hb)
  | command i m u h => exact exec_moveGoesOnOrEnds h.runs (h.same.chans ▸ ha) (h.after.chans ▸ hb)
  | illegal op e h => exact .of_same ha (h.chans ▸ hb)
  | clearDone v more _ hh h => exact .of_same ha (h.chans ▸ hb)
  | setEnable v h => exact .of_same ha (h.chans ▸ hb)
  | sequencer k _ h => exact sequencerStep_moveGoesOnOrEnds k hturn (h ▸ hb)
  | engine k _ h => exact engineStep_moveGoesOnOrEnds k hturn (h ▸ hb)

end

/-- At a finish label the outputs are low, and the label is one of the channel's emission mode. -/
theorem Channel.Inv.at_finishLabel {ch : Channel} (hi : ch.Inv) (hq : FinishLabel ch.seq) :
    engineStill ch false ∧ (ch.emit = .direct → ch.seq = .s1 ∨ ch.seq = .s2) ∧
      (ch.emit = .chunked → ch.seq = .c1 ∨ ch.seq = .c2) := by
  have hshape := hi.shape
  have hmode := hi.mode
  rcases hq with h | h | h | h <;> simp only [emissionShape, modeMatches, h] at hshape hmode <;>
    simp [hshape.1, hmode, h]

end Sys2Proof.Machine

section

open Sys2Proof Sys2Proof.Machine Sys2Proof.Machine.Binary64

/-- Settles O52: the product is not negative, so its floor is a natural number; the worked values by evaluation. -/
theorem tickConversion : Obligations.TickConversion := by
  refine ⟨fun p d hd hpos hq => ?_, by decide +kernel, by decide +kernel, by decide +kernel, by decide +kernel⟩
  have hfloor : 0 ≤ floor (mul d (ofNat p.tickHz.toNat)) :=
    Int.ediv_nonneg
      (signedUnits_mul_ofNat_nonneg hd (signBit_of_pos hpos) (lt_trans p.tickHz.isLt (by decide)))
      (Int.natCast_nonneg _)
  rw [toNat_ticks_of_finite hq]
  split <;> omega

/-- Settles O33: one equation for each label and each branch of `[S2]`; the rule's example by evaluation. -/
theorem directSequencerSteps : Obligations.DirectSequencerSteps := by
  refine ⟨?steps, ?fourDelays⟩
  case steps =>
    rintro s c ch d hch rfl
    exact ⟨sequencerStep_s0 hch, sequencerStep_s1_empty hch, sequencerStep_s1 hch,
      fun h hi => (sequencerStep_s2 hch h).trans (directCheck_end hi),
      fun h hi hr => (sequencerStep_s2 hch h).trans (directCheck_stopped hi hr),
      fun h hi hr hd => (sequencerStep_s2 hch h).trans (directCheck_drop hi hr (Bool.eq_false_iff.2 (mt validDelay_iff.1 hd))),
      fun h hi hr hd => (sequencerStep_s2 hch h).trans (directCheck_pulse hi hr (validDelay_iff.2 hd)),
      fun _ => sequencerStep_s3 hch, fun _ => sequencerStep_s4 hch⟩
  case fourDelays =>
    rintro s rfl
    decide +kernel

/-- Settles O32: a move ends by `finish` at a finish label, where the invariant has STEP and the engine at rest, and `finish`
drives no pin. -/
theorem finishLeavesOutputsLow : Obligations.FinishLeavesOutputsLow := by
  intro s t c a b hinv hstep ha hb hmoving hidle
  rcases step_moveGoesOnOrEnds hstep ha hb with hgoes | ⟨hlabel, r, rfl⟩
  · exact absurd (hidle.symm.trans (hgoes hmoving)) Bool.false_ne_true
  · obtain ⟨⟨hpin, hwave, -, -⟩, hmode⟩ := (hinv.channels a (List.mem_of_getElem? ha)).at_finishLabel hlabel
    exact ⟨hpin, hwave, hmode⟩

end

end

section
/-! PROOFS. MOVE and the end of a move (43_motion_commands.md): the BUSY check, `validate`, `accept`, `finish`, and the steps
that change MOVING. -/

namespace Sys2Proof.Machine

open Binary64

/-! ## The generator's values as the rules write them (R120 to R126) -/

theorem ofNat_two : ofNat 2 = two := by decide +kernel

theorem halfStepDelay_eq (ppr : Word) (rpm : B64) :
    halfStepDelay ppr rpm = div (ofNat 60) (mul (mul (ofNat 2) (ofNat ppr.toNat)) rpm) := by
  rw [halfStepDelay, ofNat_two]

theorem signedUnits_eq_zero_iff {x : B64} : signedUnits x = 0 ↔ units x = 0 := by
  unfold signedUnits
  split <;> omega

/-- A finite value equals 0 exactly when it is one of the two zeros. -/
theorem eq_zero_eq_isZero {x : B64} (hx : finite x = true) : eq x 0#64 = isZero x := by
  have hzero : isNaN 0#64 = false := by decide
  rw [eq, isNaN_of_finite hx, hzero, signedUnits_zero, isZero, decide_eq_decide.2 signedUnits_eq_zero_iff]
  rfl

theorem totalSteps_eq {rt : B64} (ppr : Word) (t : B64) (hrt : finite rt = true) :
    totalSteps ppr t rt =
      if eq rt 0#64 then 0 else (floor (mul (div (mul (ofNat ppr.toNat) t) (ofNat 60)) rt)).toNat := by
  rw [totalSteps, eq_zero_eq_isZero hrt, stepProduct]

theorem rampSteps_rampStepsArg (p : Params) (v t : B64) (given : Bool) (s : State) (total : Nat) :
    rampSteps p v t (rampStepsArg given s) total =
      if given then min s.args[6].toNat (total / 2)
      else if le (ofNat (total / 2)) (mul p.rampBase (div (abs (sub t v)) (ofNat 20))) then total / 2
      else (floor (mul p.rampBase (div (abs (sub t v)) (ofNat 20)))).toNat := by
  cases given with
  | true => rw [rampStepsArg, if_pos rfl, if_pos rfl, rampSteps]
  | false => rw [rampStepsArg, if_neg Bool.false_ne_true, if_neg Bool.false_ne_true, rampSteps, autoRamp]

theorem cruiseSteps_eq (profile : Profile) (total r : Nat) :
    cruiseSteps profile total r = if profile = .full then total - 2 * r else total - r := by
  cases profile <;> rfl

theorem startLabel_eq (e : EmitMode) : startLabel e = if e = .direct then .s0 else .c0 := by
  cases e <;> rfl

/-! ## `validate` (R182) -/

theorem stepCountExceeded_iff {ppr : Word} {t rt : B64} (hrt : finite rt = true) :
    stepCountExceeded ppr t rt = true ↔
      eq rt 0#64 = false ∧
        (finite (stepProduct ppr t rt) = false ∨ le (ofNat 4294967296) (stepProduct ppr t rt) = true) := by
  rw [stepCountExceeded, eq_zero_eq_isZero hrt, Bool.and_eq_true, Bool.or_eq_true, Bool.not_eq_true', Bool.not_eq_true']
  rfl

theorem tickRangeExceeded_eq (p : Params) (sd td : B64) :
    tickRangeExceeded p sd td =
      le (ofNat 4294967296) (mul (if le td sd then sd else td) (ofNat p.tickHz.toNat)) :=
  rfl

theorem not_and_eq_true_iff {x y : Bool} : (!(x && y)) = true ↔ ¬ (x = true ∧ y = true) := by
  rw [Bool.not_eq_true', ← Bool.not_eq_true, Bool.and_eq_true]

/-- The six checks as propositions, the sixth with the rule's comparison of the run time with 0. -/
theorem validate_eq (p : Params) (ppr : Word) (v t rt : B64) :
    validate p ppr v t rt =
      if ppr = 0#32 then some (.invalidSpec, 1#4)
      else if ¬ (finite v = true ∧ lt 0#64 v = true) then some (.invalidSpeed, 1#4)
      else if ¬ (finite t = true ∧ lt 0#64 t = true) then some (.invalidSpeed, 2#4)
      else if ¬ (finite rt = true ∧ le 0#64 rt = true) then some (.invalidSpec, 2#4)
      else if tickRangeExceeded p (halfStepDelay ppr v) (halfStepDelay ppr t) = true then some (.invalidSpeed, 3#4)
      else if eq rt 0#64 = false ∧
          (finite (stepProduct ppr t rt) = false ∨ le (ofNat 4294967296) (stepProduct ppr t rt) = true) then
        some (.invalidSpec, 3#4)
      else none := by
  unfold validate
  refine if_congr Iff.rfl rfl (if_congr not_and_eq_true_iff rfl (if_congr not_and_eq_true_iff rfl ?_))
  by_cases hrt : finite rt = true ∧ le 0#64 rt = true
  · rw [if_neg (mt not_and_eq_true_iff.1 (not_not.2 hrt)), if_neg (not_not.2 hrt)]
    exact if_congr Iff.rfl rfl (if_congr (stepCountExceeded_iff hrt.1) rfl rfl)
  · rw [if_pos (not_and_eq_true_iff.2 hrt), if_pos hrt]

/-- CMD_STATUS of a MOVE on an IDLE channel with the outcome of `validate`. -/
def moveStatus : Option (StatusCode × BitVec 4) → Word
  | some (code, detail) => statusWord 0x03#8 code detail
  | none => statusWord 0x03#8 .ok 0#4

/-! ## MOVE on a MOVING and on an IDLE channel (R180, R195) -/

section

variable {s : State} {ch : BitVec 4} {c : Channel} (hc : s.chans[ch.toNat]? = some c)

include hc

theorem exec_move_busy (hm : c.moving = true) (dir : Bool) (profile : Profile) (curve : Curve) (given : Bool) :
    exec (.move ch dir profile curve given) s = .next (setStatus (statusWord 0x03#8 .busy 1#4) s) :=
  onIdleChannel_moving _ hc hm

theorem exec_move_refused (hm : c.moving = false) {failure : StatusCode × BitVec 4}
    (hv : validate s.params c.ppr (startRpmArg s) (targetRpmArg s) (runTimeArg s) = some failure)
    (dir : Bool) (profile : Profile) (curve : Curve) (given : Bool) :
    exec (.move ch dir profile curve given) s =
      .next (setStatus (moveStatus (some failure)) (s.setChan ch.toNat (c.driveDir dir))) := by
  refine (onIdleChannel_idle _ hc hm).trans ?_
  rw [hv]
  rfl

theorem exec_move_accepted (hm : c.moving = false)
    (hv : validate s.params c.ppr (startRpmArg s) (targetRpmArg s) (runTimeArg s) = none)
    (dir : Bool) (profile : Profile) (curve : Curve) (given : Bool) :
    exec (.move ch dir profile curve given) s =
      .next (setStatus (moveStatus none) (s.setChan ch.toNat
        ((c.driveDir dir).accepted s.params s.time (startRpmArg s) (targetRpmArg s) (runTimeArg s) dir profile curve
          (rampStepsArg given s)))) := by
  refine (onIdleChannel_idle _ hc hm).trans ?_
  rw [hv]
  rfl

end

/-! ## The DONE bit and IRQ at the end of a move (R190) -/

theorem doneBit_eq_shiftLeft (c : Nat) : doneBit c = 1#16 <<< c := by
  apply BitVec.eq_of_toNat_eq
  rw [doneBit, BitVec.toNat_ofNat, BitVec.toNat_shiftLeft, Nat.shiftLeft_eq]
  simp

theorem irqOf_eq_true_iff {status enable : BitVec 16} : irqOf status enable = true ↔ status &&& enable ≠ 0#16 :=
  bne_iff_ne

theorem irqOf_eq_false_iff {status enable : BitVec 16} : irqOf status enable = false ↔ status &&& enable = 0#16 :=
  bne_eq_false_iff_eq

/-- Setting bits of IRQ_STATUS does not drop IRQ. -/
theorem irqOf_or_of_irqOf {status enable : BitVec 16} (bits : BitVec 16) (h : irqOf status enable = true) :
    irqOf (status ||| bits) enable = true := by
  rw [irqOf_eq_true_iff, BitVec.and_comm] at h ⊢
  rw [BitVec.and_or_distrib_left]
  exact fun hz => h (BitVec.or_eq_zero_iff.1 hz).1

/-- Setting bits of IRQ_STATUS changes IRQ exactly when it raises IRQ. -/
theorem irqOf_or_eq_iff {status enable bits : BitVec 16} :
    irqOf (status ||| bits) enable = irqOf status enable ↔
      ¬ (status &&& enable = 0#16 ∧ (status ||| bits) &&& enable ≠ 0#16) := by
  rw [← irqOf_eq_false_iff, ← irqOf_eq_true_iff]
  cases h : irqOf status enable with
  | true => simp [irqOf_or_of_irqOf bits h]
  | false => simp

/-- `finish` adds no pin event, so an IrqLevel event stands at the same place before and after it. -/
theorem irqEvent_setChan_finished {s : State} {c : Nat} {ch : Channel} (hch : s.chans[c]? = some ch) (res : Result)
    (level : Bool) : irqEvent level (s.setChan c (ch.finished res)) = irqEvent level s := by
  have hplace : s.chans.map (·.events.length) = (s.chans.map (·.events.length)).set c ch.events.length := by
    obtain ⟨hc, rfl⟩ := List.getElem?_eq_some_iff.1 hch
    rw [← List.map_set, List.set_getElem_self]
  rw [irqEvent, irqEvent, setChan_chans, List.map_set, finished_events, ← hplace]

/-- `finish` records IrqLevel(1) exactly when its DONE bit raises IRQ. -/
theorem finish_irqEvents_of_rise {s : State} {c : Nat} {ch : Channel} (hch : s.chans[c]? = some ch) (res : Result) :
    (finish c ch res s).irqEvents =
      if s.irqStatus &&& s.irqEnable = 0#16 ∧ (s.irqStatus ||| doneBit c) &&& s.irqEnable ≠ 0#16 then
        irqEvent true s :: s.irqEvents
      else s.irqEvents := by
  rw [finish_irqEvents, irqEvent_setChan_finished hch]
  by_cases hrise : s.irqStatus &&& s.irqEnable = 0#16 ∧ (s.irqStatus ||| doneBit c) &&& s.irqEnable ≠ 0#16
  · rw [if_neg (irqOf_or_eq_iff.not.2 (not_not.2 hrise)), if_pos hrise, irqOf_eq_true_iff.2 hrise.2]
  · rw [if_pos (irqOf_or_eq_iff.2 hrise), if_neg hrise]

/-! ## The steps that change MOVING (R194) -/

/-- The step from `s` to `t` accepts a MOVE, which takes the channel `a` to `b` (R181). -/
structure AcceptsMove (s t : State) (a b : Channel) : Prop where
  cmdStatus : t.cmdStatus = 0x00000300#32
  statuses : t.statuses = 0x00000300#32 :: s.statuses
  channel : ∃ v t rt dir profile curve ramp,
    b = (a.driveDir dir).accepted s.params s.time v t rt dir profile curve ramp

theorem AcceptsMove.congr {s m u t : State} {a b : Channel} (h : AcceptsMove m u a b) (hs : SameBlock s m)
    (htime : m.time = s.time) (ht : SameBlock u t) : AcceptsMove s t a b :=
  ⟨ht.cmdStatus.trans h.cmdStatus, by rw [ht.statuses, h.statuses, hs.statuses], hs.params ▸ htime ▸ h.channel⟩

/-- The step from `s` to `t` ends the move of channel `c` by `finish`, which takes the channel `a` to `b` (R190). -/
structure FinishesMove (c : Nat) (s t : State) (a b : Channel) : Prop where
  channel : ∃ r, r ≠ Result.none ∧ b = a.finished r
  irqStatus : t.irqStatus = s.irqStatus ||| doneBit c

/-- What becomes of channel `c`, which is `ch`, in a step of its own sequencer from `s` to `t`. -/
inductive SequencerMove (c : Nat) (ch : Channel) (s t : State) : Prop where
  | still (h : t = s)
  | goesOn (b : Channel) (h : t.chans = s.chans.set c b) (hm : b.moving = ch.moving)
  | ends (d : State) (r : Result) (hd : Drawn s d) (hr : r ≠ .none) (h : t = finish c ch r d)

theorem emptyResult_ne_none (s : State) : emptyResult s ≠ .none := by
  unfold emptyResult
  split <;> decide

theorem directCheck_sequencerMove (c : Nat) (ch : Channel) (s : State) : SequencerMove c ch s (directCheck c ch s) := by
  rcases directCheck_cases c ch s with ⟨-, h⟩ | ⟨-, -, h⟩ | ⟨-, -, -, h⟩ | ⟨-, -, -, h⟩
  · exact .ends s _ (.inl rfl) (by decide) h
  · exact .ends s _ (.inl rfl) (by decide) h
  · exact .goesOn _ (congrArg State.chans h) rfl
  · exact .goesOn _ (congrArg State.chans h) rfl

theorem chunkCheck_sequencerMove (c : Nat) (ch : Channel) (s : State) : SequencerMove c ch s (chunkCheck c ch s) := by
  have hdraw : (drawWaveFault s).2.chans = s.chans := (Drawn.same (.inr rfl)).chans
  rcases chunkCheck_cases c ch s with
    ⟨-, h⟩ | ⟨-, -, h⟩ | ⟨-, -, -, h⟩ | ⟨-, -, -, -, h⟩ | ⟨-, -, -, -, h⟩
  · exact .ends s _ (.inl rfl) (by decide) h
  · exact .ends s _ (.inl rfl) (by decide) h
  · exact .goesOn _ (congrArg State.chans h) rfl
  · exact .ends _ _ (.inr rfl) (by decide) h
  · exact .goesOn _ ((congrArg State.chans h).trans (congrArg (List.set · c _) hdraw)) rfl

/-- A sequencer keeps MOVING of its channel in every step but one that ends the move with a result. -/
theorem sequencerStep_sequencerMove {s : State} {c : Nat} {ch : Channel} (hch : s.chans[c]? = some ch) :
    SequencerMove c ch s (sequencerStep c s) := by
  cases hq : ch.seq with
  | idle => exact .still (sequencerStep_idle hch hq)
  | s0 => exact .goesOn _ (congrArg State.chans (sequencerStep_s0 hch hq)) rfl
  | s1 =>
    by_cases h0 : ch.total = 0#32
    · exact .ends s _ (.inl rfl) (emptyResult_ne_none s) (sequencerStep_s1_empty hch hq h0)
    · exact .goesOn _ (congrArg State.chans (sequencerStep_s1 hch hq h0)) rfl
  | s2 => exact sequencerStep_s2 hch hq ▸ directCheck_sequencerMove c ch s
  | s3 k => exact .goesOn _ (congrArg State.chans (sequencerStep_s3 hch hq)) rfl
  | s4 k => exact .goesOn _ (congrArg State.chans (sequencerStep_s4 hch hq)) rfl
  | c0 => exact .goesOn _ (congrArg State.chans (sequencerStep_c0 hch hq)) rfl
  | c1 =>
    by_cases h0 : ch.total = 0#32
    · exact .ends s _ (.inl rfl) (emptyResult_ne_none s) (sequencerStep_c1_empty hch hq h0)
    · exact .goesOn _ (congrArg State.chans (sequencerStep_c1 hch hq h0)) rfl
  | c2 => exact sequencerStep_c2 hch hq ▸ chunkCheck_sequencerMove c ch s
  | c3 ndrop e =>
    cases hw : ch.waveBusy with
    | true => exact .still (sequencerStep_c3_busy hch hq hw)
    | false => exact .goesOn _ (congrArg State.chans (sequencerStep_c3 hch hq hw)) rfl

section

variable {s t : State} {l : List Channel} {c : Nat} {a b : Channel}

/-- A channel after a write of channel `k`: the one written, or the one that stood there. -/
theorem getElem?_set_cases {k : Nat} {x : Channel} (ha : l[c]? = some a) (hb : (l.set k x)[c]? = some b) :
    (k = c ∧ b = x) ∨ b = a := by
  by_cases hk : k = c
  · subst hk
    rw [List.getElem?_set_self (List.getElem?_eq_some_iff.1 ha).1] at hb
    exact .inl ⟨rfl, (Option.some.inj hb).symm⟩
  · rw [List.getElem?_set_ne hk, ha] at hb
    exact .inr (Option.some.inj hb).symm

theorem moving_eq_of_same (ha : l[c]? = some a) (hb : l[c]? = some b) : b.moving = a.moving :=
  congrArg _ (Option.some.inj (hb.symm.trans ha))

/-- A write of channel `k` that keeps its MOVING keeps that of every channel. -/
theorem moving_eq_of_set {k : Nat} {x y : Channel} (hy : l[k]? = some y) (ha : l[c]? = some a)
    (hb : (l.set k x)[c]? = some b) (hx : x.moving = y.moving) : b.moving = a.moving := by
  rcases getElem?_set_cases ha hb with ⟨rfl, rfl⟩ | rfl
  · rw [hx, Option.some.inj (hy.symm.trans ha)]
  · rfl

/-- The one command that changes MOVING is a MOVE that is accepted. -/
theorem exec_moving {i : Instr} (h : exec i s = .next t) (ha : s.chans[c]? = some a) (hb : t.chans[c]? = some b) :
    b.moving = a.moving ∨ AcceptsMove s t a b := by
  cases exec_case h with
  | refused _ code detail hc hu => subst hu; exact .inl (moving_eq_of_same ha hb)
  | moveRefused k dir profile curve given y code detail at' hv hu =>
    subst hu; exact .inl (moving_eq_of_set at'.there ha hb rfl)
  | moveAccepted k dir profile curve given y at' hv hu =>
    subst hu
    rcases getElem?_set_cases ha hb with ⟨rfl, rfl⟩ | rfl
    · obtain rfl : y = a := Option.some.inj (at'.there.symm.trans ha)
      exact .inr ⟨rfl, rfl, _, _, _, _, _, _, _, rfl⟩
    · exact .inl rfl
  | stopped hu => subst hu; exact .inl (moving_eq_of_same ha hb)
  | cleared idle hu =>
    subst hu
    obtain rfl : a.clearMotion = b := by simpa [ha] using hb
    exact .inl rfl
  | pprSet k y at' hn hu => subst hu; exact .inl (moving_eq_of_set at'.there ha hb rfl)
  | emitSet k e y at' hu => subst hu; exact .inl (moving_eq_of_set at'.there ha hb rfl)
  | statsCleared k y at' hu => subst hu; exact .inl (moving_eq_of_set at'.there ha hb rfl)
  | snapped k y there hu => subst hu; exact .inl (moving_eq_of_same ha hb)
  | labelSet k y there hu => subst hu; exact .inl (moving_eq_of_set there ha hb rfl)

/-- A sequencer changes MOVING of its own channel only, and only by `finish`. -/
theorem sequencerStep_moving (k : Nat) (ha : s.chans[c]? = some a) (hb : (sequencerStep k s).chans[c]? = some b) :
    b.moving = a.moving ∨ k = c ∧ FinishesMove c s (sequencerStep k s) a b := by
  cases hk : s.chans[k]? with
  | none => exact .inl (moving_eq_of_same ha (sequencerStep_missing hk ▸ hb))
  | some y =>
    cases sequencerStep_sequencerMove hk with
    | still h => exact .inl (moving_eq_of_same ha (h ▸ hb))
    | goesOn x h hm => exact .inl (moving_eq_of_set hk ha (h ▸ hb) hm)
    | ends d r hd hr h =>
      rw [h, finish_chans, hd.same.chans] at hb
      rcases getElem?_set_cases ha hb with ⟨rfl, rfl⟩ | rfl
      · obtain rfl : y = a := Option.some.inj (hk.symm.trans ha)
        exact .inr ⟨rfl, ⟨r, hr, rfl⟩, by rw [h, finish_irqStatus, hd.same.irqStatus]⟩
      · exact .inl rfl

theorem engineStep_moving (k : Nat) (ha : s.chans[c]? = some a) (hb : (engineStep k s).chans[c]? = some b) :
    b.moving = a.moving := by
  unfold engineStep at hb
  split at hb
  · exact moving_eq_of_same ha hb
  · next y hk =>
    split at hb
    · exact moving_eq_of_set hk ha hb ((advanceEngine_moving _ _).trans (driveEntry_moving _ _))
    · exact moving_eq_of_same ha hb

/-- A step keeps MOVING of a channel, or accepts a MOVE on it, or is one of its sequencer that ends its move. -/
theorem step_moving (h : step s = .next t) (ha : s.chans[c]? = some a) (hb : t.chans[c]? = some b) :
    b.moving = a.moving ∨ AcceptsMove s t a b ∨ nextAgent s = .sequencer c ∧ FinishesMove c s t a b := by
  have hturn : (takeTurn s).chans[c]? = some a := (takeTurn_same s).chans ▸ ha
  cases step_case h with
  | outside h => exact .inl (moving_eq_of_same ha (h.chans ▸ hb))
  | command i m u h =>
    exact (exec_moving h.runs (h.same.chans ▸ ha) (h.after.chans ▸ hb)).imp_right fun hacc =>
      .inl (hacc.congr h.same h.time h.after)
  | illegal op e h => exact .inl (moving_eq_of_same ha (h.chans ▸ hb))
  | clearDone v more _ hh h => exact .inl (moving_eq_of_same ha (h.chans ▸ hb))
  | setEnable v h => exact .inl (moving_eq_of_same ha (h.chans ▸ hb))
  | sequencer k hagent h =>
    subst h
    refine (sequencerStep_moving k hturn hb).imp_right fun ⟨hk, hfin⟩ => .inr ⟨hk ▸ hagent, hfin.channel, ?_⟩
    rw [hfin.irqStatus, (takeTurn_same s).irqStatus]
  | engine k _ h => exact .inl (engineStep_moving k hturn (h ▸ hb))

end

end Sys2Proof.Machine

section

open Sys2Proof Sys2Proof.Machine Sys2Proof.Machine.Binary64

/-- Settles O16: with every check passed `validate` answers none, and `accept` computes the rules' values. -/
theorem moveAcceptedFillsRecord : Obligations.MoveAcceptedFillsRecord := by
  intro s ch c dir profile curve given v t rt sd td total r cr hc hm hvArg htArg hrtArg hsd htd hppr hv ht hrt htick
    hcount htotal hr hcr
  rw [← halfStepDelay_eq] at hsd htd
  have hvalid : validate s.params c.ppr v t rt = none := by
    rw [hsd, htd, ← tickRangeExceeded_eq] at htick
    rw [validate_eq, if_neg hppr, if_neg (not_not.2 hv), if_neg (not_not.2 ht), if_neg (not_not.2 hrt),
      if_neg (Bool.eq_false_iff.1 htick), if_neg]
    rintro ⟨hne, hbad⟩
    obtain ⟨hfin, hle⟩ := hcount hne
    exact hbad.elim (fun h => Bool.eq_false_iff.1 h hfin) (Bool.eq_false_iff.1 hle)
  rw [← totalSteps_eq _ _ hrt.1] at htotal
  rw [← rampSteps_rampStepsArg] at hr
  rw [← cruiseSteps_eq] at hcr
  rw [hcr, hr, htotal, hsd, htd]
  subst hvArg htArg hrtArg
  rw [exec_move_accepted hc hm hvalid, Channel.accepted, startLabel_eq]
  rfl

/-- Settles O17: the status is that of the first failing check of `validate`, and a refused MOVE drives only DIR. -/
theorem moveRefusedKeepsAllButDir : Obligations.MoveRefusedKeepsAllButDir := by
  intro s ch c dir profile curve given v t rt sd td word hc hm hvArg htArg hrtArg hsd htd hword hne
  have hstatus : word = moveStatus (validate s.params c.ppr v t rt) := by
    rw [hword, hsd, htd, ← halfStepDelay_eq, ← halfStepDelay_eq, ← tickRangeExceeded_eq, validate_eq]
    simp only [apply_ite moveStatus]
    rfl
  subst hvArg htArg hrtArg
  cases hvalid : validate s.params c.ppr (startRpmArg s) (targetRpmArg s) (runTimeArg s) with
  | none => exact absurd (hstatus.trans (congrArg moveStatus hvalid)) hne
  | some failure =>
    rw [exec_move_refused hc hm hvalid, ← hvalid, hstatus]
    rfl

/-- Settles O27: `step_moving` says which steps change MOVING, and what an accepted and a finished channel is. -/
theorem movingChangesOnlyByAcceptAndFinish : Obligations.MovingChangesOnlyByAcceptAndFinish := by
  intro s t c a b h ha hb
  rcases step_moving h ha hb with hkept | ⟨hcmd, hstatuses, _, _, _, _, _, _, _, rfl⟩ | ⟨hagent, ⟨r, hr, rfl⟩, hirq⟩
  · exact ⟨fun hidle hmoves => absurd (hmoves.symm.trans (hkept.trans hidle)) (by decide),
      fun hmoves hidle => absurd (hmoves.symm.trans (hkept.symm.trans hidle)) (by decide)⟩
  · refine ⟨fun _ _ => ?_, fun _ hidle => ?_⟩
    · simp [hcmd, hstatuses, startLabel_eq]
    · simp at hidle
  · refine ⟨fun _ hmoves => ?_, fun _ _ => ⟨hagent, hr, rfl, doneBit_eq_shiftLeft c ▸ hirq⟩⟩
    simp at hmoves

/-- Settles O14: the BUSY check comes before everything else a MOVE does. -/
theorem moveOnMovingChannelIsBusy : Obligations.MoveOnMovingChannelIsBusy :=
  fun _ _ _ hc hm dir profile curve given => exec_move_busy hc hm dir profile curve given

/-- Settles O31: `finish` field by field, the IrqLevel event by the rise of IRQ; the rule's sums by evaluation. -/
theorem finishUpdatesStatistics : Obligations.FinishUpdatesStatistics := by
  refine ⟨fun s c ch res _ hch => ?_, by decide +kernel, by decide +kernel⟩
  rw [← doneBit_eq_shiftLeft]
  have hfields : finish c ch res s =
      { s with
        chans := s.chans.set c (ch.finished res)
        irqStatus := s.irqStatus ||| doneBit c
        irqEvents := (finish c ch res s).irqEvents } := rfl
  rw [hfields, finish_irqEvents_of_rise hch]
  rfl

end

end

section
/-! PROOFS. The command word of every command decodes to that command on a block that has its channel (30_encoding.md
R81, R86, R87), and the words of the control commands written out (44_control_commands.md). -/

namespace Sys2Proof

open Laws

/-! ## The fields of a command word -/

section

variable (emit given curve : Bool) (profile : BitVec 2) (dir : Bool) (ch : BitVec 4) (op : BitVec 8)

@[simp] theorem chField_commandWord : chField (commandWord emit given curve profile dir ch op) = ch := by
  ext i hi
  interval_cases i <;> simp [chField, commandWord_eq_or]

@[simp] theorem dirField_commandWord : dirField (commandWord emit given curve profile dir ch op) = dir := by
  simp [dirField, commandWord_eq_or]

@[simp] theorem profileField_commandWord : profileField (commandWord emit given curve profile dir ch op) = profile := by
  ext i hi
  interval_cases i <;> simp [profileField, commandWord_eq_or]

@[simp] theorem curveField_commandWord : curveField (commandWord emit given curve profile dir ch op) = curve := by
  simp [curveField, commandWord_eq_or]

@[simp] theorem rampGivenField_commandWord :
    rampGivenField (commandWord emit given curve profile dir ch op) = given := by
  simp [rampGivenField, commandWord_eq_or]

@[simp] theorem emitField_commandWord : emitField (commandWord emit given curve profile dir ch op) = emit := by
  simp [emitField, commandWord_eq_or]

end

/-! ## Codes read back -/

theorem Profile.ofCode_code (p : Profile) : Profile.ofCode p.code = some p := by cases p <;> rfl

theorem Curve.ofCode_code (k : Curve) : Curve.ofCode k.code = k := by cases k <;> rfl

theorem EmitMode.ofCode_code (e : EmitMode) : EmitMode.ofCode e.code = e := by cases e <;> rfl

/-! ## The word of a command -/

theorem encodedWord (i : Instr) : EncodedWord.Statement i := by
  cases i with
  | ppr ch => exact EncodedWord.ppr ch
  | setemit ch e => exact EncodedWord.setemit ch e
  | move ch dir profile curve given => exact EncodedWord.move ch dir profile curve given
  | stop => exact EncodedWord.stop
  | reset => exact EncodedWord.reset
  | clrstat ch => exact EncodedWord.clrstat ch
  | snap ch => exact EncodedWord.snap ch
  | setlabel ch => exact EncodedWord.setlabel ch

theorem commandOf_encode (i : Instr) : commandOf (encode i) = .ok i := by
  rw [commandOf, (encodedWord i).1]
  cases i with
  | setemit ch e => simp [encode, Instr.opcode, EmitMode.ofCode_code]
  | move ch dir profile curve given => simp [encode, Instr.opcode, Profile.ofCode_code, Curve.ofCode_code]
  | _ => simp [encode, Instr.opcode]

/-- A command names a channel exactly when its opcode uses the CH field, and its word holds the channel there. -/
theorem Instr.channel?_eq (i : Instr) :
    i.channel? = if usesChannel i.opcode = true then some (chField (encode i)) else none := by
  cases i <;> simp [Instr.channel?, Instr.opcode, usesChannel, encode]

/-- A command word passes every check of `decode` (30_encoding.md R86). -/
theorem decode_encode {n : Nat} {i : Instr} (h : i.wf n = true) : decode n (encode i) = .ok i := by
  obtain ⟨hop, m, hm, hbit⟩ := encodedWord i
  have hch : ¬ (usesChannel i.opcode = true ∧ n ≤ (chField (encode i)).toNat) := by
    rintro ⟨huse, hn⟩
    rw [Instr.wf, i.channel?_eq, if_pos huse] at h
    exact not_le.2 (of_decide_eq_true h) hn
  rw [← hop] at hm hch
  rw [decode_eq_commandOf hm hbit hch, commandOf_encode]

/-- The word of a command, written in another way, decodes to it. -/
theorem decode_of_eq_encode {n : Nat} {i : Instr} {w : Word} (hw : encode i = w) (h : i.wf n = true) :
    decode n w = .ok i :=
  hw ▸ decode_encode h

/-! ## The words of the commands on a channel -/

section

variable {n : Nat} {ch : BitVec 4} (hch : ch.toNat < n)

include hch

theorem decode_ppr : decode n (0x01#32 ||| ch.setWidth 32 <<< 8) = .ok (.ppr ch) :=
  decode_of_eq_encode (commandWord_channel ch 0x01#8) (decide_eq_true hch)

theorem decode_setemit_direct : decode n (0x02#32 ||| ch.setWidth 32 <<< 8) = .ok (.setemit ch .direct) :=
  decode_of_eq_encode (commandWord_channel ch 0x02#8) (decide_eq_true hch)

theorem decode_setemit_chunked : decode n (0x00020002#32 ||| ch.setWidth 32 <<< 8) = .ok (.setemit ch .chunked) := by
  refine decode_of_eq_encode ?_ (decide_eq_true hch)
  rw [encode_setemit, BitVec.or_assoc, BitVec.or_comm (ch.setWidth 32 <<< 8), ← BitVec.or_assoc]
  rfl

theorem decode_snap : decode n (0x07#32 ||| ch.setWidth 32 <<< 8) = .ok (.snap ch) :=
  decode_of_eq_encode (commandWord_channel ch 0x07#8) (decide_eq_true hch)

theorem decode_setlabel : decode n (0x08#32 ||| ch.setWidth 32 <<< 8) = .ok (.setlabel ch) :=
  decode_of_eq_encode (commandWord_channel ch 0x08#8) (decide_eq_true hch)

end

end Sys2Proof

end

section
/-! PROOFS. The control commands (44_control_commands.md): RESET and its effect on the interrupt registers, and each
command on its channel. -/

namespace Sys2Proof.Machine

theorem irqOf_zero (enable : BitVec 16) : irqOf 0#16 enable = false :=
  irqOf_eq_false_iff.2 BitVec.zero_and

/-- Clearing every DONE bit drops IRQ, which is an event exactly when IRQ was high (10_state.md R26). -/
theorem setIrq_zero (s : State) :
    setIrq 0#16 s.irqEnable s =
      { s with
        irqStatus := 0#16
        irqEvents :=
          if s.irqStatus &&& s.irqEnable = 0#16 then s.irqEvents else irqEvent false s :: s.irqEvents } := by
  simp only [setIrq, irqOf_zero, eq_comm (a := false), irqOf_eq_false_iff]

/-- What RESET writes beside the interrupt registers and CMD_STATUS. -/
def State.rearmed (s : State) : State :=
  { s with run := true, chans := s.chans.map Channel.clearMotion, snap := Snapshot.cleared }

/-- RESET touches no pin event, so an IrqLevel event stands at the same place before and after it. -/
theorem irqEvent_rearmed (level : Bool) (s : State) : irqEvent level s.rearmed = irqEvent level s :=
  congrArg (IrqEvent.mk level) List.map_map

theorem exec_reset_idle {s : State} (h : ∀ c ∈ s.chans, c.moving = false) :
    exec .reset s = completeCommand 0x05#8 (setIrq 0#16 s.rearmed.irqEnable s.rearmed) :=
  if_neg (by simpa using h)

theorem exec_reset_busy {s : State} {c : Channel} (hc : c ∈ s.chans) (hm : c.moving = true) :
    exec .reset s = raiseStatus 0x05#8 .busy 2#4 s :=
  if_pos (List.any_eq_true.2 ⟨c, hc, hm⟩)

end Sys2Proof.Machine

section

open Sys2Proof Sys2Proof.Machine

/-- Settles O8: RESET looks for a MOVING channel first; with none, it re-arms the block and clears the DONE bits,
with which IRQ falls if it was high. -/
theorem resetRearmsAndClears : Obligations.ResetRearmsAndClears := by
  refine ⟨fun n => decode_encode (i := .reset) rfl, fun s hidle => ?_, fun s c hc hm => exec_reset_busy hc hm⟩
  rw [exec_reset_idle hidle, setIrq_zero, irqEvent_rearmed]
  rfl

/-- Settles O9: the BUSY check comes first, then the check of ARG0. -/
theorem pprSetsPulsesPerRevolution : Obligations.PprSetsPulsesPerRevolution := by
  refine ⟨fun n ch => decode_ppr, fun s ch c hc => ⟨fun hm harg => ?_, fun hm harg => ?_, fun hm => ?_⟩⟩
  · exact (onIdleChannel_idle _ hc hm).trans (if_neg harg)
  · exact (onIdleChannel_idle _ hc hm).trans (if_pos harg)
  · exact onIdleChannel_moving _ hc hm

/-- Settles O10: the two words are those of the two modes; the BUSY check comes before the write of `emit`. -/
theorem setemitSelectsMode : Obligations.SetemitSelectsMode :=
  ⟨fun _ _ hch => ⟨decode_setemit_direct hch, decode_setemit_chunked hch⟩,
    fun _ _ _ _ hc => ⟨onIdleChannel_idle _ hc, onIdleChannel_moving _ hc⟩⟩

/-- Settles O12: SNAP has no BUSY check, and its snapshot is the rule's layout. -/
theorem snapCopiesStatistics : Obligations.SnapCopiesStatistics :=
  ⟨fun _ _ => decode_snap, fun _ _ _ hc => onChannel_some _ hc⟩

/-- Settles O13: SETLABEL has no BUSY check. -/
theorem setlabelSetsLabel : Obligations.SetlabelSetsLabel :=
  ⟨fun _ _ => decode_setlabel, fun _ _ _ hc => onChannel_some _ hc⟩

end

end

section
/-! PROOFS. The state after reset (70_reset_and_hazards.md R271). -/

namespace Sys2Proof.Machine

variable (n : Nat) (p : Params)

theorem args_resetWith (k : Fin 8) : (State.resetWith n p).args[k] = 0#32 :=
  Vector.getElem_replicate k.isLt

/-- No DONE bit is set after reset, so IRQ is low. -/
@[simp] theorem irqLevel_resetWith : irqLevel (State.resetWith n p) = false :=
  irqOf_zero 0#16

@[simp] theorem length_chans_resetWith : (State.resetWith n p).chans.length = n :=
  List.length_replicate

variable {n p}

theorem eq_reset_of_mem_chans_resetWith {c : Channel} (hc : c ∈ (State.resetWith n p).chans) : c = Channel.reset :=
  List.eq_of_mem_replicate hc

end Sys2Proof.Machine

section

open Sys2Proof Sys2Proof.Machine

/-- Settles O24: the argument registers, IRQ and the channels by the lemmas above, every other register as
`State.resetWith` gives it. -/
theorem resetValues : Obligations.ResetValues := by
  rintro n p s rfl
  refine ⟨rfl, args_resetWith n p, rfl, rfl, rfl, irqLevel_resetWith n p, rfl, rfl, rfl, rfl,
    length_chans_resetWith n p, fun c hc => ?_⟩
  obtain rfl := eq_reset_of_mem_chans_resetWith hc
  simp only [Channel.reset, and_self]

end

end

section
/-! PROOFS. The round trip of command words (30_encoding.md R81, R86, R87): a word is its fields, and the bits outside the
used mask of its opcode are 0. -/

namespace Sys2Proof

open Laws

/-- A word with no reserved bit set is the command word of its fields (30_encoding.md R81). -/
theorem commandWord_fields {w : Word} (h : w &&& 0x0003FFFF#32 = w) :
    commandWord (emitField w) (rampGivenField w) (curveField w) (profileField w) (dirField w) (chField w)
      (opcodeField w) = w := by
  rw [← h]
  ext i hi
  interval_cases i <;>
    simp [commandWord_eq_or, emitField, rampGivenField, curveField, profileField, dirField, chField, opcodeField]

/-! ## The fields of a word within a mask -/

section

variable {w m : Word} (h : w &&& m = w)

include h

theorem emitField_of_mask (hm : emitField m = false) : emitField w = false := by
  rw [← h, emitField, BitVec.getLsbD_and, ← emitField, ← emitField, hm, Bool.and_false]

theorem rampGivenField_of_mask (hm : rampGivenField m = false) : rampGivenField w = false := by
  rw [← h, rampGivenField, BitVec.getLsbD_and, ← rampGivenField, ← rampGivenField, hm, Bool.and_false]

theorem curveField_of_mask (hm : curveField m = false) : curveField w = false := by
  rw [← h, curveField, BitVec.getLsbD_and, ← curveField, ← curveField, hm, Bool.and_false]

theorem dirField_of_mask (hm : dirField m = false) : dirField w = false := by
  rw [← h, dirField, BitVec.getLsbD_and, ← dirField, ← dirField, hm, Bool.and_false]

theorem profileField_of_mask (hm : profileField m = 0#2) : profileField w = 0#2 := by
  rw [← h, profileField, BitVec.extractLsb'_and, ← profileField, ← profileField, hm, BitVec.and_zero]

theorem chField_of_mask (hm : chField m = 0#4) : chField w = 0#4 := by
  rw [← h, chField, BitVec.extractLsb'_and, ← chField, ← chField, hm, BitVec.and_zero]

theorem reserved_of_mask (hm : m &&& 0x0003FFFF#32 = m) : w &&& 0x0003FFFF#32 = w := by
  rw [← h, BitVec.and_assoc, hm]

end

theorem and_eq_self_of_unused {w m : Word} (h : w &&& ~~~m = 0#32) : w &&& m = w := by
  have hw : w &&& (m ||| ~~~m) = w := by rw [BitVec.or_not_self, BitVec.and_allOnes]
  rwa [BitVec.and_or_distrib_left, h, BitVec.or_zero] at hw

/-! ## Codes read from a word -/

theorem Profile.code_of_ofCode {b : BitVec 2} {p : Profile} (h : Profile.ofCode b = some p) : p.code = b := by
  unfold Profile.ofCode at h
  split_ifs at h with h0 h1 h2 <;> obtain rfl := Option.some.inj h
  · exact h0.symm
  · exact h1.symm
  · exact h2.symm

theorem Curve.code_ofCode (b : Bool) : (Curve.ofCode b).code = b := by cases b <;> rfl

theorem EmitMode.code_ofCode (b : Bool) : (EmitMode.ofCode b).code = b := by cases b <;> rfl

/-! ## A word that decodes -/

/-- A word that decodes has passed the four checks of 30_encoding.md R86. -/
theorem decode_eq_ok {n : Nat} {w : Word} {i : Instr} (h : decode n w = .ok i) :
    ∃ m, usedMask (opcodeField w) = some m ∧ w &&& m = w ∧
      ¬ (usesChannel (opcodeField w) = true ∧ n ≤ (chField w).toNat) ∧ commandOf w = .ok i := by
  unfold decode at h
  split at h
  case h_1 => cases h
  case h_2 m hm =>
    split_ifs at h with hbit hch
    exact ⟨m, hm, and_eq_self_of_unused (not_not.1 hbit), hch, h⟩

theorem opcodeField_eq {w : Word} {k : Nat} (h : (opcodeField w).toNat = k) : opcodeField w = BitVec.ofNat 8 k := by
  rw [← h, BitVec.ofNat_toNat, BitVec.setWidth_eq]

/-- The word of a command on a channel only. -/
theorem commandWord_of_channel_mask {w : Word} (hw : w &&& 0x00000FFF#32 = w) :
    commandWord false false false 0#2 false (chField w) (opcodeField w) = w := by
  have hword := commandWord_fields (reserved_of_mask hw (by decide))
  rwa [emitField_of_mask hw rfl, rampGivenField_of_mask hw rfl, curveField_of_mask hw rfl,
    profileField_of_mask hw rfl, dirField_of_mask hw rfl] at hword

/-- The word of a command with no operand. -/
theorem commandWord_of_plain_mask {w : Word} (hw : w &&& 0x000000FF#32 = w) :
    commandWord false false false 0#2 false 0#4 (opcodeField w) = w := by
  have hword := commandWord_of_channel_mask (w := w) (by rw [← hw, BitVec.and_assoc]; rfl)
  rwa [chField_of_mask hw rfl] at hword

/-- The word of a SETEMIT. -/
theorem commandWord_of_setemit_mask {w : Word} (hw : w &&& 0x00020FFF#32 = w) :
    commandWord (emitField w) false false 0#2 false (chField w) (opcodeField w) = w := by
  have hword := commandWord_fields (reserved_of_mask hw (by decide))
  rwa [rampGivenField_of_mask hw rfl, curveField_of_mask hw rfl, profileField_of_mask hw rfl,
    dirField_of_mask hw rfl] at hword

/-- The word of a MOVE. -/
theorem commandWord_of_move_mask {w : Word} (hw : w &&& 0x0001FFFF#32 = w) :
    commandWord false (rampGivenField w) (curveField w) (profileField w) (dirField w) (chField w) (opcodeField w) =
      w := by
  have hword := commandWord_fields (reserved_of_mask hw (by decide))
  rwa [emitField_of_mask hw rfl] at hword

/-- A word within its mask is the encoding of the command it stands for: the fields the command does not use are 0. -/
theorem encode_of_commandOf {w m : Word} {i : Instr} (hm : usedMask (opcodeField w) = some m) (hw : w &&& m = w)
    (h : commandOf w = .ok i) : encode i = w := by
  unfold commandOf at h
  split at h <;> rename_i hop
  case h_9 => cases h
  case h_3 =>
    split at h
    case h_2 => cases h
    case h_1 p hp =>
      injection h with h
      subst h
      rw [usedMask_eq_some (.inr (.inr (.inl ⟨rfl, hop⟩)))] at hm
      obtain rfl := Option.some.inj hm
      rw [encode, Profile.code_of_ofCode hp, Curve.code_ofCode, Instr.opcode, ← opcodeField_eq hop]
      exact commandWord_of_move_mask hw
  case h_2 =>
    injection h with h
    subst h
    rw [usedMask_eq_some (.inr (.inl ⟨rfl, hop⟩))] at hm
    obtain rfl := Option.some.inj hm
    rw [encode, EmitMode.code_ofCode, Instr.opcode, ← opcodeField_eq hop]
    exact commandWord_of_setemit_mask hw
  case h_4 | h_5 =>
    injection h with h
    subst h
    rw [usedMask_eq_some (.inr (.inr (.inr ⟨rfl, by omega⟩)))] at hm
    obtain rfl := Option.some.inj hm
    rw [encode, Instr.opcode, ← opcodeField_eq hop]
    exact commandWord_of_plain_mask hw
  all_goals
    injection h with h
    subst h
    rw [usedMask_eq_some (.inl ⟨rfl, by omega⟩)] at hm
    obtain rfl := Option.some.inj hm
    rw [encode, Instr.opcode, ← opcodeField_eq hop]
    exact commandWord_of_channel_mask hw

/-- The command of a word that passes the channel check names an existing channel. -/
theorem wf_of_encode {n : Nat} {w : Word} {i : Instr} (he : encode i = w)
    (hch : ¬ (usesChannel (opcodeField w) = true ∧ n ≤ (chField w).toNat)) : i.wf n = true := by
  rw [← he, (encodedWord i).1] at hch
  rw [Instr.wf, i.channel?_eq]
  split_ifs with huse
  · exact decide_eq_true (not_le.1 fun hn => hch ⟨huse, hn⟩)
  · rfl

theorem encode_of_decode {n : Nat} {w : Word} {i : Instr} (h : decode n w = .ok i) : encode i = w ∧ i.wf n = true := by
  obtain ⟨m, hm, hw, hch, hi⟩ := decode_eq_ok h
  have he := encode_of_commandOf hm hw hi
  exact ⟨he, wf_of_encode he hch⟩

end Sys2Proof

section

open Sys2Proof

/-- Settles O1: a command word passes each check of `decode`, and its fields read back as the operands. -/
theorem decodeEncodeRoundTrip : Obligations.DecodeEncodeRoundTrip :=
  fun _ _ => decode_encode

/-- Settles O2: a word that passes the mask check is the command word of its fields, of which those its command does not
use are 0. -/
theorem encodeDecodeRoundTrip : Obligations.EncodeDecodeRoundTrip :=
  fun _ _ _ => encode_of_decode

/-- Settles O3: each word is the encoding of its command, whose channel exists. -/
theorem specWordsDecode : Obligations.SpecWordsDecode :=
  ⟨decode_encode (i := .ppr 0#4) rfl, decode_encode (i := .setemit 1#4 .chunked) rfl,
    decode_encode (i := .move 0#4 true .full .sine true) rfl,
    decode_encode (i := .move 0#4 false .rampUpOnly .linear false) rfl, decode_encode (i := .stop) rfl,
    decode_encode (i := .reset) rfl, decode_encode (i := .clrstat 0#4) rfl, decode_encode (i := .snap 1#4) rfl,
    decode_encode (i := .setlabel 1#4) rfl⟩

/-- Settles O15: the word is `encode_move` with the codes of profile and curve written out. -/
theorem moveWordFields : Obligations.MoveWordFields := by
  intro n ch dir profile curve given p k hch hp hk
  replace hp : p = profile.code.setWidth 32 := by rw [hp]; cases profile <;> rfl
  replace hk : k = (BitVec.ofBool curve.code).setWidth 32 := by rw [hk]; cases curve <;> rfl
  rw [hp, hk]
  exact decode_of_eq_encode (encode_move ch dir profile curve given) (decide_eq_true hch)

end

end

section
/-! PROOFS. What every command answers and what it leaves as it is: its status (60_exceptions.md R241), a missing channel
(30_encoding.md R86), the frame (70_reset_and_hazards.md R281, 43_motion_commands.md R196). -/

namespace Sys2Proof

theorem decode_clrstat {n : Nat} {ch : BitVec 4} (hch : ch.toNat < n) :
    decode n (0x06#32 ||| ch.setWidth 32 <<< 8) = .ok (.clrstat ch) :=
  decode_of_eq_encode (commandWord_channel ch 0x06#8) (decide_eq_true hch)

end Sys2Proof

namespace Sys2Proof.Machine

/-! ## A channel that does not exist -/

theorem onChannel_missing {op : BitVec 8} {ch : BitVec 4} {s : State} (k : Channel → Out)
    (h : s.numChannels ≤ ch.toNat) : onChannel op ch s k = raiseStatus op .illegal 3#4 s := by
  rw [onChannel, List.getElem?_eq_none h]

theorem exec_missing {i : Instr} {ch : BitVec 4} {s : State} (hi : i.channel? = some ch)
    (h : s.numChannels ≤ ch.toNat) : exec i s = raiseStatus i.opcode .illegal 3#4 s := by
  cases i with
  | stop => cases hi
  | reset => cases hi
  | _ => cases hi; exact onChannel_missing _ h

/-! ## The status a command reports (60_exceptions.md R241) -/

/-- The outcome of a command of opcode `op` on `s` is a next state that records a status with one of the given DETAIL and
CODE bits. -/
def Reports (op : BitVec 8) (s : State) (lows : List (BitVec 8)) (o : Out) : Prop :=
  ∃ (t : State) (low : BitVec 8), o = .next t ∧ t.statuses = t.cmdStatus :: s.statuses ∧
    t.cmdStatus = 0#16 ++ op ++ low ∧ low ∈ lows

theorem statusWord_eq (op : BitVec 8) (code : StatusCode) (detail : BitVec 4) :
    statusWord op code detail = 0#16 ++ op ++ (detail ++ code.bits) :=
  BitVec.append_assoc

section

variable {op : BitVec 8} {s : State} {lows : List (BitVec 8)}

theorem reports_raiseStatus {code : StatusCode} {detail : BitVec 4} {u : State} (hu : u.statuses = s.statuses)
    (h : detail ++ code.bits ∈ lows) : Reports op s lows (raiseStatus op code detail u) :=
  ⟨_, _, rfl, congrArg _ hu, statusWord_eq op code detail, h⟩

theorem reports_completeCommand {u : State} (hu : u.statuses = s.statuses) (h : 0x00#8 ∈ lows) :
    Reports op s lows (completeCommand op u) :=
  reports_raiseStatus hu h

theorem reports_onChannel {ch : BitVec 4} {k : Channel → Out} (h : 0x31#8 ∈ lows)
    (hk : ∀ c, Reports op s lows (k c)) : Reports op s lows (onChannel op ch s k) := by
  rcases onChannel_cases op ch s k with ⟨-, e⟩ | ⟨c, -, e⟩ <;> rw [e]
  · exact reports_raiseStatus rfl h
  · exact hk c

theorem reports_onIdleChannel {ch : BitVec 4} {k : Channel → Out} (hmissing : 0x31#8 ∈ lows) (hbusy : 0x12#8 ∈ lows)
    (hk : ∀ c, Reports op s lows (k c)) : Reports op s lows (onIdleChannel op ch s k) := by
  refine reports_onChannel hmissing fun c => ?_
  split
  · exact reports_raiseStatus rfl hbusy
  · exact hk c

end

/-- The pairs of the checks of `validate` (43_motion_commands.md R182). -/
theorem validate_pairs {p : Params} {ppr : Word} {v t rt : B64} {code : StatusCode} {detail : BitVec 4}
    (h : validate p ppr v t rt = some (code, detail)) :
    detail ++ code.bits ∈ [0x14#8, 0x13#8, 0x23#8, 0x24#8, 0x33#8, 0x34#8] := by
  unfold validate at h
  split_ifs at h <;> cases h <;> decide

theorem execMove_reports (ch : BitVec 4) (dir : Bool) (profile : Profile) (curve : Curve) (given : Bool) (s : State) :
    Reports 0x03#8 s [0x00#8, 0x12#8, 0x13#8, 0x23#8, 0x33#8, 0x14#8, 0x24#8, 0x34#8, 0x31#8]
      (execMove ch dir profile curve given s) := by
  refine reports_onIdleChannel (by decide) (by decide) fun c => ?_
  split
  next code detail hv =>
    have hlow := validate_pairs hv
    simp only [List.mem_cons, List.not_mem_nil, or_false] at hlow
    refine reports_raiseStatus rfl ?_
    rcases hlow with h | h | h | h | h | h <;> rw [h] <;> decide
  next => exact reports_completeCommand rfl (by decide)

theorem execPpr_reports (ch : BitVec 4) (s : State) :
    Reports 0x01#8 s [0x00#8, 0x12#8, 0x14#8, 0x31#8] (execPpr ch s) := by
  refine reports_onIdleChannel (by decide) (by decide) fun c => ?_
  split
  · exact reports_raiseStatus rfl (by decide)
  · exact reports_completeCommand rfl (by decide)

theorem execReset_reports (s : State) : Reports 0x05#8 s [0x00#8, 0x22#8] (execReset s) := by
  unfold execReset
  split
  · exact reports_raiseStatus rfl (by decide)
  · exact reports_completeCommand rfl (by decide)

/-! ## What no command changes -/

/-- Everything of the state but RUN, CMD_STATUS, IRQ_STATUS with the IRQ events, the snapshot and the channels, whose number
is kept. -/
structure CommandKeeps (s t : State) : Prop where
  args : t.args = s.args
  time : t.time = s.time
  timeHiLatch : t.timeHiLatch = s.timeHiLatch
  irqEnable : t.irqEnable = s.irqEnable
  params : t.params = s.params
  count : t.chans.length = s.chans.length
  host : t.host = s.host
  link : t.link = s.link
  sched : t.sched = s.sched
  turn : t.turn = s.turn
  renewed : t.renewed = s.renewed
  waveAnswers : t.waveAnswers = s.waveAnswers
  draws : t.draws = s.draws
  reads : t.reads = s.reads

theorem exec_keeps {i : Instr} {s t : State} (h : exec i s = .next t) : CommandKeeps s t := by
  have turns := exec_turns h
  cases exec_case h <;> subst t <;> exact ⟨rfl, rfl, rfl, rfl, rfl, turns.count, rfl, rfl, rfl, rfl, rfl, rfl, rfl, rfl⟩

/-- Only RESET writes a channel it does not name. -/
theorem exec_unnamed_channel {i : Instr} {s t : State} {d : Nat} (h : exec i s = .next t) (hr : i ≠ .reset)
    (hd : ∀ ch, i.channel? = some ch → ch.toNat ≠ d) : t.chans[d]? = s.chans[d]? := by
  cases exec_case h with
  | cleared idle hu => exact absurd rfl hr
  | refused _ code detail hc hu => rw [hu]; rfl
  | stopped hu => rw [hu]; rfl
  | snapped ch c there hu => rw [hu]; rfl
  | _ => subst t; exact List.getElem?_set_ne (hd _ rfl)

end Sys2Proof.Machine

section

open Sys2Proof Sys2Proof.Machine

/-- Settles O7: STOP has no check; its word is that of `encode`. -/
theorem stopClearsRun : Obligations.StopClearsRun :=
  ⟨fun _ => decode_encode (i := .stop) rfl, fun _ => rfl⟩

/-- Settles O11: the BUSY check comes before the clearing of the statistics. -/
theorem clrstatClearsStatistics : Obligations.ClrstatClearsStatistics :=
  ⟨fun _ _ => decode_clrstat, fun _ _ _ hc => ⟨onIdleChannel_idle _ hc, onIdleChannel_moving _ hc⟩⟩

/-- Settles O18: every command that names a channel looks it up first. -/
theorem missingChannelIsIllegal : Obligations.MissingChannelIsIllegal :=
  fun _ _ _ hi h => exec_missing hi h

/-- Settles O19: the pairs a command can raise are those of its channel's checks and of its own rule. -/
theorem commandsReportStatus : Obligations.CommandsReportStatus := by
  intro i s
  cases i with
  | ppr ch => exact execPpr_reports ch s
  | setemit ch e => exact reports_onIdleChannel (by decide) (by decide) fun c => reports_completeCommand rfl (by decide)
  | move ch dir profile curve given => exact execMove_reports ch dir profile curve given s
  | stop => exact ⟨_, 0x00#8, rfl, rfl, rfl, rfl⟩
  | reset => exact execReset_reports s
  | clrstat ch => exact reports_onIdleChannel (by decide) (by decide) fun c => reports_completeCommand rfl (by decide)
  | snap ch => exact reports_onChannel (by decide) fun c => reports_completeCommand rfl (by decide)
  | setlabel ch => exact reports_onChannel (by decide) fun c => reports_completeCommand rfl (by decide)

/-- Settles O20: by the cases of a command, each an update of fields that are not among these. -/
theorem commandFrame : Obligations.CommandFrame := by
  intro i s t h
  obtain ⟨hargs, htime, hlatch, henable, hparams, hcount, hhost, hlink, hsched, hturn, hrenewed, hanswers, hdraws, hreads⟩ :=
    exec_keeps h
  exact ⟨hargs, htime, hlatch, henable, hparams, hcount, hhost, hlink, hsched, hturn, hrenewed, hanswers, hdraws, hreads,
    fun hr d hd => exec_unnamed_channel h hr hd⟩

end

end

section
/-! PROOFS. What one step does to one channel, said once: a command on it, a step of its sequencer or of its engine, or
nothing. -/

namespace Sys2Proof.Machine

/-! ## The sequencer's channel -/

/-- Why a move ends with the result `r` (42_pulse_delay_sequencer.md R155, R161, R163, R166). -/
inductive EndReason (s : State) (a : Channel) : Result → Prop where
  | empty (hq : a.seq = .s1 ∨ a.seq = .c1) (h0 : a.total = 0#32) : EndReason s a (emptyResult s)
  | complete (hq : a.seq = .s2 ∨ a.seq = .c2) (hi : a.idx = a.total) : EndReason s a .complete
  | cancelled (hq : a.seq = .s2 ∨ a.seq = .c2) (hi : a.idx ≠ a.total) (hr : s.run = false) : EndReason s a .cancelled
  | rejected (hq : a.seq = .c2) (hi : a.idx ≠ a.total) (hr : s.run = true) (hw : (drawWaveFault s).1 = true) :
      EndReason s a .hwFault

/-- What a step of the sequencer of a channel `a`, in the state `s`, makes of the channel. -/
inductive SequencerCase (s : State) (a : Channel) : Channel → Prop where
  | still (h : sequencerEnabled a = false) : SequencerCase s a a
  | advanced (q : SeqPos)
      (h : a.seq = .s0 ∧ q = .s1 ∨ a.seq = .c0 ∧ q = .c1 ∨
        a.total ≠ 0#32 ∧ (a.seq = .s1 ∧ q = .s2 ∨ a.seq = .c1 ∧ q = .c2)) :
      SequencerCase s a { a with seq := q }
  | ended (r : Result) (h : EndReason s a r) : SequencerCase s a (a.finished r)
  | pulseBegun (k : Word) (hq : a.seq = .s2) (hi : a.idx ≠ a.total) (hr : s.run = true) :
      SequencerCase s a { a.raiseStep k with seq := .s3 k }
  | delayDropped (hq : a.seq = .s2) (hi : a.idx ≠ a.total) (hr : s.run = true) :
      SequencerCase s a { a with dropped := a.dropped + 1#32, idx := a.idx + 1#32 }
  | pulseFallen (k : Word) (hq : a.seq = .s3 k) : SequencerCase s a { a with stepPin := false, seq := .s4 k }
  | pulseCounted (k : Word) (hq : a.seq = .s4 k) :
      SequencerCase s a { a with steps := a.steps + 1#32, idx := a.idx + 1#32, seq := .s2 }
  | chunkSkipped (hq : a.seq = .c2) (hi : a.idx ≠ a.total) (hr : s.run = true) (hk : nextChunk s.params a = []) :
      SequencerCase s a
        { a with
          dropped := a.dropped + BitVec.ofNat 32 (nextDrop s.params a)
          idx := BitVec.ofNat 32 (chunkEnd s.params a) }
  | chunkSubmitted (hq : a.seq = .c2) (hi : a.idx ≠ a.total) (hr : s.run = true) (hk : nextChunk s.params a ≠ []) :
      SequencerCase s a (a.submitted (nextChunk s.params a) (nextDrop s.params a) (chunkEnd s.params a))
  | chunkCounted (ndrop e : Nat) (hq : a.seq = .c3 ndrop e) (hw : a.waveBusy = false) :
      SequencerCase s a (a.chunkPlayed ndrop e)

section

variable {s : State} {c : Nat} {a : Channel}

theorem directCheck_case (hq : a.seq = .s2) :
    ∃ b, SequencerCase s a b ∧ (directCheck c a s).chans = s.chans.set c b := by
  rcases directCheck_cases c a s with ⟨hi, e⟩ | ⟨hi, hr, e⟩ | ⟨hi, hr, -, e⟩ | ⟨hi, hr, -, e⟩ <;> rw [e]
  · exact ⟨_, .ended _ (.complete (.inl hq) hi), rfl⟩
  · exact ⟨_, .ended _ (.cancelled (.inl hq) hi hr), rfl⟩
  · exact ⟨_, .pulseBegun _ hq hi hr, rfl⟩
  · exact ⟨_, .delayDropped hq hi hr, rfl⟩

theorem chunkCheck_case (hq : a.seq = .c2) :
    ∃ b, SequencerCase s a b ∧ (chunkCheck c a s).chans = s.chans.set c b := by
  have hdraw : (drawWaveFault s).2.chans = s.chans := (Drawn.same (.inr rfl)).chans
  rcases chunkCheck_cases c a s with
    ⟨hi, e⟩ | ⟨hi, hr, e⟩ | ⟨hi, hr, hk, e⟩ | ⟨hi, hr, -, hw, e⟩ | ⟨hi, hr, hk, -, e⟩ <;> rw [e]
  · exact ⟨_, .ended _ (.complete (.inr hq) hi), rfl⟩
  · exact ⟨_, .ended _ (.cancelled (.inr hq) hi hr), rfl⟩
  · exact ⟨_, .chunkSkipped hq hi hr hk, rfl⟩
  · exact ⟨_, .ended _ (.rejected hq hi hr hw), (finish_chans _ _ _ _).trans (congrArg (List.set · c _) hdraw)⟩
  · exact ⟨_, .chunkSubmitted hq hi hr hk, (setChan_chans _ _ _).trans (congrArg (List.set · c _) hdraw)⟩

theorem chans_eq_set_self (ha : s.chans[c]? = some a) : s.chans = s.chans.set c a := by
  obtain ⟨hc, rfl⟩ := List.getElem?_eq_some_iff.1 ha
  rw [List.set_getElem_self]

/-- What a sequencer's step makes of its channel; it writes no other. -/
theorem sequencerStep_case (ha : s.chans[c]? = some a) :
    ∃ b, SequencerCase s a b ∧ (sequencerStep c s).chans = s.chans.set c b := by
  cases hq : a.seq with
  | idle =>
    exact ⟨a, .still (by rw [sequencerEnabled, hq]), (congrArg _ (sequencerStep_idle ha hq)).trans (chans_eq_set_self ha)⟩
  | s0 => exact ⟨_, .advanced .s1 (.inl ⟨hq, rfl⟩), congrArg _ (sequencerStep_s0 ha hq)⟩
  | s1 =>
    by_cases h0 : a.total = 0#32
    · exact ⟨_, .ended _ (.empty (.inl hq) h0), congrArg _ (sequencerStep_s1_empty ha hq h0)⟩
    · exact ⟨_, .advanced .s2 (.inr (.inr ⟨h0, .inl ⟨hq, rfl⟩⟩)), congrArg _ (sequencerStep_s1 ha hq h0)⟩
  | s2 => exact sequencerStep_s2 ha hq ▸ directCheck_case hq
  | s3 k => exact ⟨_, .pulseFallen k hq, congrArg _ (sequencerStep_s3 ha hq)⟩
  | s4 k => exact ⟨_, .pulseCounted k hq, congrArg _ (sequencerStep_s4 ha hq)⟩
  | c0 => exact ⟨_, .advanced .c1 (.inr (.inl ⟨hq, rfl⟩)), congrArg _ (sequencerStep_c0 ha hq)⟩
  | c1 =>
    by_cases h0 : a.total = 0#32
    · exact ⟨_, .ended _ (.empty (.inr hq) h0), congrArg _ (sequencerStep_c1_empty ha hq h0)⟩
    · exact ⟨_, .advanced .c2 (.inr (.inr ⟨h0, .inr ⟨hq, rfl⟩⟩)), congrArg _ (sequencerStep_c1 ha hq h0)⟩
  | c2 => exact sequencerStep_c2 ha hq ▸ chunkCheck_case hq
  | c3 ndrop e =>
    cases hw : a.waveBusy with
    | true =>
      exact ⟨a, .still (by rw [sequencerEnabled, hq, hw]; rfl),
        (congrArg _ (sequencerStep_c3_busy ha hq hw)).trans (chans_eq_set_self ha)⟩
    | false => exact ⟨_, .chunkCounted ndrop e hq hw, congrArg _ (sequencerStep_c3 ha hq hw)⟩

end

/-! ## The engine's channel -/

/-- What an engine's step makes of its channel (42_pulse_delay_sequencer.md R160). -/
def Channel.entryPlayed (a : Channel) : Channel := (a.driveEntry (a.playPos.getD 0)).advanceEngine (a.playPos.getD 0)

theorem engineStep_missing {s : State} {c : Nat} (h : s.chans[c]? = none) : engineStep c s = s := by
  simp only [engineStep, h]

theorem engineStep_still {s : State} {c : Nat} {a : Channel} (ha : s.chans[c]? = some a) (hw : a.waveBusy = false) :
    engineStep c s = s := by
  simp only [engineStep, ha, hw, Bool.false_eq_true, if_false]

theorem engineStep_busy {s : State} {c : Nat} {a : Channel} (ha : s.chans[c]? = some a) (hw : a.waveBusy = true) :
    engineStep c s = s.setChan c a.entryPlayed := by
  simp only [engineStep, ha, hw, if_true, Channel.entryPlayed]

/-- All of a channel that the engine leaves as it is. -/
structure EngineKeeps (a b : Channel) : Prop where
  ppr : b.ppr = a.ppr
  emit : b.emit = a.emit
  moving : b.moving = a.moving
  total : b.total = a.total
  ramp : b.ramp = a.ramp
  cruise : b.cruise = a.cruise
  steps : b.steps = a.steps
  idx : b.idx = a.idx
  dropped : b.dropped = a.dropped
  result : b.result = a.result
  profile : b.profile = a.profile
  totalPulses : b.totalPulses = a.totalPulses
  totalRevolutions : b.totalRevolutions = a.totalRevolutions
  totalRunTime : b.totalRunTime = a.totalRunTime
  running : b.running = a.running
  startValid : b.startValid = a.startValid
  runStart : b.runStart = a.runStart
  label : b.label = a.label
  dirPin : b.dirPin = a.dirPin
  chunkValid : b.chunkValid = a.chunkValid
  seq : b.seq = a.seq

theorem EngineKeeps.trans {a b d : Channel} (h : EngineKeeps a b) (k : EngineKeeps b d) : EngineKeeps a d := by
  cases h
  cases k
  constructor <;> simp only [*]

theorem driveEntry_keeps (a : Channel) (pos : Nat) : EngineKeeps a (a.driveEntry pos) := by
  unfold Channel.driveEntry
  split
  · split <;> constructor <;> rfl
  · constructor <;> rfl
  · constructor <;> rfl

theorem advanceEngine_keeps (a : Channel) (pos : Nat) : EngineKeeps a (a.advanceEngine pos) := by
  unfold Channel.advanceEngine
  split <;> constructor <;> rfl

theorem entryPlayed_keeps (a : Channel) : EngineKeeps a a.entryPlayed :=
  (driveEntry_keeps _ _).trans (advanceEngine_keeps _ _)

/-! ## A command's channel -/

/-- The step from `s` to `t` records the status `w`. -/
structure Records (s t : State) (w : Word) : Prop where
  cmdStatus : t.cmdStatus = w
  statuses : t.statuses = w :: s.statuses

theorem Records.congr {s m u t : State} {w : Word} (h : Records m u w) (hs : SameBlock s m) (ht : SameBlock u t) :
    Records s t w :=
  ⟨ht.cmdStatus.trans h.cmdStatus, by rw [ht.statuses, h.statuses, hs.statuses]⟩

/-- What a command that runs from `s` to `t` makes of a channel `a`. -/
inductive CommandChange (s t : State) (a : Channel) : Channel → Prop where
  | same : CommandChange s t a a
  | moveRefused (idle : a.moving = false) (dir : Bool) (code : StatusCode) (detail : BitVec 4)
      (recorded : Records s t (statusWord 0x03#8 code detail)) : CommandChange s t a (a.driveDir dir)
  | moveAccepted (idle : a.moving = false) (dir : Bool) (profile : Profile) (curve : Curve) (given : Bool)
      (hv : validate s.params a.ppr (startRpmArg s) (targetRpmArg s) (runTimeArg s) = none)
      (recorded : Records s t 0x00000300#32) :
      CommandChange s t a
        ((a.driveDir dir).accepted s.params s.time (startRpmArg s) (targetRpmArg s) (runTimeArg s) dir profile curve
          (rampStepsArg given s))
  | cleared (idle : a.moving = false) (recorded : Records s t 0x00000500#32) : CommandChange s t a a.clearMotion
  | pprSet (idle : a.moving = false) (n : Word) : CommandChange s t a { a with ppr := n }
  | emitSet (idle : a.moving = false) (e : EmitMode) : CommandChange s t a { a with emit := e }
  | statsCleared (idle : a.moving = false) (recorded : Records s t 0x00000600#32) : CommandChange s t a a.clearStats
  | labelSet (recorded : Records s t 0x00000800#32) : CommandChange s t a { a with label := s.args[0] }

theorem rampStepsArg_congr {s m : State} (h : m.args = s.args) (given : Bool) :
    rampStepsArg given m = rampStepsArg given s := by
  rw [rampStepsArg, rampStepsArg, h]

theorem CommandChange.congr {s m u t : State} {a b : Channel} (h : CommandChange m u a b) (hs : SameBlock s m)
    (htime : m.time = s.time) (hargs : m.args = s.args) (ht : SameBlock u t) : CommandChange s t a b := by
  cases h with
  | same => exact .same
  | moveRefused idle dir code detail recorded => exact .moveRefused idle dir code detail (recorded.congr hs ht)
  | moveAccepted idle dir profile curve given hv recorded =>
    have hv' : validate s.params a.ppr (startRpmArg s) (targetRpmArg s) (runTimeArg s) = none := by
      simpa only [startRpmArg, targetRpmArg, runTimeArg, hs.params, hargs] using hv
    simpa only [startRpmArg, targetRpmArg, runTimeArg, rampStepsArg, hs.params, htime, hargs] using
      CommandChange.moveAccepted idle dir profile curve given hv' (recorded.congr hs ht)
  | cleared idle recorded => exact .cleared idle (recorded.congr hs ht)
  | pprSet idle n => exact .pprSet idle n
  | emitSet idle e => exact .emitSet idle e
  | statsCleared idle recorded => exact .statsCleared idle (recorded.congr hs ht)
  | labelSet recorded => exact hargs ▸ .labelSet (recorded.congr hs ht)

section

variable {s t : State} {c : Nat} {a b : Channel}

/-- A channel after a write of channel `k`, which was `y`: what became of `y`, or as before. -/
theorem CommandChange.of_set {l : List Channel} {k : Nat} {x y : Channel} (hy : l[k]? = some y)
    (ha : l[c]? = some a) (hb : (l.set k x)[c]? = some b) (hx : CommandChange s t y x) : CommandChange s t a b := by
  rcases getElem?_set_cases ha hb with ⟨rfl, rfl⟩ | rfl
  · exact Option.some.inj (hy.symm.trans ha) ▸ hx
  · exact .same

theorem exec_channel {i : Instr} (h : exec i s = .next t) (ha : s.chans[c]? = some a) (hb : t.chans[c]? = some b) :
    CommandChange s t a b := by
  have same : t.chans = s.chans → CommandChange s t a b := fun e =>
    Option.some.inj (ha.symm.trans (e ▸ hb)) ▸ .same
  cases exec_case h with
  | refused _ code detail hc hu => subst hu; exact same rfl
  | moveRefused k dir profile curve given y code detail at' hv hu =>
    subst hu; exact .of_set at'.there ha hb (.moveRefused at'.idle dir code detail ⟨rfl, rfl⟩)
  | moveAccepted k dir profile curve given y at' hv hu =>
    subst hu; exact .of_set at'.there ha hb (.moveAccepted at'.idle dir profile curve given hv ⟨rfl, rfl⟩)
  | stopped hu => subst hu; exact same rfl
  | cleared idle hu =>
    subst hu
    obtain rfl : a.clearMotion = b := by simpa [ha] using hb
    exact .cleared (idle a (List.mem_of_getElem? ha)) ⟨rfl, rfl⟩
  | pprSet k y at' hn hu => subst hu; exact .of_set at'.there ha hb (.pprSet at'.idle _)
  | emitSet k e y at' hu => subst hu; exact .of_set at'.there ha hb (.emitSet at'.idle e)
  | statsCleared k y at' hu => subst hu; exact .of_set at'.there ha hb (.statsCleared at'.idle ⟨rfl, rfl⟩)
  | snapped k y there hu => subst hu; exact same rfl
  | labelSet k y there hu => subst hu; exact .of_set there ha hb (.labelSet ⟨rfl, rfl⟩)

end

/-! ## A step's channel -/

/-- What the step from `s` to `t` makes of channel `c`, which was `a`. -/
inductive ChannelChange (s t : State) (c : Nat) (a : Channel) : Channel → Prop where
  | same : ChannelChange s t c a a
  | command (b : Channel) (h : CommandChange s t a b) : ChannelChange s t c a b
  | sequencer (ha : nextAgent s = .sequencer c) (b : Channel) (h : SequencerCase (takeTurn s) a b) :
      ChannelChange s t c a b
  | engine (ha : nextAgent s = .engine c) (hw : a.waveBusy = true) : ChannelChange s t c a a.entryPlayed

theorem step_channel {s t : State} {c : Nat} {a b : Channel} (h : step s = .next t) (ha : s.chans[c]? = some a)
    (hb : t.chans[c]? = some b) : ChannelChange s t c a b := by
  have same : t.chans = s.chans → ChannelChange s t c a b := fun e =>
    Option.some.inj (ha.symm.trans (e ▸ hb)) ▸ .same
  have hturn := (takeTurn_same s).chans
  cases step_case h with
  | outside h => exact same h.chans
  | command i m u h =>
    exact .command b ((exec_channel h.runs (h.same.chans ▸ ha) (h.after.chans ▸ hb)).congr h.same h.time h.args h.after)
  | illegal op e h => exact same h.chans
  | clearDone v more _ hh h => exact same h.chans
  | setEnable v h => exact same h.chans
  | sequencer k hagent h =>
    subst h
    cases hk : (takeTurn s).chans[k]? with
    | none => exact same ((congrArg _ (sequencerStep_missing hk)).trans hturn)
    | some y =>
      obtain ⟨x, hx, hset⟩ := sequencerStep_case hk
      rw [hset] at hb
      rw [← hturn] at ha
      rcases getElem?_set_cases ha hb with ⟨rfl, rfl⟩ | rfl
      · exact .sequencer hagent _ (Option.some.inj (hk.symm.trans ha) ▸ hx)
      · exact .same
  | engine k hagent h =>
    subst h
    cases hk : (takeTurn s).chans[k]? with
    | none => exact same ((congrArg _ (engineStep_missing hk)).trans hturn)
    | some y =>
      cases hw : y.waveBusy with
      | false => exact same ((congrArg _ (engineStep_still hk hw)).trans hturn)
      | true =>
        rw [engineStep_busy hk hw] at hb
        rw [← hturn] at ha
        rcases getElem?_set_cases ha hb with ⟨rfl, rfl⟩ | rfl
        · obtain rfl := Option.some.inj (hk.symm.trans ha)
          exact .engine hagent hw
        · exact .same

end Sys2Proof.Machine
end

section
/-! PROOFS. Which steps change what of the block: one channel at a time (43_motion_commands.md R196), the DIR pin, the
statistics, the snapshot, the DONE bits, IRQ and its events, TIME. -/

namespace Sys2Proof.Machine

open Binary64

/-! ## One channel at a time -/

theorem Drawn.eq {s d : State} (h : Drawn s d) : d = { s with waveAnswers := d.waveAnswers, draws := d.draws } := by
  rcases h with rfl | rfl
  · rfl
  · rcases drawWaveFault_cases s with ⟨_, _, -, e⟩ | ⟨-, -, e⟩ | ⟨-, -, e⟩ <;> rw [e]

theorem getLsbD_doneBit_of_ne {c d : Nat} (h : d ≠ c) : (doneBit c).getLsbD d = false := by
  have hbit : (BitVec.twoPow 16 c).getLsbD d = false := by
    rw [BitVec.getLsbD_twoPow, decide_eq_false h.symm, Bool.and_false]
  rwa [doneBit_eq_shiftLeft]

/-- What a step of the sequencer or engine of channel `c` leaves as it is. -/
structure OtherChannelsKept (c : Nat) (s t : State) : Prop where
  block : t =
    { s with chans := t.chans, irqStatus := t.irqStatus, irqEvents := t.irqEvents, waveAnswers := t.waveAnswers,
             draws := t.draws }
  chans : ∀ d, d ≠ c → t.chans[d]? = s.chans[d]?
  count : t.chans.length = s.chans.length
  irqStatus : ∀ d, d ≠ c → t.irqStatus.getLsbD d = s.irqStatus.getLsbD d

theorem ChannelStep.others {c : Nat} {s t : State} (h : ChannelStep c s t) : OtherChannelsKept c s t := by
  cases h with
  | still h => exact h ▸ ⟨rfl, fun _ _ => rfl, rfl, fun _ _ => rfl⟩
  | wrote d b hd h =>
    rw [hd.eq] at h
    subst h
    exact ⟨rfl, fun _ hk => List.getElem?_set_ne hk.symm, List.length_set, fun _ _ => rfl⟩
  | ended d a r there hd h =>
    rw [hd.eq] at h
    subst h
    refine ⟨rfl, fun _ hk => List.getElem?_set_ne hk.symm, List.length_set, fun k hk => ?_⟩
    rw [finish_irqStatus, BitVec.getLsbD_or, getLsbD_doneBit_of_ne hk, Bool.or_false]

/-! ## What a sequencer leaves of its channel -/

/-- All of a channel that no step of its sequencer changes. -/
structure SequencerKeeps (a b : Channel) : Prop where
  ppr : b.ppr = a.ppr
  emit : b.emit = a.emit
  total : b.total = a.total
  ramp : b.ramp = a.ramp
  cruise : b.cruise = a.cruise
  profile : b.profile = a.profile
  running : b.running = a.running
  startValid : b.startValid = a.startValid
  runStart : b.runStart = a.runStart
  label : b.label = a.label
  dirPin : b.dirPin = a.dirPin

theorem SequencerCase.keeps {s : State} {a b : Channel} (h : SequencerCase s a b) : SequencerKeeps a b := by
  cases h <;> exact ⟨rfl, rfl, rfl, rfl, rfl, rfl, rfl, rfl, rfl, rfl, rfl⟩

theorem SequencerCase.stats {s : State} {a b : Channel} (h : SequencerCase s a b) :
    (∃ r, b = a.finished r) ∨
      b.totalPulses = a.totalPulses ∧ b.totalRevolutions = a.totalRevolutions ∧ b.totalRunTime = a.totalRunTime := by
  cases h with
  | ended r h => exact .inl ⟨r, rfl⟩
  | _ => exact .inr ⟨rfl, rfl, rfl⟩

/-! ## The DIR pin (70_reset_and_hazards.md R288) -/

theorem statusWord_opcode (op : BitVec 8) (code : StatusCode) (detail : BitVec 4) :
    (statusWord op code detail).extractLsb' 8 8 = op := by
  refine BitVec.eq_of_getLsbD_eq fun i hi => ?_
  simp only [statusWord, BitVec.getLsbD_extractLsb', BitVec.getLsbD_append]
  rw [if_neg (by omega), if_neg (by omega), if_pos (by omega), show 8 + i - 4 - 4 = i by omega]
  simp [hi]

section

variable {s t : State} {c : Nat} {a b : Channel}

/-- The step from `s` to `t` is that of a MOVE on the IDLE channel `a`, which drives DIR and so makes it `b`. -/
structure DrivesDir (s t : State) (a b : Channel) : Prop where
  idle : a.moving = false
  opcode : t.cmdStatus.extractLsb' 8 8 = 0x03#8
  statuses : t.statuses = t.cmdStatus :: s.statuses
  events : b.events = .dirSet b.dirPin :: a.events

theorem Records.statuses_cons {w : Word} (h : Records s t w) : t.statuses = t.cmdStatus :: s.statuses := by
  rw [h.statuses, h.cmdStatus]

theorem CommandChange.dirPin (h : CommandChange s t a b) : b.dirPin = a.dirPin ∨ DrivesDir s t a b := by
  cases h with
  | moveRefused idle dir code detail recorded =>
    exact .inr ⟨idle, recorded.cmdStatus ▸ statusWord_opcode _ _ _, recorded.statuses_cons, rfl⟩
  | moveAccepted idle dir profile curve given hv recorded =>
    exact .inr ⟨idle, recorded.cmdStatus ▸ rfl, recorded.statuses_cons, by simp⟩
  | _ => exact .inl rfl

theorem step_dirPin (h : step s = .next t) (ha : s.chans[c]? = some a) (hb : t.chans[c]? = some b) :
    b.dirPin = a.dirPin ∨ DrivesDir s t a b := by
  cases step_channel h ha hb with
  | same => exact .inl rfl
  | command _ h => exact h.dirPin
  | sequencer _ _ h => exact .inl h.keeps.dirPin
  | engine _ _ => exact .inl (entryPlayed_keeps a).dirPin

/-! ## The statistics (10_state.md R36) -/

/-- The three sums of a channel. -/
def Channel.sums (ch : Channel) : BitVec 64 × B64 × B64 := (ch.totalPulses, ch.totalRevolutions, ch.totalRunTime)

/-- The start marks of a channel. -/
def Channel.marks (ch : Channel) : Bool × Bool × BitVec 64 := (ch.running, ch.startValid, ch.runStart)

/-- The step from `s` to `t` clears the statistics of the IDLE channel `a`, which makes it `b`. -/
structure ClearsStats (s t : State) (a b : Channel) : Prop where
  cmdStatus : t.cmdStatus = 0x00000600#32 ∨ t.cmdStatus = 0x00000500#32
  statuses : t.statuses = t.cmdStatus :: s.statuses
  idle : a.moving = false
  sums : b.sums = (0#64, 0#64, 0#64)
  marks : b.marks = (false, false, 0#64)

theorem CommandChange.sums (h : CommandChange s t a b) : b.sums = a.sums ∨ ClearsStats s t a b := by
  cases h with
  | cleared idle recorded => exact .inr ⟨.inr recorded.cmdStatus, recorded.statuses_cons, idle, rfl, rfl⟩
  | statsCleared idle recorded => exact .inr ⟨.inl recorded.cmdStatus, recorded.statuses_cons, idle, rfl, rfl⟩
  | moveAccepted idle dir profile curve given hv recorded => exact .inl (by simp [Channel.sums])
  | _ => exact .inl rfl

/-- The sums change at the end of a move, by the channel's own sequencer, or by a clear. -/
theorem step_sums (h : step s = .next t) (ha : s.chans[c]? = some a) (hb : t.chans[c]? = some b) :
    b.sums = a.sums ∨ (nextAgent s = .sequencer c ∧ ∃ r, b = a.finished r) ∨ ClearsStats s t a b := by
  cases step_channel h ha hb with
  | same => exact .inl rfl
  | command _ h => exact h.sums.imp_right .inr
  | sequencer hagent _ h =>
    rcases h.stats with hr | ⟨h1, h2, h3⟩
    · exact .inr (.inl ⟨hagent, hr⟩)
    · exact .inl (by rw [Channel.sums, h1, h2, h3, Channel.sums])
  | engine _ _ =>
    have keeps := entryPlayed_keeps a
    exact .inl (by rw [Channel.sums, keeps.totalPulses, keeps.totalRevolutions, keeps.totalRunTime, Channel.sums])

/-- The step from `s` to `t` accepts a MOVE on the IDLE channel `a`, which makes it `b`. -/
structure MarksStart (s t : State) (a b : Channel) : Prop where
  recorded : Records s t 0x00000300#32
  idle : a.moving = false
  moving : b.moving = true
  marks : b.marks = (true, true, s.time)

theorem CommandChange.marks (h : CommandChange s t a b) :
    b.marks = a.marks ∨ MarksStart s t a b ∨ ClearsStats s t a b := by
  cases h with
  | cleared idle recorded => exact .inr (.inr ⟨.inr recorded.cmdStatus, recorded.statuses_cons, idle, rfl, rfl⟩)
  | statsCleared idle recorded => exact .inr (.inr ⟨.inl recorded.cmdStatus, recorded.statuses_cons, idle, rfl, rfl⟩)
  | moveAccepted idle dir profile curve given hv recorded =>
    exact .inr (.inl ⟨recorded, idle, by simp, by simp [Channel.marks]⟩)
  | _ => exact .inl rfl

theorem step_marks (h : step s = .next t) (ha : s.chans[c]? = some a) (hb : t.chans[c]? = some b) :
    b.marks = a.marks ∨ MarksStart s t a b ∨ ClearsStats s t a b := by
  cases step_channel h ha hb with
  | same => exact .inl rfl
  | command _ h => exact h.marks
  | sequencer _ _ h =>
    have keeps := h.keeps
    exact .inl (by rw [Channel.marks, keeps.running, keeps.startValid, keeps.runStart, Channel.marks])
  | engine _ _ =>
    have keeps := entryPlayed_keeps a
    exact .inl (by rw [Channel.marks, keeps.running, keeps.startValid, keeps.runStart, Channel.marks])

theorem CommandChange.label (h : CommandChange s t a b) :
    b.label = a.label ∨ (Records s t 0x00000800#32 ∧ b.label = s.args[0]) ∨
      (Records s t 0x00000500#32 ∧ a.moving = false ∧ b.label = 0#32) := by
  cases h with
  | labelSet recorded => exact .inr (.inl ⟨recorded, rfl⟩)
  | cleared idle recorded => exact .inr (.inr ⟨recorded, idle, rfl⟩)
  | moveAccepted idle dir profile curve given hv recorded => exact .inl (by simp)
  | _ => exact .inl rfl

theorem step_label (h : step s = .next t) (ha : s.chans[c]? = some a) (hb : t.chans[c]? = some b) :
    b.label = a.label ∨ (Records s t 0x00000800#32 ∧ b.label = s.args[0]) ∨
      (Records s t 0x00000500#32 ∧ a.moving = false ∧ b.label = 0#32) := by
  cases step_channel h ha hb with
  | same => exact .inl rfl
  | command _ h => exact h.label
  | sequencer _ _ h => exact .inl h.keeps.label
  | engine _ _ => exact .inl (entryPlayed_keeps a).label

/-! ## The snapshot (10_state.md R29) -/

theorem ChannelStep.snap {c : Nat} {s t : State} (h : ChannelStep c s t) : t.snap = s.snap := by
  rw [h.others.block]

/-- What a step writes into the snapshot: a copy of a channel by SNAP, or the cleared registers by RESET. -/
inductive WritesSnap (s t : State) : Prop where
  | copied (k : BitVec 4) (ch : Channel) (recorded : Records s t 0x00000700#32) (h : t.snap = snapshotOf k ch)
  | cleared (recorded : Records s t 0x00000500#32) (h : t.snap = Snapshot.cleared)

theorem exec_snap {i : Instr} (h : exec i s = .next t) : t.snap = s.snap ∨ WritesSnap s t := by
  cases exec_case h with
  | cleared idle hu => subst hu; exact .inr (.cleared ⟨rfl, rfl⟩ rfl)
  | snapped k y there hu => subst hu; exact .inr (.copied k y ⟨rfl, rfl⟩ rfl)
  | _ => subst t; exact .inl rfl

theorem step_snap (h : step s = .next t) : t.snap = s.snap ∨ WritesSnap s t := by
  cases step_case h with
  | outside h => exact .inl h.snap
  | command i m u h =>
    rcases exec_snap h.runs with hs | ⟨k, ch, recorded, hs⟩ | ⟨recorded, hs⟩
    · exact .inl (h.after.snap.trans (hs.trans h.same.snap))
    · exact .inr (.copied k ch (recorded.congr h.same h.after) (h.after.snap.trans hs))
    · exact .inr (.cleared (recorded.congr h.same h.after) (h.after.snap.trans hs))
  | illegal op e h => exact .inl h.snap
  | clearDone v more _ hh h => exact .inl h.snap
  | setEnable v h => exact .inl h.snap
  | sequencer k _ h => exact .inl (h ▸ (sequencerStep_channelStep k _).snap.trans (takeTurn_same s).snap)
  | engine k _ h => exact .inl (h ▸ (engineStep_channelStep k _).snap.trans (takeTurn_same s).snap)

theorem snapCtrlWord_valid (k : BitVec 4) : (snapCtrlWord k).getLsbD 31 = true := by
  revert k
  decide

end

/-! ## The DONE bits (60_exceptions.md R250) -/

section

variable {s t : State}

theorem exec_irqStatus {i : Instr} (h : exec i s = .next t) :
    t.irqStatus = s.irqStatus ∨ (Records s t 0x00000500#32 ∧ t.irqStatus = 0#16) := by
  cases exec_case h with
  | cleared idle hu => subst hu; exact .inr ⟨⟨rfl, rfl⟩, rfl⟩
  | _ => subst t; exact .inl rfl

/-- What becomes of IRQ_STATUS in one step. -/
inductive IrqStatusCase (s t : State) : Prop where
  | same (h : t.irqStatus = s.irqStatus)
  /-- RESET clears it. -/
  | cleared (recorded : Records s t 0x00000500#32) (h : t.irqStatus = 0#16)
  /-- The host writes it. -/
  | written (v : Word) (more : List HostOp) (hagent : nextAgent s = .host) (hh : s.host = .write 0x018 4 v :: more)
      (h : t.irqStatus = s.irqStatus &&& ~~~(v.setWidth 16))
  /-- The sequencer of channel `k` ends its move. -/
  | done (k : Nat) (a : Channel) (r : Result) (hagent : nextAgent s = .sequencer k) (ha : s.chans[k]? = some a)
      (hq : a.seq ≠ .idle) (hb : t.chans[k]? = some (a.finished r)) (h : t.irqStatus = s.irqStatus ||| doneBit k)

theorem sequencerStep_irqStatus (k : Nat) (s : State) :
    (sequencerStep k s).irqStatus = s.irqStatus ∨
      ∃ a r, s.chans[k]? = some a ∧ a.seq ≠ .idle ∧ (sequencerStep k s).chans[k]? = some (a.finished r) ∧
        (sequencerStep k s).irqStatus = s.irqStatus ||| doneBit k := by
  cases sequencerStep_channelStep k s with
  | still h => exact .inl (congrArg _ h)
  | wrote d b hd h => exact .inl (by rw [h, setChan_irqStatus, hd.same.irqStatus])
  | ended d a r there hd h =>
    by_cases hq : a.seq = .idle
    · exact .inl (congrArg _ (sequencerStep_idle there hq))
    · refine .inr ⟨a, r, there, hq, ?_, by rw [h, finish_irqStatus, hd.same.irqStatus]⟩
      rw [h, finish_chans, hd.same.chans, List.getElem?_set_self (List.getElem?_eq_some_iff.1 there).1]

theorem engineStep_irqStatus (k : Nat) (s : State) : (engineStep k s).irqStatus = s.irqStatus := by
  unfold engineStep
  split
  · rfl
  · split <;> rfl

theorem step_irqStatus (h : step s = .next t) : IrqStatusCase s t := by
  have hturn := takeTurn_same s
  cases step_case h with
  | outside h => exact .same h.irqStatus
  | command i m u h =>
    rcases exec_irqStatus h.runs with hi | ⟨recorded, hi⟩
    · exact .same (h.after.irqStatus.trans (hi.trans h.same.irqStatus))
    · exact .cleared (recorded.congr h.same h.after) (h.after.irqStatus.trans hi)
  | illegal op e h => exact .same h.irqStatus
  | clearDone v more hagent hh h => exact .written v more hagent hh h.irqStatus
  | setEnable v h => exact .same h.irqStatus
  | sequencer k hagent h =>
    subst h
    rcases sequencerStep_irqStatus k (takeTurn s) with hi | ⟨a, r, ha, hq, hb, hi⟩
    · exact .same (hi.trans hturn.irqStatus)
    · exact .done k a r hagent (hturn.chans ▸ ha) hq hb (hturn.irqStatus ▸ hi)
  | engine k _ h => exact .same (h ▸ (engineStep_irqStatus k _).trans hturn.irqStatus)

end

/-! ## IRQ and its events (60_exceptions.md R251) -/

/-- The step from `s` to `t` records the change of IRQ, if there is one, at its place among the pin events, and then no
event of a pin. -/
structure IrqRecorded (s t : State) : Prop where
  events : t.irqEvents =
    if irqLevel t = irqLevel s then s.irqEvents else irqEvent (irqLevel t) s :: s.irqEvents
  pins : irqLevel t ≠ irqLevel s → t.chans.map Channel.events = s.chans.map Channel.events

theorem SameBlock.irqLevel {s t : State} (h : SameBlock s t) : irqLevel t = irqLevel s := by
  rw [Machine.irqLevel, h.irqStatus, h.irqEnable, Machine.irqLevel]

theorem SameBlock.irqEvent {s t : State} (h : SameBlock s t) (level : Bool) : irqEvent level t = irqEvent level s := by
  rw [Machine.irqEvent, h.chans, Machine.irqEvent]

/-- A step that leaves the interrupt registers and events as they are. -/
theorem IrqRecorded.of_same {s t : State} (hl : Machine.irqLevel t = Machine.irqLevel s) (he : t.irqEvents = s.irqEvents) :
    IrqRecorded s t :=
  ⟨by rw [he, if_pos hl], fun hne => absurd hl hne⟩

theorem IrqRecorded.congr {s m u t : State} (h : IrqRecorded m u) (hs : SameBlock s m) (ht : SameBlock u t) :
    IrqRecorded s t :=
  ⟨by rw [ht.irqEvents, h.events, ht.irqLevel, hs.irqLevel, hs.irqEvents, hs.irqEvent],
    fun hne => by
      rw [ht.chans, ← hs.chans]
      exact h.pins (ht.irqLevel ▸ hs.irqLevel ▸ hne)⟩

theorem setIrq_recorded (status enable : BitVec 16) (s : State) : IrqRecorded s (setIrq status enable s) :=
  ⟨rfl, fun _ => rfl⟩

theorem map_events_set_finished {l : List Channel} {c : Nat} {ch : Channel} (hch : l[c]? = some ch) (res : Result) :
    (l.set c (ch.finished res)).map Channel.events = l.map Channel.events := by
  obtain ⟨hc, rfl⟩ := List.getElem?_eq_some_iff.1 hch
  rw [List.map_set, finished_events, ← List.getElem_map Channel.events (h := by simpa using hc), List.set_getElem_self]

theorem finish_recorded {s : State} {c : Nat} {ch : Channel} (hch : s.chans[c]? = some ch) (res : Result) :
    IrqRecorded s (finish c ch res s) :=
  ⟨by rw [finish_irqEvents, irqEvent_setChan_finished hch]; rfl, fun _ => map_events_set_finished hch res⟩

theorem ChannelStep.recorded {c : Nat} {s t : State} (h : ChannelStep c s t) : IrqRecorded s t := by
  cases h with
  | still h => exact h ▸ .of_same rfl rfl
  | wrote d b hd h =>
    subst h
    exact .of_same hd.same.irqLevel hd.same.irqEvents
  | ended d a r there hd h =>
    subst h
    exact (finish_recorded (hd.same.chans ▸ there) r).congr hd.same (SameBlock.refl _)

theorem exec_recorded {i : Instr} {s t : State} (h : exec i s = .next t) : IrqRecorded s t := by
  cases exec_case h with
  | cleared idle hu =>
    subst hu
    refine ⟨?_, fun _ => List.map_map⟩
    refine (setIrq_recorded 0#16 s.irqEnable s.rearmed).events.trans ?_
    rw [irqEvent_rearmed]
    rfl
  | _ => subst t; exact .of_same rfl rfl

theorem step_recorded {s t : State} (h : step s = .next t) : IrqRecorded s t := by
  have hturn := takeTurn_same s
  cases step_case h with
  | outside h => exact .of_same h.irqLevel h.irqEvents
  | command i m u h => exact (exec_recorded h.runs).congr h.same h.after
  | illegal op e h => exact .of_same h.irqLevel h.irqEvents
  | clearDone v more _ hh h => exact (setIrq_recorded _ _ s).congr (SameBlock.refl _) h
  | setEnable v h => exact (setIrq_recorded _ _ s).congr (SameBlock.refl _) h
  | sequencer k _ h => exact h ▸ (sequencerStep_channelStep k _).recorded.congr hturn (SameBlock.refl _)
  | engine k _ h => exact h ▸ (engineStep_channelStep k _).recorded.congr hturn (SameBlock.refl _)

section

variable {s t : State} {c : Nat} {a b : Channel}

theorem CommandChange.events (h : CommandChange s t a b) : b.events = a.events ∨ ∃ e, b.events = e :: a.events := by
  cases h with
  | moveRefused idle dir code detail recorded => exact .inr ⟨_, rfl⟩
  | moveAccepted idle dir profile curve given hv recorded => exact .inr ⟨.dirSet dir, by simp⟩
  | _ => exact .inl rfl

theorem SequencerCase.events (h : SequencerCase s a b) : b.events = a.events ∨ ∃ e, b.events = e :: a.events := by
  cases h with
  | pulseBegun k hq hi hr => exact .inr ⟨_, rfl⟩
  | _ => exact .inl rfl

@[simp] theorem advanceEngine_events (ch : Channel) (pos : Nat) : (ch.advanceEngine pos).events = ch.events := by
  unfold Channel.advanceEngine
  split <;> rfl

theorem driveEntry_events (ch : Channel) (pos : Nat) :
    (ch.driveEntry pos).events = ch.events ∨ ∃ e, (ch.driveEntry pos).events = e :: ch.events := by
  unfold Channel.driveEntry
  split
  · split
    · exact .inr ⟨_, rfl⟩
    · exact .inl rfl
  · exact .inl rfl
  · exact .inl rfl

/-- A step records at most one event of a channel's pins. -/
theorem step_events (h : step s = .next t) (ha : s.chans[c]? = some a) (hb : t.chans[c]? = some b) :
    b.events = a.events ∨ ∃ e, b.events = e :: a.events := by
  cases step_channel h ha hb with
  | same => exact .inl rfl
  | command _ h => exact h.events
  | sequencer _ _ h => exact h.events
  | engine _ _ =>
    rw [Channel.entryPlayed, advanceEngine_events]
    exact driveEntry_events a _

/-- The step that changes IRQ puts that event in front of the sequence of every channel. -/
theorem outputEvents_of_irq_change (h : step s = .next t) (ha : s.chans[c]? = some a) (hb : t.chans[c]? = some b)
    (hne : irqLevel t ≠ irqLevel s) :
    b.events = a.events ∧ outputEvents t c = .irqLevel (irqLevel t) :: outputEvents s c := by
  have recorded := step_recorded h
  have hevents : b.events = a.events := by
    have hmap := congrArg (·[c]?) (recorded.pins hne)
    simpa [ha, hb] using hmap
  refine ⟨hevents, ?_⟩
  rw [outputEvents_eq hb, outputEvents_eq ha, recorded.events, if_neg hne, hevents]
  exact mergeIrq_irq (irqEvent_recorded ha)

/-- Any other step puts at most one event of the channel's pins in front. -/
theorem outputEvents_of_irq_same (hinv : s.Inv) (h : step s = .next t) (ha : s.chans[c]? = some a)
    (hb : t.chans[c]? = some b) (heq : irqLevel t = irqLevel s) :
    (b.events = a.events ∧ outputEvents t c = outputEvents s c) ∨
      ∃ e, b.events = e :: a.events ∧ outputEvents t c = .pin e :: outputEvents s c := by
  have hirq : t.irqEvents = s.irqEvents := by rw [(step_recorded h).events, if_pos heq]
  rw [outputEvents_eq hb, outputEvents_eq ha, hirq]
  rcases step_events h ha hb with he | ⟨e, he⟩ <;> rw [he]
  · exact .inl ⟨rfl, rfl⟩
  · exact .inr ⟨e, rfl, mergeIrq_pin fun i hi => hinv.irq_order i hi c a ha⟩

end

/-- After reset no channel has an output event. -/
theorem outputEvents_reset (c : Nat) : outputEvents State.reset c = [] := by
  unfold outputEvents
  split
  next ch hch =>
    rw [eq_reset_of_mem_chans_resetWith (List.mem_of_getElem? hch)]
    rfl
  next => rfl

/-! ## TIME (10_state.md R27, R28) -/

theorem timeBaseStep_eq (s : State) : timeBaseStep s = { s with time := BitVec.ofNat 64 (s.time.toNat + 1) } := by
  rw [BitVec.ofNat_add, BitVec.ofNat_toNat, BitVec.setWidth_eq]
  rfl

theorem step_time {s t : State} (h : step s = .next t) :
    t.time = if nextAgent s = .timeBase then BitVec.ofNat 64 (s.time.toNat + 1) else s.time := by
  rw [step_eq] at h
  split
  next ha =>
    rw [ha] at h
    injection h with h
    rw [← h, timeBaseStep_eq, takeTurn_time]
  next ha => exact (agentStep_turns ha h).time.trans (takeTurn_time s)

/-- Ticks change nothing but TIME. -/
theorem timeBaseStep_iterate (s : State) (k : Nat) :
    timeBaseStep^[k] s = { s with time := (timeBaseStep^[k] s).time } := by
  induction k with
  | zero => rfl
  | succ k ih => rw [Function.iterate_succ_apply', ih]; rfl

theorem regAt_timeLo (n : Nat) : regAt n 0x040 4 = some .timeLo := regAt_global n (by decide) (by decide)

theorem regAt_timeHi (n : Nat) : regAt n 0x044 4 = some .timeHi := regAt_global n (by decide) (by decide)

theorem busRead_timeLo (s : State) :
    busRead 0x040 4 s = .next { s with timeHiLatch := hi32 s.time, reads := (0x040, lo32 s.time) :: s.reads } :=
  busRead_eq_next.2 ⟨_, regAt_timeLo _, rfl⟩

theorem busRead_timeHi (s : State) : busRead 0x044 4 s = .next { s with reads := (0x044, s.timeHiLatch) :: s.reads } :=
  busRead_eq_next.2 ⟨_, regAt_timeHi _, rfl⟩

end Sys2Proof.Machine

section

open Sys2Proof Sys2Proof.Machine

/-- Settles O26: a sequencer and an engine write their channel, and `finish` its DONE bit. -/
theorem sequencerAndEngineTouchOneChannel : Obligations.SequencerAndEngineTouchOneChannel := by
  intro s t c h
  have hstep : ChannelStep c s t := by
    rcases h with rfl | rfl
    · exact sequencerStep_channelStep c s
    · exact engineStep_channelStep c s
  obtain ⟨hblock, hchans, hcount, hirq⟩ := hstep.others
  rw [hblock]
  exact ⟨hchans, hcount, rfl, rfl, rfl, rfl, rfl, rfl, rfl, rfl, rfl, rfl, rfl, rfl, rfl, rfl, rfl, hirq⟩

/-- Settles O28: of all that can happen to a channel only a MOVE on it drives DIR, and it runs on an IDLE channel. -/
theorem dirChangesOnlyByMove : Obligations.DirChangesOnlyByMove := by
  intro s t c a b h ha hb hne
  rcases step_dirPin h ha hb with hsame | ⟨idle, opcode, statuses, events⟩
  · exact absurd hsame.symm hne
  · exact ⟨idle, opcode, statuses, events⟩

/-- Settles O29: `step_sums`, `step_marks` and `step_label` say what a step can do to each group of statistics. -/
theorem statisticsChangeOnlyByRule : Obligations.StatisticsChangeOnlyByRule := by
  intro s t c a b h ha hb
  refine ⟨fun hne => ?sums, fun hne => ?marks, fun hne => ?label⟩
  case sums =>
    rcases step_sums h ha hb with hsame | ⟨hagent, r, rfl⟩ | ⟨hcmd, hstatuses, idle, hsums, -⟩
    · exact absurd hsame.symm hne
    · exact .inl ⟨hagent, rfl, rfl, rfl, rfl⟩
    · simp only [Channel.sums, Prod.mk.injEq] at hsums
      exact .inr ⟨hcmd, hstatuses, idle, hsums⟩
  case marks =>
    rcases step_marks h ha hb with hsame | ⟨recorded, idle, moving, hmarks⟩ | ⟨hcmd, hstatuses, idle, -, hmarks⟩
    · exact absurd hsame.symm hne
    · simp only [Channel.marks, Prod.mk.injEq] at hmarks
      exact .inl ⟨recorded.cmdStatus, recorded.statuses_cons, idle, moving, hmarks⟩
    · simp only [Channel.marks, Prod.mk.injEq] at hmarks
      exact .inr ⟨hcmd, hstatuses, idle, hmarks⟩
  case label =>
    rcases step_label h ha hb with hsame | ⟨recorded, hlabel⟩ | ⟨recorded, idle, hlabel⟩
    · exact absurd hsame.symm hne
    · exact .inl ⟨recorded.cmdStatus, recorded.statuses_cons, hlabel⟩
    · exact .inr ⟨recorded.cmdStatus, recorded.statuses_cons, idle, hlabel⟩

/-- Settles O30: of all commands only SNAP and RESET write the snapshot, and no other step does. -/
theorem snapshotChangesOnlyBySnapAndReset : Obligations.SnapshotChangesOnlyBySnapAndReset := by
  intro s t h hne
  rcases step_snap h with hsame | ⟨k, ch, recorded, hsnap⟩ | ⟨recorded, hsnap⟩
  · exact absurd hsame hne
  · exact ⟨recorded.statuses_cons, .inl ⟨recorded.cmdStatus, hsnap ▸ snapCtrlWord_valid k⟩⟩
  · exact ⟨recorded.statuses_cons, .inr ⟨recorded.cmdStatus, hsnap⟩⟩

/-- Settles O41: the read of TIME_LO latches the high half, which ticks leave as it is. -/
theorem timeReadIsConsistent : Obligations.TimeReadIsConsistent := by
  refine ⟨rfl, rfl, timeBaseStep_eq, fun s t => step_time, fun s v => ⟨?_, ?_⟩, busRead_timeLo, busRead_timeHi, ?_⟩
  · exact busWrite_readOnly (regAt_timeLo _) rfl
  · exact busWrite_readOnly (regAt_timeHi _) rfl
  · intro s t u k ht hu
    rw [busRead_timeLo] at ht
    injection ht with ht
    rw [busRead_timeHi, timeBaseStep_iterate] at hu
    injection hu with hu
    subst ht hu
    exact ⟨_, _, rfl, hi32_append_lo32 _⟩

/-- Settles O43: `step_recorded` gives the IRQ events of a step, `step_events` the pin events; by the invariant every IRQ
event so far stands before a new pin event. -/
theorem interruptEvents : Obligations.InterruptEvents :=
  ⟨fun _ => irqOf_eq_true_iff, irqLevel_resetWith _ _, fun _ _ h => (step_recorded h).events, outputEvents_reset,
    fun _ _ _ _ _ hinv h ha hb => ⟨outputEvents_of_irq_change h ha hb, outputEvents_of_irq_same hinv h ha hb⟩⟩

/-- Settles O44: `step_irqStatus` says which steps write IRQ_STATUS: `finish` sets a bit, a host write and RESET clear
bits. -/
theorem doneBitsFollowMoves : Obligations.DoneBitsFollowMoves := by
  intro s t c h hc
  cases step_irqStatus h with
  | same h => exact ⟨fun h0 h1 => by simp_all, fun h1 h0 => by simp_all⟩
  | cleared recorded h =>
    refine ⟨fun _ h1 => ?_, fun _ _ => .inr ⟨recorded.statuses, recorded.cmdStatus, h⟩⟩
    rw [h, BitVec.getLsbD_zero] at h1
    cases h1
  | written v more hagent hh h =>
    rw [h, BitVec.getLsbD_and, BitVec.getLsbD_not, BitVec.getLsbD_setWidth]
    refine ⟨fun h0 h1 => ?_, fun h1 h0 => .inl ⟨hagent, v, more, hh, ?_⟩⟩
    · rw [h0, Bool.false_and] at h1
      cases h1
    · simpa [h1, hc] using h0
  | done k a r hagent ha hq hb h =>
    rw [h, BitVec.getLsbD_or]
    refine ⟨fun h0 h1 => ?_, fun h1 h0 => ?_⟩
    · obtain rfl : c = k := by
        by_contra hne
        rw [h0, getLsbD_doneBit_of_ne hne] at h1
        cases h1
      exact ⟨hagent, ⟨_, hb, rfl⟩, fun hinv =>
        ⟨a, ha, (hinv.channels a (List.mem_of_getElem? ha)).moving_iff.2 hq⟩⟩
    · rw [h1, Bool.true_or] at h0
      cases h0

end

end

section
/-! PROOFS. The waveform engine (42_pulse_delay_sequencer.md R160): the entries of a chunk, the two steps of a pulse, and the
run over a whole chunk. -/

namespace Sys2Proof.Machine

/-! ## The entries of a chunk -/

theorem drop_chunkEntries (ks : List Word) (j : Nat) : (chunkEntries ks).drop (2 * j) = chunkEntries (ks.drop j) := by
  induction j generalizing ks with
  | zero => rfl
  | succ j ih =>
    cases ks with
    | nil => exact List.drop_nil
    | cons k ks => exact ih ks

/-- From an even place on stand a high and a low entry of the same delay. -/
theorem drop_chunkEntries_high {ks : List Word} {j : Nat} {k : Word} (hk : ks[j]? = some k) :
    (chunkEntries ks).drop (2 * j) = (true, k) :: (false, k) :: chunkEntries (ks.drop (j + 1)) := by
  obtain ⟨hj, rfl⟩ := List.getElem?_eq_some_iff.1 hk
  rw [drop_chunkEntries, List.drop_eq_getElem_cons hj]
  rfl

theorem drop_chunkEntries_low {ks : List Word} {j : Nat} {k : Word} (hk : ks[j]? = some k) :
    (chunkEntries ks).drop (2 * j + 1) = (false, k) :: chunkEntries (ks.drop (j + 1)) := by
  rw [← List.drop_drop, drop_chunkEntries_high hk]
  rfl

/-! ## The two steps of a pulse -/

theorem advanceEngine_more {a : Channel} {pos : Nat} (h : pos + 1 < a.buffer.length) :
    a.advanceEngine pos = { a with playPos := some (pos + 1) } :=
  if_pos h

theorem advanceEngine_end {a : Channel} {pos : Nat} (h : ¬ pos + 1 < a.buffer.length) :
    a.advanceEngine pos = { a with playPos := none, buffer := [], waveBusy := false } :=
  if_neg h

section

variable {a : Channel} {ks : List Word} {j : Nat} {k : Word} (hb : a.buffer = chunkEntries ks)
  (hk : ks[j]? = some k)

include hb hk

theorem driveEntry_high : a.driveEntry (2 * j) = a.raiseStep k := by
  rw [Channel.driveEntry, hb, drop_chunkEntries_high hk]
  exact if_pos rfl

theorem driveEntry_low : a.driveEntry (2 * j + 1) = { a with stepPin := false } := by
  rw [Channel.driveEntry, hb, drop_chunkEntries_low hk]

/-- The high entry raises STEP and records the pulse. -/
theorem entryPlayed_high (hp : a.playPos = some (2 * j)) :
    a.entryPlayed =
      { a with stepPin := true, events := .pulse k k :: a.events, playPos := some (2 * j + 1) } := by
  have hj : j < ks.length := (List.getElem?_eq_some_iff.1 hk).1
  rw [Channel.entryPlayed, hp, Option.getD_some, driveEntry_high hb hk, advanceEngine_more]
  · rfl
  · rw [raiseStep_buffer, hb, length_chunkEntries]
    omega

/-- The low entry lowers STEP, and the next delay is due. -/
theorem entryPlayed_low (hp : a.playPos = some (2 * j + 1)) (hj : j + 1 < ks.length) :
    a.entryPlayed = { a with stepPin := false, playPos := some (2 * (j + 1)) } := by
  rw [Channel.entryPlayed, hp, Option.getD_some, driveEntry_low hb hk, advanceEngine_more]
  · rfl
  · rw [hb, length_chunkEntries]
    omega

/-- The last low entry ends the chunk. -/
theorem entryPlayed_last (hp : a.playPos = some (2 * j + 1)) (hj : j + 1 = ks.length) :
    a.entryPlayed = { a with stepPin := false, playPos := none, buffer := [], waveBusy := false } := by
  rw [Channel.entryPlayed, hp, Option.getD_some, driveEntry_low hb hk, advanceEngine_end]
  rw [hb, length_chunkEntries]
  omega

end

/-! ## The run over a chunk -/

@[simp] theorem setChan_setChan (s : State) (c : Nat) (a b : Channel) : (s.setChan c a).setChan c b = s.setChan c b := by
  rw [State.setChan, State.setChan, List.set_set]
  rfl

theorem getElem?_setChan_self {s : State} {c : Nat} {a : Channel} (ha : s.chans[c]? = some a) (b : Channel) :
    (s.setChan c b).chans[c]? = some b := by
  rw [setChan_chans, List.getElem?_set_self (List.getElem?_eq_some_iff.1 ha).1]

/-- The channel after the rest of its chunk, from delay `j` on. -/
def Channel.chunkDone (a : Channel) (ks : List Word) (j : Nat) : Channel :=
  { a with
    events := ((ks.drop j).map fun k => PinEvent.pulse k k).reverse ++ a.events
    stepPin := false
    waveBusy := false
    buffer := []
    playPos := none }

/-- The rest of a chunk with `m` more delays after delay `j` takes two steps a delay. -/
theorem engineStep_iterate_rest {c : Nat} {ks : List Word} (m : Nat) :
    ∀ {s : State} {a : Channel} {j : Nat}, s.chans[c]? = some a → a.waveBusy = true → a.buffer = chunkEntries ks →
      a.playPos = some (2 * j) → j + m + 1 = ks.length →
      (engineStep c)^[2 * (m + 1)] s = s.setChan c (a.chunkDone ks j) := by
  induction m with
  | zero =>
    intro s a j ha hw hb hp hj
    have hk : ks[j]? = some ks[j] := List.getElem?_eq_getElem (by omega)
    have hrest : ks.drop j = [ks[j]] := by
      rw [List.drop_eq_getElem_cons (by omega), List.drop_eq_nil_of_le (by omega)]
    change engineStep c (engineStep c s) = _
    rw [engineStep_busy ha hw, entryPlayed_high hb hk hp,
      engineStep_busy (getElem?_setChan_self ha _) (by exact hw), setChan_setChan,
      entryPlayed_last (by exact hb) hk rfl (by omega), Channel.chunkDone, hrest]
    rfl
  | succ m ih =>
    intro s a j ha hw hb hp hj
    have hk : ks[j]? = some ks[j] := List.getElem?_eq_getElem (by omega)
    have hrest : ks.drop j = ks[j] :: ks.drop (j + 1) := List.drop_eq_getElem_cons (by omega)
    change (engineStep c)^[2 * (m + 1)] (engineStep c (engineStep c s)) = _
    rw [engineStep_busy ha hw, entryPlayed_high hb hk hp,
      engineStep_busy (getElem?_setChan_self ha _) (by exact hw), setChan_setChan,
      entryPlayed_low (by exact hb) hk rfl (by omega),
      ih (getElem?_setChan_self ha _) (by exact hw) (by exact hb) rfl (by omega), setChan_setChan, Channel.chunkDone,
      Channel.chunkDone, hrest, List.map_cons, List.reverse_cons, List.append_assoc]
    rfl

end Sys2Proof.Machine

section

open Sys2Proof Sys2Proof.Machine

/-- Settles O36: two steps for each delay, by induction on the delays still to play. -/
theorem enginePlaysWholeChunk : Obligations.EnginePlaysWholeChunk := by
  intro s c ch ks hch hne hw hb hp
  obtain ⟨m, hm⟩ := Nat.exists_eq_add_one_of_ne_zero (List.length_pos_iff.2 hne).ne'
  rw [hm]
  exact engineStep_iterate_rest m (j := 0) hch hw hb hp (by omega)

end

end

section
/-! PROOFS. The invariant of the block: after reset (70_reset_and_hazards.md R271), and through commands, steps of a
sequencer and steps of an engine, of each channel and then of the whole state. -/

namespace Sys2Proof.Machine

open Binary64

/-! ## After reset -/

theorem inv_reset : Channel.reset.Inv where
  moving_iff := by decide
  mode := trivial
  shape := ⟨⟨rfl, rfl, rfl, rfl⟩, rfl⟩
  index := le_rfl
  counts := rfl
  ramp_le := le_rfl
  phases := rfl
  no_result := nofun
  configured := nofun
  running_iff := rfl
  moving_running := nofun
  start_zero := fun _ => rfl

theorem inv_resetWith {n : Nat} {p : Params} (h : legalParams p n) : (State.resetWith n p).Inv where
  legal := by rwa [State.numChannels, length_chans_resetWith]
  status_bits := BitVec.zero_and
  enable_bits := BitVec.zero_and
  cmd_status := (by decide : (0#32).extractLsb' 16 16 = 0#16)
  snap_ctrl := BitVec.zero_and
  snap_flags := BitVec.zero_and
  channels := fun _ hc => eq_reset_of_mem_chans_resetWith hc ▸ inv_reset
  irq_order := nofun

theorem legalRanges_reference : legalRanges Config.reference Config.numChannels = true := by decide +kernel

theorem legalParams_reference : legalParams Config.reference Config.numChannels := ⟨legalRanges_reference, trivial⟩

/-! ## What `validate` lets through (43_motion_commands.md R182) -/

/-- The checks of `validate`, all passed. -/
structure Validated (p : Params) (ppr : Word) (v t rt : B64) : Prop where
  configured : ppr ≠ 0#32
  start_finite : finite v = true
  start_pos : lt 0#64 v = true
  target_finite : finite t = true
  target_pos : lt 0#64 t = true
  runTime_finite : finite rt = true
  runTime_nonneg : le 0#64 rt = true
  tickRange : tickRangeExceeded p (halfStepDelay ppr v) (halfStepDelay ppr t) = false
  stepCount : isZero rt = false →
    finite (stepProduct ppr t rt) = true ∧ le (ofNat (2 ^ 32)) (stepProduct ppr t rt) = false

theorem validate_eq_none {p : Params} {ppr : Word} {v t rt : B64} (h : validate p ppr v t rt = none) :
    Validated p ppr v t rt := by
  rw [validate_eq] at h
  split_ifs at h with hppr hv ht hrt htick hcount
  obtain ⟨hv, hv0⟩ := hv
  obtain ⟨ht, ht0⟩ := ht
  obtain ⟨hrt, hrt0⟩ := hrt
  refine ⟨hppr, hv, hv0, ht, ht0, hrt, hrt0, Bool.eq_false_iff.2 htick, fun hz => ?_⟩
  rw [eq_zero_eq_isZero hrt] at hcount
  simpa [hz] using hcount

section

variable {p : Params} {ppr : Word} {v t rt : B64}

/-- The step count of an accepted move fits its register (43_motion_commands.md R182, sixth check). -/
theorem Validated.totalSteps_lt (h : Validated p ppr v t rt) : totalSteps ppr t rt < 2 ^ 32 := by
  rw [totalSteps]
  split
  · exact Nat.two_pow_pos 32
  next hz =>
    obtain ⟨hfin, hle⟩ := h.stepCount (Bool.eq_false_iff.2 hz)
    have hlt := (le_eq_false (isNaN_ofNat _) (isNaN_of_finite hfin)).1 hle
    have hfloor := floor_lt_of_signedUnits_lt (by decide) hlt
    omega

theorem Validated.rampSteps_le (h : Validated p ppr v t rt) {n : Nat} (hp : legalRanges p n = true)
    (given : Option Word) : rampSteps p v t given (totalSteps ppr t rt) ≤ totalSteps ppr t rt / 2 :=
  rampSteps_le_half given hp h.start_finite h.start_pos h.target_finite h.target_pos h.totalSteps_lt

end

/-! ## A channel through a command -/

section

variable {a b : Channel}

theorem Channel.Inv.seq_idle (h : a.Inv) (idle : a.moving = false) : a.seq = .idle := by
  by_contra hq
  exact Bool.false_ne_true (idle.symm.trans (h.moving_iff.2 hq))

/-- With no pulse and no chunk begun, STEP and the engine are at rest. -/
theorem Channel.Inv.at_rest (h : a.Inv)
    (hq : a.seq = .idle ∨ a.seq = .s0 ∨ a.seq = .s1 ∨ a.seq = .s2 ∨ a.seq = .c0 ∨ a.seq = .c1 ∨ a.seq = .c2) :
    engineStill a false ∧ a.chunkValid = 0 ∧ a.idx.toNat ≤ a.total.toNat := by
  have hshape := h.shape
  have hindex := h.index
  rcases hq with hq | hq | hq | hq | hq | hq | hq <;> simp only [emissionShape, indexInRange, hq] at hshape hindex <;>
    exact ⟨hshape.1, hshape.2, hindex⟩

/-- The sequencer of an IDLE channel has no position, so its mode and its index are free. -/
theorem Channel.Inv.of_idle (h : a.Inv) (idle : a.moving = false) (hm : b.moving = a.moving) (hq : b.seq = a.seq)
    (hstill : engineStill b false) (hvalid : b.chunkValid = 0) (hindex : b.idx.toNat ≤ b.total.toNat)
    (hcounts : b.steps.toNat + b.dropped.toNat = b.idx.toNat) (hramp : b.ramp.toNat ≤ b.total.toNat / 2)
    (hphases : phasesAddUp b) (hrunning : b.running = b.startValid) (hstart : b.startValid = false → b.runStart = 0#64) :
    b.Inv := by
  have hidle := hq.trans (h.seq_idle idle)
  have hnot : b.moving ≠ true := by rw [hm, idle]; decide
  exact
    { moving_iff := ⟨fun hmoving => absurd hmoving hnot, fun hne => absurd hidle hne⟩
      mode := by simp only [modeMatches, hidle]
      shape := by simp only [emissionShape, hidle]; exact ⟨hstill, hvalid⟩
      index := by simp only [indexInRange, hidle]; exact hindex
      counts := hcounts
      ramp_le := hramp
      phases := hphases
      no_result := fun hmoving => absurd hmoving hnot
      configured := fun hmoving => absurd hmoving hnot
      running_iff := hrunning
      moving_running := fun hmoving => absurd hmoving hnot
      start_zero := hstart }

/-- An accepted move starts within its record's bounds (43_motion_commands.md R181). -/
theorem accepted_inv {p : Params} {n : Nat} (hp : legalRanges p n = true) (h : a.Inv) (idle : a.moving = false)
    {v t rt : B64} (hv : Validated p a.ppr v t rt) (time : BitVec 64) (dir : Bool) (profile : Profile) (curve : Curve)
    (given : Option Word) : ((a.driveDir dir).accepted p time v t rt dir profile curve given).Inv := by
  obtain ⟨⟨hpin, hwave, hbuffer, hpos⟩, hvalid, -⟩ := h.at_rest (.inl (h.seq_idle idle))
  have htotal := hv.totalSteps_lt
  have hramp := hv.rampSteps_le hp given
  generalize hT : totalSteps a.ppr t rt = total at htotal hramp
  generalize hR : rampSteps p v t given total = r at hramp
  have toNat_total : (BitVec.ofNat 32 total).toNat = total := by rw [BitVec.toNat_ofNat, Nat.mod_eq_of_lt htotal]
  have toNat_ramp : (BitVec.ofNat 32 r).toNat = r := by rw [BitVec.toNat_ofNat, Nat.mod_eq_of_lt (by omega)]
  have toNat_cruise : ∀ c ≤ total, (BitVec.ofNat 32 c).toNat = c := fun c hc => by
    rw [BitVec.toNat_ofNat, Nat.mod_eq_of_lt (by omega)]
  have hstill : engineStill ((a.driveDir dir).accepted p time v t rt dir profile curve given) false := by
    simp [engineStill, hpin, hwave, hbuffer, hpos]
  exact
    { moving_iff := by cases he : a.emit <;> simp [startLabel, he]
      mode := by cases he : a.emit <;> simp [modeMatches, startLabel, he]
      shape := by cases he : a.emit <;> simp [emissionShape, startLabel, he, hstill, hvalid]
      index := by cases he : a.emit <;> simp [indexInRange, startLabel, he]
      counts := by simp
      ramp_le := by simpa [hT, hR, toNat_total, toNat_ramp] using hramp
      phases := by
        cases profile <;> simp only [phasesAddUp, accepted_profile, accepted_ramp, accepted_cruise, accepted_total,
          driveDir_ppr, hT, hR, toNat_total, toNat_ramp, cruiseSteps] <;> rw [toNat_cruise _ (by omega)] <;> omega
      no_result := by simp
      configured := by simpa using hv.configured
      running_iff := by simp
      moving_running := by simp
      start_zero := by simp }

theorem CommandChange.inv {s t : State} {n : Nat} (hp : legalRanges s.params n = true) (hi : a.Inv)
    (h : CommandChange s t a b) : b.Inv := by
  have rest : a.moving = false → engineStill a false ∧ a.chunkValid = 0 ∧ a.idx.toNat ≤ a.total.toNat :=
    fun idle => hi.at_rest (.inl (hi.seq_idle idle))
  cases h with
  | same => exact hi
  | moveRefused idle dir code detail recorded => exact { hi with }
  | moveAccepted idle dir profile curve given hv recorded => exact accepted_inv hp hi idle (validate_eq_none hv) _ _ _ _ _
  | cleared idle recorded =>
    obtain ⟨hstill, hvalid, -⟩ := rest idle
    exact hi.of_idle idle rfl rfl hstill hvalid le_rfl rfl (Nat.zero_le _) rfl rfl fun _ => rfl
  | pprSet idle n =>
    obtain ⟨hstill, hvalid, hindex⟩ := rest idle
    exact hi.of_idle idle rfl rfl hstill hvalid hindex hi.counts hi.ramp_le hi.phases hi.running_iff hi.start_zero
  | emitSet idle e =>
    obtain ⟨hstill, hvalid, hindex⟩ := rest idle
    exact hi.of_idle idle rfl rfl hstill hvalid hindex hi.counts hi.ramp_le hi.phases hi.running_iff hi.start_zero
  | statsCleared idle recorded =>
    obtain ⟨hstill, hvalid, hindex⟩ := rest idle
    exact hi.of_idle idle rfl rfl hstill hvalid hindex hi.counts hi.ramp_le hi.phases rfl fun _ => rfl
  | labelSet recorded => exact { hi with }

/-! ## A channel through a step of its sequencer -/

/-- What a step leaves as it is while the move goes on: the parts of the invariant that do not read the sequencer's
position hold on. -/
theorem Channel.Inv.of_moving (hi : a.Inv) (keeps : SequencerKeeps a b) (ha : a.seq ≠ .idle) (hb : b.seq ≠ .idle)
    (hm : b.moving = a.moving) (hr : b.result = a.result) (mode : modeMatches b) (shape : emissionShape b)
    (index : indexInRange b) (counts : b.steps.toNat + b.dropped.toNat = b.idx.toNat) : b.Inv where
  moving_iff := ⟨fun _ => hb, fun _ => hm.trans (hi.moving_iff.2 ha)⟩
  mode := mode
  shape := shape
  index := index
  counts := counts
  ramp_le := keeps.ramp ▸ keeps.total ▸ hi.ramp_le
  phases := by
    have hphases := hi.phases
    rw [phasesAddUp] at hphases ⊢
    rwa [keeps.profile, keeps.ramp, keeps.cruise, keeps.total]
  no_result := fun hmoving => hr.trans (hi.no_result (hm ▸ hmoving))
  configured := fun hmoving => keeps.ppr ▸ hi.configured (hm ▸ hmoving)
  running_iff := keeps.running ▸ keeps.startValid ▸ hi.running_iff
  moving_running := fun hmoving => keeps.running ▸ hi.moving_running (hm ▸ hmoving)
  start_zero := by
    rw [keeps.startValid, keeps.runStart]
    exact hi.start_zero

/-- The label a sequencer at rest goes on to is of the same emission mode. -/
theorem advanced_inv (hi : a.Inv) {q : SeqPos}
    (h : a.seq = .s0 ∧ q = .s1 ∨ a.seq = .c0 ∧ q = .c1 ∨
      a.total ≠ 0#32 ∧ (a.seq = .s1 ∧ q = .s2 ∨ a.seq = .c1 ∧ q = .c2)) : Channel.Inv { a with seq := q } := by
  obtain ⟨hstill, hvalid, hindex⟩ := hi.at_rest (by tauto)
  have hmode := hi.mode
  have keeps : SequencerKeeps a { a with seq := q } := ⟨rfl, rfl, rfl, rfl, rfl, rfl, rfl, rfl, rfl, rfl, rfl⟩
  rcases h with ⟨hq, rfl⟩ | ⟨hq, rfl⟩ | ⟨-, ⟨hq, rfl⟩ | ⟨hq, rfl⟩⟩ <;> simp only [modeMatches, hq] at hmode <;>
    exact hi.of_moving keeps (by simp [hq]) (by simp) rfl rfl hmode ⟨hstill, hvalid⟩ hindex hi.counts

theorem EndReason.label {s : State} {r : Result} (h : EndReason s a r) :
    a.seq = .s1 ∨ a.seq = .s2 ∨ a.seq = .c1 ∨ a.seq = .c2 := by
  cases h <;> tauto

theorem finished_inv (hi : a.Inv) {s : State} {r : Result} (h : EndReason s a r) : (a.finished r).Inv := by
  have hlabel := h.label
  obtain ⟨hstill, hvalid, hindex⟩ := hi.at_rest (by tauto)
  exact
    { moving_iff := by simp
      mode := trivial
      shape := ⟨hstill, hvalid⟩
      index := hindex
      counts := hi.counts
      ramp_le := hi.ramp_le
      phases := hi.phases
      no_result := nofun
      configured := nofun
      running_iff := hi.running_iff
      moving_running := nofun
      start_zero := hi.start_zero }

theorem toNat_add_one_of_lt {x y : Word} (h : x.toNat < y.toNat) : (x + 1#32).toNat = x.toNat + 1 := by
  rw [BitVec.toNat_add, BitVec.toNat_ofNat, Nat.mod_eq_of_lt]
  omega

theorem toNat_lt_of_le_of_ne {x y : Word} (h : x.toNat ≤ y.toNat) (hne : x ≠ y) : x.toNat < y.toNat :=
  lt_of_le_of_ne h fun e => hne (BitVec.eq_of_toNat_eq e)

theorem toNat_add_ofNat_of_le {x y : Word} {k : Nat} (h : x.toNat + k ≤ y.toNat) :
    (x + BitVec.ofNat 32 k).toNat = x.toNat + k := by
  rw [BitVec.toNat_add, BitVec.toNat_ofNat]
  omega

/-- The chunk from `idx` on: its end, and its delays that are valid or dropped. -/
theorem nextChunk_bounds (p : Params) (h : a.idx.toNat ≤ a.total.toNat) :
    a.idx.toNat ≤ chunkEnd p a ∧ chunkEnd p a ≤ a.total.toNat ∧
      a.idx.toNat + (nextChunk p a).length + nextDrop p a = chunkEnd p a := by
  have hlen : (nextChunk p a).length ≤ chunkEnd p a - a.idx.toNat := length_chunkTicks_le _ _ _ _
  have hend : a.idx.toNat ≤ chunkEnd p a ∧ chunkEnd p a ≤ a.total.toNat := by
    rw [chunkEnd]
    omega
  rw [nextDrop]
  omega

theorem SequencerCase.inv {s : State} (hi : a.Inv) (h : SequencerCase s a b) : b.Inv := by
  have keeps := h.keeps
  have hmode := hi.mode
  have hshape := hi.shape
  have hindex := hi.index
  have hcounts := hi.counts
  cases h with
  | still h => exact hi
  | advanced q h => exact advanced_inv hi h
  | ended r h => exact finished_inv hi h
  | pulseBegun k hq hne hr =>
    simp only [modeMatches, emissionShape, indexInRange, hq] at hmode hshape hindex
    obtain ⟨⟨hpin, hengine⟩, hvalid⟩ := hshape
    exact hi.of_moving keeps (by simp [hq]) (by simp) rfl rfl hmode ⟨⟨rfl, hengine⟩, hvalid⟩
      (toNat_lt_of_le_of_ne hindex hne) hcounts
  | delayDropped hq hne hr =>
    simp only [modeMatches, emissionShape, indexInRange, hq] at hmode hshape hindex
    have hlt := toNat_lt_of_le_of_ne hindex hne
    have hidx := toNat_add_one_of_lt hlt
    have hdropped : (a.dropped + 1#32).toNat = a.dropped.toNat + 1 := toNat_add_one_of_lt (y := a.total) (by omega)
    refine hi.of_moving keeps (by simp [hq]) (by simp [hq]) rfl rfl ?_ ?_ ?_ ?_
    · simp only [modeMatches, hq, hmode]
    · simp only [emissionShape, hq]; exact hshape
    · simp only [indexInRange, hq, hidx]; omega
    · dsimp only; omega
  | pulseFallen k hq =>
    simp only [modeMatches, emissionShape, indexInRange, hq] at hmode hshape hindex
    obtain ⟨⟨hpin, hengine⟩, hvalid⟩ := hshape
    exact hi.of_moving keeps (by simp [hq]) (by simp) rfl rfl hmode ⟨⟨rfl, hengine⟩, hvalid⟩ hindex hcounts
  | pulseCounted k hq =>
    simp only [modeMatches, emissionShape, indexInRange, hq] at hmode hshape hindex
    have hidx := toNat_add_one_of_lt hindex
    have hsteps : (a.steps + 1#32).toNat = a.steps.toNat + 1 := toNat_add_one_of_lt (y := a.total) (by omega)
    refine hi.of_moving keeps (by simp [hq]) (by simp) rfl rfl hmode hshape ?_ ?_
    · simp only [indexInRange, hidx]; omega
    · dsimp only; omega
  | chunkSkipped hq hne hr hk =>
    simp only [modeMatches, emissionShape, indexInRange, hq] at hmode hshape hindex
    obtain ⟨hlow, hhigh, hsum⟩ := nextChunk_bounds s.params hindex
    rw [hk, List.length_nil] at hsum
    have hend : (BitVec.ofNat 32 (chunkEnd s.params a)).toNat = chunkEnd s.params a := by
      rw [BitVec.toNat_ofNat]; omega
    have hdropped : (a.dropped + BitVec.ofNat 32 (nextDrop s.params a)).toNat = a.dropped.toNat + nextDrop s.params a :=
      toNat_add_ofNat_of_le (y := a.total) (by omega)
    refine hi.of_moving keeps (by simp [hq]) (by simp [hq]) rfl rfl ?_ ?_ ?_ ?_
    · simp only [modeMatches, hq, hmode]
    · simp only [emissionShape, hq]; exact hshape
    · simp only [indexInRange, hq, hend]; omega
    · dsimp only; omega
  | chunkSubmitted hq hne hr hk =>
    simp only [modeMatches, emissionShape, indexInRange, hq] at hmode hshape hindex
    obtain ⟨⟨hpin, hengine⟩, hvalid⟩ := hshape
    obtain ⟨hlow, hhigh, hsum⟩ := nextChunk_bounds s.params hindex
    have hpos : 0 < 2 * (nextChunk s.params a).length := by
      have := List.length_pos_iff.2 hk
      omega
    exact hi.of_moving keeps (by simp [hq]) (by simp) rfl rfl hmode
      (.inr ⟨_, 0, rfl, rfl, rfl, rfl, hpos, hpin⟩) ⟨hsum, hhigh⟩ hcounts
  | chunkCounted ndrop e hq hw =>
    simp only [modeMatches, emissionShape, indexInRange, hq] at hmode hshape hindex
    obtain ⟨hsum, hhigh⟩ := hindex
    have hstill : engineStill a false := by
      rcases hshape with h | ⟨ks, pos, hplays⟩
      · exact h
      · exact absurd (hw.symm.trans hplays.1) Bool.false_ne_true
    have hend : (BitVec.ofNat 32 e).toNat = e := by
      rw [BitVec.toNat_ofNat]; omega
    have hsteps : (a.steps + BitVec.ofNat 32 a.chunkValid).toNat = a.steps.toNat + a.chunkValid :=
      toNat_add_ofNat_of_le (y := a.total) (by omega)
    have hdropped : (a.dropped + BitVec.ofNat 32 ndrop).toNat = a.dropped.toNat + ndrop :=
      toNat_add_ofNat_of_le (y := a.total) (by omega)
    refine hi.of_moving keeps (by simp [hq]) (by simp) rfl rfl hmode ⟨hstill, rfl⟩ ?_ ?_
    · simp only [indexInRange, chunkPlayed_seq, chunkPlayed_idx, chunkPlayed_total, hend]; omega
    · simp only [chunkPlayed_steps, chunkPlayed_dropped, chunkPlayed_idx]; omega

/-! ## A channel through a step of its engine -/

/-- An engine plays only while its sequencer waits at `[C3]`. -/
theorem Channel.Inv.plays (hi : a.Inv) (hw : a.waveBusy = true) :
    ∃ ndrop e ks pos, a.seq = .c3 ndrop e ∧ enginePlays a ks pos := by
  have hshape := hi.shape
  have busy : ∀ {step : Bool}, ¬ engineStill a step := fun ⟨_, hstill, _⟩ => Bool.false_ne_true (hstill.symm.trans hw)
  cases hq : a.seq with
  | c3 ndrop e =>
    simp only [emissionShape, hq] at hshape
    obtain ⟨ks, pos, hplays⟩ := hshape.resolve_left busy
    exact ⟨ndrop, e, ks, pos, rfl, hplays⟩
  | _ =>
    simp only [emissionShape, hq] at hshape
    exact absurd hshape.1 busy

/-- An entry of a chunk: the next one is due, or the engine is still. -/
theorem entryPlayed_shape {ks : List Word} {pos : Nat} (h : enginePlays a ks pos) :
    engineStill a.entryPlayed false ∨ enginePlays a.entryPlayed ks (pos + 1) := by
  obtain ⟨hw, hb, hlen, hp, hpos, -⟩ := h
  obtain ⟨j, rfl | rfl⟩ := Nat.even_or_odd' pos
  · have hk : ks[j]? = some ks[j] := List.getElem?_eq_getElem (by omega)
    rw [entryPlayed_high hb hk hp]
    exact .inr ⟨hw, hb, hlen, rfl, by omega, (decide_eq_true (by omega)).symm⟩
  · have hk : ks[j]? = some ks[j] := List.getElem?_eq_getElem (by omega)
    by_cases hj : j + 1 < ks.length
    · rw [entryPlayed_low hb hk hp hj]
      exact .inr ⟨hw, hb, hlen, rfl, by omega, (decide_eq_false (by omega)).symm⟩
    · rw [entryPlayed_last hb hk hp (by omega)]
      exact .inl ⟨rfl, rfl, rfl, rfl⟩

theorem EngineKeeps.sequencer (h : EngineKeeps a b) : SequencerKeeps a b :=
  ⟨h.ppr, h.emit, h.total, h.ramp, h.cruise, h.profile, h.running, h.startValid, h.runStart, h.label, h.dirPin⟩

theorem entryPlayed_inv (hi : a.Inv) (hw : a.waveBusy = true) : a.entryPlayed.Inv := by
  obtain ⟨ndrop, e, ks, pos, hq, hplays⟩ := hi.plays hw
  have keeps := entryPlayed_keeps a
  have hmode := hi.mode
  have hindex := hi.index
  simp only [modeMatches, indexInRange, hq] at hmode hindex
  refine hi.of_moving keeps.sequencer (by simp [hq]) (by simp [keeps.seq, hq]) keeps.moving keeps.result ?_ ?_ ?_ ?_
  · simp only [modeMatches, keeps.seq, hq, keeps.emit, hmode]
  · simp only [emissionShape, keeps.seq, hq]
    exact (entryPlayed_shape hplays).imp_right fun h => ⟨ks, _, h⟩
  · simp only [indexInRange, keeps.seq, hq, keeps.idx, keeps.chunkValid, keeps.total, hindex, and_self]
  · rw [keeps.steps, keeps.dropped, keeps.idx, hi.counts]

end

/-! ## The block through a step -/

section

variable {s t : State}

/-- A channel after a step was there before it. -/
theorem step_channel_before {c : Nat} {b : Channel} (h : step s = .next t) (hb : t.chans[c]? = some b) :
    ∃ a, s.chans[c]? = some a := by
  have hlt : c < s.numChannels := step_numChannels h ▸ lt_numChannels_of_getElem? hb
  exact ⟨_, List.getElem?_eq_getElem hlt⟩

theorem step_channels_inv (hinv : s.Inv) (h : step s = .next t) : ∀ ch ∈ t.chans, ch.Inv := by
  intro b hb
  obtain ⟨c, hc⟩ := List.mem_iff_getElem?.1 hb
  obtain ⟨a, ha⟩ := step_channel_before h hc
  have hi : a.Inv := hinv.channels a (List.mem_of_getElem? ha)
  cases step_channel h ha hc with
  | same => exact hi
  | command _ h => exact h.inv hinv.legal.1 hi
  | sequencer _ _ h => exact h.inv hi
  | engine _ hw => exact entryPlayed_inv hi hw

/-! ### The interrupt registers -/

theorem getLsbD_irqMask (n k : Nat) : (irqMask n).getLsbD k = (decide (k < 16) && decide (k < n)) := by
  rw [irqMask, BitVec.getLsbD_ofNat, Nat.testBit_two_pow_sub_one]

/-- A DONE bit of an existing channel is valid (10_state.md R25). -/
theorem doneBit_and_not_irqMask {n c : Nat} (hc : c < n) : doneBit c &&& ~~~(irqMask n) = 0#16 := by
  refine BitVec.eq_of_getLsbD_eq fun k hk => ?_
  rw [BitVec.getLsbD_and, BitVec.getLsbD_not, getLsbD_irqMask, BitVec.getLsbD_zero, decide_eq_true hk, Bool.true_and,
    Bool.true_and]
  by_cases hkc : k = c
  · rw [hkc, decide_eq_true hc, Bool.not_true, Bool.and_false]
  · rw [getLsbD_doneBit_of_ne hkc, Bool.false_and]

theorem step_status_bits (hinv : s.Inv) (h : step s = .next t) : t.irqStatus &&& ~~~(irqMask t.numChannels) = 0#16 := by
  rw [step_numChannels h]
  cases step_irqStatus h with
  | same h => rw [h, hinv.status_bits]
  | cleared recorded h => rw [h, BitVec.zero_and]
  | written v more hagent hh h =>
    rw [h, BitVec.and_assoc, BitVec.and_comm (~~~_), ← BitVec.and_assoc, hinv.status_bits, BitVec.zero_and]
  | done k a r hagent ha hq hb h =>
    rw [h, BitVec.and_comm, BitVec.and_or_distrib_left, BitVec.and_comm, hinv.status_bits, BitVec.and_comm,
      doneBit_and_not_irqMask (lt_numChannels_of_getElem? ha), BitVec.or_zero]

theorem ChannelStep.irqEnable {c : Nat} (h : ChannelStep c s t) : t.irqEnable = s.irqEnable := by
  rw [h.others.block]

theorem step_irqEnable (h : step s = .next t) :
    t.irqEnable = s.irqEnable ∨ ∃ v : Word, t.irqEnable = v.setWidth 16 &&& irqMask s.numChannels := by
  cases step_case h with
  | outside h => exact .inl h.irqEnable
  | command i m u h =>
    exact .inl (h.after.irqEnable.trans ((exec_keeps h.runs).irqEnable.trans h.same.irqEnable))
  | illegal op e h => exact .inl h.irqEnable
  | clearDone v more _ hh h => exact .inl h.irqEnable
  | setEnable v h => exact .inr ⟨v, h.irqEnable⟩
  | sequencer k _ h => exact .inl (h ▸ (sequencerStep_channelStep k _).irqEnable.trans (takeTurn_same s).irqEnable)
  | engine k _ h => exact .inl (h ▸ (engineStep_channelStep k _).irqEnable.trans (takeTurn_same s).irqEnable)

theorem step_enable_bits (hinv : s.Inv) (h : step s = .next t) : t.irqEnable &&& ~~~(irqMask t.numChannels) = 0#16 := by
  rw [step_numChannels h]
  rcases step_irqEnable h with he | ⟨v, he⟩ <;> rw [he]
  · exact hinv.enable_bits
  · rw [BitVec.and_assoc, BitVec.and_not_self]
    exact BitVec.and_zero

/-! ### CMD_STATUS and the snapshot -/

theorem statusWord_high (op : BitVec 8) (code : StatusCode) (detail : BitVec 4) :
    (statusWord op code detail).extractLsb' 16 16 = 0#16 := by
  refine BitVec.eq_of_getLsbD_eq fun i hi => ?_
  simp only [statusWord, BitVec.getLsbD_extractLsb', BitVec.getLsbD_append]
  rw [if_neg (by omega), if_neg (by omega), if_neg (by omega), BitVec.getLsbD_zero, BitVec.getLsbD_zero, Bool.and_false]

theorem ChannelStep.cmdStatus {c : Nat} (h : ChannelStep c s t) : t.cmdStatus = s.cmdStatus := by
  rw [h.others.block]

/-- CMD_STATUS is as before or a command's status word. -/
theorem step_cmdStatus (h : step s = .next t) :
    t.cmdStatus = s.cmdStatus ∨ ∃ op code detail, t.cmdStatus = statusWord op code detail := by
  cases step_case h with
  | outside h => exact .inl h.cmdStatus
  | command i m u h =>
    refine .inr ?_
    rw [h.after.cmdStatus]
    cases exec_case h.runs <;> subst u <;> exact ⟨_, _, _, rfl⟩
  | illegal op e h => exact .inr ⟨_, _, _, h.cmdStatus⟩
  | clearDone v more _ hh h => exact .inl h.cmdStatus
  | setEnable v h => exact .inl h.cmdStatus
  | sequencer k _ h => exact .inl (h ▸ (sequencerStep_channelStep k _).cmdStatus.trans (takeTurn_same s).cmdStatus)
  | engine k _ h => exact .inl (h ▸ (engineStep_channelStep k _).cmdStatus.trans (takeTurn_same s).cmdStatus)

theorem snapCtrlWord_reserved (k : BitVec 4) : snapCtrlWord k &&& 0x7FFFFFF0#32 = 0#32 := by
  revert k
  decide

theorem snapFlagsWord_reserved (ch : Channel) : snapFlagsWord ch &&& 0xFFFFFE7E#32 = 0#32 := by
  rw [snapFlagsWord]
  cases ch.startValid <;> cases ch.running <;> cases ch.moving <;> decide

theorem step_snap_reserved (hinv : s.Inv) (h : step s = .next t) :
    t.snap.ctrl &&& 0x7FFFFFF0#32 = 0#32 ∧ t.snap.flags &&& 0xFFFFFE7E#32 = 0#32 := by
  rcases step_snap h with hs | ⟨k, ch, recorded, hs⟩ | ⟨recorded, hs⟩ <;> rw [hs]
  · exact ⟨hinv.snap_ctrl, hinv.snap_flags⟩
  · exact ⟨snapCtrlWord_reserved k, snapFlagsWord_reserved ch⟩
  · exact ⟨rfl, rfl⟩

/-! ### The places of the IRQ events -/

/-- Pin events are only added, and a new IRQ event stands behind all recorded so far. -/
theorem step_irq_order (hinv : s.Inv) (h : step s = .next t) :
    ∀ e ∈ t.irqEvents, ∀ (c : Nat) (ch : Channel), t.chans[c]? = some ch → e.recorded.getD c 0 ≤ ch.events.length := by
  intro e he c b hb
  obtain ⟨a, ha⟩ := step_channel_before h hb
  have hgrows : a.events.length ≤ b.events.length := by
    rcases step_events h ha hb with hev | ⟨e, hev⟩ <;> rw [hev]
    exact Nat.le_succ _
  have hold : ∀ e ∈ s.irqEvents, e.recorded.getD c 0 ≤ b.events.length := fun e he =>
    (hinv.irq_order e he c _ ha).trans hgrows
  rw [(step_recorded h).events] at he
  split at he
  · exact hold e he
  · rcases List.mem_cons.1 he with rfl | he
    · rw [irqEvent_recorded ha]
      exact hgrows
    · exact hold e he

theorem step_inv (hinv : s.Inv) (h : step s = .next t) : t.Inv where
  legal := by
    rw [step_params h, step_numChannels h]
    exact hinv.legal
  status_bits := step_status_bits hinv h
  enable_bits := step_enable_bits hinv h
  cmd_status := by
    rcases step_cmdStatus h with hc | ⟨op, code, detail, hc⟩ <;> rw [hc]
    · exact hinv.cmd_status
    · exact statusWord_high op code detail
  snap_ctrl := (step_snap_reserved hinv h).1
  snap_flags := (step_snap_reserved hinv h).2
  channels := step_channels_inv hinv h
  irq_order := step_irq_order hinv h

end

end Sys2Proof.Machine

section

open Sys2Proof Sys2Proof.Machine

/-- Settles O22: each part of the invariant by what a step can do to the registers it speaks of; a channel by what a
command, its sequencer and its engine can do to it. -/
theorem stepKeepsInvariant : Obligations.StepKeepsInvariant :=
  fun _ _ => step_inv

/-- Settles O23: no channel moves after reset and every register is 0. -/
theorem resetMeetsInvariant : Obligations.ResetMeetsInvariant :=
  ⟨fun _ _ => inv_resetWith, legalParams_reference, inv_resetWith legalParams_reference⟩

end

end

section
/-! PROOFS. Turns (00_scope.md R7): a step is one of the agent whose turn it is, and the free turns are weakly fair. -/

namespace Sys2Proof.Machine

/-! ## What a step of each agent is -/

section

variable {s : State}

theorem nextAgent_free (h : s.sched = []) : nextAgent s ∈ enabledAgents s := by
  rw [nextAgent, h]
  exact (freeAgent_spec s).1

theorem takeTurn_free (h : s.sched = []) :
    takeTurn s = { s with turn := s.turn + 1, renewed := renewedAfter (freeAgent s) s } := by
  simp only [takeTurn, h]

theorem takeTurn_listed {a : Agent} {rest : List Agent} (h : s.sched = a :: rest) :
    nextAgent s = a ∧ takeTurn s = { s with sched := rest } := by
  simp only [nextAgent, takeTurn, h, and_self]

theorem hostStep_nil (h : s.host = []) : hostStep s = .next s := by
  simp only [hostStep, h]

theorem hostStep_write {off width : Nat} {v : Word} {more : List HostOp} (h : s.host = .write off width v :: more) :
    hostStep s = busWrite off width v { s with host := more } :=
  hostStep_cons h

theorem hostStep_read {off width : Nat} {more : List HostOp} (h : s.host = .read off width :: more) :
    hostStep s = busRead off width { s with host := more } :=
  hostStep_cons h

theorem getLsbD_chState {c : Nat} {ch : Channel} (hch : s.chans[c]? = some ch) :
    (readReg s (.chan c .state)).getLsbD 0 = ch.moving := by
  rw [readReg_chan hch]
  exact chStateWord_getLsbD ch 0

/-- A read of a register of an existing channel records its value and nothing else. -/
theorem busRead_chan {c : Nat} {ch : Channel} (hch : s.chans[c]? = some ch) (q : ChReg) :
    busRead (Reg.chan c q).offset 4 s =
      .next { s with reads := ((Reg.chan c q).offset, readChReg ch q) :: s.reads } := by
  rw [busRead, regAt_chan_offset (lt_numChannels_of_getElem? hch) q, ← readReg_chan hch q]
  rfl

/-- A WAITDONE reads CH_STATE and stays next while the channel is MOVING. -/
theorem hostStep_waitDone {c : Nat} {more : List HostOp} {ch : Channel} (h : s.host = .waitDone c :: more)
    (hch : s.chans[c]? = some ch) :
    hostStep s = .next
      { s with
        host := if ch.moving then s.host else more
        reads := (0x100 + 0x40 * c, chStateWord ch) :: s.reads } := by
  rw [hostStep_cons h, opOver, getLsbD_chState hch]
  cases ch.moving with
  | true => exact busRead_chan hch .state
  | false => exact busRead_chan (s := { s with host := more }) hch .state

theorem hostStep_waitDone_missing {c : Nat} {more : List HostOp} (h : s.host = .waitDone c :: more)
    (hch : s.chans[c]? = none) : hostStep s = .fault (.busError false (0x100 + 0x40 * c) 4) := by
  rw [hostStep_cons h]
  refine busRead_of_regAt_none (regAt_missing_chan_offset ?_ .state)
  split <;> exact List.getElem?_eq_none_iff.1 hch

theorem hostStep_waitIrq {more : List HostOp} (h : s.host = .waitIrq :: more) :
    hostStep s = .next { s with host := if irqLevel s then more else s.host } := by
  rw [hostStep_cons h, opOver, busAccess]
  cases irqLevel s <;> rfl

theorem hostEnabled_iff :
    hostEnabled s = true ↔ ∃ op more, s.host = op :: more ∧ (op = .waitIrq → s.irqStatus &&& s.irqEnable ≠ 0#16) := by
  rw [hostEnabled]
  split
  next h => simp [h]
  next h => simp [h]
  next h => simp [h]
  next h => simp [h]
  next more h =>
    rw [irqLevel, irqOf_eq_true_iff]
    exact ⟨fun hirq => ⟨_, _, h, fun _ => hirq⟩, fun ⟨op, rest, he, hirq⟩ => hirq (by cases h ▸ he; rfl)⟩

theorem linkEnabled_iff :
    linkEnabled s = true ↔ s.link.phase ≠ .ready ∨ s.link.job ≠ none ∨ s.link.inbox ≠ [] := by
  simp [linkEnabled, Option.isSome_iff_ne_none, or_assoc]

theorem sequencerEnabled_iff {ch : Channel} :
    sequencerEnabled ch = true ↔ ch.seq ≠ .idle ∧ ∀ ndrop e, ch.seq = .c3 ndrop e → ch.waveBusy = false := by
  cases hq : ch.seq <;> simp [sequencerEnabled, hq]

/-! ## An agent that is not enabled -/

theorem hostStep_disabled (h : hostEnabled s = false) : hostStep s = .next s := by
  cases hh : s.host with
  | nil => exact hostStep_nil hh
  | cons op more =>
    cases op with
    | waitIrq =>
      have hirq : irqLevel s = false := by simpa [hostEnabled, hh] using h
      rw [hostStep_waitIrq hh, hirq]
      rfl
    | _ => simp [hostEnabled, hh] at h

theorem linkStep_disabled (h : linkEnabled s = false) : linkStep s = .next s := by
  have hne := mt linkEnabled_iff.2 (Bool.eq_false_iff.1 h)
  push Not at hne
  obtain ⟨hphase, hjob, hinbox⟩ := hne
  simp only [linkStep, hphase, hjob, takeNextLine, hinbox]

theorem sequencerStep_disabled {c : Nat} (h : agentEnabled s (.sequencer c) = false) : sequencerStep c s = s := by
  cases hch : s.chans[c]? with
  | none => exact sequencerStep_missing hch
  | some ch =>
    have hne : sequencerEnabled ch = false := by simpa [agentEnabled, hch] using h
    cases hq : ch.seq with
    | idle => exact sequencerStep_idle hch hq
    | c3 ndrop e => exact sequencerStep_c3_busy hch hq (by simpa [sequencerEnabled, hq] using hne)
    | _ => simp [sequencerEnabled, hq] at hne

theorem engineStep_disabled {c : Nat} (h : agentEnabled s (.engine c) = false) : engineStep c s = s := by
  cases hch : s.chans[c]? with
  | none => exact engineStep_missing hch
  | some ch => exact engineStep_still hch (by simpa [agentEnabled, hch] using h)

theorem agentStep_disabled {a : Agent} (h : agentEnabled s a = false) : agentStep a s = .next s := by
  cases a with
  | host => exact hostStep_disabled h
  | link => exact linkStep_disabled h
  | sequencer c => exact congrArg _ (sequencerStep_disabled h)
  | engine c => exact congrArg _ (engineStep_disabled h)
  | timeBase => cases h

/-! ## A write to CMD -/

theorem busWrite_cmd (w : Word) (s : State) : busWrite 0x010 4 w s = execWord w s := by
  rw [busWrite, show regAt s.numChannels 0x010 4 = some .cmd from regAt_global _ (by decide) (by decide)]
  rfl

theorem execWord_ok {w : Word} {i : Instr} (h : decode s.numChannels w = .ok i) : execWord w s = exec i s := by
  rw [execWord, h]

theorem hostStep_cmd {w : Word} {more : List HostOp} {i : Instr} (h : s.host = .write 0x010 4 w :: more)
    (hi : decode s.numChannels w = .ok i) : hostStep s = exec i { s with host := more } := by
  rw [hostStep_write h, busWrite_cmd]
  exact execWord_ok hi

/-- The word placed is run by the next step (10_state.md R21). -/
theorem step_withFetchWord {w : Word} {i : Instr} (h : decode s.numChannels w = .ok i) :
    step (s.withFetchWord 32 w.toNat) = exec i s := by
  have hword : BitVec.ofNat 32 (w.toNat % 2 ^ 32) = w := by
    rw [Nat.mod_eq_of_lt w.isLt, BitVec.ofNat_toNat, BitVec.setWidth_eq]
  rw [State.withFetchWord, hword]
  exact hostStep_cmd (s := { s with host := wr .cmd w :: s.host }) rfl h

end

/-! ## Free turns -/

section

variable {s t : State}

/-- Beside the turn it takes, no step changes the turns or the number of channels. -/
theorem step_turns (h : step s = .next t) :
    t.sched = (takeTurn s).sched ∧ t.turn = (takeTurn s).turn ∧ t.renewed = (takeTurn s).renewed := by
  rw [step_eq] at h
  by_cases ha : nextAgent s = .timeBase
  · rw [ha] at h
    injection h with h
    subst h
    exact ⟨rfl, rfl, rfl⟩
  · have keeps := agentStep_turns ha h
    exact ⟨keeps.sched, keeps.turn, keeps.renewed⟩

theorem step_sched (h : step s = .next t) : t.sched = s.sched.tail := by
  rw [(step_turns h).1]
  cases hs : s.sched with
  | nil => rw [takeTurn_free hs]; exact hs
  | cons a rest => rw [(takeTurn_listed hs).2, List.tail_cons]

theorem step_turn_free (h : step s = .next t) (hs : s.sched = []) : t.turn = s.turn + 1 := by
  rw [(step_turns h).2.1, takeTurn_free hs]

/-- A free turn renews the agent that takes it and the agents not enabled. -/
theorem step_renewedOf_free (h : step s = .next t) (hs : s.sched = []) {a : Agent} (ha : a ∈ agents s.numChannels) :
    t.renewedOf a = if a = freeAgent s ∨ agentEnabled s a = false then s.turn + 1 else s.renewedOf a := by
  rw [← renewedOf_takeTurn hs ha, State.renewedOf, (step_turns h).2.2, State.renewedOf]

/-- An enabled agent that does not take the turn stays due when it was. -/
theorem step_due_free (h : step s = .next t) (hs : s.sched = []) {a : Agent} (ha : agentEnabled s a = true)
    (hne : nextAgent s ≠ a) : due t a = due s a := by
  have hfree : nextAgent s = freeAgent s := by rw [nextAgent, hs]
  have hkeep : ¬ (a = freeAgent s ∨ agentEnabled s a = false) := by
    rintro (he | he)
    · exact hne (hfree.trans he.symm)
    · rw [ha] at he
      cases he
  rw [due, step_renewedOf_free h hs (mem_enabledAgents.1 (mem_enabledAgents_of_enabled ha)).1, if_neg hkeep, due]

/-- The agents last renewed no later than before turn `d`. -/
def oldAgents (d : Nat) (s : State) : Finset Agent :=
  (agents s.numChannels).toFinset.filter fun a => s.renewedOf a ≤ d

theorem mem_oldAgents {d : Nat} {a : Agent} : a ∈ oldAgents d s ↔ a ∈ agents s.numChannels ∧ s.renewedOf a ≤ d := by
  rw [oldAgents, Finset.mem_filter, List.mem_toFinset]

/-- Once the turns have come to the due turn of an enabled agent, every free turn goes to an old agent and renews it. -/
theorem card_oldAgents_lt (h : step s = .next t) (hs : s.sched = []) {a : Agent} {d : Nat}
    (ha : agentEnabled s a = true) (hdue : due s a ≤ d) (hturn : d ≤ s.turn) :
    (oldAgents d t).card < (oldAgents d s).card := by
  obtain ⟨hfree, hfirst⟩ := freeAgent_spec s
  have hmem := (mem_enabledAgents.1 hfree).1
  have hchans := step_numChannels h
  refine Finset.card_lt_card (Finset.ssubset_iff_of_subset (fun b hb => ?_) |>.2 ⟨freeAgent s, ?_, fun hold => ?_⟩)
  · obtain ⟨hb, hold⟩ := mem_oldAgents.1 hb
    rw [hchans] at hb
    rw [step_renewedOf_free h hs hb] at hold
    split at hold
    · omega
    · exact mem_oldAgents.2 ⟨hb, hold⟩
  · have hle := hfirst a (mem_enabledAgents_of_enabled ha)
    exact mem_oldAgents.2 ⟨hmem, by rw [due] at hle; omega⟩
  · have hold := (mem_oldAgents.1 hold).2
    rw [step_renewedOf_free h hs hmem, if_pos (.inl rfl)] at hold
    omega

end

/-! ## Weak fairness -/

section

variable {f : Nat → State} (hf : IsRun f)

include hf

theorem run_sched (n k : Nat) : (f (n + k)).sched = (f n).sched.drop k := by
  induction k with
  | zero => rfl
  | succ k ih => rw [← Nat.add_assoc, step_sched (hf (n + k)), ih, List.tail_drop]

/-- Once the listed turns are used up every turn is free. -/
theorem run_sched_nil (n k : Nat) : (f (n + (f n).sched.length + k)).sched = [] := by
  rw [Nat.add_assoc, run_sched hf, List.drop_eq_nil_of_le (Nat.le_add_right _ _)]

/-- Along free turns that an enabled agent is not given, the turns go on and its due turn stays. -/
theorem run_due {a : Agent} {n : Nat} (hs : ∀ k, (f (n + k)).sched = [])
    (ha : ∀ k, agentEnabled (f (n + k)) a = true) (hnever : ∀ k, nextAgent (f (n + k)) ≠ a) (k : Nat) :
    (f (n + k)).turn = (f n).turn + k ∧ due (f (n + k)) a = due (f n) a := by
  induction k with
  | zero => exact ⟨rfl, rfl⟩
  | succ k ih =>
    obtain ⟨hturn, hdue⟩ := ih
    have hstep := hf (n + k)
    exact ⟨by rw [← Nat.add_assoc, step_turn_free hstep (hs k), hturn, Nat.add_assoc],
      (step_due_free hstep (hs k) (ha k) (hnever k)).trans hdue⟩

/-- From the due turn of such an agent on, each free turn renews one of the finitely many old agents. -/
theorem run_card_oldAgents {a : Agent} {n : Nat} (hs : ∀ k, (f (n + k)).sched = [])
    (ha : ∀ k, agentEnabled (f (n + k)) a = true) (hnever : ∀ k, nextAgent (f (n + k)) ≠ a) (j : Nat) :
    (oldAgents (due (f n) a) (f (n + (due (f n) a + j)))).card + j ≤
      (oldAgents (due (f n) a) (f (n + due (f n) a))).card := by
  have hdue := run_due hf hs ha hnever
  generalize due (f n) a = d at hdue ⊢
  induction j with
  | zero => exact le_rfl
  | succ j ih =>
    obtain ⟨hturn, hd⟩ := hdue (d + j)
    have hlt := card_oldAgents_lt (hf (n + (d + j))) (hs _) (ha _) hd.le (by omega)
    simp only [← Nat.add_assoc] at hlt ih ⊢
    omega

/-- Free turns cannot pass over an agent that stays enabled: the number of old agents cannot fall for ever. -/
theorem weaklyFair_of_isRun : WeaklyFair f := by
  intro a n ha
  by_contra hnever
  push Not at hnever
  have hfall := run_card_oldAgents hf (run_sched_nil hf n) (fun k => ha _ (by omega)) (fun k => hnever _ (by omega))
  exact Nat.not_succ_le_self _ ((Nat.le_add_left _ _).trans (hfall (_ + 1)))

end

end Sys2Proof.Machine

section

open Sys2Proof Sys2Proof.Machine

/-- Settles O6: in a run that passes over an enabled agent from some turn on, the number of agents last renewed before its
due turn would fall for ever. -/
theorem schedulingIsWeaklyFair : Obligations.SchedulingIsWeaklyFair :=
  ⟨fun _ => weaklyFair_of_isRun, fun _ _ => rfl⟩

/-- Settles O5: the step of each agent by its lemma; the turn is the listed one or goes to an enabled agent. -/
theorem stepRunsDecodedCommand : Obligations.StepRunsDecodedCommand := by
  refine ⟨step_eq, fun s a rest => takeTurn_listed, fun s hs => ⟨nextAgent_free hs, ?_⟩,
    fun s c => ⟨rfl, rfl, rfl, rfl⟩, fun s off width v more => ⟨hostStep_write, hostStep_read, hostStep_nil⟩,
    fun s c more h => ⟨fun ch => hostStep_waitDone h, hostStep_waitDone_missing h⟩, fun s more => hostStep_waitIrq,
    fun s => hostEnabled_iff, fun s a => ⟨⟨fun h => (mem_enabledAgents.1 h).2, mem_enabledAgents_of_enabled⟩,
      agentStep_disabled⟩, fun s c => ⟨fun ch hch => ?_, fun hch => ?_, rfl, linkEnabled_iff⟩, fun s w => busWrite_cmd w s,
    fun s w i => execWord_ok, fun s w more i => hostStep_cmd, fun s w i => step_withFetchWord⟩
  · rw [takeTurn_free hs]
  · simp only [agentEnabled, hch]
    exact ⟨sequencerEnabled_iff, trivial⟩
  · simp only [agentEnabled, hch, and_self]

end

end

section
/-! PROOFS. The register map and the effects of accesses (10_state.md R25, R33, R42, 20_memory.md R68). -/

namespace Sys2Proof.Machine

/-! ## The map -/

/-- Every register stands in the 4096-byte window (20_memory.md R62). -/
theorem offset_lt_window {n off width : Nat} {r : Reg} (hn : n ≤ 16) (h : regAt n off width = some r) : off < 4096 := by
  obtain ⟨rfl, hchan⟩ := offset_of_regAt h
  by_cases hr : ∃ c q, r = .chan c q
  · obtain ⟨c, q, rfl⟩ := hr
    have hc := hchan c q rfl
    have hq := q.offset_lt_aligned.1
    rw [Reg.offset]
    omega
  · push Not at hr
    have := (Reg.globalOfWord_offset hr).1
    omega

theorem width_aligned_of_regAt {n off width : Nat} {r : Reg} (h : regAt n off width = some r) :
    off % 4 = 0 ∧ width = 4 := by
  by_contra hne
  rw [regAt_eq_none_of_width_or_misaligned n (by omega)] at h
  cases h

/-- A table of global registers is right where each stands at the word of its offset. -/
theorem regAt_of_global_table {table : List (Nat × Reg)}
    (h : ∀ p ∈ table, p.1 < 0x100 ∧ p.1 % 4 = 0 ∧ Reg.globalOfWord (p.1 / 4) = some p.2) (n : Nat) :
    ∀ p ∈ table, regAt n p.1 4 = some p.2 := fun p hp => by
  obtain ⟨hlt, hal, hword⟩ := h p hp
  rw [regAt_global n hlt hal, hword]

theorem regAt_arg (n : Nat) (k : Fin 8) : regAt n (0x020 + 4 * k.val) 4 = some (.arg k) :=
  regAt_eq_some_iff.2 ⟨rfl, nofun⟩

/-! ## What an access does -/

section

variable {s : State}

theorem busRead_pure {off : Nat} {r : Reg} (h : regAt s.numChannels off 4 = some r) (hr : r ≠ .timeLo) :
    busRead off 4 s = .next { s with reads := (off, readReg s r) :: s.reads } :=
  busRead_eq_next.2 ⟨r, h, by rw [readEffect, if_neg hr]⟩

theorem busWrite_of_regAt {off : Nat} {r : Reg} {v : Word} {o : Out} (h : regAt s.numChannels off 4 = some r)
    (hw : writeReg r v s = some o) : busWrite off 4 v s = o := by
  rw [busWrite, h, Option.bind_some, hw]

theorem busWrite_arg (s : State) (k : Fin 8) (v : Word) :
    busWrite (0x020 + 4 * k.val) 4 v s = .next { s with args := s.args.set k v } :=
  busWrite_of_regAt (regAt_arg _ k) rfl

theorem busWrite_irqStatus (s : State) (v : Word) :
    busWrite 0x018 4 v s = .next (setIrq (s.irqStatus &&& ~~~(v.setWidth 16)) s.irqEnable s) :=
  busWrite_of_regAt (regAt_global _ (by decide) (by decide)) rfl

theorem busWrite_irqEnable (s : State) (v : Word) :
    busWrite 0x01C 4 v s = .next (setIrq s.irqStatus (v.setWidth 16 &&& irqMask s.numChannels) s) :=
  busWrite_of_regAt (regAt_global _ (by decide) (by decide)) rfl

end

/-! ## What a register reads -/

theorem setWidth_eq_zero_append (x : BitVec 16) : x.setWidth 32 = 0#16 ++ x := by
  rw [← BitVec.setWidth_eq (0#16 ++ x), setWidth_append_eq_or, BitVec.setWidth_zero, BitVec.zero_shiftLeft,
    BitVec.or_zero]

/-- CH_LAST holds `result`, `profile` and `curve`, and zeros above them (10_state.md R33). -/
theorem chLastWord_fields (ch : Channel) :
    (chLastWord ch).extractLsb' 0 4 = ch.result.code ∧ (chLastWord ch).extractLsb' 4 2 = ch.profile.code ∧
      (chLastWord ch).getLsbD 6 = ch.curve.code ∧ (chLastWord ch).extractLsb' 7 25 = 0#25 := by
  rw [chLastWord]
  cases ch.result <;> cases ch.profile <;> cases ch.curve <;> decide

theorem Curve.code_eq_decide (k : Curve) : k.code = decide (k = .linear) := by cases k <;> rfl

end Sys2Proof.Machine

section

open Sys2Proof Sys2Proof.Machine

/-- Settles O39: `regAt_eq_some_iff` is the map; the tables are read off the offsets. -/
theorem registerMap : Obligations.RegisterMap := by
  refine ⟨fun n off r => regAt_eq_some_iff, fun n off width r hn h => ⟨offset_lt_window hn h, width_aligned_of_regAt h⟩,
    fun n => ⟨regAt_of_global_table (by decide) n, regAt_of_global_table (by decide) n, regAt_arg n⟩, ?_⟩
  intro n c hc
  have htable : ∀ q : ChReg, regAt n (0x100 + 0x40 * c + q.offset) 4 = some (.chan c q) := regAt_chan_offset hc
  simp only [List.forall_mem_cons, List.not_mem_nil, IsEmpty.forall_iff, implies_true, and_true]
  exact ⟨htable .state, htable .ppr, htable .last, htable .totalSteps, htable .rampSteps, htable .cruiseSteps,
    htable .stepsEmitted, htable .index, htable .dropped, htable .label, htable .pulsesLo, htable .pulsesHi,
    htable .revsLo, htable .revsHi, htable .runtimeLo, htable .runtimeHi⟩

/-- Settles O42: each access by its equation, each register by what `readReg` names. -/
theorem registerAccessEffects : Obligations.RegisterAccessEffects := by
  refine ⟨fun s off r => busRead_pure, busWrite_arg, fun s v => ⟨_, busWrite_irqStatus s v, fun i hi => ?status, rfl⟩,
    fun s v _ => ⟨_, busWrite_irqEnable s v, fun i hi => ?enable, rfl⟩, fun s => ?global, fun s c ch last hch hlast => ?chan⟩
  case status =>
    rw [setIrq_irqStatus, BitVec.getLsbD_and, BitVec.getLsbD_not, BitVec.getLsbD_setWidth, decide_eq_true hi,
      Bool.true_and, Bool.true_and]
  case enable =>
    rw [setIrq_irqEnable, BitVec.getLsbD_and, BitVec.getLsbD_setWidth, getLsbD_irqMask, decide_eq_true hi, Bool.true_and,
      Bool.true_and]
  case global =>
    exact ⟨rfl, setWidth_eq_zero_append _, setWidth_eq_zero_append _, fun _ => rfl, rfl, rfl, hi32_append_lo32 _,
      hi32_append_lo32 _, hi32_append_lo32 _, hi32_append_lo32 _, rfl, rfl⟩
  case chan =>
    have read := readReg_chan hch
    simp only [read] at hlast ⊢
    obtain ⟨hresult, hprofile, hcurve, hzero⟩ := chLastWord_fields ch
    subst hlast
    exact ⟨rfl, rfl, rfl, rfl, rfl, rfl, rfl, rfl, hi32_append_lo32 _, hi32_append_lo32 _, hi32_append_lo32 _,
      hresult, hprofile, hcurve.trans (Curve.code_eq_decide _), hzero⟩

end

end

section
/-! PROOFS. The sequencer (42_pulse_delay_sequencer.md R155 to R168): a pulse completes once begun, the chunked mode label by
label, and no pulse begins while RUN is 0. -/

namespace Sys2Proof.Machine

open Binary64

/-! ## The branches of `[C2]` -/

/-- `[C2]` in terms of the chunk it builds. -/
theorem chunkCheck_eq (c : Nat) (ch : Channel) (s : State) :
    chunkCheck c ch s =
      if ch.idx = ch.total then finish c ch .complete s
      else if s.run = false then finish c ch .cancelled s
      else if (nextChunk s.params ch).isEmpty then
        s.setChan c
          { ch with
            dropped := ch.dropped + BitVec.ofNat 32 (nextDrop s.params ch)
            idx := BitVec.ofNat 32 (chunkEnd s.params ch) }
      else if (drawWaveFault s).1 then finish c ch .hwFault (drawWaveFault s).2
      else (drawWaveFault s).2.setChan c
        (ch.submitted (nextChunk s.params ch) (nextDrop s.params ch) (chunkEnd s.params ch)) :=
  rfl

section

variable {s : State} {c : Nat} {ch : Channel}

theorem chunkCheck_end (h : ch.idx = ch.total) : chunkCheck c ch s = finish c ch .complete s :=
  if_pos h

theorem chunkCheck_stopped (h : ch.idx ≠ ch.total) (hr : s.run = false) :
    chunkCheck c ch s = finish c ch .cancelled s := by
  rw [chunkCheck_eq, if_neg h, if_pos hr]

theorem chunkCheck_skip (h : ch.idx ≠ ch.total) (hr : s.run = true) (hk : nextChunk s.params ch = []) :
    chunkCheck c ch s = s.setChan c
      { ch with
        dropped := ch.dropped + BitVec.ofNat 32 (nextDrop s.params ch)
        idx := BitVec.ofNat 32 (chunkEnd s.params ch) } := by
  rw [chunkCheck_eq, if_neg h, if_neg (by simp [hr]), if_pos (by simp [hk])]

/-- With a valid delay the oracle is asked, and the chunk submitted unless it rejects (R163). -/
theorem chunkCheck_draw {w : Bool × State} (h : ch.idx ≠ ch.total) (hr : s.run = true)
    (hk : nextChunk s.params ch ≠ []) (hw : drawWaveFault s = w) :
    chunkCheck c ch s =
      if w.1 then finish c ch .hwFault w.2
      else w.2.setChan c (ch.submitted (nextChunk s.params ch) (nextDrop s.params ch) (chunkEnd s.params ch)) := by
  rw [chunkCheck_eq, if_neg h, if_neg (by simp [hr]), if_neg (by simp [hk]), hw]

theorem drawWaveFault_given {answer : Bool} {rest : List Bool} (h : s.waveAnswers = answer :: rest) :
    drawWaveFault s = (answer, { s with waveAnswers := rest }) := by
  simp only [drawWaveFault, h]

theorem drawWaveFault_never (h : s.waveAnswers = []) (hp : s.params.waveFault = .never) :
    drawWaveFault s = (false, s) := by
  simp only [drawWaveFault, h, hp]

theorem drawWaveFault_free (h : s.waveAnswers = []) (hp : s.params.waveFault = .anyAnswer) :
    drawWaveFault s = (Config.waveFault s.draws, { s with draws := s.draws + 1 }) := by
  simp only [drawWaveFault, h, hp]

/-- The chunk in terms of its delays, one after the other. -/
theorem nextChunk_eq (p : Params) (ch : Channel) :
    nextChunk p ch =
      ((List.range (chunkEnd p ch - ch.idx.toNat)).map fun j => delayOf p ch (ch.idx.toNat + j)).filterMap fun d =>
        if lt 0#64 d = true ∧ 1 ≤ (ticks p d).toNat then some (ticks p d) else none := by
  rw [nextChunk, chunkTicks, List.range'_eq_map_range, List.filterMap_map, List.filterMap_map]
  exact List.filterMap_congr fun j _ => if_congr validDelay_iff rfl rfl

/-- Where no delay is valid all of them are dropped (R164). -/
theorem nextDrop_of_nil {p : Params} (h : nextChunk p ch = []) : nextDrop p ch = chunkEnd p ch - ch.idx.toNat := by
  rw [nextDrop, h, List.length_nil, Nat.sub_zero]

/-! ## A pulse (R156, R157) -/

/-- The channel in the high half of a pulse of `k` ticks. -/
def Channel.pulseHigh (ch : Channel) (k : Word) : Channel :=
  { ch with stepPin := true, events := .pulse k k :: ch.events, seq := .s3 k }

/-- The channel in the low half of a pulse of `k` ticks. -/
def Channel.pulseLow (ch : Channel) (k : Word) : Channel :=
  { ch with stepPin := false, events := .pulse k k :: ch.events, seq := .s4 k }

/-- The three steps of a pulse read RUN in the first only. -/
theorem sequencerStep_pulse (hch : s.chans[c]? = some ch) (hq : ch.seq = .s2) (hi : ch.idx ≠ ch.total)
    (hr : s.run = true) (hd : validDelay s.params (delayOf s.params ch ch.idx.toNat) = true) (r₁ r₂ : Bool) {k : Word}
    (hk : k = ticks s.params (delayOf s.params ch ch.idx.toNat)) :
    sequencerStep c { sequencerStep c { sequencerStep c s with run := r₁ } with run := r₂ } =
      { s with
        run := r₂
        chans := s.chans.set c
          { ch with
            events := .pulse k k :: ch.events
            stepPin := false
            steps := ch.steps + 1#32
            idx := ch.idx + 1#32 } } := by
  have hbegun : sequencerStep c s = s.setChan c (ch.pulseHigh k) := by
    rw [sequencerStep_s2 hch hq, directCheck_pulse hi hr hd, ← hk]
    rfl
  have hfallen : sequencerStep c { sequencerStep c s with run := r₁ } = { s with run := r₁ }.setChan c (ch.pulseLow k) := by
    rw [hbegun]
    exact (sequencerStep_s3 (s := { s with run := r₁ }.setChan c (ch.pulseHigh k))
      (getElem?_setChan_self hch (ch.pulseHigh k)) rfl).trans (setChan_setChan ..)
  rw [hfallen]
  refine (sequencerStep_s4 (s := { s with run := r₂ }.setChan c (ch.pulseLow k))
    (getElem?_setChan_self hch (ch.pulseLow k)) rfl).trans ?_
  rw [setChan_setChan, ← hq]
  rfl

/-! ## RUN at 0 (R157, R162, R168) -/

/-- With RUN at 0 a sequencer only goes on with the pulse or chunk that has begun, or ends the move. -/
theorem SequencerCase.starts_nothing {b : Channel} (hr : s.run = false) (h : SequencerCase s ch b) :
    b.events = ch.events ∧ (ch.stepPin = false → b.stepPin = false) ∧ b.buffer = ch.buffer ∧ b.waveBusy = ch.waveBusy := by
  have running : s.run ≠ true := by rw [hr]; decide
  cases h with
  | pulseBegun k hq hi hrun => exact absurd hrun running
  | chunkSubmitted hq hi hrun hk => exact absurd hrun running
  | pulseFallen k hq => exact ⟨rfl, fun _ => rfl, rfl, rfl⟩
  | _ => exact ⟨rfl, id, rfl, rfl⟩

end

end Sys2Proof.Machine

section

open Sys2Proof Sys2Proof.Machine Sys2Proof.Machine.Binary64

/-- Settles O34: `sequencerStep_pulse`. -/
theorem pulseCompletesOnceStarted : Obligations.PulseCompletesOnceStarted :=
  fun _ _ _ _ r₁ r₂ hch hq hi hr hd hk => sequencerStep_pulse hch hq hi hr hd r₁ r₂ hk

/-- Settles O35: one equation for each label and each branch of `[C2]`, with the answers of the oracle. -/
theorem chunkedSequencerSteps : Obligations.ChunkedSequencerSteps := by
  intro s c ch e ks hch he hks
  replace he : e = chunkEnd s.params ch := he
  replace hks : ks = nextChunk s.params ch := by rw [hks, nextChunk_eq, he]
  subst he hks
  have c2 : ch.seq = .c2 → sequencerStep c s = chunkCheck c ch s := sequencerStep_c2 hch
  refine ⟨sequencerStep_c0 hch, sequencerStep_c1_empty hch, sequencerStep_c1 hch,
    fun h hi => (c2 h).trans (chunkCheck_end hi), fun h hi hr => (c2 h).trans (chunkCheck_stopped hi hr),
    fun h hi hr hk => ?skip, fun rest h hi hr hk hw => ?rejected, fun rest h hi hr hk hw => ?accepted,
    fun h hi hr hk hw hp => ?never, fun h hi hr hk hw hp => ?free, fun _ _ => sequencerStep_c3_busy hch,
    fun _ _ => sequencerStep_c3 hch⟩
  case skip => rw [c2 h, chunkCheck_skip hi hr hk, nextDrop_of_nil hk]; rfl
  case rejected => exact (c2 h).trans (chunkCheck_draw hi hr hk (drawWaveFault_given hw))
  case accepted => exact (c2 h).trans (chunkCheck_draw hi hr hk (drawWaveFault_given hw))
  case never => exact (c2 h).trans (chunkCheck_draw hi hr hk (drawWaveFault_never hw hp))
  case free => exact (c2 h).trans (chunkCheck_draw hi hr hk (drawWaveFault_free hw hp))

/-- Settles O37: the branches that begin a pulse or submit a chunk need RUN at 1. -/
theorem noPulseStartsAfterStop : Obligations.NoPulseStartsAfterStop := by
  intro s c d a b hr ha hb
  have same : b = a → b.events = a.events ∧ (a.stepPin = false → b.stepPin = false) ∧ b.buffer = a.buffer ∧
      b.waveBusy = a.waveBusy := by
    rintro rfl
    exact ⟨rfl, id, rfl, rfl⟩
  cases hc : s.chans[c]? with
  | none =>
    rw [sequencerStep_missing hc, ha] at hb
    exact same (Option.some.inj hb).symm
  | some y =>
    obtain ⟨x, hx, hset⟩ := sequencerStep_case hc
    rw [hset] at hb
    rcases getElem?_set_cases ha hb with ⟨rfl, rfl⟩ | hsame
    · obtain rfl := Option.some.inj (hc.symm.trans ha)
      exact hx.starts_nothing hr
    · exact same hsame

end

end

section
/-! PROOFS. The line protocol (30_encoding.md R93 to R95): the lines and their parts, and the steps of the front end. -/

namespace Sys2Proof.Machine

/-! ## Lines (R93, R94) -/

theorem lineBody_cons {c : Char} {cs : List Char} (h : cs ≠ []) : lineBody (c :: cs) = (lineBody cs).map (c :: ·) := by
  cases cs with
  | nil => exact absurd rfl h
  | cons d ds => simp [lineBody]

theorem lineBody_eq_some_iff {line body : List Char} : lineBody line = some body ↔ line = body ++ ['\n'] := by
  induction line generalizing body with
  | nil => simp [lineBody]
  | cons c cs ih =>
    by_cases hcs : cs = []
    · subst hcs
      by_cases hc : c = '\n' <;> cases body <;> simp [lineBody, hc]
    · rw [lineBody_cons hcs]
      cases body with
      | nil => simp [hcs]
      | cons b bs => simp [ih, and_comm]

theorem lineBody_newline (body : List Char) : lineBody (body ++ ['\n']) = some body :=
  lineBody_eq_some_iff.2 rfl

theorem parseLine_newline (body : List Char) : parseLine (body ++ ['\n']) = parseBody body := by
  rw [parseLine, lineBody_newline]

theorem parseLine_eq_some_iff {line : List Char} {cmd : LineCmd} :
    parseLine line = some cmd ↔ ∃ body, line = body ++ ['\n'] ∧ parseBody body = some cmd := by
  constructor
  · intro h
    unfold parseLine at h
    split at h
    next body hb => exact ⟨body, lineBody_eq_some_iff.1 hb, h⟩
    next => cases h
  · rintro ⟨body, rfl, h⟩
    rw [parseLine_newline, h]

theorem afterWord_append (word rest : List Char) : afterWord word (word ++ rest) = some rest := by
  rw [afterWord, if_pos List.take_left, List.drop_left]

theorem eq_append_of_afterWord {word text rest : List Char} (h : afterWord word text = some rest) :
    text = word ++ rest := by
  unfold afterWord at h
  split at h
  next htake =>
    cases h
    exact (List.prefix_iff_eq_append.1 (List.prefix_iff_eq_take.2 htake.symm)).symm
  next => cases h

theorem parseMoves_eq_some_iff {fields : List (List Char)} {ms : List MoveLine} :
    parseMoves fields = some ms ↔ fields.map parseMove = ms.map some := by
  induction fields generalizing ms with
  | nil => cases ms <;> simp [parseMoves]
  | cons f fs ih =>
    unfold parseMoves
    split
    next m rest hm hrest =>
      have hmap := ih.1 hrest
      cases ms with
      | nil => simp
      | cons m' ms' =>
        rw [Option.some_inj, List.cons.injEq, List.map_cons, List.map_cons, List.cons.injEq, hm, Option.some_inj, hmap,
          (List.map_injective_iff.2 (Option.some_injective _)).eq_iff]
    next hnone =>
      simp only [reduceCtorEq, false_iff]
      cases ms with
      | nil => simp
      | cons m ms => 
        intro h
        obtain ⟨h1, h2⟩ := List.cons.inj h
        exact hnone m ms h1 (ih.2 h2)

theorem parseMoves_eq_none {fields : List (List Char)} (h : ∃ f ∈ fields, parseMove f = none) :
    parseMoves fields = none := by
  obtain ⟨f, hf, hnone⟩ := h
  refine Option.eq_none_iff_forall_ne_some.2 fun ms hms => ?_
  have hmem : none ∈ ms.map some := parseMoves_eq_some_iff.1 hms ▸ hnone ▸ List.mem_map_of_mem hf
  simp at hmem

theorem parseBody_ppr (t : List Char) : parseBody (['P', 'P', 'R', ':'] ++ t) = (parseU32 t).map .ppr := by
  rfl

theorem parseBody_move (t : List Char) : parseBody (['M', 'O', 'V', 'E', ':'] ++ t) = (parseMove t).map .move := by
  rfl

theorem parseBody_batch {t : List Char} {m : MoveLine} {ms : List MoveLine}
    (h : parseMoves (splitAtSep ';' t) = some (m :: ms)) :
    parseBody (['B', 'A', 'T', 'C', 'H', ':'] ++ t) = some (.batch m ms) := by
  simp [parseBody, afterWord, h]

theorem parseBody_batch_none {t : List Char} (h : parseMoves (splitAtSep ';' t) = none) :
    parseBody (['B', 'A', 'T', 'C', 'H', ':'] ++ t) = none := by
  simp [parseBody, afterWord, h]

/-! ## The steps of the front end (R94, R95) -/

section

variable {s : State}

theorem isMotionLine_iff {line : List Char} :
    isMotionLine line = false ↔
      (∀ m, parseLine line ≠ some (.move m)) ∧ ∀ m ms, parseLine line ≠ some (.batch m ms) := by
  unfold isMotionLine
  split
  all_goals simp [*]

theorem mayTakeLine_iff {line : List Char} {lines : List (List Char)} {rest : List MoveLine}
    (h : s.link.inbox = line :: lines) : mayTakeLine rest s = true ↔ rest = [] ∨ isMotionLine line = false := by
  rw [mayTakeLine, h, Bool.or_eq_true, List.isEmpty_iff, Bool.not_eq_true']

theorem linkStep_ready (h : s.link.phase = .ready) (hj : s.link.job = none) : linkStep s = .next (takeNextLine s) := by
  simp only [linkStep, h, hj]

theorem linkStep_await {rest : List MoveLine} (h : s.link.phase = .ready) (hj : s.link.job = some rest) :
    linkStep s = awaitStep rest s := by
  simp only [linkStep, h, hj]

theorem linkStep_checking {follow : Follow} (h : s.link.phase = .checking follow) : linkStep s = checkStep follow s := by
  simp only [linkStep, h]

theorem linkStep_judging {m : MoveLine} {ms : List MoveLine} (h : s.link.phase = .judging m ms) :
    linkStep s = judgeStep m ms s := by
  simp only [linkStep, h]

theorem linkStep_writing {cmd : LinkCmd} {k : Nat} {follow : Follow} (h : s.link.phase = .writing cmd k follow) :
    linkStep s = writeStep cmd k follow s := by
  simp only [linkStep, h]

theorem takeNextLine_cons {line : List Char} {lines : List (List Char)} (h : s.link.inbox = line :: lines) :
    takeNextLine s = takeLine line { s with link := { s.link with inbox := lines } } := by
  simp only [takeNextLine, h]

/-- One step reads CMD_STATUS and goes on as its code says. -/
theorem checkStep_eq (follow : Follow) (s : State) :
    checkStep follow s =
      .next (moveChecked (statusOk s) follow { s with reads := (0x014, s.cmdStatus) :: s.reads }) := by
  have hread := busRead_pure (s := s) (off := 0x014) (r := .cmdStatus) (regAt_global _ (by decide) (by decide)) (by decide)
  exact congrArg (andThen · _) hread

theorem statusOk_iff : statusOk s = true ↔ s.cmdStatus.extractLsb' 0 4 = 0#4 := beq_iff_eq

theorem pollStep_eq {ch : Channel} (hch : s.chans[s.params.linkChannel.toNat]? = some ch) (rest : List MoveLine) :
    pollStep rest s = .next (moveLookedAt ch.moving rest
      { s with reads := (0x100 + 0x40 * s.params.linkChannel.toNat, chStateWord ch) :: s.reads }) := by
  have hread := busRead_chan hch .state
  rw [pollStep, hread, linkMoving, getLsbD_chState hch]
  rfl

theorem linkResult_eq {ch : Channel} (hch : s.chans[s.params.linkChannel.toNat]? = some ch) :
    linkResult s = ch.result.code := by
  rw [linkResult, readReg_chan hch]
  exact (chLastWord_fields ch).1

theorem Result.code_eq_complete_iff {r : Result} : r.code = Result.complete.code ↔ r = .complete := by
  cases r <;> decide

theorem offset_last (c : Nat) : (Reg.chan c .last).offset = 0x108 + 0x40 * c := by
  change 0x100 + 0x40 * c + 0x08 = 0x108 + 0x40 * c
  omega

theorem judgeStep_eq {ch : Channel} (hch : s.chans[s.params.linkChannel.toNat]? = some ch) (m : MoveLine)
    (rest : List MoveLine) :
    judgeStep m rest s = .next
      (if ch.result = .complete then
        beginCommand (.move m) (.next rest)
          { s with reads := (0x108 + 0x40 * s.params.linkChannel.toNat, chLastWord ch) :: s.reads }
      else sendDone { s with reads := (0x108 + 0x40 * s.params.linkChannel.toNat, chLastWord ch) :: s.reads }) := by
  have hread := busRead_chan hch .last
  rw [offset_last] at hread
  rw [judgeStep, offset_last, hread, linkResult_eq hch]
  exact congrArg Host.Outcome.next (if_congr Result.code_eq_complete_iff rfl rfl)

end

end Sys2Proof.Machine

section

open Sys2Proof Sys2Proof.Machine

/-- Settles O59: `parseMoves` succeeds exactly where every field parses. -/
theorem batchIsParsedWhole : Obligations.BatchIsParsedWhole := by
  refine ⟨fun _ => parseMoves_eq_none, fun _ _ => parseMoves_eq_some_iff.2, fun s text hbad => ?_⟩
  rw [takeLine, parseLine_newline, parseBody_batch_none (parseMoves_eq_none hbad)]

/-- Settles O60: the equation of each step of the front end, by its phase. -/
theorem doneIsSentAtTheEnd : Obligations.DoneIsSentAtTheEnd := by
  refine ⟨fun s rest l hl => ?check, fun s rest ch c l hc hch hl => ?poll,
    fun s m ms ch c l hc hch hl hphase => ?judge, fun s rest hphase hjob hno => ?await,
    fun s rest hinbox => by rw [mayTakeLine, hinbox], fun s rest line lines hinbox hphase => ?take⟩
  case check =>
    subst hl
    have accepted (h : s.cmdStatus.extractLsb' 0 4 = 0#4) : statusOk s = true := statusOk_iff.2 h
    have refused (h : s.cmdStatus.extractLsb' 0 4 ≠ 0#4) : statusOk s = false :=
      Bool.eq_false_iff.2 fun hok => h (statusOk_iff.1 hok)
    refine ⟨fun hphase hok hjob => ?_, fun hphase hok hjob => ?_, fun hphase hok => ?_, fun hphase hok => ?_,
      fun hphase hok => ?_⟩
    · rw [linkStep_checking hphase, checkStep_eq, accepted hok]
      simp [moveChecked, hjob, awaitMove]
    · rw [linkStep_checking hphase, checkStep_eq, accepted hok]
      simp [moveChecked, Option.isSome_iff_ne_none.2 hjob, awaitMove, sendDone, doneLine]
    · rw [linkStep_checking hphase, checkStep_eq, refused hok]
      rfl
    · rw [linkStep_checking hphase, checkStep_eq, accepted hok]
      rfl
    · rw [linkStep_checking hphase, checkStep_eq, refused hok]
      rfl
  case poll =>
    subst hc hl
    rw [pollStep_eq hch]
    refine ⟨fun hmoving => ?_, fun hidle hrest => ?_, fun m ms hidle hrest => ?_⟩
    · rw [hmoving]; rfl
    · rw [hidle, hrest]; rfl
    · rw [hidle, hrest]; rfl
  case judge =>
    subst hc hl
    rw [linkStep_judging hphase, judgeStep_eq hch]
    refine ⟨fun hres => ?_, fun hres => ?_⟩
    · rw [if_pos hres]; rfl
    · rw [if_neg hres]; rfl
  case await => rw [linkStep_await hphase hjob, awaitStep, if_neg (by simp [hno])]
  case take =>
    refine ⟨fun hjob => ?_, (mayTakeLine_iff hinbox).trans (or_congr_right isMotionLine_iff), fun hjob hmay => ?_⟩
    · rw [linkStep_ready hphase hjob, takeNextLine_cons hinbox]
    · rw [linkStep_await hphase hjob, awaitStep, if_pos hmay,
        takeNextLine_cons (s := { s with draws := s.draws + 1 }) hinbox]

end

end

section
/-! PROOFS. A move ends (60_exceptions.md R259): the steps its sequencer and its engine have left, at most, get fewer with
each one, and what its end is. -/

namespace Sys2Proof.Machine

/-! ## The steps left -/

/-- The entries the engine of a channel has left to play. -/
def Channel.entriesLeft (a : Channel) : Nat := if a.waveBusy then a.buffer.length - a.playPos.getD 0 else 0

/-- The steps the move of a channel has left at most, where a delay takes at most `w` steps of the sequencer and the
engine. -/
def Channel.stepsLeft (w : Nat) (a : Channel) : Nat :=
  match a.seq with
  | .idle => 0
  | .s0 => w * (a.total.toNat - a.idx.toNat) + 3
  | .s1 => w * (a.total.toNat - a.idx.toNat) + 2
  | .s2 => w * (a.total.toNat - a.idx.toNat) + 1
  | .s3 _ => w * (a.total.toNat - a.idx.toNat)
  | .s4 _ => w * (a.total.toNat - a.idx.toNat) - 1
  | .c0 => w * (a.total.toNat - a.idx.toNat) + 3
  | .c1 => w * (a.total.toNat - a.idx.toNat) + 2
  | .c2 => w * (a.total.toNat - a.idx.toNat) + 1
  | .c3 _ e => w * (a.total.toNat - e) + 2 + a.entriesLeft

section

variable {s : State} {a b : Channel}

theorem entriesLeft_of_plays {ks : List Word} {pos : Nat} (h : enginePlays a ks pos) :
    a.entriesLeft = 2 * ks.length - pos := by
  obtain ⟨hw, hbuffer, -, hp, -, -⟩ := h
  rw [Channel.entriesLeft, if_pos hw, hbuffer, length_chunkEntries, hp, Option.getD_some]

theorem entriesLeft_of_idle (h : a.waveBusy = false) : a.entriesLeft = 0 := by
  rw [Channel.entriesLeft, h]
  rfl

theorem Channel.Inv.entriesLeft_le (hi : a.Inv) : a.entriesLeft ≤ 2 * a.chunkValid := by
  cases hw : a.waveBusy with
  | false => exact (entriesLeft_of_idle hw).trans_le (Nat.zero_le _)
  | true =>
    obtain ⟨-, -, ks, pos, -, hplays⟩ := hi.plays hw
    obtain ⟨-, -, hlen, -⟩ := id hplays
    rw [entriesLeft_of_plays hplays, hlen]
    exact Nat.sub_le ..

theorem Channel.Inv.stepsLeft_le (hi : a.Inv) {w : Nat} (hw : 2 ≤ w) : a.stepsLeft w ≤ w * a.total.toNat + 3 := by
  have hrest : w * (a.total.toNat - a.idx.toNat) ≤ w * a.total.toNat := Nat.mul_le_mul_left w (Nat.sub_le ..)
  unfold Channel.stepsLeft
  cases hq : a.seq with
  | c3 ndrop e =>
    have hindex := hi.index
    simp only [indexInRange, hq] at hindex
    obtain ⟨hsum, hend⟩ := hindex
    have hentries := hi.entriesLeft_le
    have hmul : w * (a.total.toNat - e) + w * e = w * a.total.toNat := by rw [← Nat.mul_add]; congr 1; omega
    have hpart : 2 * e ≤ w * e := Nat.mul_le_mul_right e hw
    dsimp only
    omega
  | _ => dsimp only; omega

theorem lt_chunkEnd {p : Params} (h : a.idx.toNat ≤ a.total.toNat) (hne : a.idx ≠ a.total)
    (hsize : 1 ≤ p.chunkSize.toNat) : a.idx.toNat < chunkEnd p a := by
  have hlt := toNat_lt_of_le_of_ne h hne
  rw [chunkEnd]
  omega

/-- A delay that is over takes its share of the steps with it. -/
theorem stepsLeft_of_lt {w total i j : Nat} (hij : i < j) (hj : j ≤ total) :
    w * (total - j) + w * (j - i) = w * (total - i) := by
  rw [← Nat.mul_add]
  congr 1
  omega

theorem stepsLeft_of_succ (w : Nat) {total i : Nat} (hi : i < total) :
    w * (total - (i + 1)) + w = w * (total - i) := by
  have h := stepsLeft_of_lt (w := w) (Nat.lt_succ_self i) hi
  rwa [Nat.succ_sub (le_refl i), Nat.sub_self, Nat.mul_one] at h

/-- A step of an enabled sequencer leaves fewer; a delay of a chunk takes up to four. -/
theorem SequencerCase.stepsLeft_lt (hi : a.Inv) (h : SequencerCase s a b) {w : Nat} (hw : 3 ≤ w)
    (hchunked : a.emit = .chunked → 4 ≤ w ∧ 1 ≤ s.params.chunkSize.toNat) (enabled : sequencerEnabled a = true) :
    b.stepsLeft w < a.stepsLeft w := by
  have hmode := hi.mode
  have hindex := hi.index
  cases h with
  | still h => exact absurd (h.symm.trans enabled) Bool.false_ne_true
  | advanced q h =>
    rcases h with ⟨hq, rfl⟩ | ⟨hq, rfl⟩ | ⟨-, ⟨hq, rfl⟩ | ⟨hq, rfl⟩⟩ <;> simp only [Channel.stepsLeft, hq] <;> omega
  | ended r h =>
    rcases h.label with hq | hq | hq | hq <;> simp only [Channel.stepsLeft, hq, finished_seq] <;> omega
  | pulseBegun k hq hne hr => simp only [Channel.stepsLeft, hq, raiseStep_total, raiseStep_idx]; omega
  | delayDropped hq hne hr =>
    simp only [indexInRange, hq] at hindex
    have hlt := toNat_lt_of_le_of_ne hindex hne
    have hidx := toNat_add_one_of_lt hlt
    have hshare := stepsLeft_of_succ w hlt
    simp only [Channel.stepsLeft, hq, hidx]
    omega
  | pulseFallen k hq =>
    simp only [indexInRange, hq] at hindex
    have hshare := stepsLeft_of_succ w hindex
    simp only [Channel.stepsLeft, hq]
    omega
  | pulseCounted k hq =>
    simp only [indexInRange, hq] at hindex
    have hidx := toNat_add_one_of_lt hindex
    have hshare := stepsLeft_of_succ w hindex
    simp only [Channel.stepsLeft, hq, hidx]
    omega
  | chunkSkipped hq hne hr hk =>
    simp only [modeMatches, indexInRange, hq] at hmode hindex
    obtain ⟨-, hsize⟩ := hchunked hmode
    have hlt := lt_chunkEnd hindex hne hsize
    obtain ⟨-, hhigh, -⟩ := nextChunk_bounds s.params hindex
    have hend : (BitVec.ofNat 32 (chunkEnd s.params a)).toNat = chunkEnd s.params a := by
      rw [BitVec.toNat_ofNat]; omega
    have hshare := stepsLeft_of_lt (w := w) hlt hhigh
    have hpart : w * 1 ≤ w * (chunkEnd s.params a - a.idx.toNat) := Nat.mul_le_mul_left w (by omega)
    simp only [Channel.stepsLeft, hq, hend]
    omega
  | chunkSubmitted hq hne hr hk =>
    simp only [modeMatches, indexInRange, hq] at hmode hindex
    obtain ⟨hw4, hsize⟩ := hchunked hmode
    have hlt := lt_chunkEnd hindex hne hsize
    obtain ⟨-, hhigh, hsum⟩ := nextChunk_bounds s.params hindex
    have hlen := List.length_pos_iff.2 hk
    have hshare := stepsLeft_of_lt (w := w) hlt hhigh
    have hpart : 4 * (chunkEnd s.params a - a.idx.toNat) ≤ w * (chunkEnd s.params a - a.idx.toNat) :=
      Nat.mul_le_mul_right _ hw4
    simp only [Channel.stepsLeft, Channel.entriesLeft, hq, Channel.submitted, length_chunkEntries, if_true,
      Option.getD_some]
    omega
  | chunkCounted ndrop e hq hwave =>
    simp only [indexInRange, hq] at hindex
    have hend : (BitVec.ofNat 32 e).toNat = e := by
      rw [BitVec.toNat_ofNat]; omega
    simp only [Channel.stepsLeft, hq, chunkPlayed_seq, chunkPlayed_total, chunkPlayed_idx, hend]
    omega

/-- A step of a playing engine leaves one fewer. -/
theorem entryPlayed_stepsLeft (hi : a.Inv) (hw : a.waveBusy = true) (w : Nat) :
    a.entryPlayed.stepsLeft w < a.stepsLeft w := by
  obtain ⟨ndrop, e, ks, pos, hq, hplays⟩ := hi.plays hw
  obtain ⟨-, -, -, -, hpos, -⟩ := id hplays
  have keeps := entryPlayed_keeps a
  have hlt : a.entryPlayed.entriesLeft < a.entriesLeft := by
    rw [entriesLeft_of_plays hplays]
    rcases entryPlayed_shape hplays with ⟨-, hidle, -⟩ | hnext
    · rw [entriesLeft_of_idle hidle]; omega
    · rw [entriesLeft_of_plays hnext]; omega
  simp only [Channel.stepsLeft, keeps.seq, keeps.total, hq]
  omega

/-! ## The end of a move -/

/-- No submission of a chunk fails in `s` or after it (42_pulse_delay_sequencer.md R163). -/
def State.noFault (s : State) : Prop := s.waveAnswers = [] ∧ s.params.waveFault = .never

theorem State.noFault.draw (h : s.noFault) : drawWaveFault s = (false, s) := drawWaveFault_never h.1 h.2

theorem sequencerStep_noFault (h : s.noFault) (c : Nat) : (sequencerStep c s).noFault := by
  have drawn {d : State} (hd : Drawn s d) : d = s := hd.elim id fun e => by rw [e, h.draw]
  rcases sequencerStep_channelStep c s with e | ⟨d, b, hd, e⟩ | ⟨d, b, r, -, hd, e⟩ <;> rw [e]
  · exact h
  · rw [drawn hd]; exact h
  · rw [drawn hd]; exact h

/-- The move of a channel `b`, begun with RUN at `run`, has ended as it may. -/
structure EndsWell (run : Bool) (noFault : Prop) (b : Channel) : Prop where
  result : b.result ≠ .none
  complete : b.result = .complete → b.idx = b.total
  running : run = true → b.result = .complete ∨ (b.result = .hwFault ∧ b.emit = .chunked)
  accepted : noFault → b.result ≠ .hwFault

theorem EndReason.endsWell {r : Result} (hi : a.Inv) (h : EndReason s a r) : EndsWell s.run s.noFault (a.finished r) := by
  have hindex := hi.index
  have hmode := hi.mode
  cases h with
  | empty hq h0 =>
    obtain ⟨-, -, hle⟩ := hi.at_rest (by tauto)
    have hidx : a.idx = a.total := BitVec.eq_of_toNat_eq (le_antisymm hle (by simp [h0]))
    rw [emptyResult]
    cases hr : s.run with
    | true => exact ⟨nofun, fun _ => hidx, fun _ => .inl rfl, fun _ => nofun⟩
    | false => exact ⟨nofun, nofun, nofun, fun _ => nofun⟩
  | complete hq hidx => exact ⟨nofun, fun _ => hidx, fun _ => .inl rfl, fun _ => nofun⟩
  | cancelled hq hne hr => exact ⟨nofun, nofun, fun h => absurd (hr.symm.trans h) Bool.false_ne_true, fun _ => nofun⟩
  | rejected hq hne hr hw =>
    simp only [modeMatches, hq] at hmode
    exact ⟨nofun, nofun, fun _ => .inr ⟨rfl, hmode⟩, fun h => by rw [h.draw] at hw; cases hw⟩

/-! ## A move on its way -/

/-- The state `s` in which the move of channel `c`, a channel `ch` at first, goes on or has ended, since a state with RUN at
`run`, with the chunk size `size` and, if `noFault`, with no submission to fail. -/
structure MoveState (run : Bool) (size : BitVec 16) (noFault : Prop) (c : Nat) (ch : Channel) (s : State) (a : Channel) :
    Prop where
  here : s.chans[c]? = some a
  inv : a.Inv
  run_eq : s.run = run
  size_eq : s.params.chunkSize = size
  no_fault : noFault → s.noFault
  emit : a.emit = ch.emit
  total : a.total = ch.total
  ended : a.moving = false → EndsWell run noFault a

theorem MoveState.first {s : State} {c : Nat} {ch : Channel} (here : s.chans[c]? = some ch) (inv : ch.Inv)
    (hm : ch.moving = true) : MoveState s.run s.params.chunkSize s.noFault c ch s ch :=
  ⟨here, inv, rfl, rfl, id, rfl, rfl, fun h => absurd (h.symm.trans hm) Bool.false_ne_true⟩

section

variable {run : Bool} {size : BitVec 16} {noFault : Prop} {c : Nat} {ch : Channel}

theorem EndsWell.of_noFault {p q : Prop} (h : EndsWell run p b) (hqp : q → p) : EndsWell run q b :=
  ⟨h.result, h.complete, h.running, h.accepted ∘ hqp⟩

/-- What a step of the sequencer leaves of a move that goes on. -/
theorem MoveState.sequencer (h : MoveState run size noFault c ch s a) (hm : a.moving = true) {w : Nat} (hw : 3 ≤ w)
    (hchunked : ch.emit = .chunked → 4 ≤ w ∧ 1 ≤ size.toNat) (enabled : sequencerEnabled a = true) :
    ∃ b, MoveState run size noFault c ch (sequencerStep c s) b ∧ b.stepsLeft w < a.stepsLeft w := by
  obtain ⟨b, hb, hset⟩ := sequencerStep_case h.here
  have kept := (sequencerStep_channelStep c s).others
  have hrun : (sequencerStep c s).run = s.run := by rw [kept.block]
  have hparams : (sequencerStep c s).params = s.params := by rw [kept.block]
  refine ⟨b, ⟨?_, hb.inv h.inv, hrun.trans h.run_eq, hparams ▸ h.size_eq,
    fun hn => sequencerStep_noFault (h.no_fault hn) c, hb.keeps.emit.trans h.emit, hb.keeps.total.trans h.total, ?_⟩,
    hb.stepsLeft_lt h.inv hw ?_ enabled⟩
  · rw [hset, List.getElem?_set_self (List.getElem?_eq_some_iff.1 h.here).1]
  · intro hidle
    cases hb with
    | ended r hr => exact h.run_eq ▸ (hr.endsWell h.inv).of_noFault h.no_fault
    | _ => exact absurd (hidle.symm.trans hm) Bool.false_ne_true
  · rw [h.emit, h.size_eq]
    exact hchunked

/-- What a step of the engine leaves of a move that goes on. -/
theorem MoveState.engine (h : MoveState run size noFault c ch s a) (hm : a.moving = true) (hwave : a.waveBusy = true)
    (w : Nat) : ∃ b, MoveState run size noFault c ch (engineStep c s) b ∧ b.stepsLeft w < a.stepsLeft w := by
  have keeps := entryPlayed_keeps a
  refine ⟨a.entryPlayed, ?_, entryPlayed_stepsLeft h.inv hwave w⟩
  rw [engineStep_busy h.here hwave]
  exact ⟨getElem?_setChan_self h.here _, entryPlayed_inv h.inv hwave, h.run_eq, h.size_eq, h.no_fault,
    keeps.emit.trans h.emit, keeps.total.trans h.total,
    fun hidle => absurd (hidle.symm.trans (keeps.moving.trans hm)) Bool.false_ne_true⟩

/-- Until the channel is IDLE its sequencer or its engine has a step to take. -/
theorem Channel.Inv.enabled (hi : a.Inv) (hm : a.moving = true) : sequencerEnabled a = true ∨ a.waveBusy = true := by
  have hq := hi.moving_iff.1 hm
  unfold sequencerEnabled
  cases hseq : a.seq with
  | idle => exact absurd hseq hq
  | c3 ndrop e => cases a.waveBusy <;> simp
  | _ => exact .inl rfl

/-- In direct mode the engine never plays, so the sequencer has the next step. -/
theorem Channel.Inv.direct_enabled (hi : a.Inv) (hm : a.moving = true) (hdirect : a.emit = .direct) :
    sequencerEnabled a = true := by
  refine (hi.enabled hm).resolve_right fun hwave => ?_
  obtain ⟨ndrop, e, -, -, hq, -⟩ := hi.plays hwave
  have hmode := hi.mode
  simp only [modeMatches, hq, hdirect] at hmode
  cases hmode

/-- Where every step of a move that goes on leaves fewer, it ends within the steps it has left. -/
theorem MoveState.ends {f : Nat → State} {w : Nat}
    (hstep : ∀ j a, MoveState run size noFault c ch (f j) a → a.moving = true →
      ∃ b, MoveState run size noFault c ch (f (j + 1)) b ∧ b.stepsLeft w < a.stepsLeft w)
    (n : Nat) {a : Channel} (h : MoveState run size noFault c ch (f n) a) :
    ∃ k b, k ≤ a.stepsLeft w ∧
      (∀ j < k, ∃ x, MoveState run size noFault c ch (f (n + j)) x ∧ x.moving = true) ∧
      MoveState run size noFault c ch (f (n + k)) b ∧ b.moving = false := by
  induction hleft : a.stepsLeft w using Nat.strong_induction_on generalizing n a with
  | _ m ih =>
    cases hm : a.moving with
    | false => exact ⟨0, a, Nat.zero_le _, nofun, h, hm⟩
    | true =>
      obtain ⟨b, hb, hlt⟩ := hstep n a h hm
      obtain ⟨k, d, hk, hbefore, hd, hidle⟩ := ih _ (hleft ▸ hlt) (n + 1) hb rfl
      have shift : ∀ j, n + 1 + j = n + (j + 1) := fun j => by omega
      refine ⟨k + 1, d, by omega, fun j hj => ?_, shift k ▸ hd, hidle⟩
      cases j with
      | zero => exact ⟨a, h, hm⟩
      | succ j => exact shift j ▸ hbefore j (by omega)

end

end

end Sys2Proof.Machine

section

open Sys2Proof Sys2Proof.Machine

/-- Settles O38: with each step of the two agents fewer are left (`SequencerCase.stepsLeft_lt`, `entryPlayed_stepsLeft`), and
how the move may have ended goes along with it. -/
theorem directMoveEnds : Obligations.DirectMoveEnds := by
  refine ⟨fun s c ch hch hi hm hdirect => ?direct, fun f c ch hch hi hm hsize hstep => ?any⟩
  case direct =>
    have hnot : ch.emit ≠ .chunked := by rw [hdirect]; decide
    have hf : ∀ j a, MoveState s.run s.params.chunkSize s.noFault c ch ((sequencerStep c)^[j] s) a → a.moving = true →
        ∃ b, MoveState s.run s.params.chunkSize s.noFault c ch ((sequencerStep c)^[j + 1] s) b ∧
          b.stepsLeft 3 < a.stepsLeft 3 := fun j a h hma => by
      rw [Function.iterate_succ_apply']
      exact h.sequencer hma le_rfl (fun h => absurd h hnot) (h.inv.direct_enabled hma (h.emit.trans hdirect))
    obtain ⟨k, b, hk, -, hb, hidle⟩ := MoveState.ends hf 0 (MoveState.first hch hi hm)
    rw [Nat.zero_add] at hb
    obtain ⟨hresult, hcomplete, hrunning, -⟩ := hb.ended hidle
    refine ⟨k, b, hk.trans (hi.stepsLeft_le (by decide)), hb.here, hidle, hb.inv.seq_idle hidle, hresult, hb.total,
      hb.inv.counts, fun hr => ?_⟩
    have hdone := (hrunning hr).resolve_right fun h => hnot (hb.emit ▸ h.2)
    exact ⟨hdone, hcomplete hdone⟩
  case any =>
    have hf : ∀ j a, MoveState (f 0).run (f 0).params.chunkSize (f 0).noFault c ch (f j) a → a.moving = true →
        ∃ b, MoveState (f 0).run (f 0).params.chunkSize (f 0).noFault c ch (f (j + 1)) b ∧
          b.stepsLeft 4 < a.stepsLeft 4 := by
      intro j a h hma
      have hseq : agentEnabled (f j) (.sequencer c) = sequencerEnabled a := by simp only [agentEnabled, h.here]
      have heng : agentEnabled (f j) (.engine c) = a.waveBusy := by simp only [agentEnabled, h.here]
      rcases hstep j with ⟨enabled, e⟩ | ⟨enabled, e⟩ | ⟨hno, hno', -⟩
      · rw [e]
        exact h.sequencer hma (by decide) (fun _ => ⟨le_rfl, hsize⟩) (hseq ▸ enabled)
      · rw [e]
        exact h.engine hma (heng ▸ enabled) 4
      · have := h.inv.enabled hma
        simp [← hseq, ← heng, hno, hno'] at this
    obtain ⟨k, b, hk, hbefore, hb, hidle⟩ := MoveState.ends hf 0 (MoveState.first hch hi hm)
    simp only [Nat.zero_add] at hbefore hb
    obtain ⟨hresult, hcomplete, hrunning, haccepted⟩ := hb.ended hidle
    obtain ⟨⟨hpin, hwave, -⟩, -⟩ := hb.inv.at_rest (.inl (hb.inv.seq_idle hidle))
    refine ⟨k, b, hk.trans (hi.stepsLeft_le (by decide)), fun j hj => ?_, hb.here, hidle, hb.inv.seq_idle hidle, hwave, hpin,
      hresult, hb.total, hb.inv.counts, hcomplete, fun hr => hb.emit ▸ hrunning hr,
      fun ha hp => haccepted ⟨ha, hp⟩⟩
    obtain ⟨x, hx, hmx⟩ := hbefore j hj
    refine ⟨?_, x, hx.here, hmx⟩
    simpa only [agentEnabled, hx.here] using hx.inv.enabled hmx

end

end

section
/-! PROOFS. Binary64 arithmetic (00_scope.md R12): patterns as sign and magnitude bits, and rounding to the nearest value,
ties to even, up to the overflow threshold. -/

namespace Sys2Proof.Machine.Binary64

/-! ## Patterns as sign and magnitude bits -/

/-- The magnitude bits of a pattern: exponent and fraction. -/
def magBits (x : B64) : Nat := x.toNat % 2 ^ 63

theorem magBits_lt (x : B64) : magBits x < 2 ^ 63 := Nat.mod_lt _ (Nat.two_pow_pos _)

theorem withSign_signBit_magBits (x : B64) : withSign (signBit x) (magBits x) = x := by
  refine BitVec.eq_of_toNat_eq ?_
  have hx := x.isLt
  rw [toNat_withSign _ (magBits_lt x), signBit, BitVec.msb_eq_decide, magBits]
  by_cases h : 2 ^ 63 ≤ x.toNat
  · rw [if_pos (by simpa using h)]; omega
  · rw [if_neg (by simpa using h)]; omega

theorem magBits_withSign (n : Bool) {b : Nat} (h : b < 2 ^ 63) : magBits (withSign n b) = b := by
  rw [magBits, toNat_withSign n h]
  cases n <;> simp <;> omega

theorem units_eq_bitsUnits (x : B64) : units x = bitsUnits (magBits x) := by
  rw [← units_withSign (signBit x) (magBits_lt x), withSign_signBit_magBits]

theorem finite_iff_magBits {x : B64} : finite x = true ↔ magBits x < infBits := by
  have hlt := magBits_lt x
  rw [← withSign_signBit_magBits x, magBits_withSign _ hlt, finite, expField_withSign _ hlt, bne_iff_ne]
  unfold infBits
  omega

theorem finite_withSign_iff (n : Bool) {b : Nat} (h : b < 2 ^ 63) : finite (withSign n b) = true ↔ b < infBits := by
  rw [finite_iff_magBits, magBits_withSign n h]

theorem toNat_withSign_mod_two (n : Bool) {b : Nat} (h : b < 2 ^ 63) : (withSign n b).toNat % 2 = b % 2 := by
  rw [toNat_withSign n h]
  cases n
  · rfl
  · simp only [if_true]; omega

/-! ## Magnitude bits as exponent and significand -/

/-- Finite magnitude bits are a significand and a power of two, as `bitsUnits_pack` reads them. -/
theorem exists_pack {b : Nat} (h : b < infBits) :
    ∃ e q, q < 2 ^ 53 ∧ (e = 0 ∨ 2 ^ 52 ≤ q) ∧ b = e * 2 ^ 52 + q ∧ bitsUnits b = q * 2 ^ e := by
  unfold infBits at h
  by_cases h0 : b / 2 ^ 52 = 0
  · refine ⟨0, b, by omega, .inl rfl, by omega, ?_⟩
    have hpack := bitsUnits_pack (e := 0) (q := b) (by omega) (.inl rfl)
    rwa [Nat.zero_mul, Nat.zero_add] at hpack
  · refine ⟨b / 2 ^ 52 - 1, 2 ^ 52 + b % 2 ^ 52, by omega, .inr (by omega), by omega, ?_⟩
    rw [← bitsUnits_pack (by omega) (.inr (by omega))]
    congr 1
    omega

theorem roundUnits_bitsUnits {b : Nat} (h : b < infBits) : roundUnits (bitsUnits b) 1 = b := by
  obtain ⟨e, q, hq, he, hb, hunits⟩ := exists_pack h
  rw [hunits, roundUnits_exact hq he (hb ▸ h.le), hb]

theorem bitsUnits_injective {a b : Nat} (ha : a < infBits) (hb : b < infBits) (h : bitsUnits a = bitsUnits b) : a = b := by
  rw [← roundUnits_bitsUnits ha, h, roundUnits_bitsUnits hb]

/-! ## The nearest integer -/

theorem abs_nearestEven_sub_le_half {num den : Nat} (hd : 0 < den) :
    |(nearestEven num den : ℚ) - num / den| ≤ 1 / 2 := by
  obtain ⟨hlow, hhigh⟩ := nearestEven_close (num := num) hd
  have hdq : (0 : ℚ) < den := by exact_mod_cast hd
  have hlow' : (2 * num : ℚ) ≤ (2 * nearestEven num den + 1) * den := by exact_mod_cast hlow
  have hhigh' : (2 * nearestEven num den * den : ℚ) ≤ 2 * num + den := by exact_mod_cast hhigh
  rw [← div_mul_cancel₀ (num : ℚ) hdq.ne'] at hlow' hhigh'
  have h₁ : 2 * ((num : ℚ) / den) ≤ 2 * nearestEven num den + 1 := le_of_mul_le_mul_right (by linarith) hdq
  have h₂ : 2 * (nearestEven num den : ℚ) ≤ 2 * (num / den) + 1 := le_of_mul_le_mul_right (by linarith) hdq
  exact abs_le.2 ⟨by linarith, by linarith⟩

/-- Half way between two integers the even one is taken. -/
theorem abs_nearestEven_sub_lt_half {num den : Nat} (hd : 0 < den) (hodd : nearestEven num den % 2 ≠ 0) :
    |(nearestEven num den : ℚ) - num / den| < 1 / 2 := by
  have hdq : (0 : ℚ) < den := by exact_mod_cast hd
  have hclose : 2 * num < (2 * nearestEven num den + 1) * den ∧ 2 * nearestEven num den * den < 2 * num + den := by
    have h := Nat.div_add_mod num den
    have hr := Nat.mod_lt num hd
    unfold nearestEven at hodd ⊢
    generalize num / den = q at *
    generalize num % den = r at *
    subst h
    split_ifs at hodd ⊢ with h1 h2 h3
    · constructor <;> nlinarith
    · constructor <;> nlinarith
    · omega
    · omega
  obtain ⟨hlow, hhigh⟩ := hclose
  have hlow' : (2 * num : ℚ) < (2 * nearestEven num den + 1) * den := by exact_mod_cast hlow
  have hhigh' : (2 * nearestEven num den * den : ℚ) < 2 * num + den := by exact_mod_cast hhigh
  rw [← div_mul_cancel₀ (num : ℚ) hdq.ne'] at hlow' hhigh'
  have h₁ : 2 * ((num : ℚ) / den) < 2 * nearestEven num den + 1 := lt_of_mul_lt_mul_right (by linarith) hdq.le
  have h₂ : 2 * (nearestEven num den : ℚ) < 2 * (num / den) + 1 := lt_of_mul_lt_mul_right (by linarith) hdq.le
  exact abs_lt.2 ⟨by linarith, by linarith⟩

/-- Another integer is half a unit away at least. -/
theorem half_le_abs_sub {r t : Nat} {x : ℚ} (hr : |(r : ℚ) - x| ≤ 1 / 2) (hne : t ≠ r) : 1 / 2 ≤ |(t : ℚ) - x| := by
  have hint : (1 : ℤ) ≤ |(t : ℤ) - r| := Int.one_le_abs (sub_ne_zero.2 (by exact_mod_cast hne))
  have hdist : (1 : ℚ) ≤ |(t : ℚ) - r| := by exact_mod_cast hint
  have htri : |(t : ℚ) - r| ≤ |(t : ℚ) - x| + |x - r| := abs_sub_le _ _ _
  rw [abs_sub_comm x] at htri
  linarith

theorem abs_nearestEven_sub_le {num den : Nat} (hd : 0 < den) (t : Nat) :
    |(nearestEven num den : ℚ) - num / den| ≤ |(t : ℚ) - num / den| := by
  have hhalf := abs_nearestEven_sub_le_half (num := num) hd
  by_cases ht : t = nearestEven num den
  · rw [ht]
  · exact hhalf.trans (half_le_abs_sub hhalf ht)

/-- On a tie the nearest integer is the even one. -/
theorem nearestEven_tie {num den : Nat} (hd : 0 < den) {t : Nat}
    (h : |(nearestEven num den : ℚ) - num / den| = |(t : ℚ) - num / den|) :
    t = nearestEven num den ∨ nearestEven num den % 2 = 0 := by
  by_contra hno
  obtain ⟨ht, hodd⟩ := not_or.1 hno
  have hlt := abs_nearestEven_sub_lt_half hd hodd
  exact absurd (half_le_abs_sub hlt.le ht) (not_le.2 (h ▸ hlt))

/-! ## The nearest binary64 -/

/-- A value that is no multiple of the result's spacing lies below the results of that spacing. -/
theorem bitsUnits_multiple_or_lt {m : Nat} (hm : m < infBits) (e : Nat) :
    (∃ t, bitsUnits m = t * 2 ^ e) ∨ (e ≠ 0 ∧ bitsUnits m < 2 ^ 52 * 2 ^ e) := by
  obtain ⟨e', q', hq', -, -, hunits⟩ := exists_pack hm
  rw [hunits]
  rcases le_or_gt e e' with h | h
  · exact .inl ⟨q' * 2 ^ (e' - e), by rw [mul_assoc, ← pow_add, Nat.sub_add_cancel h]⟩
  · refine .inr ⟨by omega, ?_⟩
    calc q' * 2 ^ e' < 2 ^ 53 * 2 ^ e' := Nat.mul_lt_mul_of_pos_right hq' (Nat.two_pow_pos _)
      _ = 2 ^ 52 * 2 ^ (e' + 1) := by rw [pow_succ 2 e', pow_succ 2 52]; ring
      _ ≤ 2 ^ 52 * 2 ^ e := Nat.mul_le_mul_left _ (Nat.pow_le_pow_right (by decide) h)

/-- Before the clip to infinity, rounding is to the nearest integer of a spacing `2 ^ e`, and what is rounded is above
`2 ^ 52` times the spacing unless that is one unit. -/
theorem roundBits_spacing {num den : Nat} (hd : 0 < den) :
    ∃ e, roundBits num den = e * 2 ^ 52 + nearestEven num (den * 2 ^ e) ∧
      bitsUnits (roundBits num den) = nearestEven num (den * 2 ^ e) * 2 ^ e ∧
      (e = 0 ∨ 2 ^ 52 * 2 ^ e * den ≤ num) := by
  obtain ⟨hup, hlow⟩ := significand_range (num := num) (den := den)
  refine ⟨Nat.log2 (num / den) - 52, rfl, bitsUnits_pack hup hlow, ?_⟩
  by_cases h0 : Nat.log2 (num / den) - 52 = 0
  · exact .inl h0
  · right
    have hne : num / den ≠ 0 := fun hz => h0 (by rw [hz]; decide)
    rw [← pow_add, ← Nat.le_div_iff_mul_le hd, Nat.add_sub_cancel' (by omega)]
    exact Nat.log2_self_le hne

/-- The spacing scales the distances. -/
theorem abs_mul_two_pow_sub (t num den e : Nat) :
    |((t * 2 ^ e : Nat) : ℚ) - num / den| = |(t : ℚ) - num / (den * 2 ^ e : Nat)| * 2 ^ e := by
  have h2 : (0 : ℚ) < 2 ^ e := by positivity
  have hscale : ((t * 2 ^ e : Nat) : ℚ) - num / den = (t - num / (den * 2 ^ e : Nat)) * 2 ^ e := by
    push_cast
    rw [sub_mul, div_mul_eq_mul_div, mul_div_mul_right _ _ h2.ne']
  rw [hscale, abs_mul, abs_of_pos h2]

/-- Before the clip to infinity, no finite value is nearer than the rounded one, and an equally near one leaves it even. -/
theorem roundBits_nearest {num den m : Nat} (hd : 0 < den) (hm : m < infBits) :
    |(bitsUnits (roundBits num den) : ℚ) - num / den| ≤ |(bitsUnits m : ℚ) - num / den| ∧
      (|(bitsUnits (roundBits num den) : ℚ) - num / den| = |(bitsUnits m : ℚ) - num / den| →
        bitsUnits m = bitsUnits (roundBits num den) ∨ roundBits num den % 2 = 0) := by
  obtain ⟨e, hbits, hunits, habove⟩ := roundBits_spacing (num := num) hd
  have hde : 0 < den * 2 ^ e := Nat.mul_pos hd (Nat.two_pow_pos _)
  have h2 : (0 : ℚ) < 2 ^ e := by positivity
  have scaled : ∀ t : Nat, |(bitsUnits (roundBits num den) : ℚ) - num / den| ≤ |((t * 2 ^ e : Nat) : ℚ) - num / den| := by
    intro t
    rw [hunits, abs_mul_two_pow_sub, abs_mul_two_pow_sub]
    exact mul_le_mul_of_nonneg_right (abs_nearestEven_sub_le hde t) h2.le
  rcases bitsUnits_multiple_or_lt hm e with ⟨t, ht⟩ | ⟨hne, hlt⟩
  · refine ⟨ht ▸ scaled t, fun htie => ?_⟩
    rw [ht, hunits, abs_mul_two_pow_sub, abs_mul_two_pow_sub] at htie
    rcases nearestEven_tie hde (mul_right_cancel₀ h2.ne' htie) with h | h
    · exact .inl (by rw [ht, hunits, h])
    · exact .inr (by rw [hbits]; omega)
  · have hnear := scaled (2 ^ 52)
    have hstrict : |((2 ^ 52 * 2 ^ e : Nat) : ℚ) - num / den| < |(bitsUnits m : ℚ) - num / den| := by
      have hdq : (0 : ℚ) < den := by exact_mod_cast hd
      have hltq : (bitsUnits m : ℚ) < (2 ^ 52 * 2 ^ e : Nat) := by exact_mod_cast hlt
      have hle : ((2 ^ 52 * 2 ^ e : Nat) : ℚ) ≤ num / den := by
        rw [le_div_iff₀ hdq]
        exact_mod_cast habove.resolve_left hne
      rw [abs_sub_comm, abs_of_nonneg (sub_nonneg.2 hle), abs_sub_comm, abs_of_nonneg (sub_nonneg.2 (hltq.trans_le hle).le)]
      exact sub_lt_sub_left hltq _
    exact ⟨hnear.trans hstrict.le, fun htie => absurd htie (hnear.trans_lt hstrict).ne⟩

/-! ## Overflow -/

/-- From `2 ^ 1024 - 2 ^ 970` on, in units, the nearest value is infinity. -/
def overflowUnits : Nat := (2 ^ 54 - 1) * 2 ^ 2044

theorem roundUnits_overflowUnits : roundUnits overflowUnits 1 = infBits := by decide +kernel

/-- Below the threshold the greatest spacing is `2 ^ 2045` units, and there the significand stays below `2 ^ 53`. -/
theorem roundBits_lt_infBits {num den : Nat} (hd : 0 < den) (h : num < overflowUnits * den) :
    roundBits num den < infBits := by
  have hlog : Nat.log2 (num / den) ≤ 2097 := by
    have hquot : num / den < 2 ^ 2098 := by
      refine (Nat.div_lt_iff_lt_mul hd).2 (h.trans_le (Nat.mul_le_mul_right _ ?_))
      calc overflowUnits ≤ 2 ^ 54 * 2 ^ 2044 := Nat.mul_le_mul_right _ (by decide)
        _ = 2 ^ 2098 := (pow_add 2 54 2044).symm
    by_cases h0 : num / den = 0
    · rw [h0]; decide
    · exact Nat.le_of_lt_succ ((Nat.log2_lt h0).2 hquot)
  obtain ⟨hup, -⟩ := significand_range (num := num) (den := den)
  unfold roundBits infBits
  by_cases he : Nat.log2 (num / den) - 52 ≤ 2044
  · omega
  · have he' : Nat.log2 (num / den) - 52 = 2045 := by omega
    rw [he'] at hup ⊢
    obtain ⟨-, hhigh⟩ := nearestEven_close (num := num) (Nat.mul_pos hd (Nat.two_pow_pos 2045))
    have hlt : nearestEven num (den * 2 ^ 2045) < 2 ^ 53 := by
      have hnum : 2 * num < (2 ^ 54 - 1) * (den * 2 ^ 2045) := by
        calc 2 * num < 2 * ((2 ^ 54 - 1) * 2 ^ 2044 * den) := Nat.mul_lt_mul_of_pos_left h (by decide)
          _ = (2 ^ 54 - 1) * (den * 2 ^ 2045) := by rw [pow_succ 2 2044]; ring
      generalize den * 2 ^ 2045 = d at hhigh hnum
      by_contra hge
      have hmul : 2 * 2 ^ 53 * d ≤ 2 * nearestEven num d * d := Nat.mul_le_mul_right _ (by omega)
      omega
    omega

theorem roundUnits_lt_infBits_iff {num den : Nat} (hd : 0 < den) :
    roundUnits num den < infBits ↔ num < overflowUnits * den := by
  refine ⟨fun h => ?_, fun h => (min_le_left _ _).trans_lt (roundBits_lt_infBits hd h)⟩
  by_contra hle
  have hmono : roundUnits overflowUnits 1 ≤ roundUnits num den := roundUnits_mono one_pos hd (by omega)
  rw [roundUnits_overflowUnits] at hmono
  omega

/-! ## Values -/

/-- The value of a finite pattern. -/
def value (x : B64) : ℚ := (signedUnits x : ℚ) / 2 ^ 1074

theorem unitScale_pos : (0 : ℚ) < 2 ^ 1074 := by positivity

/-- A sign as a factor. -/
def signFactor (n : Bool) : ℚ := if n then -1 else 1

theorem abs_signFactor (n : Bool) : |signFactor n| = 1 := by cases n <;> simp [signFactor]

theorem signFactor_mul_self (n : Bool) : signFactor n * signFactor n = 1 := by cases n <;> simp [signFactor]

theorem signFactor_xor (m n : Bool) : signFactor (m != n) = signFactor m * signFactor n := by
  cases m <;> cases n <;> simp [signFactor]

theorem signedUnits_eq (x : B64) : (signedUnits x : ℚ) = signFactor (signBit x) * units x := by
  cases h : signBit x <;> simp [signedUnits, signFactor, h]

theorem value_eq (x : B64) : value x = signFactor (signBit x) * (units x / 2 ^ 1074) := by
  rw [value, signedUnits_eq, mul_div_assoc]

theorem value_withSign (n : Bool) {b : Nat} (h : b < 2 ^ 63) :
    value (withSign n b) = signFactor n * (bitsUnits b / 2 ^ 1074) := by
  rw [value_eq, signBit_withSign n h, units_withSign n h]

/-- `x` is `r` rounded to the nearest binary64, ties to even, or to an infinity (00_scope.md R12). -/
structure RoundedTo (x : B64) (r : ℚ) : Prop where
  not_nan : isNaN x = false
  finite_iff : finite x = true ↔ |r| < 2 ^ 1024 - 2 ^ 970
  nearest : finite x = true → ∀ z, finite z = true →
    |value x - r| ≤ |value z - r| ∧ (|value x - r| = |value z - r| → value z = value x ∨ x.toNat % 2 = 0)

/-- At the same sign the distance is that of the magnitudes. -/
theorem abs_sub_of_same_sign (n : Bool) (u q : ℚ) :
    |signFactor n * (u / 2 ^ 1074) - signFactor n * (q / 2 ^ 1074)| = |u - q| / 2 ^ 1074 := by
  rw [← mul_sub, ← sub_div, abs_mul, abs_signFactor, one_mul, abs_div, abs_of_pos unitScale_pos]

/-- At the other sign it is the sum of the magnitudes. -/
theorem abs_sub_of_other_sign {n m : Bool} (h : m ≠ n) {u q : ℚ} (hu : 0 ≤ u) (hq : 0 ≤ q) :
    |signFactor m * (u / 2 ^ 1074) - signFactor n * (q / 2 ^ 1074)| = (u + q) / 2 ^ 1074 := by
  have hneg : signFactor m = -signFactor n := by cases m <;> cases n <;> simp_all [signFactor]
  rw [hneg, neg_mul, ← neg_add', abs_neg, ← mul_add, ← add_div, abs_mul, abs_signFactor, one_mul,
    abs_of_nonneg (by positivity)]

theorem bitsUnits_zero : bitsUnits 0 = 0 := by decide

/-- The overflow threshold of R12 in units. -/
theorem overflowUnits_eq : (overflowUnits : ℚ) = (2 ^ 1024 - 2 ^ 970) * 2 ^ 1074 := by
  rw [sub_mul, ← pow_add, ← pow_add, overflowUnits, Nat.cast_mul, Nat.cast_sub (by decide), Nat.cast_pow, Nat.cast_pow,
    Nat.cast_one, Nat.cast_ofNat, sub_mul, ← pow_add, one_mul]

theorem finite_roundUnits_iff (n : Bool) {num den : Nat} (hd : 0 < den) {r : ℚ}
    (hr : r = signFactor n * (num / den / 2 ^ 1074)) :
    finite (withSign n (roundUnits num den)) = true ↔ |r| < 2 ^ 1024 - 2 ^ 970 := by
  have hdq : (0 : ℚ) < den := by exact_mod_cast hd
  rw [finite_withSign_iff n (roundUnits_lt _ _), roundUnits_lt_infBits_iff hd, hr, abs_mul, abs_signFactor, one_mul,
    abs_of_nonneg (by positivity), div_lt_iff₀ (by positivity), ← overflowUnits_eq, div_lt_iff₀ hdq]
  exact_mod_cast Iff.rfl

/-- With the sign of the exact result in front, the rounded magnitude is the nearest value (00_scope.md R12). -/
theorem roundedTo_withSign (n : Bool) {num den : Nat} (hd : 0 < den) {r : ℚ}
    (hr : r = signFactor n * (num / den / 2 ^ 1074)) : RoundedTo (withSign n (roundUnits num den)) r := by
  have hlt := roundUnits_lt num den
  refine ⟨isNaN_withSign n (roundUnits_le _ _), finite_roundUnits_iff n hd hr, fun hfin z hz => ?_⟩
  have hbits : roundUnits num den = roundBits num den := by
    have hinf := (finite_withSign_iff n hlt).1 hfin
    rw [roundUnits_eq] at hinf ⊢
    omega
  have hzbits := finite_iff_magBits.1 hz
  rw [hr, value_withSign n hlt, value_eq z, units_eq_bitsUnits, toNat_withSign_mod_two n hlt, abs_sub_of_same_sign, hbits]
  by_cases hs : signBit z = n
  · rw [hs, abs_sub_of_same_sign]
    obtain ⟨hnear, htie⟩ := roundBits_nearest (num := num) hd hzbits
    refine ⟨div_le_div_of_nonneg_right hnear unitScale_pos.le, fun h => ?_⟩
    rw [div_left_inj' unitScale_pos.ne'] at h
    exact (htie h).imp_left fun h => by rw [h]
  · have hu : (0 : ℚ) ≤ bitsUnits (magBits z) := Nat.cast_nonneg _
    have hq : (0 : ℚ) ≤ num / den := by positivity
    rw [abs_sub_of_other_sign hs hu hq]
    obtain ⟨hnear, htie⟩ := roundBits_nearest (num := num) (m := 0) hd (by decide)
    rw [bitsUnits_zero, Nat.cast_zero, zero_sub, abs_neg, abs_of_nonneg hq] at hnear htie
    refine ⟨div_le_div_of_nonneg_right (by linarith) unitScale_pos.le, fun h => ?_⟩
    rw [div_left_inj' unitScale_pos.ne'] at h
    have hzero : (bitsUnits (magBits z) : ℚ) = 0 := by linarith
    refine (htie (by linarith)).imp_left fun h0 => ?_
    rw [hzero, ← h0]
    simp

end Sys2Proof.Machine.Binary64
end

section
/-! PROOFS. The operations on finite values: add, subtract, multiply and divide round the exact result (00_scope.md R12), and
at progress 0 both easing laws give the first delay (40_delay_curve.md R102, R105). -/

namespace Sys2Proof.Machine.Binary64

/-! ## The operations on finite values -/

section

variable {x y : B64} (hx : finite x = true) (hy : finite y = true)

include hx hy

theorem add_of_zero (h : signedUnits x + signedUnits y = 0) : add x y = withSign (signBit x && signBit y) 0 := by
  simp [add, isNaN_of_finite, isInf_of_finite, hx, hy, h]

theorem add_of_ne_zero (h : signedUnits x + signedUnits y ≠ 0) :
    add x y = withSign (decide (signedUnits x + signedUnits y < 0))
      (roundUnits (signedUnits x + signedUnits y).natAbs 1) := by
  simp [add, isNaN_of_finite, isInf_of_finite, hx, hy, h]

theorem mul_eq : mul x y = withSign (signBit x != signBit y) (roundUnits (units x * units y) unitsPerOne) := by
  simp [mul, isNaN_of_finite, isInf_of_finite, hx, hy]

theorem div_eq (h0 : units y ≠ 0) :
    div x y = withSign (signBit x != signBit y) (roundUnits (units x * unitsPerOne) (units y)) := by
  simp [div, isNaN_of_finite, isInf_of_finite, hx, hy, isZero, h0]

end

theorem sub_of_finite (x : B64) {y : B64} (hy : finite y = true) : sub x y = add x (neg y) := by
  rw [sub, isNaN_of_finite hy, if_neg Bool.false_ne_true]

theorem signedUnits_neg (x : B64) : signedUnits (neg x) = -signedUnits x := by
  cases h : signBit x <;> simp [signedUnits, signBit_neg, h]

theorem value_neg (x : B64) : value (neg x) = -value x := by
  rw [value, signedUnits_neg, Int.cast_neg, neg_div, value]

theorem value_ne_zero_iff {x : B64} : value x ≠ 0 ↔ units x ≠ 0 := by
  rw [value_eq, mul_ne_zero_iff, div_ne_zero_iff]
  have hs : signFactor (signBit x) ≠ 0 := by cases signBit x <;> simp [signFactor]
  simp [hs, unitScale_pos.ne']

/-! ## What the operations round -/

/-- A result rounds the exact one, and has its sign where that is not 0 (00_scope.md R12). -/
structure Rounds (x : B64) (r : ℚ) : Prop extends RoundedTo x r where
  sign : r ≠ 0 → signBit x = decide (r < 0)

theorem rounds_withSign (n : Bool) {num den : Nat} (hd : 0 < den) {r : ℚ}
    (hr : r = signFactor n * (num / den / 2 ^ 1074)) : Rounds (withSign n (roundUnits num den)) r where
  toRoundedTo := roundedTo_withSign n hd hr
  sign := fun h0 => by
    rw [signBit_withSign n (roundUnits_lt _ _)]
    have hnonneg : (0 : ℚ) ≤ num / den / 2 ^ 1074 := by positivity
    cases n with
    | false => rw [hr, signFactor, if_neg Bool.false_ne_true, one_mul, decide_eq_false (not_lt.2 hnonneg)]
    | true =>
      rw [hr, signFactor, if_pos rfl, neg_one_mul] at h0 ⊢
      rw [decide_eq_true (neg_lt_zero.2 (lt_of_le_of_ne hnonneg (neg_ne_zero.1 h0).symm))]

section

variable {x y : B64}

theorem add_rounds (hx : finite x = true) (hy : finite y = true) : Rounds (add x y) (value x + value y) := by
  have hsum : value x + value y = ((signedUnits x + signedUnits y : Int) : ℚ) / 2 ^ 1074 := by
    rw [value, value, ← add_div, Int.cast_add]
  rw [hsum]
  by_cases h : signedUnits x + signedUnits y = 0
  · rw [add_of_zero hx hy h, h, show withSign _ 0 = withSign (signBit x && signBit y) (roundUnits 0 1) from rfl]
    exact rounds_withSign _ one_pos (by simp)
  · rw [add_of_ne_zero hx hy h]
    refine rounds_withSign _ one_pos ?_
    generalize signedUnits x + signedUnits y = k
    rw [Nat.cast_one, div_one, ← mul_div_assoc]
    congr 1
    rw [Nat.cast_natAbs, signFactor]
    by_cases hk : k < 0
    · rw [if_pos (decide_eq_true hk), abs_of_neg hk]; simp
    · rw [if_neg (by simp [hk]), abs_of_nonneg (not_lt.1 hk), one_mul]

theorem sub_rounds (hx : finite x = true) (hy : finite y = true) : Rounds (sub x y) (value x - value y) := by
  rw [sub_of_finite x hy, sub_eq_add_neg, ← value_neg]
  exact add_rounds hx ((finite_neg y).trans hy)

theorem unitsPerOne_cast : (unitsPerOne : ℚ) = 2 ^ 1074 := by
  rw [unitsPerOne_eq, Nat.cast_pow, Nat.cast_ofNat]

theorem mul_rounds (hx : finite x = true) (hy : finite y = true) : Rounds (mul x y) (value x * value y) := by
  rw [mul_eq hx hy]
  refine rounds_withSign _ unitsPerOne_pos ?_
  rw [value_eq, value_eq, mul_mul_mul_comm, signFactor_xor, unitsPerOne_cast, Nat.cast_mul, div_mul_div_comm, div_div]

theorem unitsPerOne_cast_mul (k : Nat) : ((k * unitsPerOne : Nat) : ℚ) = k * 2 ^ 1074 := by
  rw [Nat.cast_mul, unitsPerOne_cast]

theorem div_signFactor (m n : Bool) : signFactor m / signFactor n = signFactor m * signFactor n := by
  cases n <;> simp [signFactor, div_neg]

theorem div_rounds (hx : finite x = true) (hy : finite y = true) (h0 : value y ≠ 0) :
    Rounds (div x y) (value x / value y) := by
  have hu := value_ne_zero_iff.1 h0
  rw [div_eq hx hy hu]
  refine rounds_withSign _ (Nat.pos_of_ne_zero hu) ?_
  rw [value_eq, value_eq, mul_div_mul_comm, div_signFactor, signFactor_xor, unitsPerOne_cast_mul,
    div_div_div_cancel_right₀ unitScale_pos.ne', mul_div_right_comm, mul_div_cancel_right₀ _ unitScale_pos.ne']

/-- A finite value over an infinity is a zero with the quotient's sign (41_ramp_profile_generator.md R120). -/
theorem div_isInf (hx : finite x = true) (hy : isInf y = true) : div x y = withSign (signBit x != signBit y) 0 := by
  have hnan : isNaN y = false := by
    rw [isInf, Bool.and_eq_true, beq_iff_eq, beq_iff_eq] at hy
    simp [isNaN, hy.2]
  simp [div, isNaN_of_finite hx, isInf_of_finite hx, hnan, hy]

end

/-! ## Zeros -/

theorem finite_of_isZero (h : isZero x = true) : finite x = true := by
  rw [isZero, beq_iff_eq, units_eq_bitsUnits] at h
  rw [finite_iff_magBits]
  by_contra hge
  have hmono := bitsUnits_mono (not_lt.1 hge)
  rw [h] at hmono
  exact absurd hmono (by decide +kernel)

theorem isZero_mul (hx : finite x = true) (hy : isZero y = true) : isZero (mul x y) = true := by
  rw [mul_eq hx (finite_of_isZero hy), isZero, units_withSign _ (roundUnits_lt _ _), beq_iff_eq.1 hy, Nat.mul_zero,
    roundUnits_zero unitsPerOne_pos]
  rfl

theorem isZero_neg (hx : isZero x = true) : isZero (neg x) = true := by
  rwa [isZero, units_neg]

theorem signedUnits_of_isZero (h : isZero x = true) : signedUnits x = 0 := by
  rw [isZero, beq_iff_eq] at h
  simp [signedUnits, h]

/-- A zero added to a value with the sign bit clear leaves it as it is. -/
theorem add_isZero (hx : finite x = true) (hs : signBit x = false) (hy : isZero y = true) : add x y = x := by
  have hunits : signedUnits x = units x := by rw [signedUnits, hs, if_neg Bool.false_ne_true]
  have hsum : signedUnits x + signedUnits y = units x := by rw [signedUnits_of_isZero hy, add_zero, hunits]
  have hbits := finite_iff_magBits.1 hx
  have hx' : withSign false (magBits x) = x := hs ▸ withSign_signBit_magBits x
  by_cases h0 : units x = 0
  · rw [add_of_zero hx (finite_of_isZero hy) (by rw [hsum, h0]; rfl), hs, Bool.false_and, ← hx']
    congr 1
    exact bitsUnits_injective (by decide) hbits (by rw [bitsUnits_zero, ← units_eq_bitsUnits, h0])
  · rw [add_of_ne_zero hx (finite_of_isZero hy) (by rw [hsum]; exact_mod_cast h0), hsum, Int.natAbs_natCast,
      decide_eq_false (by simp), units_eq_bitsUnits, roundUnits_bitsUnits hbits, hx']

theorem sub_isZero (hx : finite x = true) (hs : signBit x = false) (hy : isZero y = true) : sub x y = x := by
  rw [sub_of_finite x (finite_of_isZero hy), add_isZero hx hs (isZero_neg hy)]

end Sys2Proof.Machine.Binary64

namespace Sys2Proof.Machine

open Binary64

/-! ## Progress 0 -/

section

variable {a b : B64} (ha : finite a = true) (sa : signBit a = false) (hb : finite b = true) (sb : signBit b = false)

include ha sa hb sb

theorem sineEase_of_zero_sine (f : SinFn) {p : B64} (hp : eq p one = false)
    (hz : isZero (sinFn f (div (mul p pi64) two)) = true) : sineEase f p a b = a := by
  rw [sineEase_of_ne_one a b f hp]
  exact sub_isZero ha sa (isZero_mul (finite_sub ha hb sa sb) hz)

theorem linearEase_of_zero {p : B64} (hp : eq p one = false) (hz : isZero p = true) : linearEase p a b = a := by
  rw [linearEase_of_ne_one a b hp]
  exact add_isZero ha sa (isZero_mul (finite_sub hb ha sb sa) hz)

end

end Sys2Proof.Machine

section

open Sys2Proof Sys2Proof.Machine Sys2Proof.Machine.Binary64

/-- Settles O55: each operation is the rounding of its exact result (`roundedTo_withSign`). -/
theorem arithmeticRoundsToNearest : Obligations.ArithmeticRoundsToNearest := by
  intro val hval
  obtain rfl : val = value := funext hval
  refine ⟨fun x y res exact hx hy hop => ?_, fun x y hx hy => ?_⟩
  · have h : Rounds res exact := by
      rcases hop with ⟨rfl, rfl⟩ | ⟨rfl, rfl⟩ | ⟨rfl, rfl⟩ | ⟨rfl, h0, rfl⟩
      · exact add_rounds hx hy
      · exact sub_rounds hx hy
      · exact mul_rounds hx hy
      · exact div_rounds hx hy h0
    exact ⟨h.not_nan, h.finite_iff, h.sign, h.nearest⟩
  · rw [div_isInf hx hy, isZero, units_withSign _ (by decide), signBit_withSign _ (by decide)]
    exact ⟨rfl, rfl⟩

/-- Settles O48: the sine of a zero is that zero, and what is added to or taken from `a` is a zero too. -/
theorem easingStartsAtFirstDelay : Obligations.EasingStartsAtFirstDelay := by
  intro a b ha sa hb sb
  refine ⟨fun f => ?_, ?_, ?_, ?_⟩
  · have harg : div (mul 0#64 pi64) two = 0#64 := by decide +kernel
    exact sineEase_of_zero_sine ha sa hb sb f (by decide +kernel) (by rw [harg, sinFn_zero]; decide)
  · exact sineEase_of_zero_sine ha sa hb sb _ (by decide +kernel) (by decide +kernel)
  · exact linearEase_of_zero ha sa hb sb (by decide +kernel) (by decide +kernel)
  · exact linearEase_of_zero ha sa hb sb (by decide +kernel) (by decide +kernel)

end

end

section
/-! PROOFS. The delays of a move (41_ramp_profile_generator.md R135, 42_pulse_delay_sequencer.md R154): the easing laws stay
finite on delays up to 2^32 s, the checks of a MOVE let no others through, and what is not below MIN_DELAY is valid. -/

namespace Sys2Proof.Machine.Binary64

/-! ## Bounds of magnitudes -/

theorem units_le_of_bits_le {x y : B64} (h : magBits x ≤ magBits y) : units x ≤ units y := by
  rw [units_eq_bitsUnits, units_eq_bitsUnits]
  exact bitsUnits_mono h

section

variable {x y z : B64}

/-- A sum with a value up to 2^32 does not overflow: that is less than half a spacing of the greatest values. -/
theorem finite_add_of_units_le (hx : finite x = true) (hy : finite y = true) (h : units x ≤ 2 ^ 32 * unitsPerOne) :
    finite (add x y) = true := by
  have hbits := finite_iff_magBits.1 hy
  have hmax : units y ≤ (2 ^ 53 - 1) * 2 ^ 2045 := by
    rw [units_eq_bitsUnits, ← bitsUnits_pack (e := 2045) (q := 2 ^ 53 - 1) (by decide) (.inr (by decide))]
    refine bitsUnits_mono ?_
    unfold infBits at hbits
    omega
  have hsum : (signedUnits x + signedUnits y).natAbs < overflowUnits * 1 := by
    have htri : (signedUnits x + signedUnits y).natAbs ≤ units x + units y := by
      simp only [signedUnits]
      split_ifs <;> omega
    have hspare : 2 ^ 32 * unitsPerOne < 2 ^ 2044 := by
      rw [unitsPerOne_eq, ← pow_add]
      exact Nat.pow_lt_pow_right (by decide) (by decide)
    have hthreshold : overflowUnits = (2 ^ 53 - 1) * 2 ^ 2045 + 2 ^ 2044 := by
      rw [overflowUnits, pow_succ 2 2044]
      generalize 2 ^ 2044 = k
      omega
    omega
  by_cases h0 : signedUnits x + signedUnits y = 0
  · rw [add_of_zero hx hy h0]
    exact finite_withSign _ (by decide)
  · rw [add_of_ne_zero hx hy h0]
    exact finite_withSign _ ((roundUnits_lt_infBits_iff Nat.one_pos).2 hsum)

/-- A factor of smaller magnitude leaves a finite product finite. -/
theorem finite_mul_of_units_le (hx : finite x = true) (hz : finite z = true) (hy : finite y = true) (h : units x ≤ units z)
    (hmul : finite (mul z y) = true) : finite (mul x y) = true := by
  rw [mul_eq hz hy, finite_withSign_iff _ (roundUnits_lt _ _)] at hmul
  rw [mul_eq hx hy, finite_withSign_iff _ (roundUnits_lt _ _)]
  exact (roundUnits_mono unitsPerOne_pos unitsPerOne_pos
    (Nat.mul_le_mul_right _ (Nat.mul_le_mul_right _ h))).trans_lt hmul

theorem finite_quietNaN : finite quietNaN = false := by decide

theorem eq_or_isInf_of_not_finite (h : finite x = false) : isNaN x = true ∨ isInf x = true := by
  rw [finite, bne_eq_false_iff_eq] at h
  by_cases hf : fracField x = 0 <;> simp [isNaN, isInf, h, hf]

/-- A finite product has finite factors, the other one not being a zero. -/
theorem finite_of_finite_mul (hx : finite x = true) (h0 : isZero x = false) (h : finite (mul x y) = true) :
    finite y = true := by
  by_contra hy
  rcases eq_or_isInf_of_not_finite (Bool.eq_false_iff.2 hy) with hnan | hinf
  · simp [mul, hnan, finite_quietNaN] at h
  · have hynan : isNaN y = false := by
      rw [isInf, Bool.and_eq_true, beq_iff_eq, beq_iff_eq] at hinf
      simp [isNaN, hinf.2]
    have hyzero : isZero y = false := Bool.eq_false_iff.2 fun hz => hy (finite_of_isZero hz)
    simp [mul, isNaN_of_finite hx, hynan, hinf, h0, hyzero, finite_withSign_iff _ (by decide : infBits < 2 ^ 63)] at h

/-- The product of values with a factor of at most 1 is at most the other. -/
theorem units_mul_le_of_le_one (hx : finite x = true) (hy : finite y = true) (h : units y ≤ unitsPerOne) :
    finite (mul x y) = true ∧ units (mul x y) ≤ units x := by
  have hbits := finite_iff_magBits.1 hx
  have hle : roundUnits (units x * units y) unitsPerOne ≤ magBits x := by
    rw [← roundUnits_bitsUnits hbits, ← units_eq_bitsUnits]
    exact roundUnits_mono unitsPerOne_pos one_pos (by rw [Nat.mul_one]; exact Nat.mul_le_mul_left _ h)
  rw [mul_eq hx hy]
  refine ⟨finite_withSign _ (hle.trans_lt hbits), ?_⟩
  rw [units_withSign _ (roundUnits_lt _ _)]
  exact (bitsUnits_mono hle).trans_eq (units_eq_bitsUnits x).symm

/-- A product with a value from 1 up is no smaller than the other factor. -/
theorem exists_le_mul (hx : finite x = true) (sx : signBit x = false) (hy : finite y = true) (sy : signBit y = false)
    (h : unitsPerOne ≤ units y) : ∃ b ≤ infBits, magBits x ≤ b ∧ mul x y = withSign false b := by
  refine ⟨roundUnits (units x * units y) unitsPerOne, roundUnits_le _ _, ?_, by rw [mul_eq hx hy, sx, sy]; rfl⟩
  have hbits := finite_iff_magBits.1 hx
  calc magBits x = roundUnits (units x) 1 := by rw [units_eq_bitsUnits, roundUnits_bitsUnits hbits]
    _ ≤ roundUnits (units x * units y) unitsPerOne :=
      roundUnits_mono Nat.one_pos unitsPerOne_pos (by rw [Nat.mul_one]; exact Nat.mul_le_mul_left _ h)

theorem mul_isInf (hx : isInf x = true) (hy : finite y = true) (h0 : isZero y = false) :
    mul x y = withSign (signBit x != signBit y) infBits := by
  have hxnan : isNaN x = false := by
    rw [isInf, Bool.and_eq_true, beq_iff_eq, beq_iff_eq] at hx
    simp [isNaN, hx.2]
  have hxzero : isZero x = false := Bool.eq_false_iff.2 fun hz =>
    Bool.false_ne_true ((isInf_of_finite (finite_of_isZero hz)).symm.trans hx)
  simp [mul, isNaN_of_finite hy, hxnan, hx, h0, hxzero]

theorem mul_comm_of_finite (hx : finite x = true) (hy : finite y = true) : mul x y = mul y x := by
  rw [mul_eq hx hy, mul_eq hy hx, Nat.mul_comm, bne_comm]

theorem signedUnits_of_signBit (h : signBit x = false) : signedUnits x = units x := by
  rw [signedUnits, h, if_neg Bool.false_ne_true]

end

end Sys2Proof.Machine.Binary64

namespace Sys2Proof.Machine

open Binary64

/-! ## Delays up to 2^32 s -/

/-- A delay of the range of the tick counts: finite, the sign bit clear, at most 2^32 s. -/
structure DelayRange (x : B64) : Prop where
  finite : finite x = true
  sign : signBit x = false
  units_le : units x ≤ 2 ^ 32 * unitsPerOne

theorem delayRange_of_le {x : B64} (hx : finite x = true) (hs : signBit x = false) (h : le x (ofNat (2 ^ 32)) = true) :
    DelayRange x := by
  refine ⟨hx, hs, ?_⟩
  have hle := (le_eq_true (isNaN_of_finite hx) (isNaN_ofNat _)).1 h
  rw [signedUnits_of_signBit hs, signedUnits_ofNat (by decide)] at hle
  exact_mod_cast hle

section

variable {a b : B64}

theorem DelayRange.sub (ha : DelayRange a) (hb : DelayRange b) :
    Binary64.finite (sub a b) = true ∧ units (sub a b) ≤ 2 ^ 32 * unitsPerOne := by
  refine ⟨finite_sub ha.finite hb.finite ha.sign hb.sign, ?_⟩
  have hnb : Binary64.finite (neg b) = true := (finite_neg b).trans hb.finite
  have hsum : (signedUnits a + signedUnits (neg b)).natAbs ≤ 2 ^ 32 * unitsPerOne := by
    rw [signedUnits_neg, signedUnits_of_signBit ha.sign, signedUnits_of_signBit hb.sign]
    have := ha.units_le
    have := hb.units_le
    omega
  rw [sub_of_finite a hb.finite]
  by_cases h0 : signedUnits a + signedUnits (neg b) = 0
  · rw [add_of_zero ha.finite hnb h0, units_withSign _ (by decide), bitsUnits_zero]
    exact Nat.zero_le _
  · rw [add_of_ne_zero ha.finite hnb h0, units_withSign _ (roundUnits_lt _ _), ← units_ofNat (n := 2 ^ 32) (by decide),
      ofNat, units_withSign _ (roundUnits_lt _ _)]
    refine bitsUnits_mono (roundUnits_mono one_pos one_pos ?_)
    rwa [Nat.mul_one, Nat.mul_one]

theorem finite_ofNat_two_pow : Binary64.finite (ofNat (2 ^ 32)) = true := by decide +kernel

/-- The sine law on delays of the range, at a sample whose sine has a finite product with 2^32. -/
theorem finite_sineEase (ha : DelayRange a) (hb : DelayRange b) (f : SinFn) {p : B64} (hp : eq p one = false)
    (hs : Binary64.finite (mul (ofNat (2 ^ 32)) (sinFn f (div (mul p pi64) two))) = true) :
    Binary64.finite (sineEase f p a b) = true := by
  obtain ⟨hsub, hle⟩ := ha.sub hb
  have hsine := finite_of_finite_mul finite_ofNat_two_pow (by decide +kernel) hs
  have hmul := finite_mul_of_units_le hsub finite_ofNat_two_pow hsine (by rwa [units_ofNat (by decide)]) hs
  rw [sineEase_of_ne_one a b f hp, sub_of_finite a hmul]
  exact finite_add_of_units_le ha.finite ((finite_neg _).trans hmul) ha.units_le

/-- The linear law on delays of the range, at a progress up to 1. -/
theorem finite_linearEase (ha : DelayRange a) (hb : DelayRange b) {p : B64} (hp : eq p one = false)
    (hfin : Binary64.finite p = true) (hle : units p ≤ unitsPerOne) : Binary64.finite (linearEase p a b) = true := by
  obtain ⟨hsub, -⟩ := hb.sub ha
  rw [linearEase_of_ne_one a b hp]
  exact finite_add_of_units_le ha.finite (units_mul_le_of_le_one hsub hfin hle).1 ha.units_le

theorem units_progress_le {k r : Nat} (hk : k < r) (hr : r < 2 ^ 53) : units (progress k r) ≤ unitsPerOne := by
  obtain ⟨b, hb, hp⟩ := progress_eq_withSign hk hr
  have hone : bitsUnits 0x3FF0000000000000 = unitsPerOne := by
    rw [bitsUnits_one, unitsPerOne_eq, ← pow_add]
  rw [hp, units_withSign _ (lt_of_le_of_lt hb (by decide)), ← hone]
  exact bitsUnits_mono (hb.trans (by decide))

end

/-- Every ramp sample of `r` between the two delays is finite. -/
def easeFinite (p : Params) (r : Nat) (a b : B64) : Prop :=
  ∀ curve k, k < r → finite (ease p.sinFn curve (progress k r) a b) = true ∧
    finite (ease p.sinFn curve (progress k r) b a) = true

/-- SIN_FN at the arguments of ramp samples has a finite product with 2^32. -/
def sineBounded (p : Params) : Prop :=
  ∀ k r, k < r → r < 2 ^ 31 → finite (mul (ofNat (2 ^ 32)) (sinFn p.sinFn (div (mul (progress k r) pi64) two))) = true

theorem sineBounded_correctlyRounded {p : Params} (h : p.sinFn = .correctlyRounded) : sineBounded p := fun k r hk hr => by
  rw [h]
  exact finite_mul_correctSine hk (hr.trans (by decide))

theorem finite_linearEase_progress {a b : B64} (ha : DelayRange a) (hb : DelayRange b) {k r : Nat} (hk : k < r)
    (hr : r < 2 ^ 53) : finite (linearEase (progress k r) a b) = true :=
  finite_linearEase ha hb (eq_progress_one hk hr) (finite_progress hk hr) (units_progress_le hk hr)

theorem easeFinite_of_sine {p : Params} {r : Nat} {a b : B64} (ha : DelayRange a) (hb : DelayRange b) (hr : r < 2 ^ 31)
    (hsine : ∀ k < r, finite (sineEase p.sinFn (progress k r) a b) = true ∧
      finite (sineEase p.sinFn (progress k r) b a) = true) : easeFinite p r a b := by
  have hr53 : r < 2 ^ 53 := hr.trans (by decide)
  intro curve k hk
  cases curve with
  | sine => exact hsine k hk
  | linear => exact ⟨finite_linearEase_progress ha hb hk hr53, finite_linearEase_progress hb ha hk hr53⟩

theorem easeFinite_of_sineBounded {p : Params} (hs : sineBounded p) {r : Nat} {a b : B64} (ha : DelayRange a)
    (hb : DelayRange b) (hr : r < 2 ^ 31) : easeFinite p r a b := by
  have hone : ∀ k < r, eq (progress k r) one = false := fun k hk => eq_progress_one hk (hr.trans (by decide))
  exact easeFinite_of_sine ha hb hr fun k hk =>
    ⟨finite_sineEase ha hb _ (hone k hk) (hs k r hk hr), finite_sineEase hb ha _ (hone k hk) (hs k r hk hr)⟩

/-! ## The delays an accepted move has (43_motion_commands.md R182, fifth check) -/

theorem finite_ofNat {n : Nat} (hn : n < 2 ^ 53) : finite (ofNat n) = true := by
  by_contra h
  rcases eq_or_isInf_of_not_finite (Bool.eq_false_iff.2 h) with hnan | hinf
  · exact Bool.false_ne_true ((isNaN_ofNat n).symm.trans hnan)
  · exact Bool.false_ne_true ((isInf_ofNat hn).symm.trans hinf)

theorem isZero_ofNat {n : Nat} (h1 : 1 ≤ n) (hn : n < 2 ^ 53) : isZero (ofNat n) = false := by
  rw [isZero, units_ofNat hn]
  exact beq_false_of_ne (Nat.mul_pos h1 unitsPerOne_pos).ne'

theorem unitsPerOne_le_units_ofNat {n : Nat} (h1 : 1 ≤ n) (hn : n < 2 ^ 53) : unitsPerOne ≤ units (ofNat n) := by
  rw [units_ofNat hn]
  exact Nat.le_mul_of_pos_left _ h1

theorem two_pow_le_overflowUnits : 2 ^ 2044 ≤ overflowUnits := by
  rw [overflowUnits]
  exact Nat.le_mul_of_pos_left _ (by decide)

theorem finite_two_mul_ofNat (ppr : Word) : finite (mul two (ofNat ppr.toNat)) = true := by
  have hppr : ppr.toNat < 2 ^ 53 := ppr.isLt.trans (by decide)
  have htwo : units two = 2 * unitsPerOne := by rw [← ofNat_two, units_ofNat (by decide)]
  rw [mul_eq (by decide +kernel) (finite_ofNat hppr), finite_withSign_iff _ (roundUnits_lt _ _),
    roundUnits_lt_infBits_iff unitsPerOne_pos, units_ofNat hppr, ← Nat.mul_assoc]
  refine Nat.mul_lt_mul_of_pos_right ?_ unitsPerOne_pos
  calc units two * ppr.toNat ≤ 2 * unitsPerOne * 2 ^ 32 := Nat.mul_le_mul htwo.le ppr.isLt.le
    _ = 2 ^ (1075 + 32) := by rw [unitsPerOne_eq, ← pow_succ', ← pow_add]
    _ < 2 ^ 2044 := Nat.pow_lt_pow_right (by decide) (by decide)
    _ ≤ overflowUnits := two_pow_le_overflowUnits

theorem unitsPerOne_le_units_two_mul {ppr : Word} (hppr : ppr ≠ 0#32) :
    unitsPerOne ≤ units (mul two (ofNat ppr.toNat)) ∧ signBit (mul two (ofNat ppr.toNat)) = false := by
  have hone : 1 ≤ ppr.toNat := Nat.one_le_iff_ne_zero.2 fun h => hppr (BitVec.eq_of_toNat_eq h)
  have hlt : ppr.toNat < 2 ^ 53 := ppr.isLt.trans (by decide)
  have htwo : units two = 2 * unitsPerOne := by rw [← ofNat_two, units_ofNat (by decide)]
  obtain ⟨b, hb, hle, hmul⟩ := exists_le_mul (x := two) (by decide +kernel) (by decide +kernel) (finite_ofNat hlt)
    (signBit_ofNat _) (unitsPerOne_le_units_ofNat hone hlt)
  have hb63 : b < 2 ^ 63 := hb.trans_lt (by decide)
  rw [hmul, units_withSign _ hb63, signBit_withSign _ hb63]
  refine ⟨?_, rfl⟩
  calc unitsPerOne ≤ units two := by rw [htwo]; exact Nat.le_mul_of_pos_left _ (by decide)
    _ ≤ bitsUnits b := by rw [units_eq_bitsUnits]; exact bitsUnits_mono hle

/-- A value over a positive one, an infinity too, is no NaN and its sign bit is clear. -/
theorem div_positive_sign {x : B64} (hx : finite x = true) (sx : signBit x = false) {b : Nat} (hb : b ≤ infBits)
    (h0 : b ≠ 0) : isNaN (div x (withSign false b)) = false ∧ signBit (div x (withSign false b)) = false := by
  have hb63 : b < 2 ^ 63 := hb.trans_lt (by decide)
  rcases hb.lt_or_eq with hlt | rfl
  · have hunits : units (withSign false b) ≠ 0 := by
      rw [units_withSign _ hb63]
      exact fun hz => h0 (bitsUnits_injective hlt (by decide) (hz.trans bitsUnits_zero.symm))
    rw [div_eq hx (finite_withSign _ hlt) hunits, sx, signBit_withSign _ hb63]
    exact ⟨isNaN_withSign _ (roundUnits_le _ _), signBit_withSign _ (roundUnits_lt _ _)⟩
  · rw [div_isInf hx (by decide), sx, signBit_withSign _ hb63]
    exact ⟨by decide, by decide⟩

/-- A delay is no NaN and its sign bit is clear: its divisor is positive. -/
theorem halfStepDelay_sign {ppr : Word} {v : B64} (hppr : ppr ≠ 0#32) (hv : finite v = true) (hv0 : lt 0#64 v = true) :
    isNaN (halfStepDelay ppr v) = false ∧ signBit (halfStepDelay ppr v) = false := by
  obtain ⟨hunits, hsign⟩ := unitsPerOne_le_units_two_mul hppr
  have hfin := finite_two_mul_ofNat ppr
  obtain ⟨b, hb, hle, hmul⟩ := exists_le_mul hv (signBit_of_pos hv0) hfin hsign hunits
  rw [halfStepDelay, mul_comm_of_finite hfin hv, hmul]
  refine div_positive_sign (by decide +kernel) (by decide +kernel) hb ?_
  rintro rfl
  have hpos := signedUnits_lt_of_lt hv0
  rw [signedUnits_zero, signedUnits_of_signBit (signBit_of_pos hv0), units_eq_bitsUnits, Nat.le_zero.1 hle,
    bitsUnits_zero] at hpos
  exact absurd hpos (lt_irrefl _)

theorem delayRange_of_units_le {x : B64} (hs : signBit x = false) (h : units x ≤ 2 ^ 32 * unitsPerOne) : DelayRange x := by
  refine ⟨?_, hs, h⟩
  rw [finite_iff_magBits]
  by_contra hge
  have hmono := (bitsUnits_mono (not_lt.1 hge)).trans (units_eq_bitsUnits x ▸ h)
  rw [unitsPerOne_eq, ← pow_add] at hmono
  exact absurd hmono (by decide +kernel)

/-- A value whose product with an integer from 1 up stays below 2^32 is in the range. -/
theorem delayRange_of_mul_ofNat {x : B64} (hs : signBit x = false) (hx : isNaN x = false) {n : Nat} (h1 : 1 ≤ n)
    (hn : n < 2 ^ 53) (h : le (ofNat (2 ^ 32)) (mul x (ofNat n)) = false) : DelayRange x := by
  have hnz := isZero_ofNat h1 hn
  by_cases hinf : isInf x = true
  · rw [mul_isInf hinf (finite_ofNat hn) hnz, hs, signBit_ofNat] at h
    exact absurd h (by decide +kernel)
  · have hfin : finite x = true := by
      by_contra hnf
      exact (eq_or_isInf_of_not_finite (Bool.eq_false_iff.2 hnf)).elim (fun hn => Bool.false_ne_true (hx.symm.trans hn)) hinf
    obtain ⟨b, hb, hle, hmul⟩ := exists_le_mul hfin hs (finite_ofNat hn) (signBit_ofNat n) (unitsPerOne_le_units_ofNat h1 hn)
    have hb63 : b < 2 ^ 63 := hb.trans_lt (by decide)
    rw [hmul] at h
    have hlt := (le_eq_false (isNaN_ofNat _) (isNaN_withSign _ hb)).1 h
    rw [signedUnits_withSign_false hb63, signedUnits_ofNat (by decide), Nat.cast_lt] at hlt
    refine delayRange_of_units_le hs ?_
    rw [units_eq_bitsUnits]
    exact (bitsUnits_mono hle).trans hlt.le

theorem one_le_tickHz {p : Params} {n : Nat} (h : legalRanges p n = true) : 1 ≤ p.tickHz.toNat := by
  simp only [legalRanges, Bool.and_eq_true, decide_eq_true_eq] at h
  obtain ⟨⟨⟨⟨⟨⟨⟨⟨-, htick⟩, -⟩, -⟩, -⟩, -⟩, -⟩, -⟩, -⟩ := h
  exact htick

theorem Validated.delayRange {p : Params} {n : Nat} (hp : legalRanges p n = true) {ppr : Word} {v t rt : B64}
    (h : Validated p ppr v t rt) : DelayRange (halfStepDelay ppr v) ∧ DelayRange (halfStepDelay ppr t) := by
  obtain ⟨hsd, ssd⟩ := halfStepDelay_sign h.configured h.start_finite h.start_pos
  obtain ⟨htd, std⟩ := halfStepDelay_sign h.configured h.target_finite h.target_pos
  have htick := h.tickRange
  have htick53 : p.tickHz.toNat < 2 ^ 53 := p.tickHz.isLt.trans (by decide)
  generalize halfStepDelay ppr v = sd at *
  generalize halfStepDelay ppr t = td at *
  have shorter {x y : B64} (hx : DelayRange x) (hs : signBit y = false) (h : signedUnits y ≤ signedUnits x) :
      DelayRange y := by
    rw [signedUnits_of_signBit hs, signedUnits_of_signBit hx.sign] at h
    exact delayRange_of_units_le hs ((Int.ofNat_le.1 h).trans hx.units_le)
  unfold tickRangeExceeded at htick
  by_cases hle : le td sd = true
  · rw [if_pos hle] at htick
    have hrange := delayRange_of_mul_ofNat ssd hsd (one_le_tickHz hp) htick53 htick
    exact ⟨hrange, shorter hrange std ((le_eq_true htd hsd).1 hle)⟩
  · rw [if_neg hle] at htick
    have hrange := delayRange_of_mul_ofNat std htd (one_le_tickHz hp) htick53 htick
    exact ⟨shorter hrange ssd ((le_eq_false htd hsd).1 (Bool.eq_false_iff.2 hle)).le, hrange⟩

/-! ## The delay floor -/

/-- What R6 says of MIN_DELAY. -/
structure MinDelayLegal (p : Params) : Prop where
  finite : finite p.minDelay = true
  pos : lt 0#64 p.minDelay = true
  tickHz : 1 ≤ p.tickHz.toNat
  tick : 1 ≤ floor (mul p.minDelay (ofNat p.tickHz.toNat))

theorem minDelayLegal {p : Params} {n : Nat} (h : legalRanges p n = true) : MinDelayLegal p := by
  have hz := one_le_tickHz h
  simp only [legalRanges, Bool.and_eq_true, decide_eq_true_eq] at h
  obtain ⟨⟨⟨⟨⟨⟨⟨-, hfin⟩, hpos⟩, htick⟩, -⟩, -⟩, -⟩, -⟩ := h
  exact ⟨hfin, hpos, hz, htick⟩

/-- A finite, positive delay that is not below MIN_DELAY. -/
structure FlooredDelay (p : Params) (d : B64) : Prop where
  finite : finite d = true
  pos : lt 0#64 d = true
  floored : le p.minDelay d = true

theorem not_nan_of_le {x y : B64} (h : le x y = true) : isNaN y = false := by
  simp only [le, Bool.and_eq_true, Bool.not_eq_true'] at h
  obtain ⟨⟨-, hy⟩, -⟩ := h
  exact hy

theorem pos_of_le {p : Params} (hm : MinDelayLegal p) {d : B64} (h : le p.minDelay d = true) : lt 0#64 d = true := by
  have hd := not_nan_of_le h
  have hle := (le_eq_true (isNaN_of_finite hm.finite) hd).1 h
  exact (lt_eq_true (by decide) hd).2 ((signedUnits_lt_of_lt hm.pos).trans_le hle)

theorem flooredDelay_floorMin {p : Params} (hm : MinDelayLegal p) {d : B64} (hd : finite d = true) :
    FlooredDelay p (floorMin p d) := by
  obtain ⟨hle, -⟩ := le_floorMin (p := p) (isNaN_of_finite hd) (isNaN_of_finite hm.finite)
  refine ⟨?_, pos_of_le hm hle, hle⟩
  unfold floorMin
  split
  · exact hm.finite
  · exact hd

/-- Every delay of a move whose ramp samples are finite is floored. -/
theorem flooredDelay_delayAt {p : Params} (hm : MinDelayLegal p) {profile : Profile} {curve : Curve} {r c i : Nat}
    {sd td : B64} (hsd : finite sd = true) (htd : finite td = true) (hr : easeFinite p r sd td)
    (hi : profile = .full → i < 2 * r + c) : FlooredDelay p (delayAt p profile curve r c sd td i) := by
  have ramp : ∀ k < r, FlooredDelay p (rampDelay p curve k r sd td) ∧ FlooredDelay p (rampDelay p curve k r td sd) :=
    fun k hk => ⟨flooredDelay_floorMin hm (hr curve k hk).1, flooredDelay_floorMin hm (hr curve k hk).2⟩
  have const : FlooredDelay p (floorMin p sd) ∧ FlooredDelay p (floorMin p td) :=
    ⟨flooredDelay_floorMin hm hsd, flooredDelay_floorMin hm htd⟩
  cases profile with
  | full =>
    have hlt := hi rfl
    by_cases h1 : i < r
    · exact delayAt_full_rampUp p curve sd td c h1 ▸ (ramp i h1).1
    by_cases h2 : i < r + c
    · exact delayAt_full_const p curve sd td (not_lt.1 h1) h2 ▸ const.2
    · exact delayAt_full_rampDown p curve sd td (not_lt.1 h2) ▸ (ramp _ (by omega)).2
  | rampUpOnly =>
    by_cases h1 : i < r
    · exact delayAt_rampUpOnly_ramp p curve sd td c h1 ▸ (ramp i h1).1
    · exact delayAt_rampUpOnly_const p curve sd td c (not_lt.1 h1) ▸ const.2
  | rampDownOnly =>
    by_cases h1 : i < r
    · exact delayAt_rampDownOnly_ramp p curve sd td c h1 ▸ (ramp i h1).2
    · exact delayAt_rampDownOnly_const p curve sd td c (not_lt.1 h1) ▸ const.1

theorem flooredDelay_of_validated {p : Params} {n : Nat} (hp : legalParams p n) {ppr : Word} {v t rt : B64}
    (h : validate p ppr v t rt = none) {profile : Profile} {curve : Curve} (ramp : Option Word) {total r i : Nat}
    (htotal : total = totalSteps ppr t rt) (hr : r = rampSteps p v t ramp total) (hi : i < total) :
    FlooredDelay p
      (delayAt p profile curve r (cruiseSteps profile total r) (halfStepDelay ppr v) (halfStepDelay ppr t) i) := by
  obtain ⟨hranges, hsine⟩ := hp
  have hv := validate_eq_none h
  obtain ⟨hsd, htd⟩ := hv.delayRange hranges
  have htot := hv.totalSteps_lt
  have hhalf := hv.rampSteps_le hranges ramp
  rw [← htotal] at htot hhalf
  rw [← hr] at hhalf
  have hr31 : r < 2 ^ 31 := by omega
  have hease : easeFinite p r (halfStepDelay ppr v) (halfStepDelay ppr t) := by
    cases hf : p.sinFn with
    | correctlyRounded => exact easeFinite_of_sineBounded (sineBounded_correctlyRounded hf) hsd htd hr31
    | table entries =>
      simp only [sineKeepsFinite, hf] at hsine
      exact easeFinite_of_sine hsd htd hr31 fun k hk => by
        rw [hf]
        exact hsine ppr v t rt ramp k r h (htotal ▸ hr) hk
  refine flooredDelay_delayAt (minDelayLegal hranges) hsd.finite htd.finite hease ?_
  rintro rfl
  simp only [cruiseSteps]
  omega

/-! ## What is not below MIN_DELAY is valid (R154) -/

/-- A product with TICK_HZ is monotone. -/
theorem floor_mul_mono {p : Params} (hm : MinDelayLegal p) {d : B64} (h : le p.minDelay d = true)
    (hq : finite (mul d (ofNat p.tickHz.toNat)) = true) :
    floor (mul p.minDelay (ofNat p.tickHz.toNat)) ≤ floor (mul d (ofNat p.tickHz.toNat)) := by
  have htick : p.tickHz.toNat < 2 ^ 53 := p.tickHz.isLt.trans (by decide)
  have hzfin := finite_ofNat htick
  have hd : finite d = true := by
    by_contra hnf
    have hinf := (eq_or_isInf_of_not_finite (Bool.eq_false_iff.2 hnf)).resolve_left
      (Bool.eq_false_iff.1 (not_nan_of_le h))
    rw [mul_isInf hinf hzfin (isZero_ofNat hm.tickHz htick), finite_withSign_iff _ (by decide)] at hq
    exact absurd hq (lt_irrefl _)
  have hpos := signBit_of_pos (pos_of_le hm h)
  have hmpos := signBit_of_pos hm.pos
  have hle := (le_eq_true (isNaN_of_finite hm.finite) (isNaN_of_finite hd)).1 h
  rw [signedUnits_of_signBit hpos, signedUnits_of_signBit hmpos, Int.ofNat_le] at hle
  refine Int.ediv_le_ediv (Int.natCast_pos.2 unitsPerOne_pos) ?_
  rw [mul_eq hm.finite hzfin, mul_eq hd hzfin, hpos, hmpos, signBit_ofNat, bne_self_eq_false,
    signedUnits_withSign_false (roundUnits_lt _ _), signedUnits_withSign_false (roundUnits_lt _ _), Int.ofNat_le]
  exact bitsUnits_mono (roundUnits_mono unitsPerOne_pos unitsPerOne_pos
    (Nat.mul_le_mul_right _ (Nat.mul_le_mul_right _ hle)))

theorem validDelay_of_le {p : Params} (hm : MinDelayLegal p) {d : B64} (h : le p.minDelay d = true) :
    validDelay p d = true := by
  have hpos := pos_of_le hm h
  refine validDelay_iff.2 ⟨hpos, ?_⟩
  cases hq : finite (mul d (ofNat p.tickHz.toNat)) with
  | false => rw [ticks, hq, if_neg Bool.false_ne_true]; decide
  | true =>
    have hfloor := hm.tick.trans (floor_mul_mono hm h hq)
    rw [toNat_ticks_of_finite hq]
    omega

end Sys2Proof.Machine

section

open Sys2Proof Sys2Proof.Machine Sys2Proof.Machine.Binary64

/-- Settles O50: a product with TICK_HZ is monotone, and the delays of a move are floored. -/
theorem flooredDelaysAreValid : Obligations.FlooredDelaysAreValid := by
  refine ⟨fun p n d hp h => validDelay_of_le (minDelayLegal hp) h, ?_⟩
  intro p n profile curve ppr v t rt ramp total r i hp hv htotal hr hi
  exact validDelay_of_le (minDelayLegal hp.1) (flooredDelay_of_validated hp hv ramp htotal hr hi).floored

/-- Settles O51: the ramp samples are finite (`easeFinite`), so the floor is applied to a finite value. -/
theorem delaysNeverBelowFloor : Obligations.DelaysNeverBelowFloor := by
  refine ⟨?_, fun p n hp hsine => ?_⟩
  · intro p n profile curve ppr v t rt ramp total r i hp hv htotal hr hi
    obtain ⟨hfin, hpos, hfloor⟩ := flooredDelay_of_validated (profile := profile) (curve := curve) hp hv ramp htotal hr hi
    exact ⟨_, rfl, hfin, hpos, hfloor⟩
  · have hbounded : sineBounded p := hsine.elim sineBounded_correctlyRounded id
    refine ⟨⟨hp, ?_⟩, ?_⟩
    · unfold sineKeepsFinite
      split
      · trivial
      · intro ppr v t rt ramp k r hv hr hk
        have hval := validate_eq_none hv
        obtain ⟨hsd, htd⟩ := hval.delayRange hp
        have htot := hval.totalSteps_lt
        have hhalf := hval.rampSteps_le hp ramp
        exact easeFinite_of_sineBounded hbounded hsd htd (by omega) .sine k hk
    · intro profile curve r c i sd td hr hi31 hi hsd ssd hsdle htd std htdle
      have ha := delayRange_of_le hsd ssd hsdle
      have hb := delayRange_of_le htd std htdle
      obtain ⟨hfin, hpos, hfloor⟩ := flooredDelay_delayAt (profile := profile) (curve := curve) (minDelayLegal hp) hsd htd
        (easeFinite_of_sineBounded hbounded ha hb hr) hi
      exact ⟨hfin, hpos, hfloor⟩

end

end

section
/-! PROOFS. The default sine (40_delay_curve.md R108): its series bounds bracket the real sine, so where both round to one
value, that value is nearest; a tiny argument is its own nearest sine. -/

namespace Sys2Proof.Machine

open Binary64

/-! ## The sine series -/

/-- The sine series cut off, in nested form and over the argument, as a real. -/
noncomputable def sineSeries (z : ℝ) : Nat → Nat → ℝ
  | 0, _ => 1
  | k + 1, j => 1 - z / ((2 * j : Nat) * (2 * j + 1 : Nat)) * sineSeries z k (j + 1)

/-- `sineNest` computes them. -/
theorem sineNest_div {yy qq : Nat} (hq : 0 < qq) (hyy : yy ≤ 4 * qq) (k : Nat) : ∀ j, 0 < j →
    ((sineNest yy qq k j).1 : ℝ) / (sineNest yy qq k j).2 = sineSeries (yy / qq) k j := by
  induction k with
  | zero => intro j _; simp [sineNest, sineSeries]
  | succ k ih =>
    intro j hj
    obtain ⟨hle, hpos⟩ := sineNest_le yy hq k (j + 1) (Nat.succ_pos j)
    rw [sineSeries, ← ih (j + 1) (Nat.succ_pos j), sineNest]
    generalize sineNest yy qq k (j + 1) = h at hle hpos
    have hsub : yy * h.1 ≤ qq * (2 * j) * (2 * j + 1) * h.2 := by
      have hfour : 4 ≤ 2 * j * (2 * j + 1) := by nlinarith
      calc yy * h.1 ≤ 4 * qq * h.2 := Nat.mul_le_mul hyy hle
        _ ≤ 2 * j * (2 * j + 1) * qq * h.2 := Nat.mul_le_mul_right _ (Nat.mul_le_mul_right _ hfour)
        _ = _ := by ring
    have hqr : (0 : ℝ) < qq := by exact_mod_cast hq
    have hpr : (0 : ℝ) < h.2 := by exact_mod_cast hpos
    have hjr : (0 : ℝ) < j := by exact_mod_cast hj
    rw [Nat.cast_sub hsub]
    push_cast
    field_simp

/-- The nested sums written out. -/
theorem sineSeries_eq_sum (z : ℝ) (k m : Nat) :
    sineSeries z k (m + 1) =
      ∑ i ∈ Finset.range (k + 1), (-1) ^ i * (z ^ i * (2 * m + 1).factorial / (2 * m + 2 * i + 1).factorial) := by
  induction k generalizing m with
  | zero => simp [sineSeries, Nat.factorial_ne_zero]
  | succ k ih =>
    have hterm : ∀ i ∈ Finset.range (k + 1),
        (-1) ^ (i + 1) * (z ^ (i + 1) * (2 * m + 1).factorial / (2 * m + 2 * (i + 1) + 1).factorial) =
          -(z / ((2 * (m + 1) : Nat) * (2 * (m + 1) + 1 : Nat)) *
            ((-1) ^ i * (z ^ i * (2 * (m + 1) + 1).factorial / (2 * (m + 1) + 2 * i + 1).factorial))) := by
      intro i _
      have hfact : (2 * (m + 1) + 1).factorial = (2 * (m + 1) + 1) * ((2 * (m + 1)) * (2 * m + 1).factorial) := rfl
      have hden : 2 * m + 2 * (i + 1) + 1 = 2 * (m + 1) + 2 * i + 1 := by ring
      have hne : ((2 * (m + 1) + 2 * i + 1).factorial : ℝ) ≠ 0 := by exact_mod_cast Nat.factorial_ne_zero _
      rw [hden, hfact]
      push_cast
      field_simp
      ring
    have hone : (-1 : ℝ) ^ 0 * (z ^ 0 * (2 * m + 1).factorial / (2 * m + 2 * 0 + 1).factorial) = 1 := by
      simp [Nat.factorial_ne_zero]
    rw [sineSeries, ih (m + 1), Finset.sum_range_succ' _ (k + 1), Finset.sum_congr rfl hterm, Finset.sum_neg_distrib,
      ← Finset.mul_sum, hone]
    ring

/-- The terms of the sine series. -/
noncomputable def sineTerm (x : ℝ) (i : Nat) : ℝ := x ^ (2 * i + 1) / (2 * i + 1).factorial

theorem mul_sineSeries (x : ℝ) (k : Nat) :
    x * sineSeries (x ^ 2) k 1 = ∑ i ∈ Finset.range (k + 1), (-1) ^ i * sineTerm x i := by
  rw [show 1 = 0 + 1 from rfl, sineSeries_eq_sum, Finset.mul_sum]
  refine Finset.sum_congr rfl fun i _ => ?_
  rw [sineTerm]
  simp
  ring

theorem sineTerm_antitone {x : ℝ} (h0 : 0 ≤ x) (h2 : x ≤ 2) : Antitone (sineTerm x) := by
  refine antitone_nat_of_succ_le fun i => ?_
  have hfact : (2 * (i + 1) + 1).factorial = (2 * i + 3) * ((2 * i + 2) * (2 * i + 1).factorial) := rfl
  have hpos : (0 : ℝ) < (2 * i + 1).factorial := by exact_mod_cast Nat.factorial_pos _
  have hpow : x ^ (2 * (i + 1) + 1) ≤ x ^ (2 * i + 1) * ((2 * i + 3) * (2 * i + 2)) := by
    have hsq : x ^ 2 ≤ (2 * i + 3) * (2 * i + 2) := by nlinarith
    calc x ^ (2 * (i + 1) + 1) = x ^ (2 * i + 1) * x ^ 2 := by ring
      _ ≤ _ := mul_le_mul_of_nonneg_left hsq (pow_nonneg h0 _)
  rw [sineTerm, sineTerm, hfact]
  push_cast
  rw [div_le_div_iff₀ (by positivity) hpos]
  calc x ^ (2 * (i + 1) + 1) * (2 * i + 1).factorial
      ≤ x ^ (2 * i + 1) * ((2 * i + 3) * (2 * i + 2)) * (2 * i + 1).factorial := mul_le_mul_of_nonneg_right hpow hpos.le
    _ = _ := by ring

theorem tendsto_sineTerm (x : ℝ) :
    Filter.Tendsto (fun n => ∑ i ∈ Finset.range n, (-1) ^ i * sineTerm x i) Filter.atTop (nhds (Real.sin x)) := by
  have h := (Real.hasSum_sin x).tendsto_sum_nat
  simpa only [sineTerm, mul_div_assoc] using h

/-- Thirty terms are a lower and thirty-one an upper bound of the sine. -/
theorem sineSeries_bounds {x : ℝ} (h0 : 0 ≤ x) (h2 : x ≤ 2) :
    x * sineSeries (x ^ 2) 29 1 ≤ Real.sin x ∧ Real.sin x ≤ x * sineSeries (x ^ 2) 30 1 := by
  rw [mul_sineSeries, mul_sineSeries]
  exact ⟨(sineTerm_antitone h0 h2).alternating_series_le_tendsto (tendsto_sineTerm x) 15,
    (sineTerm_antitone h0 h2).tendsto_le_alternating_series (tendsto_sineTerm x) 15⟩

/-! ## The bounds as binary64 values -/

section

variable {w z : B64}

theorem bitsUnits_two : bitsUnits 0x4000000000000000 = 2 * unitsPerOne := by
  rw [show 0x4000000000000000 = 1023 * 2 ^ 52 + 2 ^ 52 from rfl, bitsUnits_pack (by decide) (.inr (by decide)),
    unitsPerOne_eq, ← pow_add, ← pow_succ']

theorem unitExp_le_of_units_lt (h : units w < 2 * unitsPerOne) : unitExp w ≤ 1074 := by
  have hlt : magBits w < 0x4000000000000000 := by
    by_contra hge
    have hmono := bitsUnits_mono (not_lt.1 hge)
    rw [bitsUnits_two, ← units_eq_bitsUnits] at hmono
    omega
  rw [unitExp, ← withSign_signBit_magBits w, expField_withSign _ (magBits_lt w)]
  omega

/-- The value of an argument below 2 with the sign bit clear, as the fraction that the series takes. -/
theorem value_eq_fraction (hs : signBit w = false) (h : units w < 2 * unitsPerOne) :
    (value w : ℝ) = significand w / (2 ^ (1074 - unitExp w) : Nat) := by
  have hexp : (2 : ℝ) ^ 1074 = 2 ^ (1074 - unitExp w) * 2 ^ unitExp w := by
    rw [← pow_add, Nat.sub_add_cancel (unitExp_le_of_units_lt h)]
  rw [value_eq, hs, signFactor, if_neg Bool.false_ne_true, one_mul, units]
  push_cast
  rw [hexp, mul_div_mul_right _ _ (by positivity)]

theorem value_lt_two (hs : signBit w = false) (h : units w < 2 * unitsPerOne) : value w < 2 := by
  rw [value_eq, hs, signFactor, if_neg Bool.false_ne_true, one_mul, div_lt_iff₀ unitScale_pos, ← unitsPerOne_cast]
  exact_mod_cast h

theorem value_nonneg (hs : signBit w = false) : 0 ≤ value w := by
  rw [value_eq, hs, signFactor, if_neg Bool.false_ne_true, one_mul]
  positivity

/-- The series bound rounds the series cut off, so no value is nearer to that. -/
theorem sineBits_nearest (hs : signBit w = false) (h : units w < 2 * unitsPerOne) (hz : finite z = true) (k : Nat) :
    |(value (withSign false (sineBits w k)) : ℝ) - value w * sineSeries (value w ^ 2) k 1| ≤
      |(value z : ℝ) - value w * sineSeries (value w ^ 2) k 1| := by
  have hvalue := value_eq_fraction hs h
  have hlt : (value w : ℝ) < 2 := by exact_mod_cast value_lt_two hs h
  have hbits : sineBits w k < infBits := (sineBits_le h k).trans_lt (by decide)
  unfold sineBits at hbits ⊢
  generalize hq : 2 ^ (1074 - unitExp w) = q at hvalue hbits
  have hqpos : 0 < q := hq ▸ Nat.two_pow_pos _
  have hqr : (0 : ℝ) < q := by exact_mod_cast hqpos
  have hsig : significand w ≤ 2 * q := by
    rw [hvalue, div_lt_iff₀ hqr] at hlt
    exact_mod_cast hlt.le
  have hyy : significand w * significand w ≤ 4 * (q * q) :=
    (Nat.mul_le_mul hsig hsig).trans_eq (by ring)
  obtain ⟨-, hpos⟩ := sineNest_le (significand w * significand w) (Nat.mul_pos hqpos hqpos) k 1 Nat.one_pos
  have hnest := sineNest_div (Nat.mul_pos hqpos hqpos) hyy k 1 Nat.one_pos
  dsimp only at hbits ⊢
  generalize sineNest (significand w * significand w) (q * q) k 1 = n at *
  have hden : 0 < q * n.2 := Nat.mul_pos hqpos hpos
  have hround := (roundedTo_withSign false (num := significand w * n.1 * unitsPerOne) hden rfl).nearest
    (finite_withSign _ hbits) z hz
  have hexact : (value w : ℝ) * sineSeries (value w ^ 2) k 1 =
      ((signFactor false * (((significand w * n.1 * unitsPerOne : Nat) : ℚ) / ((q * n.2 : Nat) : ℚ) / 2 ^ 1074) : ℚ) :
        ℝ) := by
    have hsquare : (value w : ℝ) ^ 2 = (significand w * significand w : Nat) / (q * q : Nat) := by
      rw [hvalue, div_pow]
      push_cast
      ring
    have hcancel : ((significand w * n.1 * unitsPerOne : Nat) : ℚ) / (q * n.2 : Nat) / 2 ^ 1074 =
        (significand w * n.1 : Nat) / (q * n.2 : Nat) := by
      rw [unitsPerOne_cast_mul, div_right_comm, mul_div_cancel_right₀ _ unitScale_pos.ne']
    rw [hsquare, ← hnest, hvalue, hcancel, signFactor, if_neg Bool.false_ne_true, one_mul, div_mul_div_comm]
    push_cast
    rfl
  rw [hexact]
  exact_mod_cast hround.1

/-- What is nearest to both ends of an interval is nearest to all between them. -/
theorem nearest_between {v y l u s : ℝ} (hl : |v - l| ≤ |y - l|) (hu : |v - u| ≤ |y - u|) (hls : l ≤ s) (hsu : s ≤ u) :
    |v - s| ≤ |y - s| := by
  rw [← sq_le_sq] at hl hu ⊢
  rcases le_total v y with h | h
  · nlinarith [mul_nonneg (sub_nonneg.2 h) (sub_nonneg.2 hsu)]
  · nlinarith [mul_nonneg (sub_nonneg.2 h) (sub_nonneg.2 hls)]

/-- Where the bounds of thirty and thirty-one terms round alike, the value is nearest to the sine. -/
theorem smallSine_nearest (hs : signBit w = false) (h : units w < 2 * unitsPerOne) (hz : finite z = true)
    (heq : sineBits w 29 = sineBits w 30) :
    |(value (smallSine w) : ℝ) - Real.sin (value w)| ≤ |(value z : ℝ) - Real.sin (value w)| := by
  have h0 : (0 : ℝ) ≤ value w := by exact_mod_cast value_nonneg hs
  have h2 : (value w : ℝ) ≤ 2 := by exact_mod_cast (value_lt_two hs h).le
  obtain ⟨hlow, hhigh⟩ := sineSeries_bounds h0 h2
  have hnear := sineBits_nearest hs h hz 29
  rw [heq] at hnear
  rw [smallSine, if_pos heq]
  exact nearest_between hnear (sineBits_nearest hs h hz 30) hlow hhigh

/-! ## Tiny arguments -/

/-- Different multiples of a spacing are one spacing apart. -/
theorem le_two_pow_mul_abs_sub_of_multiple {t q g : Nat} (hq : q ≤ 2 ^ 54) (hne : t * g ≠ q * g) :
    ((q * g : Nat) : ℝ) ≤ 2 ^ 54 * |((t * g : Nat) : ℝ) - (q * g : Nat)| := by
  have hint : (1 : ℤ) ≤ |(t : ℤ) - q| := Int.one_le_abs (sub_ne_zero.2 fun h => hne (by rw [Int.ofNat_inj.1 h]))
  have hdist : (1 : ℝ) ≤ |(t : ℝ) - q| := by exact_mod_cast hint
  have hqr : (q : ℝ) ≤ 2 ^ 54 := by exact_mod_cast hq
  have hg : (0 : ℝ) ≤ g := Nat.cast_nonneg g
  push_cast
  rw [← sub_mul, abs_mul, abs_of_nonneg hg, ← mul_assoc]
  refine mul_le_mul_of_nonneg_right ?_ hg
  nlinarith

/-- Another value is away by `2 ^ -54` of the value at least. -/
theorem le_two_pow_mul_abs_sub {a b : Nat} (ha : a < infBits) (hb : b < infBits) (hne : bitsUnits b ≠ bitsUnits a) :
    (bitsUnits a : ℝ) ≤ 2 ^ 54 * |(bitsUnits b : ℝ) - bitsUnits a| := by
  obtain ⟨e, q, hq, he, -, hunits⟩ := exists_pack ha
  cases e with
  | zero =>
    have hb1 : bitsUnits b = bitsUnits b * 1 := (Nat.mul_one _).symm
    rw [hunits, pow_zero] at hne ⊢
    rw [hb1] at hne ⊢
    exact le_two_pow_mul_abs_sub_of_multiple (hq.le.trans (by decide)) hne
  | succ e =>
    have hdouble : bitsUnits a = 2 * q * 2 ^ e := by rw [hunits, pow_succ]; ring
    rcases bitsUnits_multiple_or_lt hb e with ⟨t, ht⟩ | ⟨-, hlt⟩
    · rw [hdouble, ht] at hne ⊢
      exact le_two_pow_mul_abs_sub_of_multiple (by omega) hne
    · have hhalf : 2 * bitsUnits b ≤ bitsUnits a := by
        rw [hdouble, Nat.mul_assoc]
        refine Nat.mul_le_mul_left 2 (hlt.le.trans (Nat.mul_le_mul_right _ (he.resolve_left (by omega))))
      have hhalfr : (2 : ℝ) * bitsUnits b ≤ bitsUnits a := by exact_mod_cast hhalf
      have hnonneg : (0 : ℝ) ≤ bitsUnits b := Nat.cast_nonneg _
      rw [abs_sub_comm, abs_of_nonneg (by linarith)]
      linarith

/-- A positive value and another one, as values. -/
theorem value_le_two_pow_mul_abs_sub (hw : finite w = true) (hs : signBit w = false) (hz : finite z = true)
    (hne : value z ≠ value w) : (value w : ℝ) ≤ 2 ^ 54 * |(value z : ℝ) - value w| := by
  have h0 : (0 : ℝ) ≤ value w := by exact_mod_cast value_nonneg hs
  cases hsz : signBit z with
  | true =>
    have hz0 : (value z : ℝ) ≤ 0 := by
      have hneg : 0 ≤ value (neg z) := value_nonneg (by rw [signBit_neg, hsz]; rfl)
      rw [value_neg] at hneg
      exact_mod_cast neg_nonneg.1 hneg
    rw [abs_sub_comm, abs_of_nonneg (by linarith)]
    linarith
  | false =>
    have hT : (0 : ℝ) < 2 ^ 1074 := by positivity
    have hvalue {x : B64} (hx : signBit x = false) : (value x : ℝ) = bitsUnits (magBits x) / 2 ^ 1074 := by
      rw [value_eq, hx, signFactor, if_neg Bool.false_ne_true, one_mul, units_eq_bitsUnits]
      push_cast
      rfl
    have hbits : bitsUnits (magBits z) ≠ bitsUnits (magBits w) := fun h => hne (by
      rw [value_eq, value_eq, hsz, hs, units_eq_bitsUnits, units_eq_bitsUnits, h])
    have hgap := le_two_pow_mul_abs_sub (finite_iff_magBits.1 hw) (finite_iff_magBits.1 hz) hbits
    rw [hvalue hs, hvalue hsz, ← sub_div, abs_div, abs_of_pos hT, ← mul_div_assoc]
    exact div_le_div_of_nonneg_right hgap hT.le

theorem tiny_nearest (hw : finite w = true) (hs : signBit w = false) (hpos : 0 < value w) (hz : finite z = true)
    (h : units w * 2 ^ 27 < unitsPerOne) :
    |(value w : ℝ) - Real.sin (value w)| ≤ |(value z : ℝ) - Real.sin (value w)| := by
  by_cases hne : value z = value w
  · rw [hne]
  have hgap := value_le_two_pow_mul_abs_sub hw hs hz hne
  have hx0 : (0 : ℝ) < value w := by exact_mod_cast hpos
  have hx : (value w : ℝ) * 2 ^ 27 < 1 := by
    have hq : value w * 2 ^ 27 < 1 := by
      rw [value_eq, hs, signFactor, if_neg Bool.false_ne_true, one_mul, div_mul_eq_mul_div, div_lt_one unitScale_pos,
        ← unitsPerOne_cast]
      exact_mod_cast h
    exact_mod_cast hq
  generalize (value w : ℝ) = x at *
  generalize (value z : ℝ) = y at *
  have hlow := Real.sin_gt_sub_cube hx0
  have hhigh := Real.sin_le hx0.le
  have hsq : (x * 2 ^ 27) ^ 2 ≤ 1 := by
    rw [sq_le_one_iff_abs_le_one, abs_of_nonneg (by positivity)]
    exact hx.le
  have hcube : 2 ^ 54 * x ^ 3 ≤ x := by nlinarith
  have htri : |y - x| ≤ |y - Real.sin x| + |x - Real.sin x| := by
    rw [abs_sub_comm x]
    exact abs_sub_le _ _ _
  have hself : |x - Real.sin x| ≤ x ^ 3 / 6 := by
    rw [abs_of_nonneg (by linarith)]
    linarith
  linarith

/-! ## Both signs -/

theorem positiveSine_nearest (hw : finite w = true) (hs : signBit w = false) (h0 : isZero w = false)
    (h2 : units w < 2 * unitsPerOne) (hcase : units w * 2 ^ 27 < unitsPerOne ∨ sineBits w 29 = sineBits w 30) :
    ∃ v, positiveSine w = some v ∧ ∀ z, finite z = true →
      |(value v : ℝ) - Real.sin (value w)| ≤ |(value z : ℝ) - Real.sin (value w)| := by
  by_cases htiny : units w * 2 ^ 27 < unitsPerOne
  · have hpos : 0 < value w := by
      refine lt_of_le_of_ne (value_nonneg hs) (Ne.symm (value_ne_zero_iff.2 ?_))
      rwa [isZero, beq_eq_false_iff_ne] at h0
    exact ⟨w, positiveSine_tiny htiny, fun z hz => tiny_nearest hw hs hpos hz htiny⟩
  · exact ⟨_, positiveSine_small htiny h2, fun z hz => smallSine_nearest hs h2 hz (hcase.resolve_left htiny)⟩

theorem abs_eq_withSign (y : B64) : Binary64.abs y = withSign false (magBits y) := by
  refine BitVec.eq_of_toNat_eq ?_
  rw [Binary64.abs, BitVec.toNat_and, toNat_withSign _ (magBits_lt y), if_neg Bool.false_ne_true,
    show (0x7FFFFFFFFFFFFFFF#64).toNat = 2 ^ 63 - 1 from rfl, Nat.and_two_pow_sub_one_eq_mod, magBits]

theorem signBit_abs (y : B64) : signBit (Binary64.abs y) = false := by
  rw [abs_eq_withSign, signBit_withSign _ (magBits_lt y)]

theorem units_abs (y : B64) : units (Binary64.abs y) = units y := by
  rw [abs_eq_withSign, units_withSign _ (magBits_lt y), units_eq_bitsUnits]

theorem value_abs (y : B64) : value (Binary64.abs y) = signFactor (signBit y) * value y := by
  rw [value_eq, value_eq y, signBit_abs, units_abs, ← mul_assoc, signFactor_mul_self]
  rfl

theorem abs_value (y : B64) : |value y| = units y / 2 ^ 1074 := by
  rw [value_eq, abs_mul, abs_signFactor, one_mul, abs_of_nonneg (by positivity)]

theorem correctSine_eq_of_positive {y v : B64} (hy : finite y = true) (h0 : isZero y = false)
    (hv : positiveSine (Binary64.abs y) = some v) : correctSine y = if signBit y then neg v else v := by
  rw [correctSine, if_neg (by simp [h0]), if_neg (by simp [hy]), hv]

/-- The default sine is nearest to the sine, an odd function. -/
theorem correctSine_nearest {y : B64} (hy : finite y = true) (h2 : units y < 2 * unitsPerOne)
    (hcase : units y * 2 ^ 27 < unitsPerOne ∨ sineBits (Binary64.abs y) 29 = sineBits (Binary64.abs y) 30)
    (hz : finite z = true) :
    |(value (correctSine y) : ℝ) - Real.sin (value y)| ≤ |(value z : ℝ) - Real.sin (value y)| := by
  cases h0 : isZero y with
  | true =>
    have hvalue : value y = 0 := by rw [value, signedUnits_of_isZero h0, Int.cast_zero, zero_div]
    rw [correctSine, if_pos h0, hvalue]
    simp
  | false =>
    have hz0 : isZero (Binary64.abs y) = false := by rw [isZero, units_abs]; exact h0
    rw [← units_abs] at h2 hcase
    obtain ⟨v, hv, hnear⟩ := positiveSine_nearest ((finite_abs y).trans hy) (signBit_abs y) hz0 h2 hcase
    rw [correctSine_eq_of_positive hy h0 hv]
    rw [value_abs] at hnear
    cases hs : signBit y with
    | false =>
      rw [hs, signFactor, if_neg Bool.false_ne_true, one_mul] at hnear
      exact hnear z hz
    | true =>
      rw [hs, signFactor, if_pos rfl, neg_one_mul] at hnear
      have hneg := hnear (neg z) ((finite_neg z).trans hz)
      rw [value_neg, Rat.cast_neg, Rat.cast_neg, Real.sin_neg, sub_neg_eq_add, sub_neg_eq_add] at hneg
      rw [if_pos rfl, value_neg, Rat.cast_neg]
      calc |-(value v : ℝ) - Real.sin (value y)| = |(value v : ℝ) + Real.sin (value y)| := by
            rw [← abs_neg, neg_sub, sub_neg_eq_add, add_comm]
        _ ≤ |-(value z : ℝ) + Real.sin (value y)| := hneg
        _ = |(value z : ℝ) - Real.sin (value y)| := by rw [← abs_neg, neg_add, neg_neg, ← sub_eq_add_neg]

end

end Sys2Proof.Machine

section

open Sys2Proof Sys2Proof.Machine Sys2Proof.Machine.Binary64

/-- Settles O56: for a positive argument by `tiny_nearest` and `smallSine_nearest`; the sine is odd. -/
theorem defaultSineIsCorrectlyRounded : Obligations.DefaultSineIsCorrectlyRounded := by
  intro val hval y z hy hlt hz hcase
  have hcast : ∀ x, val x = (value x : ℝ) := fun x => by
    rw [hval, value]
    push_cast
    rfl
  have hunits : ∀ k : ℚ, |value y| < k ↔ (units y : ℚ) < k * unitsPerOne := fun k => by
    rw [abs_value, div_lt_iff₀ unitScale_pos, unitsPerOne_cast]
  simp only [hcast] at hlt hcase ⊢
  refine correctSine_nearest hy ?_ (hcase.imp_left fun h => ?_) hz
  · have hlt' : |value y| < 2 := by exact_mod_cast hlt
    exact_mod_cast (hunits 2).1 hlt'
  · have h' : |value y| < 1 / 2 ^ 27 := by
      rw [← Rat.cast_lt (K := ℝ)]
      push_cast
      exact h
    have hu := (hunits _).1 h'
    rw [div_mul_eq_mul_div, one_mul, lt_div_iff₀ (by positivity)] at hu
    exact_mod_cast hu

end

end

section
/-! PROOFS. The texts of the line protocol (30_encoding.md R93): separators, digit strings, and decimal literals, which are
read as the binary64 nearest to their exact value. -/

namespace Sys2Proof.Machine

/-! ## Separators -/

theorem splitAtSep_of_not_mem {sep : Char} {a : List Char} (h : sep ∉ a) : splitAtSep sep a = [a] := by
  induction a with
  | nil => rfl
  | cons c cs ih =>
    obtain ⟨hc, hcs⟩ := not_or.1 (List.mem_cons.not.1 h)
    rw [splitAtSep, if_neg (Ne.symm hc), ih hcs]

theorem splitAtSep_append {sep : Char} {a : List Char} (h : sep ∉ a) (rest : List Char) :
    splitAtSep sep (a ++ [sep] ++ rest) = a :: splitAtSep sep rest := by
  induction a with
  | nil => rw [List.nil_append, List.singleton_append, splitAtSep, if_pos rfl]
  | cons c cs ih =>
    obtain ⟨hc, hcs⟩ := not_or.1 (List.mem_cons.not.1 h)
    rw [List.cons_append, List.cons_append, splitAtSep, if_neg (Ne.symm hc), ih hcs]

theorem splitAtSep_ne_nil (sep : Char) (text : List Char) : splitAtSep sep text ≠ [] := by
  cases text with
  | nil => exact nofun
  | cons c cs =>
    rw [splitAtSep]
    split
    · exact nofun
    · split <;> exact nofun

/-- A text is its first field, or that, a separator and the text of the others. -/
theorem text_of_splitAtSep {sep : Char} {text f : List Char} {fs : List (List Char)} (h : splitAtSep sep text = f :: fs) :
    (fs = [] ∧ text = f) ∨ ∃ rest, text = f ++ [sep] ++ rest ∧ splitAtSep sep rest = fs := by
  induction text generalizing f with
  | nil =>
    cases h
    exact .inl ⟨rfl, rfl⟩
  | cons c cs ih =>
    rw [splitAtSep] at h
    split at h
    next hc =>
      cases h
      exact .inr ⟨cs, by rw [hc]; rfl, rfl⟩
    next hc =>
      split at h
      next f' fs' hcs =>
        cases h
        rcases ih hcs with ⟨hnil, htext⟩ | ⟨rest, htext, hrest⟩
        · exact .inl ⟨hnil, by rw [htext]⟩
        · exact .inr ⟨rest, by rw [htext]; rfl, hrest⟩
      next hcs =>
        exact absurd hcs (splitAtSep_ne_nil sep cs)

theorem text_of_splitAtSep_singleton {sep : Char} {text f : List Char} (h : splitAtSep sep text = [f]) : text = f := by
  rcases text_of_splitAtSep h with ⟨-, h⟩ | ⟨rest, -, hrest⟩
  · exact h
  · exact absurd hrest (splitAtSep_ne_nil sep rest)

theorem text_of_splitAtSep_cons {sep : Char} {text f g : List Char} {fs : List (List Char)}
    (h : splitAtSep sep text = f :: g :: fs) : ∃ rest, text = f ++ [sep] ++ rest ∧ splitAtSep sep rest = g :: fs :=
  (text_of_splitAtSep h).resolve_left fun hnil => nomatch hnil.1

/-! ## Digit strings -/

/-- A text of one or more digits. -/
def IsDigits (cs : List Char) : Prop := cs ≠ [] ∧ ∀ c ∈ cs, '0' ≤ c ∧ c ≤ '9'

/-- The value of a text of digits. -/
def digitsValue (cs : List Char) : Nat := cs.foldl (fun k c => 10 * k + (c.toNat - 48)) 0

/-- A text that does not begin with a digit. -/
def NoDigitFirst (cs : List Char) : Prop := ∀ c ∈ cs.head?, ¬ ('0' ≤ c ∧ c ≤ '9')

theorem digitOf_eq (c : Char) (h : '0' ≤ c ∧ c ≤ '9') : digitOf c = some (c.toNat - 48) := if_pos h

theorem spanDigits_append {ds rest : List Char} (hds : ∀ c ∈ ds, '0' ≤ c ∧ c ≤ '9') (hrest : NoDigitFirst rest) :
    spanDigits (ds ++ rest) = (ds.map fun c => c.toNat - 48, rest) := by
  induction ds with
  | nil =>
    cases rest with
    | nil => rfl
    | cons c cs =>
      have hc : digitOf c = none := if_neg (hrest c rfl)
      simp [spanDigits, hc]
  | cons d ds ih =>
    obtain ⟨hd, hds⟩ := List.forall_mem_cons.1 hds
    simp [spanDigits, digitOf_eq d hd, ih hds]

theorem digits1_append {ds rest : List Char} (hds : IsDigits ds) (hrest : NoDigitFirst rest) :
    digits1 (ds ++ rest) = some (ds.map fun c => c.toNat - 48, rest) := by
  rw [digits1, spanDigits_append hds.2 hrest, if_neg (by simp [hds.1])]

/-- The digits read off a text stand at its front. -/
theorem text_of_spanDigits (cs : List Char) :
    ∃ ds, cs = ds ++ (spanDigits cs).2 ∧ (∀ c ∈ ds, '0' ≤ c ∧ c ≤ '9') ∧
      (spanDigits cs).1 = ds.map fun c => c.toNat - 48 := by
  induction cs with
  | nil => exact ⟨[], rfl, nofun, rfl⟩
  | cons c cs ih =>
    obtain ⟨ds, htext, hdigits, hvalues⟩ := ih
    by_cases hc : '0' ≤ c ∧ c ≤ '9'
    · refine ⟨c :: ds, ?_, List.forall_mem_cons.2 ⟨hc, hdigits⟩, ?_⟩
      · simp only [spanDigits, digitOf_eq c hc]
        rw [List.cons_append, ← htext]
      · simp only [spanDigits, digitOf_eq c hc, hvalues, List.map_cons]
    · have hnone : digitOf c = none := if_neg hc
      exact ⟨[], by simp [spanDigits, hnone], nofun, by simp [spanDigits, hnone]⟩

theorem text_of_digits1 {cs rest : List Char} {ns : List Nat} (h : digits1 cs = some (ns, rest)) :
    ∃ ds, cs = ds ++ rest ∧ IsDigits ds ∧ ns = ds.map fun c => c.toNat - 48 := by
  obtain ⟨ds, htext, hdigits, hvalues⟩ := text_of_spanDigits cs
  unfold digits1 at h
  split at h
  next => cases h
  next hne =>
    obtain ⟨h1, h2⟩ := Prod.mk.inj (Option.some.inj h)
    refine ⟨ds, by rw [← h2]; exact htext, ⟨?_, hdigits⟩, h1 ▸ hvalues⟩
    rintro rfl
    simp [hvalues] at hne

theorem numberOf_digits (ds : List Char) : numberOf (ds.map fun c => c.toNat - 48) = digitsValue ds := by
  rw [numberOf, List.foldl_map, digitsValue]

theorem digitsValue_lt {ds : List Char} (h : ∀ c ∈ ds, '0' ≤ c ∧ c ≤ '9') : digitsValue ds < 10 ^ ds.length := by
  have hfrom : ∀ k, ds.foldl (fun k c => 10 * k + (c.toNat - 48)) k < (k + 1) * 10 ^ ds.length := by
    induction ds with
    | nil => intro k; simp
    | cons d ds ih =>
      obtain ⟨⟨-, hd⟩, hds⟩ := List.forall_mem_cons.1 h
      have hdigit : d.toNat ≤ 57 := hd
      intro k
      calc ds.foldl (fun k c => 10 * k + (c.toNat - 48)) (10 * k + (d.toNat - 48))
          < (10 * k + (d.toNat - 48) + 1) * 10 ^ ds.length := ih hds _
        _ ≤ (k + 1) * 10 * 10 ^ ds.length := Nat.mul_le_mul_right _ (by omega)
        _ = (k + 1) * 10 ^ (d :: ds).length := by rw [List.length_cons, pow_succ]; ring
  simpa [digitsValue] using hfrom 0

theorem noDigitFirst_nil : NoDigitFirst [] := nofun

/-- `<int>`: digits with a value below 2^32 (R93). -/
theorem parseU32_eq_some_iff {text : List Char} {n : Word} :
    parseU32 text = some n ↔ IsDigits text ∧ n.toNat = digitsValue text := by
  constructor
  · intro h
    unfold parseU32 at h
    split at h
    next ns hdigits =>
      obtain ⟨ds, htext, hds, rfl⟩ := text_of_digits1 hdigits
      rw [List.append_nil] at htext
      subst htext
      rw [numberOf_digits] at h
      split at h
      next hlt =>
        cases h
        exact ⟨hds, by rw [BitVec.toNat_ofNat, Nat.mod_eq_of_lt hlt]⟩
      next => cases h
    next => cases h
  · rintro ⟨hds, hn⟩
    have hdigits := digits1_append hds noDigitFirst_nil
    rw [List.append_nil] at hdigits
    rw [parseU32, hdigits]
    simp only [numberOf_digits, ← hn]
    rw [if_pos n.isLt, BitVec.ofNat_toNat, BitVec.setWidth_eq]

theorem isDigits_toDigits (n : Nat) : IsDigits (Nat.toDigits 10 n) := by
  refine ⟨Nat.toDigits_ne_nil, fun c hc => ?_⟩
  have h := Nat.isDigit_of_mem_toDigits (by decide) (by decide) hc
  simp only [Char.isDigit, Bool.and_eq_true, decide_eq_true_eq] at h
  exact h

theorem digitsValue_toDigits (n : Nat) : digitsValue (Nat.toDigits 10 n) = n :=
  Nat.ofDigitChars_toDigits (by decide) (by decide)

theorem parseU32_toDigits (n : Word) : parseU32 (Nat.toDigits 10 n.toNat) = some n :=
  parseU32_eq_some_iff.2 ⟨isDigits_toDigits _, (digitsValue_toDigits _).symm⟩

/-! ## Decimal literals: sign, fraction, exponent (R93) -/

/-- A sign or none. -/
def IsSign (sign : List Char) : Prop := sign ∈ [[], ['+'], ['-']]

theorem noDigitFirst_cons {c : Char} (h : ¬ ('0' ≤ c ∧ c ≤ '9')) (cs : List Char) : NoDigitFirst (c :: cs) := by
  rintro d ⟨⟩
  exact h

theorem IsDigits.exists_cons {ds : List Char} (h : IsDigits ds) : ∃ d ds', ds = d :: ds' ∧ '0' ≤ d ∧ d ≤ '9' := by
  obtain ⟨hne, hds⟩ := h
  cases ds with
  | nil => exact absurd rfl hne
  | cons d ds' => exact ⟨d, ds', rfl, hds d (List.mem_cons_self ..)⟩

theorem parseSign_append {sign ds : List Char} (hs : IsSign sign) (hds : IsDigits ds) (rest : List Char) :
    parseSign (sign ++ (ds ++ rest)) = (decide (sign = ['-']), ds ++ rest) := by
  obtain ⟨d, ds', rfl, hd⟩ := hds.exists_cons
  simp only [IsSign, List.mem_cons, List.not_mem_nil, or_false] at hs
  rcases hs with rfl | rfl | rfl
  · have hminus : d ≠ '-' := by rintro rfl; exact absurd hd (by decide)
    have hplus : d ≠ '+' := by rintro rfl; exact absurd hd (by decide)
    simp only [List.nil_append, List.cons_append]
    unfold parseSign
    split
    next heq => exact absurd (List.cons.inj heq).1 hminus
    next heq => exact absurd (List.cons.inj heq).1 hplus
    next => rfl
  · rfl
  · rfl

theorem text_of_parseSign (cs : List Char) :
    ∃ sign, IsSign sign ∧ cs = sign ++ (parseSign cs).2 ∧ (parseSign cs).1 = decide (sign = ['-']) := by
  unfold parseSign
  split
  next rest => exact ⟨['-'], by simp [IsSign], rfl, rfl⟩
  next rest => exact ⟨['+'], by simp [IsSign], rfl, rfl⟩
  next => exact ⟨[], by simp [IsSign], rfl, rfl⟩

/-- `[.digits]` (R93): the text and the digits. -/
def IsFraction (frac ds : List Char) : Prop := (frac = [] ∧ ds = []) ∨ (frac = '.' :: ds ∧ IsDigits ds)

theorem IsFraction.digits {frac ds : List Char} (h : IsFraction frac ds) : ∀ c ∈ ds, '0' ≤ c ∧ c ≤ '9' := by
  rcases h with ⟨-, rfl⟩ | ⟨-, -, hds⟩
  · exact nofun
  · exact hds

/-- `[(e|E)[+-]?digits]` (R93): the text and the exponent. -/
def IsExponent (expo : List Char) (e10 : Int) : Prop :=
  (expo = [] ∧ e10 = 0) ∨
    ∃ e esign eds, expo = e :: (esign ++ eds) ∧ e ∈ ['e', 'E'] ∧ IsSign esign ∧ IsDigits eds ∧
      e10 = if esign = ['-'] then -(digitsValue eds : Int) else (digitsValue eds : Int)

theorem IsExponent.noDigitFirst {expo : List Char} {e10 : Int} (h : IsExponent expo e10) : NoDigitFirst expo := by
  rcases h with ⟨rfl, -⟩ | ⟨e, esign, eds, rfl, he, -⟩
  · exact noDigitFirst_nil
  · refine noDigitFirst_cons ?_ _
    rcases List.mem_pair.1 he with rfl | rfl <;> decide

theorem IsFraction.noDigitFirst {frac ds expo : List Char} {e10 : Int} (h : IsFraction frac ds) (he : IsExponent expo e10) :
    NoDigitFirst (frac ++ expo) := by
  rcases h with ⟨rfl, -⟩ | ⟨rfl, -⟩
  · exact he.noDigitFirst
  · exact noDigitFirst_cons (by decide) _

theorem parseFraction_append {frac ds expo : List Char} {e10 : Int} (h : IsFraction frac ds) (he : IsExponent expo e10) :
    parseFraction (frac ++ expo) = some (ds.map fun c => c.toNat - 48, expo) := by
  rcases h with ⟨rfl, rfl⟩ | ⟨rfl, hds⟩
  · rcases he with ⟨rfl, -⟩ | ⟨e, esign, eds, rfl, hmem, -⟩
    · rfl
    · rcases List.mem_pair.1 hmem with rfl | rfl <;> rfl
  · exact digits1_append hds he.noDigitFirst

theorem text_of_parseFraction {cs rest : List Char} {ns : List Nat} (h : parseFraction cs = some (ns, rest)) :
    ∃ frac ds, cs = frac ++ rest ∧ IsFraction frac ds ∧ ns = ds.map fun c => c.toNat - 48 := by
  unfold parseFraction at h
  split at h
  next =>
    obtain ⟨ds, rfl, hds, hns⟩ := text_of_digits1 h
    exact ⟨_, ds, rfl, .inr ⟨rfl, hds⟩, hns⟩
  next =>
    cases h
    exact ⟨[], [], rfl, .inl ⟨rfl, rfl⟩, rfl⟩

theorem parseExponent_eq_some_iff {expo : List Char} {e10 : Int} :
    parseExponent expo = some e10 ↔ IsExponent expo e10 := by
  constructor
  · intro h
    unfold parseExponent at h
    split at h
    next => cases h; exact .inl ⟨rfl, rfl⟩
    next e rest =>
      split at h
      next he =>
        split at h
        next ns hdigits =>
          obtain ⟨esign, hsign, hrest, hneg⟩ := text_of_parseSign rest
          obtain ⟨eds, htext, hds, rfl⟩ := text_of_digits1 hdigits
          rw [htext, List.append_nil] at hrest
          rw [hneg, numberOf_digits] at h
          refine .inr ⟨e, esign, eds, by rw [hrest], List.mem_pair.2 he, hsign, hds, ?_⟩
          cases h
          simp
        next => cases h
      next => cases h
  · rintro (⟨rfl, rfl⟩ | ⟨e, esign, eds, rfl, he, hsign, hds, rfl⟩)
    · rfl
    · have hsigned := parseSign_append hsign hds []
      have hdigits := digits1_append hds noDigitFirst_nil
      rw [List.append_nil] at hsigned hdigits
      rw [parseExponent, if_pos (List.mem_pair.1 he), hsigned]
      simp only [hdigits, numberOf_digits, decide_eq_true_eq]

/-! ## Decimal literals -/

/-- The parts of a decimal literal. -/
structure DecimalText (text sign whole frac ds expo : List Char) (e10 : Int) : Prop where
  text_eq : text = sign ++ whole ++ frac ++ expo
  sign : IsSign sign
  whole : IsDigits whole
  fraction : IsFraction frac ds
  exponent : IsExponent expo e10

section

variable {text sign whole frac ds expo : List Char} {e10 : Int}

theorem parseFloat_decimal (h : DecimalText text sign whole frac ds expo e10) :
    parseFloat text = some (Binary64.ofDecimal (decide (sign = ['-'])) (digitsValue (whole ++ ds)) (whole ++ ds).length
      (e10 - (ds.length : Int))) := by
  obtain ⟨rfl, hsign, hwhole, hfrac, hexpo⟩ := h
  have htext : sign ++ whole ++ frac ++ expo = sign ++ (whole ++ (frac ++ expo)) := by simp only [List.append_assoc]
  rw [htext, parseFloat, parseSign_append hsign hwhole, digits1_append hwhole (hfrac.noDigitFirst hexpo)]
  simp only [parseFraction_append hfrac hexpo, parseExponent_eq_some_iff.2 hexpo, ← List.map_append, numberOf_digits,
    List.length_map, List.length_append]

theorem decimal_of_parseFloat {x : B64} (h : parseFloat text = some x) :
    ∃ sign whole frac ds expo e10, DecimalText text sign whole frac ds expo e10 := by
  obtain ⟨sign, hsign, htext, -⟩ := text_of_parseSign text
  unfold parseFloat at h
  split at h
  next => cases h
  next ws r1 hw =>
    obtain ⟨whole, hwhole, hdigits, -⟩ := text_of_digits1 hw
    split at h
    next => cases h
    next fs r2 hf =>
      obtain ⟨frac, ds, hr1, hfrac, -⟩ := text_of_parseFraction hf
      split at h
      next => cases h
      next e he =>
        refine ⟨sign, whole, frac, ds, r2, e, ?_, hsign, hdigits, hfrac, parseExponent_eq_some_iff.1 he⟩
        rw [htext, hwhole, hr1]
        simp only [List.append_assoc]

end

end Sys2Proof.Machine

end

section
/-! PROOFS. The value of a decimal literal (30_encoding.md R93): its rounding, and the far exponents at which it is an
infinity or a zero. -/

namespace Sys2Proof.Machine.Binary64

/-! ## Rounding at the far exponents -/

/-- From the overflow threshold on the result is an infinity. -/
theorem roundedTo_infinity (n : Bool) {r : ℚ} (h : 2 ^ 1024 - 2 ^ 970 ≤ |r|) : RoundedTo (withSign n infBits) r := by
  have hnot : ¬ finite (withSign n infBits) = true := by
    rw [finite_withSign_iff n (by decide)]
    exact lt_irrefl _
  exact ⟨isNaN_withSign n le_rfl, ⟨fun hf => absurd hf hnot, fun hlt => absurd hlt (not_lt.2 h)⟩, fun hf => absurd hf hnot⟩

/-- Less than half a unit rounds to 0. -/
theorem roundUnits_eq_zero {num den : Nat} (h : 2 * num < den) : roundUnits num den = 0 := by
  have hdiv : num / den = 0 := Nat.div_eq_of_lt (by omega)
  have hmod : num % den = num := Nat.mod_eq_of_lt (by omega)
  rw [roundUnits_eq, roundBits, hdiv, show Nat.log2 0 - 52 = 0 from rfl, pow_zero, Nat.mul_one, nearestEven, hmod, if_pos h,
    hdiv]
  rfl

theorem two_pow_le_ten_pow {k n : Nat} (h : k ≤ 3 * n) : 2 ^ k ≤ 10 ^ n :=
  calc 2 ^ k ≤ 2 ^ (3 * n) := Nat.pow_le_pow_right (by decide) h
    _ = 8 ^ n := pow_mul 2 3 n
    _ ≤ 10 ^ n := Nat.pow_le_pow_left (by decide) n

/-! ## Decimal literals -/

/-- The exact value of a decimal literal. -/
def decimalValue (negative : Bool) (m : Nat) (x10 : Int) : ℚ := signFactor negative * (m : ℚ) * (10 : ℚ) ^ x10

/-- A literal with a whole exponent, in units. -/
theorem decimalValue_of_nonneg (negative : Bool) (m : Nat) {x10 : Int} (h : 0 ≤ x10) :
    decimalValue negative m x10 =
      signFactor negative * ((m * 10 ^ x10.toNat * unitsPerOne : Nat) / (1 : Nat) / 2 ^ 1074) := by
  obtain ⟨k, rfl⟩ := Int.eq_ofNat_of_zero_le h
  rw [decimalValue, unitsPerOne_cast_mul, Nat.cast_one, div_one, mul_div_cancel_right₀ _ unitScale_pos.ne', zpow_natCast,
    Int.toNat_natCast, Nat.cast_mul, Nat.cast_pow, Nat.cast_ofNat, mul_assoc]

/-- A literal with a negative exponent, in units. -/
theorem decimalValue_of_neg (negative : Bool) (m : Nat) {x10 : Int} (h : x10 < 0) :
    decimalValue negative m x10 =
      signFactor negative * ((m * unitsPerOne : Nat) / (10 ^ (-x10).toNat : Nat) / 2 ^ 1074) := by
  have hx : x10 = -((-x10).toNat : Int) := by omega
  generalize (-x10).toNat = k at hx
  rw [hx, decimalValue, unitsPerOne_cast_mul, div_right_comm, mul_div_cancel_right₀ _ unitScale_pos.ne', zpow_neg,
    zpow_natCast, Nat.cast_pow, Nat.cast_ofNat, mul_assoc, div_eq_mul_inv]

theorem overflow_le_abs_decimalValue (negative : Bool) {m : Nat} (hm : m ≠ 0) {x10 : Int} (h : 400 < x10) :
    2 ^ 1024 - 2 ^ 970 ≤ |decimalValue negative m x10| := by
  have hone : (1 : ℚ) ≤ m := by exact_mod_cast Nat.one_le_iff_ne_zero.2 hm
  have hpow : (2 : ℚ) ^ 1024 ≤ 10 ^ 401 := by exact_mod_cast two_pow_le_ten_pow (k := 1024) (n := 401) (by decide)
  rw [decimalValue, mul_assoc, abs_mul, abs_signFactor, one_mul, abs_of_nonneg (by positivity)]
  calc (2 : ℚ) ^ 1024 - 2 ^ 970 ≤ 2 ^ 1024 := sub_le_self _ (by positivity)
    _ ≤ 10 ^ 401 := hpow
    _ = (10 : ℚ) ^ (401 : Int) := by rw [← zpow_natCast]; rfl
    _ ≤ 10 ^ x10 := zpow_le_zpow_right₀ (by norm_num) (by omega)
    _ ≤ m * 10 ^ x10 := le_mul_of_one_le_left (by positivity) hone

/-- Far below half a unit. -/
theorem two_mul_lt_ten_pow {m len k : Nat} (hm : m < 10 ^ len) (h : len + 401 ≤ k) : 2 * (m * unitsPerOne) < 10 ^ k := by
  calc 2 * (m * unitsPerOne) = m * 2 ^ 1075 := by rw [unitsPerOne_eq, pow_succ 2 1074]; ring
    _ < 10 ^ len * 2 ^ 1075 := Nat.mul_lt_mul_of_pos_right hm (Nat.two_pow_pos _)
    _ ≤ 10 ^ len * 10 ^ 401 := Nat.mul_le_mul_left _ (two_pow_le_ten_pow (by decide))
    _ = 10 ^ (len + 401) := (pow_add ..).symm
    _ ≤ 10 ^ k := Nat.pow_le_pow_right (by decide) h

/-- A literal with `len` digits is read as the nearest binary64 (R93). -/
theorem ofDecimal_roundedTo (negative : Bool) {m len : Nat} (hm : m < 10 ^ len) (x10 : Int) :
    RoundedTo (ofDecimal negative m len x10) (decimalValue negative m x10) := by
  unfold ofDecimal
  split
  next h0 =>
    rw [← roundUnits_zero Nat.one_pos]
    exact roundedTo_withSign negative Nat.one_pos (by simp [decimalValue, h0])
  next h0 =>
    split
    next hbig =>
      exact roundedTo_infinity negative (overflow_le_abs_decimalValue negative h0 hbig)
    next =>
      split
      next hsmall =>
        have hzero : roundUnits (m * unitsPerOne) (10 ^ (-x10).toNat) = 0 := by
          exact roundUnits_eq_zero (two_mul_lt_ten_pow hm (by omega))
        rw [← hzero]
        exact roundedTo_withSign negative (Nat.pow_pos (by decide)) (decimalValue_of_neg negative m (by omega))
      next =>
        split
        next hnonneg => exact roundedTo_withSign negative Nat.one_pos (decimalValue_of_nonneg negative m hnonneg)
        next hneg =>
          exact roundedTo_withSign negative (Nat.pow_pos (by decide)) (decimalValue_of_neg negative m (not_le.1 hneg))

theorem signBit_ofDecimal (negative : Bool) (m len : Nat) (x10 : Int) :
    signBit (ofDecimal negative m len x10) = negative := by
  unfold ofDecimal
  split_ifs
  · exact signBit_withSign _ (by decide)
  · exact signBit_withSign _ (by decide)
  · exact signBit_withSign _ (by decide)
  · exact signBit_withSign _ (roundUnits_lt _ _)
  · exact signBit_withSign _ (roundUnits_lt _ _)

end Sys2Proof.Machine.Binary64

namespace Sys2Proof.Machine

/-! ## Lines and their commands (R93) -/

theorem parseBody_eq_some_iff {body : List Char} {cmd : LineCmd} (h : parseBody body = some cmd) :
    (body = "STOP".toList ∧ cmd = .stop) ∨ (body = "RESET".toList ∧ cmd = .reset) ∨
      (∃ text n, body = "PPR:".toList ++ text ∧ parseU32 text = some n ∧ cmd = .ppr n) ∨
      (∃ text m, body = "MOVE:".toList ++ text ∧ parseMove text = some m ∧ cmd = .move m) ∨
      ∃ text m ms, body = "BATCH:".toList ++ text ∧ parseMoves (splitAtSep ';' text) = some (m :: ms) ∧
        cmd = .batch m ms := by
  unfold parseBody at h
  split at h
  next hb => cases h; exact .inl ⟨hb, rfl⟩
  next =>
  split at h
  next hb => cases h; exact .inr (.inl ⟨hb, rfl⟩)
  next =>
  split at h
  next text ht =>
    obtain ⟨n, hn, rfl⟩ := Option.map_eq_some_iff.1 h
    exact .inr (.inr (.inl ⟨text, n, eq_append_of_afterWord ht, hn, rfl⟩))
  next =>
  split at h
  next text ht =>
    obtain ⟨m, hm, rfl⟩ := Option.map_eq_some_iff.1 h
    exact .inr (.inr (.inr (.inl ⟨text, m, eq_append_of_afterWord ht, hm, rfl⟩)))
  next =>
  split at h
  next text ht =>
    split at h
    next m ms hms =>
      cases h
      exact .inr (.inr (.inr (.inr ⟨text, m, ms, eq_append_of_afterWord ht, hms, rfl⟩)))
    next => cases h
  next => cases h

/-! ## The operands of a move (R93) -/

section

variable {a b c d : List Char} {v t r : B64} {dir : Bool}

theorem parseMove_four (hfields : ∀ f ∈ [a, b, c, d], ',' ∉ f) (ha : parseFloat a = some v) (hb : parseFloat b = some t)
    (hc : parseFloat c = some r) (hd : parseDirection d = some dir) :
    parseMove (a ++ [','] ++ b ++ [','] ++ c ++ [','] ++ d) = some ⟨v, t, r, dir, none⟩ := by
  have hsplit : splitAtSep ',' (a ++ [','] ++ b ++ [','] ++ c ++ [','] ++ d) = [a, b, c, d] := by
    have htext : a ++ [','] ++ b ++ [','] ++ c ++ [','] ++ d = a ++ [','] ++ (b ++ [','] ++ (c ++ [','] ++ d)) := by
      simp only [List.append_assoc]
    rw [htext, splitAtSep_append (hfields a (by simp)), splitAtSep_append (hfields b (by simp)),
      splitAtSep_append (hfields c (by simp)), splitAtSep_of_not_mem (hfields d (by simp))]
  simp only [parseMove, hsplit, ha, hb, hc, hd]

theorem parseMove_five {e : List Char} {n : Word} (hfields : ∀ f ∈ [a, b, c, d, e], ',' ∉ f) (ha : parseFloat a = some v)
    (hb : parseFloat b = some t) (hc : parseFloat c = some r) (hd : parseDirection d = some dir) (he : parseU32 e = some n) :
    parseMove (a ++ [','] ++ b ++ [','] ++ c ++ [','] ++ d ++ [','] ++ e) = some ⟨v, t, r, dir, some n⟩ := by
  have hsplit : splitAtSep ',' (a ++ [','] ++ b ++ [','] ++ c ++ [','] ++ d ++ [','] ++ e) = [a, b, c, d, e] := by
    have htext : a ++ [','] ++ b ++ [','] ++ c ++ [','] ++ d ++ [','] ++ e =
        a ++ [','] ++ (b ++ [','] ++ (c ++ [','] ++ (d ++ [','] ++ e))) := by
      simp only [List.append_assoc]
    rw [htext, splitAtSep_append (hfields a (by simp)), splitAtSep_append (hfields b (by simp)),
      splitAtSep_append (hfields c (by simp)), splitAtSep_append (hfields d (by simp)),
      splitAtSep_of_not_mem (hfields e (by simp))]
  simp only [parseMove, hsplit, ha, hb, hc, hd, he]

end

/-- A text that is read as a move has four fields, or five. -/
theorem text_of_parseMove {text : List Char} {m : MoveLine} (h : parseMove text = some m) : ∃ a b c d : List Char,
    parseFloat a = some m.startRpm ∧ parseFloat b = some m.targetRpm ∧ parseFloat c = some m.runTime ∧
      parseDirection d = some m.dir ∧
      ((m.rampSteps = none ∧ text = a ++ [','] ++ b ++ [','] ++ c ++ [','] ++ d) ∨
        ∃ e n, m.rampSteps = some n ∧ parseU32 e = some n ∧
          text = a ++ [','] ++ b ++ [','] ++ c ++ [','] ++ d ++ [','] ++ e) := by
  unfold parseMove at h
  split at h
  next a b c d hsplit =>
    obtain ⟨r1, rfl, h1⟩ := text_of_splitAtSep_cons hsplit
    obtain ⟨r2, rfl, h2⟩ := text_of_splitAtSep_cons h1
    obtain ⟨r3, rfl, h3⟩ := text_of_splitAtSep_cons h2
    obtain rfl := text_of_splitAtSep_singleton h3
    split at h
    next v t r dir hv ht hr hd =>
      cases h
      exact ⟨a, b, c, _, hv, ht, hr, hd, .inl ⟨rfl, by simp only [List.append_assoc]⟩⟩
    next => cases h
  next a b c d e hsplit =>
    obtain ⟨r1, rfl, h1⟩ := text_of_splitAtSep_cons hsplit
    obtain ⟨r2, rfl, h2⟩ := text_of_splitAtSep_cons h1
    obtain ⟨r3, rfl, h3⟩ := text_of_splitAtSep_cons h2
    obtain ⟨r4, rfl, h4⟩ := text_of_splitAtSep_cons h3
    obtain rfl := text_of_splitAtSep_singleton h4
    split at h
    next v t r dir n hv ht hr hd hn =>
      cases h
      exact ⟨a, b, c, d, hv, ht, hr, hd, .inr ⟨_, n, rfl, hn, by simp only [List.append_assoc]⟩⟩
    next => cases h
  next => cases h

theorem text_of_parseDirection {text : List Char} {dir : Bool} (h : parseDirection text = some dir) :
    text = [if dir then '1' else '0'] := by
  unfold parseDirection at h
  split at h
  next => cases h; rfl
  next => cases h; rfl
  next => cases h

/-! ## Commands as register writes -/

theorem commandIssued_eq (follow : Follow) (s : State) :
    commandIssued follow s = setPhase (if follow = .nothing then .ready else .checking follow) s := by
  cases follow <;> rfl

/-- A write of a command is one step; after the last one what follows a move is looked at. -/
theorem writeStep_eq {s : State} {cmd : LinkCmd} {k off width : Nat} {v : Word}
    (h : (linkWrites s.params.linkChannel cmd)[k]? = some (.write off width v)) (follow : Follow) :
    writeStep cmd k follow s = andThen (busWrite off width v s) fun t => .next (setPhase
      (if k + 1 < (linkWrites s.params.linkChannel cmd).length then .writing cmd (k + 1) follow
       else if follow = .nothing then .ready
       else .checking follow) t) := by
  obtain ⟨hlt, hget⟩ := List.getElem?_eq_some_iff.1 h
  have hdrop := List.drop_eq_getElem_cons hlt
  rw [hget] at hdrop
  rw [writeStep, hdrop]
  by_cases hlast : k + 1 < (linkWrites s.params.linkChannel cmd).length
  · rw [if_pos hlast, List.drop_eq_getElem_cons hlast]
    rfl
  · rw [if_neg hlast, List.drop_eq_nil_of_le (not_lt.1 hlast)]
    simp only [commandIssued_eq]
    rfl

end Sys2Proof.Machine

section

open Sys2Proof Sys2Proof.Machine Sys2Proof.Machine.Binary64

/-- Settles O58: the texts by what separators, digits and decimal literals are read as, and back; the literals' values by
`ofDecimal_roundedTo`; the front end's steps by their equations. -/
theorem linesMapToCommands : Obligations.LinesMapToCommands := by
  refine ⟨?texts, fun line cmd h => ?lines, fun text m h => text_of_parseMove h, fun text dir h => text_of_parseDirection h,
    fun digits value hdigits hvalue => ?literals, fun s line => ⟨fun h => ?dropped, fun cmd follow h => ?taken⟩,
    fun ch n m => ⟨rfl, rfl, rfl, rfl⟩, fun s cmd k follow off width v hphase hwrite => ?write⟩
  case texts =>
    refine ⟨by decide, by decide, fun n => ?_, fun text m h => ?_, fun text m ms h => ?_,
      fun a b c d e v t r dir n hfields ha hb hc hd he => ⟨?_, parseMove_five hfields ha hb hc hd he⟩, rfl, rfl,
      parseU32_toDigits, by decide +kernel, by decide +kernel, by decide +kernel, by decide +kernel, by decide +kernel⟩
    · exact (parseLine_newline _).trans ((parseBody_ppr _).trans (congrArg (Option.map _) (parseU32_toDigits n)))
    · exact (parseLine_newline _).trans ((parseBody_move _).trans (congrArg (Option.map _) h))
    · exact (parseLine_newline _).trans (parseBody_batch (parseMoves_eq_some_iff.2 h))
    · exact parseMove_four (fun f hf => hfields f (by simp at hf ⊢; tauto)) ha hb hc hd
  case lines =>
    obtain ⟨body, rfl, hb⟩ := parseLine_eq_some_iff.1 h
    rcases parseBody_eq_some_iff hb with ⟨rfl, rfl⟩ | ⟨rfl, rfl⟩ | ⟨text, n, rfl, hn, rfl⟩ | ⟨text, m, rfl, hm, rfl⟩ |
      ⟨text, m, ms, rfl, hms, rfl⟩
    · exact .inl ⟨rfl, rfl⟩
    · exact .inr (.inl ⟨rfl, rfl⟩)
    · exact .inr (.inr (.inl ⟨text, n, rfl, hn, rfl⟩))
    · exact .inr (.inr (.inr (.inl ⟨text, m, rfl, hm, rfl⟩)))
    · exact .inr (.inr (.inr (.inr ⟨text, m, ms, rfl, parseMoves_eq_some_iff.1 hms, rfl⟩)))
  case literals =>
    obtain rfl : digits = IsDigits := funext fun cs => propext (hdigits cs)
    obtain rfl : value = digitsValue := funext hvalue
    refine ⟨fun text n => parseU32_eq_some_iff, fun text x h => ?parts, ?rounding⟩
    case parts =>
      obtain ⟨sign, whole, frac, ds, expo, e10, htext, hsign, hwhole, hfrac, hexpo⟩ := decimal_of_parseFloat h
      refine ⟨sign, whole, frac, expo, htext, hsign, hwhole, ?_, ?_⟩
      · exact hfrac.imp (·.1) fun h => ⟨ds, h⟩
      · exact hexpo.imp (·.1) fun ⟨e, esign, eds, he, hmem, hes, heds, _⟩ => ⟨e, esign, eds, he, hmem, hes, heds⟩
    case rounding =>
      intro val hval sign whole frac ds expo e10 x exact hsign hwhole hfrac hexpo hx hexact
      obtain rfl : val = Binary64.value := funext hval
      have hdigits : ∀ c ∈ whole ++ ds, '0' ≤ c ∧ c ≤ '9' := fun c hc =>
        (List.mem_append.1 hc).elim (hwhole.2 c) (IsFraction.digits hfrac c)
      have hround := ofDecimal_roundedTo (decide (sign = ['-'])) (digitsValue_lt hdigits) (e10 - (ds.length : Int))
      have hvalue : exact = decimalValue (decide (sign = ['-'])) (digitsValue (whole ++ ds)) (e10 - (ds.length : Int)) := by
        rw [hexact, decimalValue, signFactor]
        simp only [decide_eq_true_eq]
      rw [← hx, ← hvalue] at hround
      refine ⟨?_, hround.not_nan, ?_, hround.finite_iff, hround.nearest⟩
      · rw [hx]
        exact parseFloat_decimal ⟨rfl, hsign, hwhole, hfrac, hexpo⟩
      · rw [hx]
        exact signBit_ofDecimal ..
  case dropped => rw [takeLine, h]
  case taken =>
    rcases h with ⟨h, rfl, rfl⟩ | ⟨h, rfl, rfl⟩ | ⟨n, h, rfl, rfl⟩ | ⟨m, h, rfl, rfl⟩ | ⟨m, ms, h, rfl, rfl⟩ <;>
      rw [takeLine, h] <;> rfl
  case write =>
    rw [linkStep_writing hphase, writeStep_eq hwrite]
    rfl

end

end
